-- ==== Sys2Proof/Word.lean ====
section
/-! DEFINITION. The words of the controller: bytes, sensor addresses, 32-bit host words (R12, R60). -/

namespace Sys2Proof

/-- R12: a byte is 8 bits. -/
abbrev Byte := BitVec 8

/-- R61: a sensor register address lies in 0x00..0x7F, so it has 7 bits. -/
abbrev Addr7 := BitVec 7

/-- R21, R90: host registers and command words have 32 bits. -/
abbrev Word := BitVec 32

end Sys2Proof
end

