-- ==== Sys2Proof/Config.lean ====
section
/-! DEFINITION. What an implementation fixes (the parameters P_* of R10) and the free values of the environment (R319). -/

namespace Sys2Proof

/-- R5: the two bring-up variants; A = 0, B = 1. -/
inductive Variant
  | a
  | b
  deriving DecidableEq, Repr, Inhabited

/-- P_C1_MODE (R184; 90_conflicts C1). The default is SEQUENTIAL. -/
inductive C1Mode
  | sequential
  | exclusive
  deriving DecidableEq, Repr, Inhabited

/-- P_BURST_LAYOUT (R104, R210; 90_conflicts C4). The default is DOC. -/
inductive BurstLayout
  | doc
  | shifted
  deriving DecidableEq, Repr, Inhabited

/-- P_LOWER_SRC_LSB (R106, R243; 90_conflicts C2): the lower fragment carries f[3:2] (the default) or f[1:0]. -/
inductive LowerSrc
  | bits32
  | bits10
  deriving DecidableEq, Repr, Inhabited

/-- The branch registers of one variant: P_REG_DIAG, P_REG_CFG, P_REG_STAT, P_REG_C1, P_REG_C2, P_REG_C1_DST and
P_REG_C2_DST (R10, R187, R188). Each is a 7-bit address by its type (R11). -/
structure BranchRegs where
  diag : Addr7
  cfg : Addr7
  stat : Addr7
  c1 : Addr7
  c2 : Addr7
  c1Dst : Addr7
  c2Dst : Addr7
  deriving DecidableEq, Repr, Inhabited

/-- P_ROTATION_MAP (R10, R226): the orientation byte of each legal rotation. -/
structure RotationMap where
  deg0 : Byte
  deg90 : Byte
  deg180 : Byte
  deg270 : Byte
  deriving DecidableEq, Repr, Inhabited

/-- The configuration: the parameters of R10 that are OPEN (`swCs`, the branch registers, `seqRom`, `rotation`) or that
R10 lets a model switch. It is fixed for all runs (R302): no step writes it. The parameters with one literal value are
the constants below. -/
structure Config where
  /-- P_SW_CS (R130). -/
  swCs : Bool
  /-- The branch registers of variant A. -/
  regsA : BranchRegs
  /-- The branch registers of variant B. -/
  regsB : BranchRegs
  /-- P_SEQ_ROM (R64, R103): entry s is SEG(s), a list of 16-bit step words. -/
  seqRom : List (List (BitVec 16))
  rotation : RotationMap
  c1Mode : C1Mode
  burstLayout : BurstLayout
  lowerSrc : LowerSrc
  /-- P_RETRY_SLEEP_MIN_MS; the decided value is 1 (D11). -/
  retrySleepMs : Nat
  /-- P_FRAME_POLL_SLEEP_MIN_MS; the decided value is 0 (D12, 90_conflicts C7). -/
  framePollSleepMs : Nat
  deriving DecidableEq, Repr, Inhabited

namespace Config

/-- The branch registers of a variant. -/
def regs (c : Config) : Variant → BranchRegs
  | .a => c.regsA
  | .b => c.regsB

/-- SEG(s) (R64); a segment the ROM does not hold is empty. -/
def segment (c : Config) (seg : Nat) : List (BitVec 16) := c.seqRom.getD seg []

/-! ### The parameters with one literal value (R10) -/

/-- P_RESET_REG: POWER_UP_RESET. -/
abbrev resetReg : Addr7 := 0x3A
/-- P_RESET_CMD. -/
abbrev resetCmd : Byte := 0x5A
/-- P_RESET_WAIT_MS. -/
abbrev resetWaitMs : Nat := 20
/-- P_FLUSH_REG: DATA_READY. -/
abbrev flushReg : Addr7 := 0x02
/-- P_FLUSH_COUNT. -/
abbrev flushCount : Nat := 5
/-- P_ID_REG. -/
abbrev idReg : Addr7 := 0x00
/-- P_ID_COUNT. -/
abbrev idCount : Nat := 2
/-- P_PRODUCT_ID. -/
abbrev productId : Byte := 0x49
/-- P_CFG_IF_BIT7. -/
abbrev cfgIfBit7 : Byte := 0x04
/-- P_CFG_IF_NOT_BIT7. -/
abbrev cfgIfNotBit7 : Byte := 0x02
/-- P_C1_LIMIT. -/
abbrev c1Limit : Nat := 28
/-- P_C1_ADD_LOW. -/
abbrev c1AddLow : Nat := 14
/-- P_C1_ADD_HIGH. -/
abbrev c1AddHigh : Nat := 11
/-- P_C1_MAX. -/
abbrev c1Max : Nat := 0x3F
/-- P_C2_MUL. -/
abbrev c2Mul : Nat := 45
/-- P_C2_DIV. -/
abbrev c2Div : Nat := 100
/-- P_MOTION_BURST_CMD. -/
abbrev motionBurstCmd : Byte := 0x16
/-- P_BURST_PAYLOAD. -/
abbrev burstPayload : Nat := 12
/-- P_QUALITY_MIN. -/
abbrev qualityMin : Byte := 0x19
/-- P_SHUTTER_UPPER_SAT. -/
abbrev shutterUpperSat : Byte := 0x1F
/-- P_DATA_READY_REG. -/
abbrev dataReadyReg : Addr7 := 0x02
/-- P_SLOW_COUNT. -/
abbrev slowCount : Nat := 5
/-- P_PRECAPTURE_WAIT_MS. -/
abbrev precaptureWaitMs : Nat := 10
/-- P_GRAB_STATUS_REG: RAWDATA_GRAB_STATUS. -/
abbrev grabStatusReg : Addr7 := 0x59
/-- P_GRAB_READY_MASK. -/
abbrev grabReadyMask : Byte := 0xC0
/-- P_GRAB_REG: RAWDATA_GRAB. -/
abbrev grabReg : Addr7 := 0x58
/-- P_GRAB_TRIGGER_VAL. -/
abbrev grabTriggerVal : Byte := 0x00
/-- P_FRAME_PIXELS. -/
abbrev framePixels : Nat := 1225
/-- P_ORIENTATION_REG. -/
abbrev orientationReg : Addr7 := 0x5B
/-- P_RESP_BUF_BYTES. -/
abbrev respBufBytes : Nat := 256
/-- P_TIME_UNIT is 1 microsecond, so a millisecond has 1000 units (R15). -/
abbrev unitsPerMs : Nat := 1000
/-- P_RESOLUTION_REG (R65, R287): variant B only; no operation of the controller uses it. -/
abbrev resolutionReg : Addr7 := 0x4E

/-! ### The OPEN parameters of the machine that `State.reset` describes (D33, D34, D35, D56)
They are constants without a body: nothing can be proved of their values. Every statement about a state holds for
every configuration, since the configuration is a field of the state. -/

/-- P_SW_CS of the machine at hand. -/
opaque openSwCs : Bool
/-- P_REG_* of the machine at hand. -/
opaque openRegs : Variant → BranchRegs
/-- P_SEQ_ROM of the machine at hand. -/
opaque openSeqRom : List (List (BitVec 16))
/-- P_ROTATION_MAP of the machine at hand. -/
opaque openRotation : RotationMap

/-! ### The free values of the environment (R319), read when the state's own script of draws is used up
Each is applied to the counter of draws `Env.drawn`. -/

/-- R66: whether the n-th free exchange fails (BUS_FAIL). -/
opaque freeBusFail : Nat → Bool
/-- R66: byte i of the answer to the n-th free exchange. -/
opaque freeByte : Nat → Nat → Byte
/-- R15: whether the n-th free chip-select call answers OK. -/
opaque freeCsOk : Nat → Bool
/-- R133: whether the n-th free native-select disable answers OK. -/
opaque freeNativeOk : Nat → Bool
/-- R285: by how much the n-th free reading of the clock exceeds the reading before it. -/
opaque freeNowStep : Nat → Nat
/-- R285: by how much a free sleep's end exceeds its lower bound. -/
opaque freeSleepOver : Nat → Nat

end Config

end Sys2Proof
end

