-- ==== Sys2Proof/Syntax.lean ====
section
/-! DEFINITION. The instructions: one constructor for every row of spec/opcode_table.json, in the table's order, and the
frames the controller puts on the bus. -/

namespace Sys2Proof

/-- R91, R97-R99, R100, R106: the encoded things the controller interprets. The first eleven are host commands, the next
four are the frames of a bus transaction, then the two step words of the sequence ROM, then the four fragment kinds of a
grabbed byte. -/
inductive Instr
  /-- R150: WRITE_REG, operands ADDR7 and VALUE. -/
  | writeReg (addr : Addr7) (value : Byte)
  /-- R151: READ_REG, operand ADDR7. -/
  | readReg (addr : Addr7)
  /-- R152: READ_REGS, operands ADDR7 and COUNT. -/
  | readRegs (addr : Addr7) (count : Byte)
  /-- R153: BURST_XFER, operands CMDBYTE and LEN. -/
  | burstXfer (cmd : Byte) (len : Byte)
  /-- R165: PLAY_SEQ, operand SEG. -/
  | playSeq (seg : BitVec 4)
  /-- R181: BRING_UP, operand VARIANT. -/
  | bringUp (variant : Variant)
  /-- R220: BURST_READ, operand TIMEOUT_MS. -/
  | burstRead (timeoutMs : BitVec 24)
  /-- R221: SLOW_READ, operand TIMEOUT_MS. -/
  | slowRead (timeoutMs : BitVec 24)
  /-- R250: FRAME_CAPTURE, operand TIMEOUT_MS. -/
  | frameCapture (timeoutMs : BitVec 24)
  /-- R225: SET_ORIENTATION, operands SWAP, INV_Y and INV_X. -/
  | setOrientation (swap invY invX : Bool)
  /-- R226: SET_ROTATION, operand DEGREES. -/
  | setRotation (degrees : BitVec 9)
  /-- R97, R140: a write frame `[a | 0x80, v]`. -/
  | writeFrame (addr : Addr7) (value : Byte)
  /-- R98, R141: a read frame `[a, 0x00]`. -/
  | readFrame (addr : Addr7)
  /-- R99, R143: a burst frame `[c] ++ repeat(L, 0x00)`. -/
  | burstFrame (cmd : Byte) (len : Byte)
  /-- R99, R220: the motion burst frame `[0x16] ++ repeat(12, 0x00)`. -/
  | motionBurstFrame
  /-- R100, R162: a write step `W F, G`. -/
  | seqWrite (addr : Addr7) (value : Byte)
  /-- R100, R163: a delay step `WAIT G`. -/
  | seqWait (ms : Byte)
  /-- R106, R243: a fragment with tag 0b01; `payload` is its bits [5:0]. -/
  | fragUpper (payload : BitVec 6)
  /-- R106, R243: a fragment with tag 0b10; `low` is its bits [5:0], two of which P_LOWER_SRC_LSB selects. -/
  | fragLower (low : BitVec 6)
  /-- R106, R247: a byte with tag 0b00; its bits [5:0] are ignored. -/
  | fragNone00 (low : BitVec 6)
  /-- R106, R247: a byte with tag 0b11; its bits [5:0] are ignored. -/
  | fragNone11 (low : BitVec 6)
  deriving DecidableEq, Repr

/-- The mnemonic of an instruction in spec/opcode_table.json. -/
def Instr.mnemonic : Instr → String
  | .writeReg _ _ => "WRITE_REG"
  | .readReg _ => "READ_REG"
  | .readRegs _ _ => "READ_REGS"
  | .burstXfer _ _ => "BURST_XFER"
  | .playSeq _ => "PLAY_SEQ"
  | .bringUp _ => "BRING_UP"
  | .burstRead _ => "BURST_READ"
  | .slowRead _ => "SLOW_READ"
  | .frameCapture _ => "FRAME_CAPTURE"
  | .setOrientation _ _ _ => "SET_ORIENTATION"
  | .setRotation _ => "SET_ROTATION"
  | .writeFrame _ _ => "WRITE_FRAME"
  | .readFrame _ => "READ_FRAME"
  | .burstFrame _ _ => "BURST_FRAME"
  | .motionBurstFrame => "MOTION_BURST_FRAME"
  | .seqWrite _ _ => "SEQ_WRITE"
  | .seqWait _ => "SEQ_WAIT"
  | .fragUpper _ => "FRAG_UPPER"
  | .fragLower _ => "FRAG_LOWER"
  | .fragNone00 _ => "FRAG_NONE_00"
  | .fragNone11 _ => "FRAG_NONE_11"

/-- R91: the host commands. -/
def Instr.isCommand : Instr → Bool
  | .writeReg _ _ | .readReg _ | .readRegs _ _ | .burstXfer _ _ | .playSeq _ | .bringUp _ | .burstRead _ | .slowRead _
  | .frameCapture _ | .setOrientation _ _ _ | .setRotation _ => true
  | .writeFrame _ _ | .readFrame _ | .burstFrame _ _ | .motionBurstFrame | .seqWrite _ _ | .seqWait _ | .fragUpper _
  | .fragLower _ | .fragNone00 _ | .fragNone11 _ => false

/-- The frames a transaction can carry (R97-R99), held by a transaction in progress. -/
inductive Frame
  | write (addr : Addr7) (value : Byte)
  | read (addr : Addr7)
  | burst (cmd : Byte) (len : Byte)
  | motionBurst
  deriving DecidableEq, Repr

/-- The instruction a frame is. -/
def Frame.instr : Frame → Instr
  | .write a v => .writeFrame a v
  | .read a => .readFrame a
  | .burst c l => .burstFrame c l
  | .motionBurst => .motionBurstFrame

/-- R99: the frame of `BurstTransfer(c, L)`. `BurstFrame(0x16, 12)` is the motion burst frame. -/
def Frame.ofBurst (c len : Byte) : Frame :=
  if c = Config.motionBurstCmd ∧ len.toNat = Config.burstPayload then .motionBurst else .burst c len

/-- R113: a frame is told by its length and by the procedure that issued it: WriteRegister, ReadRegister or
BurstTransfer. -/
inductive FrameKind
  | write
  | read
  | burst
  deriving DecidableEq, Repr

/-- The encoded form of an instruction, one constructor for each format of 30_encoding. -/
inductive Code
  /-- R90: a 32-bit command word. -/
  | command (w : Word)
  /-- R97-R99: a frame's bytes, byte 0 first on the bus, with the procedure that issued it. -/
  | frame (kind : FrameKind) (bytes : List Byte)
  /-- R100: a 16-bit step word `(F, G)`, F in the high byte. -/
  | step (w : BitVec 16)
  /-- R106: a byte read from RAWDATA_GRAB while streaming. -/
  | fragment (f : Byte)
  deriving DecidableEq, Repr

end Sys2Proof
end

