-- ==== Sys2Proof/WellFormed.lean ====
section
/-! DEFINITION. Well-formed instructions, sequences and configurations (R11, R99, R102), and the configuration of the
machine that `State.reset` describes. -/

namespace Sys2Proof

/-- Every operand range is the width of its field (R94), so an instruction's operands always fit. One check is left:
`BurstFrame(0x16, 12)` is the motion burst frame (R99), so it is not written as a general burst frame. -/
def Instr.wf : Instr → Bool
  | .burstFrame c len => !(c == Config.motionBurstCmd && len.toNat == Config.burstPayload)
  | .writeReg _ _ | .readReg _ | .readRegs _ _ | .burstXfer _ _ | .playSeq _ | .bringUp _ | .burstRead _ | .slowRead _
  | .frameCapture _ | .setOrientation _ _ _ | .setRotation _ | .writeFrame _ _ | .readFrame _ | .motionBurstFrame
  | .seqWrite _ _ | .seqWait _ | .fragUpper _ | .fragLower _ | .fragNone00 _ | .fragNone11 _ => true

/-- R100, R102: a step word is legal unless F lies in 0x80..0xFE. -/
def stepWordLegal (w : BitVec 16) : Bool :=
  let f := (w.extractLsb' 8 8).toNat
  f ≤ 0x7F || f == 0xFF

/-- R11: every step word of P_SEQ_ROM is legal, and it has the eleven segments of R103. -/
def seqRomWf (rom : List (List (BitVec 16))) : Bool :=
  rom.length == 11 && rom.all (fun seg => seg.all stepWordLegal)

/-- R11: P_ROTATION_MAP is injective. -/
def RotationMap.injective (r : RotationMap) : Bool :=
  r.deg0 != r.deg90 && r.deg0 != r.deg180 && r.deg0 != r.deg270 && r.deg90 != r.deg180 && r.deg90 != r.deg270
    && r.deg180 != r.deg270

/-- R11: every image byte of P_ROTATION_MAP has bits [4:0] = 0. -/
def RotationMap.lowBitsZero (r : RotationMap) : Bool :=
  [r.deg0, r.deg90, r.deg180, r.deg270].all (fun b => b.extractLsb' 0 5 == 0)

/-- R11: the rotation map is admitted. -/
def RotationMap.wf (r : RotationMap) : Bool := r.injective && r.lowBitsZero

/-- R11: the configuration is admitted. The P_REG_* values and the three switches are legal by their types. -/
def Config.wf (c : Config) : Bool := seqRomWf c.seqRom && c.rotation.wf

/-- An admitted table: the given one where it is well-formed, else eleven empty segments. -/
def seqRomOrEmpty (rom : List (List (BitVec 16))) : List (List (BitVec 16)) :=
  if seqRomWf rom then rom else List.replicate 11 []

/-- An admitted map: the given one where it is well-formed, else an injective one. -/
def RotationMap.orInjective (r : RotationMap) : RotationMap :=
  if r.wf then r else { deg0 := 0x00, deg90 := 0x20, deg180 := 0x40, deg270 := 0x60 }

/-- The configuration of the machine that `State.reset` describes: the OPEN parameters are constants nothing is known of
(an ill-formed configuration has no run, R11, so an ill-formed table or map is not taken), and every other parameter has
its default value (R10). -/
def Config.board : Config where
  swCs := Config.openSwCs
  regsA := Config.openRegs .a
  regsB := Config.openRegs .b
  seqRom := seqRomOrEmpty Config.openSeqRom
  rotation := Config.openRotation.orInjective
  c1Mode := .sequential
  burstLayout := .doc
  lowerSrc := .bits32
  retrySleepMs := 1
  framePollSleepMs := 0

end Sys2Proof
end

