-- ==== Sys2Proof/Decode.lean ====
section
/-! DEFINITION. The decoder of every format of 30_encoding, total and refusing by name; after it the encoder, the host's
table word, the pseudo-instructions and the assembler. -/

namespace Sys2Proof

/-- Why the decoder refuses a code. -/
inductive DecodeError
  /-- R93: the opcode is 0x0 or 0xC-0xF. -/
  | reservedOpcode
  /-- R93: the opcode is defined and a reserved bit is not 0. -/
  | reservedBits
  /-- R102: a step word whose F lies in 0x80..0xFE. -/
  | reservedStep
  /-- R97: not two bytes with bit 7 of byte 0 set. -/
  | notAWriteFrame
  /-- R98: not two bytes with bit 7 of byte 0 clear and byte 1 zero. -/
  | notAReadFrame
  /-- R99: not a command byte and at most 255 zero bytes. -/
  | notABurstFrame
  deriving DecidableEq, Repr

/-! ### Command words -/

/-- R92: one row of the match and mask table. -/
structure CommandRow where
  mnemonic : String
  bits : Word
  mask : Word
  deriving DecidableEq, Repr

/-- R92: "A word w encodes a given mnemonic iff `(w & mask) = match`". -/
def CommandRow.hits (r : CommandRow) (w : Word) : Bool := w &&& r.mask == r.bits

def rowWriteReg : CommandRow := { mnemonic := "WRITE_REG", bits := 0x10000000, mask := 0xFFFF8000 }
def rowReadReg : CommandRow := { mnemonic := "READ_REG", bits := 0x20000000, mask := 0xFFFF80FF }
def rowReadRegs : CommandRow := { mnemonic := "READ_REGS", bits := 0x30000000, mask := 0xFFFF8000 }
def rowBurstXfer : CommandRow := { mnemonic := "BURST_XFER", bits := 0x40000000, mask := 0xFFFF0000 }
def rowPlaySeq : CommandRow := { mnemonic := "PLAY_SEQ", bits := 0x50000000, mask := 0xFFFFFFF0 }
def rowBringUp : CommandRow := { mnemonic := "BRING_UP", bits := 0x60000000, mask := 0xFFFFFFFE }
def rowBurstRead : CommandRow := { mnemonic := "BURST_READ", bits := 0x70000000, mask := 0xFF000000 }
def rowSlowRead : CommandRow := { mnemonic := "SLOW_READ", bits := 0x80000000, mask := 0xFF000000 }
def rowFrameCapture : CommandRow := { mnemonic := "FRAME_CAPTURE", bits := 0x90000000, mask := 0xFF000000 }
def rowSetOrientation : CommandRow := { mnemonic := "SET_ORIENTATION", bits := 0xA0000000, mask := 0xFFFFFF1F }
def rowSetRotation : CommandRow := { mnemonic := "SET_ROTATION", bits := 0xB0000000, mask := 0xFFFFFE00 }

/-- R92: the whole table. -/
def commandRows : List CommandRow :=
  [rowWriteReg, rowReadReg, rowReadRegs, rowBurstXfer, rowPlaySeq, rowBringUp, rowBurstRead, rowSlowRead,
    rowFrameCapture, rowSetOrientation, rowSetRotation]

/-- R94: VARIANT 0 = A, 1 = B. -/
def Variant.ofBit (b : BitVec 1) : Variant := if b = 0 then .a else .b

/-- R94: VARIANT 0 = A, 1 = B. -/
def Variant.bit : Variant → BitVec 1
  | .a => 0
  | .b => 1

/-- R94: a one-bit field as a Boolean. -/
def flagOfBit (b : BitVec 1) : Bool := b == 1

/-- R94: a Boolean as a one-bit field. -/
def bitOfFlag (b : Bool) : BitVec 1 := if b then 1 else 0

/-- R90-R94: the command a 32-bit word encodes, its operands taken straight from their bits. -/
def decodeCommand (w : Word) : Except DecodeError Instr :=
  if rowWriteReg.hits w then .ok (.writeReg (w.extractLsb' 8 7) (w.extractLsb' 0 8))
  else if rowReadReg.hits w then .ok (.readReg (w.extractLsb' 8 7))
  else if rowReadRegs.hits w then .ok (.readRegs (w.extractLsb' 8 7) (w.extractLsb' 0 8))
  else if rowBurstXfer.hits w then .ok (.burstXfer (w.extractLsb' 8 8) (w.extractLsb' 0 8))
  else if rowPlaySeq.hits w then .ok (.playSeq (w.extractLsb' 0 4))
  else if rowBringUp.hits w then .ok (.bringUp (Variant.ofBit (w.extractLsb' 0 1)))
  else if rowBurstRead.hits w then .ok (.burstRead (w.extractLsb' 0 24))
  else if rowSlowRead.hits w then .ok (.slowRead (w.extractLsb' 0 24))
  else if rowFrameCapture.hits w then .ok (.frameCapture (w.extractLsb' 0 24))
  else if rowSetOrientation.hits w then
    .ok (.setOrientation (flagOfBit (w.extractLsb' 7 1)) (flagOfBit (w.extractLsb' 6 1)) (flagOfBit (w.extractLsb' 5 1)))
  else if rowSetRotation.hits w then .ok (.setRotation (w.extractLsb' 0 9))
  else if 1 ≤ (w.extractLsb' 28 4).toNat ∧ (w.extractLsb' 28 4).toNat ≤ 0xB then .error .reservedBits
  else .error .reservedOpcode

/-! ### Step words, fragments and frames -/

/-- R100, R160: F = 0xFF is WAIT G, F in 0x00-0x7F is a write of G to F, and any other F is refused (R102). -/
def decodeStep (w : BitVec 16) : Except DecodeError Instr :=
  if w.extractLsb' 8 8 = 0xFF then .ok (.seqWait (w.extractLsb' 0 8))
  else if w.extractLsb' 15 1 = 0 then .ok (.seqWrite (w.extractLsb' 8 7) (w.extractLsb' 0 8))
  else .error .reservedStep

/-- R106: the fragment kind of a grabbed byte, told by its tag f[7:6]. -/
def decodeFragment (f : Byte) : Instr :=
  if f.extractLsb' 6 2 = 0b01 then .fragUpper (f.extractLsb' 0 6)
  else if f.extractLsb' 6 2 = 0b10 then .fragLower (f.extractLsb' 0 6)
  else if f.extractLsb' 6 2 = 0b00 then .fragNone00 (f.extractLsb' 0 6)
  else .fragNone11 (f.extractLsb' 0 6)

/-- R97-R99, R113: the frame of a byte list, given the procedure that issued it. -/
def decodeFrame : FrameKind → List Byte → Except DecodeError Instr
  | .write, [b, v] => if b.extractLsb' 7 1 = 1 then .ok (.writeFrame (b.extractLsb' 0 7) v) else .error .notAWriteFrame
  | .write, _ => .error .notAWriteFrame
  | .read, [b, v] =>
    if b.extractLsb' 7 1 = 0 ∧ v = 0 then .ok (.readFrame (b.extractLsb' 0 7)) else .error .notAReadFrame
  | .read, _ => .error .notAReadFrame
  | .burst, c :: payload =>
    if payload.length ≤ 255 ∧ payload = List.replicate payload.length 0 then
      .ok (Frame.ofBurst c (BitVec.ofNat 8 payload.length)).instr
    else .error .notABurstFrame
  | .burst, [] => .error .notABurstFrame

/-- The decoder, over every format. -/
def decode : Code → Except DecodeError Instr
  | .command w => decodeCommand w
  | .frame kind bytes => decodeFrame kind bytes
  | .step w => decodeStep w
  | .fragment f => .ok (decodeFragment f)

/-! ### The encoder -/

/-- R97-R99: the bytes a frame puts on the bus, byte 0 first. -/
def Frame.bytes : Frame → List Byte
  | .write a v => [1#1 ++ a, v]
  | .read a => [0#1 ++ a, 0]
  | .burst c len => c :: List.replicate len.toNat 0
  | .motionBurst => Config.motionBurstCmd :: List.replicate Config.burstPayload 0

/-- R25: FRAME_B0, byte 0 of a frame. -/
def Frame.byte0 (f : Frame) : Byte := f.bytes.headD 0

/-- R91, R97-R100, R106: the code of an instruction, its fields laid out high to low as the patterns print them. -/
def encode : Instr → Code
  | .writeReg a v => .command (0x1#4 ++ 0#13 ++ a ++ v)
  | .readReg a => .command (0x2#4 ++ 0#13 ++ a ++ 0#8)
  | .readRegs a n => .command (0x3#4 ++ 0#13 ++ a ++ n)
  | .burstXfer c len => .command (0x4#4 ++ 0#12 ++ c ++ len)
  | .playSeq seg => .command (0x5#4 ++ 0#24 ++ seg)
  | .bringUp v => .command (0x6#4 ++ 0#27 ++ v.bit)
  | .burstRead t => .command (0x7#4 ++ 0#4 ++ t)
  | .slowRead t => .command (0x8#4 ++ 0#4 ++ t)
  | .frameCapture t => .command (0x9#4 ++ 0#4 ++ t)
  | .setOrientation swap invY invX => .command (0xA#4 ++ 0#20 ++ bitOfFlag swap ++ bitOfFlag invY ++ bitOfFlag invX ++ 0#5)
  | .setRotation d => .command (0xB#4 ++ 0#19 ++ d)
  | .writeFrame a v => .frame .write (Frame.write a v).bytes
  | .readFrame a => .frame .read (Frame.read a).bytes
  | .burstFrame c len => .frame .burst (Frame.burst c len).bytes
  | .motionBurstFrame => .frame .burst Frame.motionBurst.bytes
  | .seqWrite a g => .step (0#1 ++ a ++ g)
  | .seqWait g => .step (0xFF#8 ++ g)
  | .fragUpper u => .fragment (0b01#2 ++ u)
  | .fragLower b => .fragment (0b10#2 ++ b)
  | .fragNone00 b => .fragment (0b00#2 ++ b)
  | .fragNone11 b => .fragment (0b11#2 ++ b)

/-- The host's table word (log entry 12): 32 bits are a command word, 16 bits a step word, and 8 bits a fragment byte,
but for 0x16, which the table's one row without any field gives to the motion burst frame. -/
def decodeTableWord (nbits w : Nat) : Option Instr :=
  if w ≥ 2 ^ nbits then none
  else if nbits = 32 then (decodeCommand (BitVec.ofNat 32 w)).toOption
  else if nbits = 16 then (decodeStep (BitVec.ofNat 16 w)).toOption
  else if nbits = 8 then
    if w = Config.motionBurstCmd.toNat then
      (decodeFrame .burst (Config.motionBurstCmd :: List.replicate Config.burstPayload 0)).toOption
    else some (decodeFragment (BitVec.ofNat 8 w))
  else none

/-! ### Pseudo-instructions (R112): each expands to exactly one command -/

/-- CHIP_RESET = `WRITE_REG 0x3A, 0x5A`. -/
def pseudoChipReset : Instr := .writeReg 0x3A 0x5A
/-- FLUSH = `READ_REGS 0x02, 5`. -/
def pseudoFlush : Instr := .readRegs 0x02 5
/-- GET_ID = `READ_REGS 0x00, 2`. -/
def pseudoGetId : Instr := .readRegs 0x00 2
/-- MOTION_BURST = `BURST_XFER 0x16, 12`. -/
def pseudoMotionBurst : Instr := .burstXfer 0x16 12
/-- GRAB_STATUS = `READ_REG 0x59`. -/
def pseudoGrabStatus : Instr := .readReg 0x59
/-- GRAB_START = `WRITE_REG 0x58, 0x00`. -/
def pseudoGrabStart : Instr := .writeReg 0x58 0x00
/-- GRAB_READ = `READ_REG 0x58`. -/
def pseudoGrabRead : Instr := .readReg 0x58

/-! ### The assembler (R110, R111) and the flat lists of the source (R101, R102) -/

/-- R110: an operand that does not fit its field is an assembly error. -/
def fitField (width n : Nat) : Option (BitVec width) := if n < 2 ^ width then some (BitVec.ofNat width n) else none

/-- The value of a digit in a base, if it is one. -/
def digitValue (base : Nat) (c : Char) : Option Nat :=
  let v :=
    if '0' ≤ c ∧ c ≤ '9' then c.toNat - '0'.toNat
    else if 'a' ≤ c ∧ c ≤ 'f' then c.toNat - 'a'.toNat + 10
    else if 'A' ≤ c ∧ c ≤ 'F' then c.toNat - 'A'.toNat + 10
    else base
  if v < base then some v else none

/-- The number a list of digits spells, the most significant first, after the value read so far. -/
def digitsValue (base : Nat) : Nat → List Char → Option Nat
  | acc, [] => some acc
  | acc, c :: cs => (digitValue base c).bind (fun d => digitsValue base (acc * base + d) cs)

/-- R110: "Numbers are decimal or `0x` hexadecimal." -/
def parseNumber : List Char → Option Nat
  | '0' :: 'x' :: c :: cs => digitsValue 16 0 (c :: cs)
  | c :: cs => digitsValue 10 0 (c :: cs)
  | [] => none

/-- The pieces of a list between the occurrences of a separator. -/
def splitChars (sep : Char) : List Char → List (List Char)
  | [] => [[]]
  | c :: cs =>
    match splitChars sep cs with
    | [] => if c = sep then [[], []] else [[c]]
    | p :: ps => if c = sep then [] :: p :: ps else (c :: p) :: ps

/-- A piece without its spaces. -/
def trimSpaces (cs : List Char) : List Char := cs.filter (· != ' ')

/-- R110: `MNEMONIC operands`, the operands separated by commas. -/
def splitLine (line : String) : List Char × List (List Char) :=
  let cs := line.toList.dropWhile (· == ' ')
  let mnemonic := cs.takeWhile (· != ' ')
  let rest := trimSpaces (cs.dropWhile (· != ' '))
  (mnemonic, if rest.isEmpty then [] else splitChars ',' rest)

/-- R103: the segment names, in the order of their ids 0..10. -/
def segmentNames : List String :=
  ["A_PROLOGUE", "A_MID", "A_SUB", "A_TAIL", "A_TRAILER", "B_PROLOGUE", "B_MID", "B_SUB", "B_TAIL", "B_TRAILER",
    "PRECAPTURE"]

/-- R103: the segment id of a name. -/
def parseSegment (cs : List Char) : Option (BitVec 4) :=
  let i := segmentNames.findIdx (fun n => n.toList == cs)
  if i < segmentNames.length then some (BitVec.ofNat 4 i) else none

/-- R110: `NONE` or a `|`-joined subset of `SWAP`, `INVY`, `INVX`. -/
def parseFlags (cs : List Char) : Option (Bool × Bool × Bool) :=
  let pieces := splitChars '|' cs
  if cs = "NONE".toList then some (false, false, false)
  else if pieces.all (fun p => p == "SWAP".toList || p == "INVY".toList || p == "INVX".toList)
      && decide pieces.Nodup then
    some (pieces.contains "SWAP".toList, pieces.contains "INVY".toList, pieces.contains "INVX".toList)
  else none

/-- One numeric operand. -/
def parseOne (width : Nat) : List (List Char) → Option (BitVec width)
  | [x] => (parseNumber x).bind (fitField width)
  | _ => none

/-- Two numeric operands. -/
def parseTwo (w1 w2 : Nat) : List (List Char) → Option (BitVec w1 × BitVec w2)
  | [x, y] =>
    ((parseNumber x).bind (fitField w1)).bind (fun a => ((parseNumber y).bind (fitField w2)).map (fun b => (a, b)))
  | _ => none

/-- R110: the commands whose operands are numbers. -/
def assembleNumeric (m : List Char) (ops : List (List Char)) : Option Instr :=
  if m = "WRITE_REG".toList then (parseTwo 7 8 ops).map (fun p => .writeReg p.1 p.2)
  else if m = "READ_REG".toList then (parseOne 7 ops).map .readReg
  else if m = "READ_REGS".toList then (parseTwo 7 8 ops).map (fun p => .readRegs p.1 p.2)
  else if m = "BURST_XFER".toList then (parseTwo 8 8 ops).map (fun p => .burstXfer p.1 p.2)
  else if m = "BURST_READ".toList then (parseOne 24 ops).map .burstRead
  else if m = "SLOW_READ".toList then (parseOne 24 ops).map .slowRead
  else if m = "FRAME_CAPTURE".toList then (parseOne 24 ops).map .frameCapture
  else if m = "SET_ROTATION".toList then (parseOne 9 ops).map .setRotation
  else none

/-- R110: the commands whose operand is a name. -/
def assembleNamed (m : List Char) (ops : List (List Char)) : Option Instr :=
  match ops with
  | [x] =>
    if m = "PLAY_SEQ".toList then (parseSegment x).map .playSeq
    else if m = "BRING_UP".toList then
      if x = ['A'] then some (.bringUp .a) else if x = ['B'] then some (.bringUp .b) else none
    else if m = "SET_ORIENTATION".toList then (parseFlags x).map (fun f => .setOrientation f.1 f.2.1 f.2.2)
    else none
  | _ => none

/-- R112: the pseudo-instructions, which take no operand. -/
def assemblePseudo (m : List Char) (ops : List (List Char)) : Option Instr :=
  if !ops.isEmpty then none
  else if m = "CHIP_RESET".toList then some pseudoChipReset
  else if m = "FLUSH".toList then some pseudoFlush
  else if m = "GET_ID".toList then some pseudoGetId
  else if m = "MOTION_BURST".toList then some pseudoMotionBurst
  else if m = "GRAB_STATUS".toList then some pseudoGrabStatus
  else if m = "GRAB_START".toList then some pseudoGrabStart
  else if m = "GRAB_READ".toList then some pseudoGrabRead
  else none

/-- R110, R112: the command a line of assembly text stands for, or no command (an assembly error). -/
def assemble (line : String) : Option Instr :=
  let parts := splitLine line
  (assembleNumeric parts.1 parts.2).or ((assembleNamed parts.1 parts.2).or (assemblePseudo parts.1 parts.2))

/-- The word of an assembled command. -/
def assembleWord (line : String) : Option Word :=
  (assemble line).bind (fun i => match encode i with
    | .command w => some w
    | .frame _ _ | .step _ | .fragment _ => none)

/-- R111: a step is written `W addr, value` or `WAIT ms`. -/
def assembleStep (line : String) : Option Instr :=
  let parts := splitLine line
  if parts.1 = "W".toList then (parseTwo 7 8 parts.2).map (fun p => .seqWrite p.1 p.2)
  else if parts.1 = "WAIT".toList then (parseOne 8 parts.2).map .seqWait
  else none

/-- R101: the step word of one source pair; R102: no word for a pair outside its ranges. -/
def packPair (p q : Int) : Option (BitVec 16) :=
  if 0 ≤ q ∧ q ≤ 255 then
    if p = -1 then some (0xFF#8 ++ BitVec.ofInt 8 q)
    else if 0 ≤ p ∧ p ≤ 0x7F then some (BitVec.ofInt 8 p ++ BitVec.ofInt 8 q)
    else none
  else none

/-- R101: a flat list maps pair by pair, in order; R102: a list of odd length has no sequence. -/
def packFlat : List Int → Option (List (BitVec 16))
  | [] => some []
  | [_] => none
  | p :: q :: rest => (packPair p q).bind (fun w => (packFlat rest).map (fun ws => w :: ws))

end Sys2Proof
end

