-- ==== Sys2Proof/Machine/State.lean ====
section
/-! DEFINITION. The state of the controller (10_state), the environment it meets at its ports (R4, R319), why the machine
stops, and the machine right after reset (R300, R301). -/

namespace Sys2Proof.Machine

/-! ### Registers the host can see (R21-R34) -/

/-- R23: the four flags of STATUS. -/
structure Status where
  busy : Bool
  done : Bool
  err : Bool
  overrun : Bool
  deriving DecidableEq, Repr

/-- R24, R270: the error codes. Codes 7-15 are never produced. -/
inductive ErrCode
  | none
  | transport
  | timeout
  | identityMismatch
  | invalidArgument
  | illegalCommand
  | state
  deriving DecidableEq, Repr

/-- R26, R180: DEVSTATE.STATE. The value 3 is never taken. -/
inductive Lifecycle
  | uninit
  | ready
  | failed
  deriving DecidableEq, Repr

/-- R26: the fields of DEVSTATE but for SW_CS, which is hardwired to P_SW_CS. -/
structure DevState where
  state : Lifecycle
  variant : Variant
  productId : Byte
  revisionId : Byte
  idValid : Bool
  deriving DecidableEq, Repr

/-- R29, R30: SAMPLE0, SAMPLE1 and SAMPLE2, the most recently parsed burst sample. -/
structure Sample where
  dataReady : Bool
  obstruction : Bool
  valid : Bool
  present : Bool
  quality : Byte
  shutterUpper : Byte
  shutterLower : Byte
  rawSum : Byte
  rawMax : Byte
  rawMin : Byte
  statusByte : Byte
  deltaX : BitVec 16
  deltaY : BitVec 16
  deriving DecidableEq, Repr

/-- R31: CAL_STATUS.BU_PHASE. The value 15 is never taken. -/
inductive BuPhase
  | idle
  | reset
  | resetWait
  | flush
  | prologue
  | branchA
  | mid
  | branchB
  | sub
  | writeback
  | tail
  | trailer
  | idCheck
  | done
  | failed
  deriving DecidableEq, Repr

/-- R31: CAL_STATUS. FAIL_PHASE holds a phase, `idle` (0) where there is none. -/
structure CalStatus where
  phase : BuPhase
  aBit7 : Bool
  bTaken : Bool
  aDone : Bool
  bDone : Bool
  diagByte : Byte
  bstatByte : Byte
  failPhase : BuPhase
  deriving DecidableEq, Repr

/-- R32: CAL_VALUES. -/
structure CalValues where
  c1Raw : Byte
  c2Raw : Byte
  c1Adj : Byte
  c2Adj : Byte
  deriving DecidableEq, Repr

/-- R33, R240: FC_STATUS.FC_STATE. The value 7 is never taken. -/
inductive FcState
  | idle
  | configuring
  | waitingForGrabReady
  | streaming
  | complete
  | timedOut
  | aborted
  deriving DecidableEq, Repr

/-- R33, R242: FC_STATUS. PIXEL_COUNT is an index, 0..1225. -/
structure FcStatus where
  state : FcState
  haveUpper : Bool
  orderErr : Bool
  initTimeout : Bool
  lastGrabStatus : Byte
  pixelCount : Nat
  deriving DecidableEq, Repr

/-- R34: ORIENT. -/
structure Orient where
  byte : Byte
  written : Bool
  deriving DecidableEq, Repr

/-! ### Internal state (R41) and the buffers (R35, R36) -/

/-- R25, R41: which timeout-bounded loop T0 belongs to (ERRINFO.LOOP). -/
inductive LoopId
  | burstRead
  | slowRead
  | captureInit
  | captureStream
  deriving DecidableEq, Repr

/-- R41: the last level requested of the software chip-select output. -/
inductive CsLevel
  | asserted
  | deasserted
  deriving DecidableEq, Repr

/-- RESP_BUF and PIXEL_BUF at their host offsets (R35, R36): the listed bytes, addresses strictly rising and no byte
0x00; an unlisted offset reads 0x00, which is what reset leaves in both buffers. -/
abbrev Memory := List Host.Cell

/-- R131: how a transaction ended: with the response, or with a TRANSPORT error and its CS_FAULT bit. -/
inductive TxResult
  | ok (rx : List Byte)
  | failed (csFault : Bool)
  deriving DecidableEq, Repr

/-- R131: how far the transaction of a frame has come; each event of it is one step (R3). -/
inductive TxPhase
  /-- No transaction: the last one's result has been taken. -/
  | idle
  /-- Asked for; no event yet. -/
  | requested
  /-- The select is asserted; the exchange is next. -/
  | selected
  /-- The assert answered CS_FAIL; the clean-up deassert is next. -/
  | abandoned
  /-- The exchange answered (`none` is BUS_FAIL); the deassert is next. -/
  | exchanged (rx : Option (List Byte))
  /-- Over; the procedure that asked for it takes the result in its next step. -/
  | ended (r : TxResult)
  deriving DecidableEq, Repr

/-- R131: the transaction in progress, or the last one. -/
structure Tx where
  frame : Frame
  phase : TxPhase
  deriving DecidableEq, Repr

/-- Where the controller stands: what its next step does (R39, R96; log entry 1). Every point but `boot`, `idle` and
`start` lies inside a command's rule; those marked "transaction" are reached with a transaction under way. -/
inductive Point
  /-- R300: reset has run and the native-select disable is still to come. -/
  | boot
  /-- No command runs. -/
  | idle
  /-- R96: a command is accepted; its checks and its first event come next. -/
  | start
  /-- Transaction: the one transaction of WRITE_REG, READ_REG, BURST_XFER, SET_ORIENTATION or SET_ROTATION. -/
  | regDone
  /-- Transaction: read RR_INDEX of the ReadRegisters of READ_REGS or SLOW_READ (R142). -/
  | regsRead
  /-- R163: the WAIT at SEQ_PC is over. -/
  | stepWaited
  /-- Transaction: the write step at SEQ_PC. -/
  | stepWritten
  /-- Transaction: the reset write of BRING_UP (R182). -/
  | resetWritten
  /-- R182: the 20 ms wait is over. -/
  | resetWaited
  /-- Transaction: a read of the flush (R183). -/
  | flushRead
  /-- Transaction: the diagnostic read of branch A (R187). -/
  | diagRead
  /-- Transaction: the config write of branch A (R187). -/
  | cfgWritten
  /-- Transaction: the status read of branch B (R188). -/
  | statRead
  /-- Transaction: the c1 read of branch B. -/
  | c1Read
  /-- Transaction: the c2 read of branch B. -/
  | c2Read
  /-- Transaction: the c1 write-back of branch B. -/
  | c1Written
  /-- Transaction: the c2 write-back of branch B. -/
  | c2Written
  /-- Transaction: a read of the identity check (R189). -/
  | idRead
  /-- R213: the clock has been read at a motion loop's begin; T0 takes the reading. -/
  | loopT0Read
  /-- R213: the clock is read for the deadline check of a motion loop. -/
  | checkDeadline
  /-- R213: the clock has been read; the deadline is compared. -/
  | deadlineRead
  /-- Transaction: the motion burst of BURST_READ (R220). -/
  | burstRead
  /-- R250: the wait after the pre-capture sequence is over. -/
  | captureWaited
  /-- R251: the clock has been read on entering WAITING_FOR_GRAB_READY; T0 takes the reading. -/
  | initT0Read
  /-- R250: the grab status is read next. -/
  | pollGrab
  /-- Transaction: the grab-status read. -/
  | grabRead
  /-- R251: the clock has been read in the grab-ready poll. -/
  | initClockRead
  /-- Transaction: the trigger write. -/
  | triggerWritten
  /-- R251: the clock has been read on entering STREAMING; T0 takes the reading. -/
  | streamT0Read
  /-- R250: RAWDATA_GRAB is read next. -/
  | pollStream
  /-- Transaction: the read of RAWDATA_GRAB. -/
  | fragmentRead
  /-- R251: the clock has been read in the stream. -/
  | streamClockRead
  deriving DecidableEq, Repr

/-! ### The event trace (R70) -/

/-- R70: the boundary events. -/
inductive Event
  | cs (level : CsLevel) (ok : Bool)
  | xfer (tx : List Byte) (rx : Option (List Byte))
  | nativeCsDisable (ok : Bool)
  | now (t : Nat)
  | sleep (ms tBefore tAfter : Nat)
  | accept (cmd : Word)
  | ended (code : ErrCode)
  | reset
  deriving DecidableEq, Repr

/-! ### The environment (R4, R319) and the host's inputs (R20) -/

/-- R66: one answer of the sensor oracle. The bytes are cut or filled with 0x00 to the length of the frame, so every
answer has that length. -/
inductive Answer
  | busFail
  | bytes (rx : List Byte)
  deriving DecidableEq, Repr

/-- The sensor (R66, R67). -/
inductive Oracle
  /-- R66: the answers to come, in order; after the last, free answers. -/
  | script (answers : List Answer)
  /-- R67: SIM_SENSOR, its array S (as listed bytes; an unlisted address holds 0x00) and the scripted answers to frames
  that are not two bytes long. -/
  | sim (regs : Memory) (scripted : List (List Byte))
  deriving DecidableEq, Repr

/-- R319: the environment: the draws still to come at each port, and the last reading of the clock. When a list is used
up, the draw is a free value of Config, applied to `drawn`. Each clock draw says by how much a reading exceeds the one
before (R285). -/
structure Env where
  oracle : Oracle
  /-- Answers of CsAssert and CsDeassert; `true` is OK. -/
  csAnswers : List Bool
  /-- Answers of NativeCsDisable; `true` is OK. -/
  nativeAnswers : List Bool
  /-- Advances of Now(). -/
  nowSteps : List Nat
  /-- For each Sleep: the advance to the reading at its call, and the excess of its end over the bound. -/
  sleepSteps : List (Nat × Nat)
  /-- The last reading. -/
  clock : Nat
  /-- How many free values have been drawn. -/
  drawn : Nat
  deriving DecidableEq, Repr

/-- What the outside does next (R20): the inputs and the times at which they come are the outside's (R319). -/
inductive Input
  /-- The controller takes the next step. -/
  | pass
  /-- `MemRead(addr, n)` (R14). -/
  | read (addr : BitVec 12) (n : Nat)
  /-- `MemWrite(addr, n, v)` (R14). -/
  | write (addr : BitVec 12) (n : Nat) (v : Word)
  /-- One reset event (R300). -/
  | reset
  deriving DecidableEq, Repr

/-! ### The state -/

/-- Everything the spec gives the machine, and the model's own fields (the last group). -/
@[ext]
structure State where
  /-- R10: the configuration. No step writes it. -/
  cfg : Config
  /-- R23. -/
  status : Status
  /-- R24. -/
  errCode : ErrCode
  /-- R25. -/
  errInfo : Word
  /-- R26. -/
  dev : DevState
  /-- R27. -/
  result : Word
  /-- R28: RESP_LEN, 0..256. -/
  respLen : Nat
  /-- R29, R30. -/
  sample : Sample
  /-- R31. -/
  cal : CalStatus
  /-- R32. -/
  calVals : CalValues
  /-- R33. -/
  fc : FcStatus
  /-- R34. -/
  orient : Orient
  /-- R35, R36: RESP_BUF and PIXEL_BUF. -/
  mem : Memory
  /-- R41: CUR_CMD. It takes the accepted word in the acceptance step (log entry 25). -/
  curCmd : Word
  /-- R41: SEQ_SEG. -/
  seqSeg : BitVec 4
  /-- R41: SEQ_PC. -/
  seqPc : Nat
  /-- R41: RR_INDEX. -/
  rrIndex : Byte
  /-- R41: T0. It takes a reading in the step after the reading (log entry 15). -/
  t0 : Nat
  /-- R41: LOOP_ID. -/
  loopId : LoopId
  /-- R41: CS_LEVEL. It takes the level of a call in the step after the call (log entry 15). -/
  csLevel : CsLevel
  /-- R41: C1_WORK. -/
  c1Work : Nat
  /-- R41: C2_WORK. -/
  c2Work : Nat
  /-- R70: the event trace, oldest event first. -/
  trace : List Event
  /-- The control point. -/
  point : Point
  /-- The transaction under way (R131). -/
  tx : Tx
  /-- R142: `out`, the bytes the running ReadRegisters has read. -/
  rrOut : List Byte
  /-- The environment's draws. -/
  env : Env
  /-- What the outside does next; when the list is empty the controller takes every step. -/
  inputs : List Input
  /-- The value the host port returned to the last MemRead. -/
  hostData : Word
  deriving DecidableEq, Repr

/-- Why the machine stops. -/
inductive Fault
  /-- Raised by a command's meaning when the control point is not one of its own points, or when the transaction it waits
  for is not over. Safe: the machine stops. No run from reset reaches it (log entry 10). -/
  | offProgram
  deriving DecidableEq, Repr

/-- What the model gives no meaning. -/
inductive Refusal
  /-- Raised by exec's arm of an instruction that has no meaning yet. Safe. No arm raises it. -/
  | notModelled (mnemonic : String)
  /-- Raised by the power-on of an ill-formed configuration (R11, D39): "it has no run for one". Safe. -/
  | illFormedConfiguration
  /-- Raised by the player at a step word with F in 0x80..0xFE (R102). Safe: an admitted configuration has none. -/
  | illFormedStepWord
  deriving DecidableEq, Repr

/-- The outcome of a step of this machine. -/
abbrev Result := Host.Outcome State Fault Refusal

/-! ### Reset (R300, R301) -/

/-- R301: every register and internal state at its reset value, over a configuration. -/
def State.blank (cfg : Config) : State where
  cfg := cfg
  status := { busy := false, done := false, err := false, overrun := false }
  errCode := .none
  errInfo := 0
  dev := { state := .uninit, variant := .a, productId := 0, revisionId := 0, idValid := false }
  result := 0
  respLen := 0
  sample :=
    { dataReady := false, obstruction := false, valid := false, present := false, quality := 0, shutterUpper := 0,
      shutterLower := 0, rawSum := 0, rawMax := 0, rawMin := 0, statusByte := 0, deltaX := 0, deltaY := 0 }
  cal :=
    { phase := .idle, aBit7 := false, bTaken := false, aDone := false, bDone := false, diagByte := 0, bstatByte := 0,
      failPhase := .idle }
  calVals := { c1Raw := 0, c2Raw := 0, c1Adj := 0, c2Adj := 0 }
  fc :=
    { state := .idle, haveUpper := false, orderErr := false, initTimeout := false, lastGrabStatus := 0, pixelCount := 0 }
  orient := { byte := 0, written := false }
  mem := []
  curCmd := 0
  seqSeg := 0
  seqPc := 0
  rrIndex := 0
  t0 := 0
  loopId := .burstRead
  csLevel := .deasserted
  c1Work := 0
  c2Work := 0
  trace := []
  point := .idle
  tx := { frame := .read 0, phase := .idle }
  rrOut := []
  env :=
    { oracle := .script [], csAnswers := [], nativeAnswers := [], nowSteps := [], sleepSteps := [], clock := 0,
      drawn := 0 }
  inputs := []
  hostData := 0

/-- R300: what the reset event does to a state. The trace is kept and RESET appended; the configuration, the sensor and
the clock are untouched (R302), and so are the outside's next inputs. With a software select, the native-select disable
is the next step (R133). -/
def State.afterReset (s : State) : State :=
  { State.blank s.cfg with
    trace := s.trace ++ [.reset]
    env := s.env
    inputs := s.inputs
    hostData := s.hostData
    point := if s.cfg.swCs then .boot else .idle }

/-- The machine right after reset, over a configuration. -/
def State.resetOf (cfg : Config) : State := (State.blank cfg).afterReset

/-- The machine right after reset, over the configuration whose OPEN parameters nothing is known of. -/
def State.reset : State := State.resetOf Config.board

end Sys2Proof.Machine
end

