-- ==== Sys2Proof/Machine/Operands.lean ====
section
/-! DEFINITION. Operand forms: the sensor bytes the controller parses, the calibration arithmetic, and the register words
as the host reads them. -/

namespace Sys2Proof.Machine

/-! ### Byte and bit fields (R12) -/

/-- Element i of a byte list; a byte the list does not have reads 0x00. -/
def byteAt (l : List Byte) (i : Nat) : Byte := l.getD i 0

/-- R12: `v[i]`, one bit of a byte. -/
def bitAt (b : Byte) (i : Nat) : Bool := b.getLsbD i

/-- R12: `sext_16(v)`, a 16-bit field read as two's complement. -/
def sext16 (v : BitVec 16) : Int := v.toInt

/-! ### Responses (R104, R105, R210) -/

/-- R98: the result of a read frame is rx[1]. -/
def readResult (rx : List Byte) : Byte := byteAt rx 1

/-- R68, R210: a delta from its low and its high byte. -/
def deltaOf (lo hi : Byte) : BitVec 16 := hi ++ lo

/-- R210: ParseBurst but for VALID and PRESENT, under P_BURST_LAYOUT = DOC. -/
def parseBurstDoc (r : List Byte) : Sample where
  dataReady := bitAt (byteAt r 1) 7
  obstruction := bitAt (byteAt r 1) 6
  valid := false
  present := false
  quality := byteAt r 6
  shutterUpper := byteAt r 10
  shutterLower := byteAt r 11
  rawSum := byteAt r 7
  rawMax := byteAt r 8
  rawMin := byteAt r 9
  statusByte := byteAt r 1
  deltaX := deltaOf (byteAt r 2) (byteAt r 3)
  deltaY := deltaOf (byteAt r 4) (byteAt r 5)

/-- R210: the same under P_BURST_LAYOUT = SHIFTED. -/
def parseBurstShifted (r : List Byte) : Sample where
  dataReady := bitAt (byteAt r 1) 7
  obstruction := bitAt (byteAt r 2) 6
  valid := false
  present := false
  quality := byteAt r 7
  shutterUpper := byteAt r 11
  shutterLower := byteAt r 12
  rawSum := byteAt r 8
  rawMax := byteAt r 9
  rawMin := byteAt r 10
  statusByte := byteAt r 1
  deltaX := deltaOf (byteAt r 3) (byteAt r 4)
  deltaY := deltaOf (byteAt r 5) (byteAt r 6)

/-- R210: the layout the configuration selects. -/
def parseBurstFields (layout : BurstLayout) (r : List Byte) : Sample :=
  match layout with
  | .doc => parseBurstDoc r
  | .shifted => parseBurstShifted r

/-- R27: `(deltaY, deltaX)` as RESULT holds them. -/
def deltasWord (dx dy : BitVec 16) : Word := dy ++ dx

/-- R105: RESULT of a slow read, from its bytes s[1..4]. -/
def slowReadWord (s1 s2 s3 s4 : Byte) : Word := deltasWord (deltaOf s1 s2) (deltaOf s3 s4)

/-! ### Orientation (R108, R226) -/

/-- R108: `OrientByte(swap, invY, invX)`. -/
def orientByte (swap invY invX : Bool) : Byte := bitOfFlag swap ++ bitOfFlag invY ++ bitOfFlag invX ++ 0#5

/-- R226: P_ROTATION_MAP(d), for d in 0, 90, 180, 270. -/
def rotationByte (m : RotationMap) (degrees : Nat) : Option Byte :=
  if degrees = 0 then some m.deg0
  else if degrees = 90 then some m.deg90
  else if degrees = 180 then some m.deg180
  else if degrees = 270 then some m.deg270
  else none

/-! ### Fragments (R106, R243) -/

/-- R106: the payload of a lower fragment, f[L+1:L] with L = P_LOWER_SRC_LSB, from its low six bits. -/
def lowerPayload (src : LowerSrc) (low : BitVec 6) : BitVec 2 :=
  match src with
  | .bits32 => low.extractLsb' 2 2
  | .bits10 => low.extractLsb' 0 2

/-- R243: a pixel after an upper fragment. -/
def upperPixel (payload : BitVec 6) : Byte := payload ++ 0#2

/-- R243: a pixel after a lower fragment: its bits [7:2] kept. -/
def lowerPixel (old : Byte) (payload : BitVec 2) : Byte := old.extractLsb' 2 6 ++ payload

/-! ### Calibration arithmetic (R184, R185) -/

/-- R184: t before the clamp, on unbounded integers. -/
def c1Stepped (mode : C1Mode) (c1 : Nat) : Nat :=
  match mode with
  | .sequential =>
    let t := if c1 ≤ Config.c1Limit then c1 + Config.c1AddLow else c1
    if t > Config.c1Limit then t + Config.c1AddHigh else t
  | .exclusive => if c1 ≤ Config.c1Limit then c1 + Config.c1AddLow else c1 + Config.c1AddHigh

/-- R184: AdjC1; t is never negative, so the lower clamp does nothing. -/
def adjC1 (mode : C1Mode) (c1 : Nat) : Nat := min (c1Stepped mode c1) Config.c1Max

/-- R185: AdjC2(c2) = (c2 × 45) div 100. -/
def adjC2 (c2 : Nat) : Nat := c2 * Config.c2Mul / Config.c2Div

/-! ### Numbers of the encoded fields -/

/-- R24. -/
def ErrCode.number : ErrCode → Nat
  | .none => 0
  | .transport => 1
  | .timeout => 2
  | .identityMismatch => 3
  | .invalidArgument => 4
  | .illegalCommand => 5
  | .state => 6

/-- R26. -/
def Lifecycle.number : Lifecycle → Nat
  | .uninit => 0
  | .ready => 1
  | .failed => 2

/-- R31. -/
def BuPhase.number : BuPhase → Nat
  | .idle => 0
  | .reset => 1
  | .resetWait => 2
  | .flush => 3
  | .prologue => 4
  | .branchA => 5
  | .mid => 6
  | .branchB => 7
  | .sub => 8
  | .writeback => 9
  | .tail => 10
  | .trailer => 11
  | .idCheck => 12
  | .done => 13
  | .failed => 14

/-- R33. -/
def FcState.number : FcState → Nat
  | .idle => 0
  | .configuring => 1
  | .waitingForGrabReady => 2
  | .streaming => 3
  | .complete => 4
  | .timedOut => 5
  | .aborted => 6

/-- R25. -/
def LoopId.number : LoopId → Nat
  | .burstRead => 0
  | .slowRead => 1
  | .captureInit => 2
  | .captureStream => 3

/-! ### Register words (R23-R34): the fields at their bits, reserved bits 0 -/

/-- R23. -/
def Status.word (x : Status) : Word :=
  0#28 ++ bitOfFlag x.overrun ++ bitOfFlag x.err ++ bitOfFlag x.done ++ bitOfFlag x.busy

/-- R24. -/
def ErrCode.word (x : ErrCode) : Word := BitVec.ofNat 32 x.number

/-- R26: DEVSTATE, with SW_CS hardwired to P_SW_CS. -/
def DevState.word (swCs : Bool) (x : DevState) : Word :=
  0#7 ++ bitOfFlag x.idValid ++ x.revisionId ++ x.productId ++ 0#4 ++ bitOfFlag swCs ++ x.variant.bit
    ++ BitVec.ofNat 2 x.state.number

/-- R28. -/
def respLenWord (n : Nat) : Word := 0#23 ++ BitVec.ofNat 9 n

/-- R29. -/
def Sample.word0 (x : Sample) : Word :=
  x.shutterLower ++ x.shutterUpper ++ x.quality ++ 0#4 ++ bitOfFlag x.present ++ bitOfFlag x.valid
    ++ bitOfFlag x.obstruction ++ bitOfFlag x.dataReady

/-- R30. -/
def Sample.word1 (x : Sample) : Word := x.statusByte ++ x.rawMin ++ x.rawMax ++ x.rawSum

/-- R30. -/
def Sample.word2 (x : Sample) : Word := x.deltaY ++ x.deltaX

/-- R31. -/
def CalStatus.word (x : CalStatus) : Word :=
  0#4 ++ BitVec.ofNat 4 x.failPhase.number ++ x.bstatByte ++ x.diagByte ++ bitOfFlag x.bDone ++ bitOfFlag x.aDone
    ++ bitOfFlag x.bTaken ++ bitOfFlag x.aBit7 ++ BitVec.ofNat 4 x.phase.number

/-- R32. -/
def CalValues.word (x : CalValues) : Word := x.c2Adj ++ x.c1Adj ++ x.c2Raw ++ x.c1Raw

/-- R33. -/
def FcStatus.word (x : FcStatus) : Word :=
  0#5 ++ BitVec.ofNat 11 x.pixelCount ++ x.lastGrabStatus ++ 0#2 ++ bitOfFlag x.initTimeout ++ bitOfFlag x.orderErr
    ++ bitOfFlag x.haveUpper ++ BitVec.ofNat 3 x.state.number

/-- R34. -/
def Orient.word (x : Orient) : Word := 0#23 ++ bitOfFlag x.written ++ x.byte

/-! ### ERRINFO layouts (R25) -/

/-- R25, code 1: FRAME_B0 and CS_FAULT. -/
def transportInfo (frameB0 : Byte) (csFault : Bool) : Word := 0#23 ++ bitOfFlag csFault ++ frameB0

/-- R25, code 2: LOOP and PIXELS. -/
def timeoutInfo (loop : LoopId) (pixels : Nat) : Word :=
  0#5 ++ BitVec.ofNat 11 pixels ++ 0#14 ++ BitVec.ofNat 2 loop.number

/-- R25, code 3: productId and revisionId. -/
def identityInfo (product revision : Byte) : Word := 0#16 ++ revision ++ product

end Sys2Proof.Machine
end

