-- ==== Sys2Proof/Machine/Flags.lean ====
section
/-! DEFINITION. Every test and flag the spec computes: permissions, argument checks, validity, readiness, deadlines,
identity, and the STATUS flags at acceptance and at a command's end. -/

namespace Sys2Proof.Machine

/-- R180: the Permitted table. A frame, a step or a fragment is no command and has no entry: nothing asks for one. -/
def permitted (i : Instr) (d : Lifecycle) : Bool :=
  match i with
  | .writeReg _ _ | .readReg _ | .readRegs _ _ | .burstXfer _ _ | .playSeq _ => d != .failed
  | .bringUp _ => d == .uninit
  | .burstRead _ | .slowRead _ | .frameCapture _ | .setOrientation _ _ _ | .setRotation _ => d == .ready
  | .writeFrame _ _ | .readFrame _ | .burstFrame _ _ | .motionBurstFrame | .seqWrite _ _ | .seqWait _ | .fragUpper _
  | .fragLower _ | .fragNone00 _ | .fragNone11 _ => true

/-- R95: ArgsValid. -/
def argsValid (i : Instr) : Bool :=
  match i with
  | .readRegs a n => n.toNat == 0 || a.toNat + n.toNat - 1 ≤ 0x7F
  | .playSeq seg => seg.toNat ≤ 10
  | .setRotation d => d.toNat == 0 || d.toNat == 90 || d.toNat == 180 || d.toNat == 270
  | .writeReg _ _ | .readReg _ | .burstXfer _ _ | .bringUp _ | .burstRead _ | .slowRead _ | .frameCapture _
  | .setOrientation _ _ _ | .writeFrame _ _ | .readFrame _ | .burstFrame _ _ | .motionBurstFrame | .seqWrite _ _
  | .seqWait _ | .fragUpper _ | .fragLower _ | .fragNone00 _ | .fragNone11 _ => true

/-- R211: `Valid(s) = (s.dataReady = 1) and not (s.quality < 0x19 and s.shutterUpper = 0x1F)`. -/
def sampleValid (x : Sample) : Bool :=
  x.dataReady && !(decide (x.quality.toNat < Config.qualityMin.toNat) && x.shutterUpper == Config.shutterUpperSat)

/-- R210, R220: the sample the three SAMPLE registers hold after an attempt: VALID by R211, PRESENT set. -/
def parseBurst (layout : BurstLayout) (r : List Byte) : Sample :=
  let x := parseBurstFields layout r
  { x with valid := sampleValid x, present := true }

/-- R105, R109: data-ready is bit 7 of the slow read's first byte. -/
def slowReady (dataReadyByte : Byte) : Bool := bitAt dataReadyByte 7

/-- R107: grab-ready iff `(g & 0xC0) = 0xC0`. -/
def grabReady (g : Byte) : Bool := g &&& Config.grabReadyMask == Config.grabReadyMask

/-- R213, R251: `now - T0 > T × 1000`. -/
def expired (now t0 timeoutMs : Nat) : Bool := decide (now - t0 > timeoutMs * Config.unitsPerMs)

/-- R189: the identity test. -/
def identityOk (product revision : Byte) : Bool :=
  product == Config.productId && (revision == 0x00 || revision == 0x01)

/-- R22: STATUS when a command is accepted: BUSY set, DONE, ERR and OVERRUN clear. -/
def Status.accepted (_ : Status) : Status := { busy := true, done := false, err := false, overrun := false }

/-- R22: STATUS when a command word is dropped. -/
def Status.dropped (x : Status) : Status := { x with overrun := true }

/-- R271: STATUS at a success end. -/
def Status.succeeded (x : Status) : Status := { x with busy := false, done := true }

/-- R272: STATUS at an error end. -/
def Status.erred (x : Status) : Status := { x with busy := false, done := true, err := true }

/-- R243, R245: FC_STATUS after an upper fragment. -/
def FcStatus.upper (x : FcStatus) : FcStatus :=
  { x with orderErr := x.orderErr || x.haveUpper, haveUpper := true }

/-- R243, R245: FC_STATUS after a lower fragment, which completes the pixel. -/
def FcStatus.lower (x : FcStatus) : FcStatus :=
  { x with orderErr := x.orderErr || !x.haveUpper, haveUpper := false, pixelCount := x.pixelCount + 1 }

end Sys2Proof.Machine
end

