-- ==== Sys2Proof/Machine/Ops.lean ====
section
/-! DEFINITION. The named operations over the state: field updates, the buffers, the boundary events (R15), transactions
(R131), ReadRegisters (R142), acceptance (R22), and the two ends of a command (R271, R272). -/

namespace Sys2Proof.Machine

/-! ### Field updates (the simp lemmas of each are made by `simps`) -/

namespace State

@[simps] def setStatus (v : Status) (s : State) : State := { s with status := v }
@[simps] def setErr (code : ErrCode) (info : Word) (s : State) : State := { s with errCode := code, errInfo := info }
@[simps] def setDev (v : DevState) (s : State) : State := { s with dev := v }
@[simps] def setResult (v : Word) (s : State) : State := { s with result := v }
@[simps] def setRespLen (v : Nat) (s : State) : State := { s with respLen := v }
@[simps] def setSample (v : Sample) (s : State) : State := { s with sample := v }
@[simps] def setCal (v : CalStatus) (s : State) : State := { s with cal := v }
@[simps] def setCalVals (v : CalValues) (s : State) : State := { s with calVals := v }
@[simps] def setFc (v : FcStatus) (s : State) : State := { s with fc := v }
@[simps] def setOrient (v : Orient) (s : State) : State := { s with orient := v }
@[simps] def setMem (v : Memory) (s : State) : State := { s with mem := v }
@[simps] def setCurCmd (v : Word) (s : State) : State := { s with curCmd := v }
@[simps] def setSeq (seg : BitVec 4) (pc : Nat) (s : State) : State := { s with seqSeg := seg, seqPc := pc }
@[simps] def setRrIndex (v : Byte) (s : State) : State := { s with rrIndex := v }
@[simps] def setRrOut (v : List Byte) (s : State) : State := { s with rrOut := v }
@[simps] def setT0 (v : Nat) (s : State) : State := { s with t0 := v }
@[simps] def setLoopId (v : LoopId) (s : State) : State := { s with loopId := v }
@[simps] def setCsLevel (v : CsLevel) (s : State) : State := { s with csLevel := v }
@[simps] def setWork (w1 w2 : Nat) (s : State) : State := { s with c1Work := w1, c2Work := w2 }
@[simps] def setPoint (v : Point) (s : State) : State := { s with point := v }
@[simps] def setTx (v : Tx) (s : State) : State := { s with tx := v }
@[simps] def setEnv (v : Env) (s : State) : State := { s with env := v }
@[simps] def setInputs (v : List Input) (s : State) : State := { s with inputs := v }
@[simps] def setHostData (v : Word) (s : State) : State := { s with hostData := v }
/-- R70: an event is appended to the trace. -/
@[simps] def emit (e : Event) (s : State) : State := { s with trace := s.trace ++ [e] }

end State

/-! ### The buffers (R35, R36, R62) -/

namespace Memory

/-- The byte at an offset; an unlisted offset reads 0x00. -/
def read : Memory → Nat → Byte
  | [], _ => 0
  | (b, v) :: rest, a => if b = a then v else read rest a

/-- A nonzero byte put at its place. -/
def insert : Memory → Nat → Byte → Memory
  | [], a, v => [(a, v)]
  | (b, w) :: rest, a, v =>
    if a < b then (a, v) :: (b, w) :: rest
    else if a = b then (a, v) :: rest
    else (b, w) :: insert rest a v

/-- Every listed byte at offsets lo .. lo + n - 1 taken out, so that all of them read 0x00. -/
def clear (m : Memory) (lo n : Nat) : Memory := m.filter (fun c => !(decide (lo ≤ c.1) && decide (c.1 < lo + n)))

/-- One byte written; writing 0x00 takes the entry out. -/
def write (m : Memory) (a : Nat) (v : Byte) : Memory := if v = 0 then clear m a 1 else insert m a v

/-- The canonical form: addresses strictly rising, and no byte equal to what an unlisted address reads as. -/
abbrev wf (m : Memory) : Prop := m.Pairwise (fun x y => x.1 < y.1) ∧ ∀ c ∈ m, c.2 ≠ 0

end Memory

/-- R35: RESP_BUF starts at 0x100. -/
abbrev respBase : Nat := 0x100
/-- R36: PIXEL_BUF starts at 0x800. -/
abbrev pixelBase : Nat := 0x800

/-- R21: an offset of RESP_BUF or of PIXEL_BUF. -/
def inBuffers (a : Nat) : Bool :=
  (decide (respBase ≤ a) && decide (a < respBase + Config.respBufBytes))
    || (decide (pixelBase ≤ a) && decide (a < pixelBase + Config.framePixels))

namespace State

/-- R35: RESP_BUF[i]. -/
def respByte (s : State) (i : Nat) : Byte := Memory.read s.mem (respBase + i)

/-- R36: PIXEL_BUF[i]. -/
def pixelByte (s : State) (i : Nat) : Byte := Memory.read s.mem (pixelBase + i)

/-- R35: RESP_BUF[i] <- v; no byte lies past the buffer. -/
def putResp (i : Nat) (v : Byte) (s : State) : State :=
  if i < Config.respBufBytes then s.setMem (Memory.write s.mem (respBase + i) v) else s

/-- R36: PIXEL_BUF[i] <- v; no byte lies past the buffer. -/
def putPixel (i : Nat) (v : Byte) (s : State) : State :=
  if i < Config.framePixels then s.setMem (Memory.write s.mem (pixelBase + i) v) else s

/-- R35: RESP_BUF <- repeat(256, 0x00) and RESP_LEN <- 0. -/
def clearResp (s : State) : State := (s.setMem (Memory.clear s.mem respBase Config.respBufBytes)).setRespLen 0

/-- R250: PIXEL_BUF <- repeat(1225, 0x00). -/
def clearPixels (s : State) : State := s.setMem (Memory.clear s.mem pixelBase Config.framePixels)

/-- R153, R220: RESP_BUF[i], RESP_BUF[i+1], ... <- the bytes of a list, in order. -/
def putRespFrom : Nat → List Byte → State → State
  | _, [], s => s
  | i, b :: bs, s => putRespFrom (i + 1) bs (s.putResp i b)

end State

/-! ### The environment's draws (R66, R67, R285, R319) -/

/-- An answer has the length of its frame (R66). -/
def fitLength (n : Nat) (l : List Byte) : List Byte := (l ++ List.replicate n 0).take n

/-- R153, R220: RESP_BUF holds a whole response of n bytes, and RESP_LEN is n. -/
def State.fillResp (n : Nat) (rx : List Byte) (s : State) : State := (s.putRespFrom 0 (fitLength n rx)).setRespLen n

/-- R66: the n-th free answer to a frame of some length. -/
def freeAnswer (n len : Nat) : Option (List Byte) :=
  if Config.freeBusFail n then none else some ((List.range len).map (Config.freeByte n))

/-- R67: SimXfer. -/
def simXfer (regs : Memory) (scripted : List (List Byte)) (tx : List Byte) : List Byte × Oracle :=
  match tx with
  | [b, v] =>
    if bitAt b 7 then ([0, 0], .sim (Memory.write regs (b.extractLsb' 0 7).toNat v) scripted)
    else ([0, Memory.read regs (b.extractLsb' 0 7).toNat], .sim regs scripted)
  | _ =>
    match scripted with
    | [] => (List.replicate tx.length 0, .sim regs [])
    | l :: rest => (fitLength tx.length l, .sim regs rest)

namespace Env

/-- R66: one answer of the oracle to the bytes of a frame; `none` is BUS_FAIL. -/
def exchange (e : Env) (tx : List Byte) : Option (List Byte) × Env :=
  match e.oracle with
  | .sim regs scripted => (some (simXfer regs scripted tx).1, { e with oracle := (simXfer regs scripted tx).2 })
  | .script (.busFail :: rest) => (none, { e with oracle := .script rest })
  | .script (.bytes l :: rest) => (some (fitLength tx.length l), { e with oracle := .script rest })
  | .script [] => (freeAnswer e.drawn tx.length, { e with drawn := e.drawn + 1 })

/-- R15: one answer of CsAssert or CsDeassert; `true` is OK. -/
def csAnswer (e : Env) : Bool × Env :=
  match e.csAnswers with
  | b :: rest => (b, { e with csAnswers := rest })
  | [] => (Config.freeCsOk e.drawn, { e with drawn := e.drawn + 1 })

/-- R133: the answer of NativeCsDisable; `true` is OK. -/
def nativeAnswer (e : Env) : Bool × Env :=
  match e.nativeAnswers with
  | b :: rest => (b, { e with nativeAnswers := rest })
  | [] => (Config.freeNativeOk e.drawn, { e with drawn := e.drawn + 1 })

/-- R285: one reading of the clock, at least the one before. -/
def now (e : Env) : Nat × Env :=
  match e.nowSteps with
  | d :: rest => (e.clock + d, { e with nowSteps := rest, clock := e.clock + d })
  | [] =>
    (e.clock + Config.freeNowStep e.drawn, { e with clock := e.clock + Config.freeNowStep e.drawn, drawn := e.drawn + 1 })

/-- R15, R285: a sleep of some milliseconds: the reading at its call, and the reading at its end, at least the bound
later. -/
def sleep (e : Env) (ms : Nat) : Nat × Nat × Env :=
  match e.sleepSteps with
  | (d, extra) :: rest =>
    (e.clock + d, e.clock + d + ms * Config.unitsPerMs + extra,
      { e with sleepSteps := rest, clock := e.clock + d + ms * Config.unitsPerMs + extra })
  | [] =>
    let t := e.clock + Config.freeNowStep e.drawn
    let t' := t + ms * Config.unitsPerMs + Config.freeSleepOver e.drawn
    (t, t', { e with clock := t', drawn := e.drawn + 1 })

end Env

/-! ### Boundary events (R15): each is one step's event, appended to the trace -/

namespace State

/-- R15: `Now()`. -/
def nowEvent (s : State) : State := (s.setEnv s.env.now.2).emit (.now s.env.now.1)

/-- R213, R250: the assignment of `x[T0] <- Now()`, in the step after the reading (R3, log entry 15): the clock still
stands at that reading. -/
@[simps] def takeT0 (s : State) : State := { s with t0 := s.env.clock }

/-- R15: `Sleep(ms)`. -/
def sleepEvent (ms : Nat) (s : State) : State :=
  (s.setEnv (s.env.sleep ms).2.2).emit (.sleep ms (s.env.sleep ms).1 (s.env.sleep ms).2.1)

/-- R133: `NativeCsDisable()`; both answers lead to the same controller state. -/
def nativeDisableEvent (s : State) : State :=
  (s.setEnv s.env.nativeAnswer.2).emit (.nativeCsDisable s.env.nativeAnswer.1)

/-- R131: `a <- CsAssert()`. -/
def assertEvent (s : State) : State := (s.setEnv s.env.csAnswer.2).emit (.cs .asserted s.env.csAnswer.1)

/-- R131: `d <- CsDeassert()`. -/
def deassertEvent (s : State) : State := (s.setEnv s.env.csAnswer.2).emit (.cs .deasserted s.env.csAnswer.1)

/-- R15: `Xfer(tx)`. -/
def xferEvent (bytes : List Byte) (s : State) : State :=
  (s.setEnv (s.env.exchange bytes).2).emit (.xfer bytes (s.env.exchange bytes).1)

/-! ### Transactions (R131, R132) -/

/-- R131: how an exchange ends the transaction when the deassert answers `d`: BUS_FAIL is reported first. -/
def txResult (rx : Option (List Byte)) (d : Bool) : TxResult :=
  match rx with
  | none => .failed false
  | some l => if d then .ok l else .failed true

/-- R131: the first event of a transaction: the assert when a software select is configured, else the exchange (R132). -/
def txFirst (f : Frame) (s : State) : State :=
  if s.cfg.swCs then
    s.assertEvent.setTx { frame := f, phase := if s.env.csAnswer.1 then .selected else .abandoned }
  else (s.xferEvent f.bytes).setTx { frame := f, phase := .ended (txResult (s.env.exchange f.bytes).1 true) }

/-- R131: the next event of the transaction of a frame. The event after the assert records the level it asked for:
`x[CS_LEVEL] <- ASSERTED` (R3, log entry 15). -/
def busEvent (f : Frame) (s : State) : State :=
  match s.tx.phase with
  | .idle | .requested | .ended _ => s.txFirst f
  | .selected =>
    ((s.setCsLevel .asserted).xferEvent f.bytes).setTx { frame := f, phase := .exchanged (s.env.exchange f.bytes).1 }
  | .abandoned => (s.setCsLevel .asserted).deassertEvent.setTx { frame := f, phase := .ended (.failed true) }
  | .exchanged rx => s.deassertEvent.setTx { frame := f, phase := .ended (txResult rx s.env.csAnswer.1) }

/-- A transaction of a frame is begun, and its first event done; the command goes on at `k` when it is over. -/
def transact (f : Frame) (k : Point) (s : State) : State :=
  ((s.setPoint k).setTx { frame := f, phase := .requested }).busEvent f

/-- The transaction under way has events to come. -/
def busBusy (s : State) : Bool :=
  match s.tx.phase with
  | .requested | .selected | .abandoned | .exchanged _ => true
  | .idle | .ended _ => false

/-- R131: the result of a transaction is taken. With a software select that step also records the level its deassert asked
for: `x[CS_LEVEL] <- DEASSERTED` (R3, log entry 15). -/
@[simps] def taken (s : State) : State :=
  { s with
    tx := { frame := s.tx.frame, phase := .idle }
    csLevel := if s.cfg.swCs then .deasserted else s.csLevel }

/-- R131: the transaction is over and its result taken: the response goes to `k`, a TRANSPORT error (its ERRINFO word)
to `fail`. -/
def onTx (s : State) (fail : Word → State → Result) (k : List Byte → State → Result) : Result :=
  match s.tx.phase with
  | .ended (.ok rx) => k rx s.taken
  | .ended (.failed cs) => fail (transportInfo s.tx.frame.byte0 cs) s.taken
  | .idle | .requested | .selected | .abandoned | .exchanged _ => .fault .offProgram

/-! ### ReadRegisters (R142) -/

/-- R142: read i, of the register i after the base. -/
def readAt (base : Addr7) (i : Nat) (k : Point) (s : State) : State :=
  (s.setRrIndex (BitVec.ofNat 8 i)).transact (.read (base + BitVec.ofNat 7 i)) k

/-- R142: `ReadRegisters(base, n)` begins, for n at least 1. -/
def readRegsBegin (base : Addr7) (k : Point) (s : State) : State := (s.setRrOut []).readAt base 0 k

/-- R142: read RR_INDEX has returned a byte: the next read, or the end of the procedure. -/
def readRegsNext (base : Addr7) (n : Nat) (k : Point) (b : Byte) (done : State → Result) (s : State) : Result :=
  if s.rrIndex.toNat + 1 < n then .next ((s.setRrOut (s.rrOut ++ [b])).readAt base (s.rrIndex.toNat + 1) k)
  else done (s.setRrOut (s.rrOut ++ [b]))

/-! ### A command's acceptance and its two ends -/

/-- R22: an idle controller accepts a command word. That CUR_CMD takes it in this step, and not in the command's first, is
the model's (DESIGN CHOICE, log entry 25): R22 does not list it, and R96 assigns it at the head of Execute. -/
def accept (w : Word) (s : State) : State :=
  ((((s.setStatus s.status.accepted).setErr .none 0).setCurCmd w).setPoint .start).emit (.accept w)

/-- R22: a word that comes while a command runs is dropped. -/
def dropCommand (s : State) : State := s.setStatus s.status.dropped

/-- R272: ErrorEnd, the one operation that takes an error: `raise E(info)` ends the command, undoing nothing (R273). -/
def raise (code : ErrCode) (info : Word) (s : State) : State :=
  (((s.setErr code info).setStatus s.status.erred).setPoint .idle).emit (.ended code)

/-- R271: SuccessEnd. -/
def succeed (s : State) : State := ((s.setStatus s.status.succeeded).setPoint .idle).emit (.ended .none)

/-- R96: the checks between acceptance and a command's rule, in their order (R274): STATE, then INVALID_ARGUMENT. -/
def gate (i : Instr) (s : State) (k : State → Result) : Result :=
  if permitted i s.dev.state then
    if argsValid i then k s else .next (s.raise .invalidArgument s.curCmd)
  else .next (s.raise .state s.curCmd)

/-- R131: a TRANSPORT error that changes nothing but the error registers. -/
def raiseTransport (info : Word) (s : State) : Result := .next (s.raise .transport info)

end State

end Sys2Proof.Machine
end

