-- ==== Sys2Proof/Machine/Sequencer.lean ====
section
/-! DEFINITION. The sequence player and its step words (R160-R164), and PLAY_SEQ (R165). -/

namespace Sys2Proof.Machine

/-- SEQ_WRITE (R162): exactly one `WriteRegister(F, G)`. SEQ_PC advances when its transaction has succeeded (R161). -/
def execSeqWrite (f : Addr7) (g : Byte) (s : State) : Result := .next (s.transact (.write f g) .stepWritten)

/-- SEQ_WAIT (R163): exactly one `Sleep(G)` and no bus event. SEQ_PC advances in the step after it (R161, R3). -/
def execSeqWait (g : Byte) (s : State) : Result := .next ((s.sleepEvent g.toNat).setPoint .stepWaited)

/-- R161: `SEG(s)[pc]`, the step word at SEQ_PC. -/
def State.stepWord (s : State) : Option (BitVec 16) := (s.cfg.segment s.seqSeg.toNat)[s.seqPc]?

/-- R160: one step word run. A word with F in 0x80..0xFE is in no admitted configuration (R102). -/
def runStep (w : BitVec 16) (s : State) : Result :=
  match decodeStep w with
  | .ok (.seqWrite f g) => execSeqWrite f g s
  | .ok (.seqWait g) => execSeqWait g s
  | .ok _ | .error _ => .refused .illFormedStepWord

/-- R161: the loop of Play: the step word at SEQ_PC, or `done` when the segment is at its end. -/
def State.playNext (done : State → Result) (s : State) : Result :=
  match s.stepWord with
  | none => done s
  | some w => runStep w s

/-- R161: `Play(seg)` begins. -/
def State.play (seg : BitVec 4) (done : State → Result) (s : State) : Result := (s.setSeq seg 0).playNext done

/-- R161: `pc <- pc + 1`. -/
@[simps] def State.nextWord (s : State) : State := { s with seqPc := s.seqPc + 1 }

/-- R161, R164: Play goes on past the step word that is done. After a write step a TRANSPORT error ends it, with SEQ_PC left
at that step. -/
def State.playResume (fail : Word → State → Result) (done : State → Result) (s : State) : Result :=
  match s.point with
  | .stepWaited => s.nextWord.playNext done
  | .stepWritten => s.onTx fail (fun _ s => s.nextWord.playNext done)
  | _ => .fault .offProgram

/-- PLAY_SEQ (R165): `Play(s)`, for s at most 10. -/
def execPlaySeq (seg : BitVec 4) (s : State) : Result :=
  match s.point with
  | .start => s.gate (.playSeq seg) (fun s => s.play seg (fun s => .next s.succeed))
  | .stepWaited | .stepWritten => s.playResume State.raiseTransport (fun s => .next s.succeed)
  | _ => .fault .offProgram

end Sys2Proof.Machine
end

