-- ==== Sys2Proof/Machine/Calibration.lean ====
section
/-! DEFINITION. BRING_UP (R181): reset, flush, the secret sauce with its branches A and B, and the identity check
(R182, R183, R186-R189). Each part stands before the part that it leads to is called, so the parts are written last to
first. -/

namespace Sys2Proof.Machine

/-- R31: BU_PHASE <- p. -/
def State.setPhase (p : BuPhase) (s : State) : State := s.setCal { s.cal with phase := p }

/-- R103: segment 5v + k is part k of variant v. -/
def partSegment (v : Variant) (k : Nat) : BitVec 4 := BitVec.ofNat 4 (5 * v.bit.toNat + k)

/-- R181, R189: what a failing BRING_UP leaves: FAIL_PHASE, BU_PHASE <- FAILED and DEVSTATE.STATE <- FAILED. -/
def State.markFailed (s : State) : State :=
  (s.setCal { s.cal with failPhase := s.cal.phase, phase := .failed }).setDev { s.dev with state := .failed }

/-- R181: "on TRANSPORT(info) anywhere". -/
def bringUpFail (info : Word) (s : State) : Result := .next (s.markFailed.raise .transport info)

/-- R181: the end of a BRING_UP that succeeds. -/
def bringUpDone (s : State) : Result :=
  .next ((s.setPhase .done).setDev { s.dev with state := .ready }).succeed

/-- R189: both identity bytes have been read; they are recorded, then tested. -/
def identityVerdict (s : State) : Result :=
  let p := byteAt s.rrOut 0
  let r := byteAt s.rrOut 1
  let s' := s.setDev { s.dev with productId := p, revisionId := r, idValid := true }
  if identityOk p r then bringUpDone s' else .next (s'.markFailed.raise .identityMismatch (identityInfo p r))

/-- R189: IdentityCheck begins. -/
def identityCheck (s : State) : Result := .next ((s.setPhase .idCheck).readRegsBegin Config.idReg .idRead)

/-- R186 (e): the trailer. -/
def trailerPart (v : Variant) (s : State) : Result := (s.setPhase .trailer).play (partSegment v 4) identityCheck

/-- R186 (e): the tail. -/
def tailPart (v : Variant) (s : State) : Result := (s.setPhase .tail).play (partSegment v 3) (trailerPart v)

/-- R188: the write-back of the adjusted c1. -/
def writebackPart (v : Variant) (s : State) : Result :=
  .next ((s.setPhase .writeback).transact (.write (s.cfg.regs v).c1Dst s.calVals.c1Adj) .c1Written)

/-- R188: the intermediate sub-sequence. -/
def subPart (v : Variant) (s : State) : Result := (s.setPhase .sub).play (partSegment v 2) (writebackPart v)

/-- R188: branch B reads the status register. -/
def branchBPart (v : Variant) (s : State) : Result :=
  .next ((s.setPhase .branchB).transact (.read (s.cfg.regs v).stat) .statRead)

/-- R186 (c): the mid-sequence. -/
def midPart (v : Variant) (s : State) : Result := (s.setPhase .mid).play (partSegment v 1) (branchBPart v)

/-- R187: branch A reads the diagnostic register. -/
def branchAPart (v : Variant) (s : State) : Result :=
  .next ((s.setPhase .branchA).transact (.read (s.cfg.regs v).diag) .diagRead)

/-- R186 (a): the prologue. -/
def prologuePart (v : Variant) (s : State) : Result := (s.setPhase .prologue).play (partSegment v 0) (branchAPart v)

/-- R186: what follows the segment of the phase. -/
def afterSegment (v : Variant) (s : State) : Result :=
  match s.cal.phase with
  | .prologue => branchAPart v s
  | .mid => branchBPart v s
  | .sub => writebackPart v s
  | .tail => trailerPart v s
  | .trailer => identityCheck s
  | _ => .fault .offProgram

/-- R181, R182: VARIANT, the cleared CAL registers, and the reset write. -/
def bringUpBegin (v : Variant) (s : State) : State :=
  (((s.setDev { s.dev with variant := v, idValid := false }).setCal (State.blank s.cfg).cal).setCalVals
    (State.blank s.cfg).calVals |>.setPhase .reset).transact (.write Config.resetReg Config.resetCmd) .resetWritten

/-- R187: the diagnostic byte is recorded, and its bit 7 alone selects the value written. -/
def diagVerdict (v : Variant) (d : Byte) (s : State) : Result :=
  .next ((s.setCal { s.cal with diagByte := d, aBit7 := bitAt d 7, aDone := true }).transact
    (.write (s.cfg.regs v).cfg (if bitAt d 7 then Config.cfgIfBit7 else Config.cfgIfNotBit7)) .cfgWritten)

/-- R188: the status byte is recorded; 0x00 takes the branch. -/
def statVerdict (v : Variant) (b : Byte) (s : State) : Result :=
  let s' := s.setCal { s.cal with bstatByte := b, bDone := true, bTaken := b == 0 }
  if b = 0 then .next (s'.transact (.read (s.cfg.regs v).c1) .c1Read) else tailPart v s'

/-- R188: c2 has been read: both bytes are adjusted and recorded, and the sub-sequence begins. -/
def adjustPart (v : Variant) (c2 : Byte) (s : State) : Result :=
  let c1 := s.calVals.c1Raw.toNat
  subPart v
    ((s.setCalVals
      { s.calVals with
        c2Raw := c2, c1Adj := BitVec.ofNat 8 (adjC1 s.cfg.c1Mode c1), c2Adj := BitVec.ofNat 8 (adjC2 c2.toNat) }).setWork
      (c1Stepped s.cfg.c1Mode c1) (adjC2 c2.toNat))

/-- BRING_UP (R181): reset, flush, calibrate and identify the sensor, in fixed order. -/
def execBringUp (v : Variant) (s : State) : Result :=
  match s.point with
  | .start => s.gate (.bringUp v) (fun s => .next (bringUpBegin v s))
  | .resetWritten =>
    s.onTx bringUpFail (fun _ s =>
      .next (((s.setPhase .resetWait).sleepEvent Config.resetWaitMs).setPoint .resetWaited))
  | .resetWaited => .next ((s.setPhase .flush).readRegsBegin Config.flushReg .flushRead)
  | .flushRead =>
    s.onTx bringUpFail (fun rx s =>
      s.readRegsNext Config.flushReg Config.flushCount .flushRead (readResult rx) (prologuePart v))
  | .stepWaited | .stepWritten => s.playResume bringUpFail (afterSegment v)
  | .diagRead => s.onTx bringUpFail (fun rx s => diagVerdict v (readResult rx) s)
  | .cfgWritten => s.onTx bringUpFail (fun _ s => midPart v s)
  | .statRead => s.onTx bringUpFail (fun rx s => statVerdict v (readResult rx) s)
  | .c1Read =>
    s.onTx bringUpFail (fun rx s =>
      .next ((s.setCalVals { s.calVals with c1Raw := readResult rx }).transact (.read (s.cfg.regs v).c2) .c2Read))
  | .c2Read => s.onTx bringUpFail (fun rx s => adjustPart v (readResult rx) s)
  | .c1Written =>
    s.onTx bringUpFail (fun _ s => .next (s.transact (.write (s.cfg.regs v).c2Dst s.calVals.c2Adj) .c2Written))
  | .c2Written => s.onTx bringUpFail (fun _ s => tailPart v s)
  | .idRead =>
    s.onTx bringUpFail (fun rx s =>
      s.readRegsNext Config.idReg Config.idCount .idRead (readResult rx) identityVerdict)
  | _ => .fault .offProgram

end Sys2Proof.Machine
end

