-- ==== Sys2Proof/Machine/Capture.lean ====
section
/-! DEFINITION. The pixel accumulator with its four fragment kinds (R243, R247) and FRAME_CAPTURE (R250). -/

namespace Sys2Proof.Machine

/-! ### The fragments: Accumulate(f) (R243) -/

/-- FRAG_UPPER (R243): the pixel's bits [7:2]; two uppers in a row set ORDER_ERR. -/
def execFragUpper (u : BitVec 6) (s : State) : Result :=
  .next ((s.putPixel s.fc.pixelCount (upperPixel u)).setFc s.fc.upper)

/-- FRAG_LOWER (R243): the pixel's bits [1:0], which completes it; a lower with no upper sets ORDER_ERR. -/
def execFragLower (low : BitVec 6) (s : State) : Result :=
  .next
    ((s.putPixel s.fc.pixelCount
      (lowerPixel (s.pixelByte s.fc.pixelCount) (lowerPayload s.cfg.lowerSrc low))).setFc s.fc.lower)

/-- FRAG_NONE_00 (R247): not a fragment; nothing changes. -/
def execFragNone00 (_ : BitVec 6) (s : State) : Result := .next s

/-- FRAG_NONE_11 (R247): not a fragment; nothing changes. -/
def execFragNone11 (_ : BitVec 6) (s : State) : Result := .next s

/-- R243: Accumulate(f), the fragment byte read. -/
def accumulate (f : Byte) (s : State) : Result :=
  match decodeFragment f with
  | .fragUpper u => execFragUpper u s
  | .fragLower b => execFragLower b s
  | .fragNone00 b => execFragNone00 b s
  | .fragNone11 b => execFragNone11 b s
  | _ => .fault .offProgram

/-- A further action on the next state, in the same step. -/
def onNext (r : Result) (k : State → Result) : Result :=
  match r with
  | .next s => k s
  | .fault e => .fault e
  | .refused e => .refused e

/-! ### FRAME_CAPTURE (R250) -/

/-- R240: FC_STATE <- x. -/
def State.setFcState (x : FcState) (s : State) : State := s.setFc { s.fc with state := x }

/-- R246: a TRANSPORT error of a capture. -/
def captureFail (info : Word) (s : State) : Result := .next ((s.setFcState .aborted).raise .transport info)

/-- R250: FC_STATUS on entering CONFIGURING. -/
def FcStatus.configured : FcStatus where
  state := .configuring
  haveUpper := false
  orderErr := false
  initTimeout := false
  lastGrabStatus := 0
  pixelCount := 0

/-- R250: the wait after the pre-capture sequence (D48). -/
def captureWait (s : State) : Result := .next ((s.sleepEvent Config.precaptureWaitMs).setPoint .captureWaited)

/-- R103: segment PRECAPTURE. -/
abbrev precaptureSegment : BitVec 4 := 10

/-- R250: a read of RAWDATA_GRAB_STATUS. -/
def State.readGrabStatus (s : State) : State := s.transact (.read Config.grabStatusReg) .grabRead

/-- R250: a read of RAWDATA_GRAB. -/
def State.readGrab (s : State) : State := s.transact (.read Config.grabReg) .fragmentRead

/-- R250: "if P_FRAME_POLL_SLEEP_MIN_MS > 0: Sleep", then the next attempt. -/
def State.pollAgain (k : Point) (attempt : State → State) (s : State) : State :=
  if s.cfg.framePollSleepMs > 0 then (s.sleepEvent s.cfg.framePollSleepMs).setPoint k else attempt s

/-- R250: a grab-status byte: the trigger write when it is ready, else the clock for the init deadline. -/
def grabVerdict (g : Byte) (s : State) : Result :=
  let s' := s.setFc { s.fc with lastGrabStatus := g }
  if grabReady g then .next (s'.transact (.write Config.grabReg Config.grabTriggerVal) .triggerWritten)
  else .next (s'.nowEvent.setPoint .initClockRead)

/-- R251: the init deadline, after the attempt. -/
def initDeadline (t : BitVec 24) (s : State) : Result :=
  if expired s.env.clock s.t0 t.toNat then
    .next ((s.setFc { s.fc with state := .timedOut, initTimeout := true }).raise .timeout (timeoutInfo .captureInit 0))
  else .next (s.pollAgain .pollGrab State.readGrabStatus)

/-- R249: completion is checked right after Accumulate, before the deadline. -/
def captureAfter (s : State) : Result :=
  if s.fc.pixelCount = Config.framePixels then .next (s.setFcState .complete).succeed
  else .next (s.nowEvent.setPoint .streamClockRead)

/-- R251: the stream deadline. -/
def streamDeadline (t : BitVec 24) (s : State) : Result :=
  if expired s.env.clock s.t0 t.toNat then
    .next ((s.setFcState .timedOut).raise .timeout (timeoutInfo .captureStream s.fc.pixelCount))
  else .next (s.pollAgain .pollStream State.readGrab)

/-- FRAME_CAPTURE (R250): capture one raw frame. -/
def execFrameCapture (t : BitVec 24) (s : State) : Result :=
  match s.point with
  | .start =>
    s.gate (.frameCapture t) (fun s => (s.setFc FcStatus.configured).play precaptureSegment captureWait)
  | .stepWaited | .stepWritten => s.playResume captureFail captureWait
  | .captureWaited =>
    .next ((((s.setFcState .waitingForGrabReady).setLoopId .captureInit).nowEvent).setPoint .initT0Read)
  | .initT0Read => .next s.takeT0.readGrabStatus
  | .pollGrab => .next s.readGrabStatus
  | .grabRead => s.onTx captureFail (fun rx s => grabVerdict (readResult rx) s)
  | .initClockRead => initDeadline t s
  | .triggerWritten =>
    s.onTx captureFail (fun _ s =>
      .next ((((s.setFcState .streaming).clearPixels.setLoopId .captureStream).nowEvent).setPoint .streamT0Read))
  | .streamT0Read => .next s.takeT0.readGrab
  | .pollStream => .next s.readGrab
  | .fragmentRead => s.onTx captureFail (fun rx s => onNext (accumulate (readResult rx) s) captureAfter)
  | .streamClockRead => streamDeadline t s
  | _ => .fault .offProgram

end Sys2Proof.Machine
end

