-- ==== Sys2Proof/Machine/Frames.lean ====
section
/-! DEFINITION. The meanings of the four frames (R140, R141, R143, R220): each step of a frame is the next event of its
transaction (R131). -/

namespace Sys2Proof.Machine

/-- WRITE_FRAME (R97, R140): the next event of the transaction of `[a | 0x80, v]`; its response is discarded. -/
def execWriteFrame (a : Addr7) (v : Byte) (s : State) : Result := .next (s.busEvent (.write a v))

/-- READ_FRAME (R98, R141): the next event of the transaction of `[a, 0x00]`; its result is rx[1]. -/
def execReadFrame (a : Addr7) (s : State) : Result := .next (s.busEvent (.read a))

/-- BURST_FRAME (R99, R143): the next event of the transaction of `[c] ++ repeat(L, 0x00)`. -/
def execBurstFrame (c len : Byte) (s : State) : Result := .next (s.busEvent (.burst c len))

/-- MOTION_BURST_FRAME (R99, R220): the next event of the transaction of `[0x16] ++ repeat(12, 0x00)`. -/
def execMotionBurstFrame (s : State) : Result := .next (s.busEvent .motionBurst)

end Sys2Proof.Machine
end

