-- ==== Sys2Proof/Machine/HostPort.lean ====
section
/-! DEFINITION. The host register port (R21, R62, R63): what MemRead returns and what MemWrite does; and power-on (R11). -/

namespace Sys2Proof.Machine

/-- R21: the word of the register at an offset; CMD reads 0. -/
def regWord (s : State) (off : Nat) : Option Word :=
  if off = 0x000 then some 0
  else if off = 0x004 then some s.status.word
  else if off = 0x008 then some s.errCode.word
  else if off = 0x00C then some s.errInfo
  else if off = 0x010 then some (s.dev.word s.cfg.swCs)
  else if off = 0x014 then some s.result
  else if off = 0x018 then some (respLenWord s.respLen)
  else if off = 0x01C then some s.sample.word0
  else if off = 0x020 then some s.sample.word1
  else if off = 0x024 then some s.sample.word2
  else if off = 0x028 then some s.cal.word
  else if off = 0x02C then some s.calVals.word
  else if off = 0x030 then some s.fc.word
  else if off = 0x034 then some s.orient.word
  else none

/-- R63: a byte of the two buffers; "a byte past the buffer's last index reads 0x00". -/
def bufferByte (s : State) (a : Nat) : Byte := if inBuffers a then Memory.read s.mem a else 0

/-- R63: four bytes of the buffers, packed little-endian. -/
def bufferWord (s : State) (a : Nat) : Word :=
  bufferByte s (a + 3) ++ bufferByte s (a + 2) ++ bufferByte s (a + 1) ++ bufferByte s a

/-- R62, R63: `MemRead(addr, n)`. A refused access and an unmapped offset read 0. -/
def hostRead (addr : BitVec 12) (n : Nat) (s : State) : Word :=
  let a := addr.toNat
  if n = 4 ∧ a % 4 = 0 then
    match regWord s a with
    | some w => w
    | none => if inBuffers a then bufferWord s a else 0
  else if n = 1 then (bufferByte s a).setWidth 32
  else 0

/-- R22, R63: `MemWrite(addr, n, v)`. Only an aligned 4-byte write to CMD does anything. -/
def hostWrite (addr : BitVec 12) (n : Nat) (v : Word) (s : State) : State :=
  if addr.toNat = 0 ∧ n = 4 then (if s.status.busy then s.dropCommand else s.accept v) else s

/-- R11: "A model refuses an ill-formed configuration before reset". -/
def powerOn (cfg : Config) : Result :=
  if cfg.wf then .next (State.resetOf cfg) else .refused .illFormedConfiguration

end Sys2Proof.Machine
end

