-- ==== Sys2Proof/Machine/Transport.lean ====
section
/-! DEFINITION. The host commands of the transport family (R150-R153). -/

namespace Sys2Proof.Machine

/-- WRITE_REG (R150): RESP_BUF and RESP_LEN cleared, then `WriteRegister(a, v)`. -/
def execWriteReg (a : Addr7) (v : Byte) (s : State) : Result :=
  match s.point with
  | .start => s.gate (.writeReg a v) (fun s => .next (s.clearResp.transact (.write a v) .regDone))
  | .regDone => s.onTx State.raiseTransport (fun _ s => .next s.succeed)
  | _ => .fault .offProgram

/-- READ_REG (R151): `b <- ReadRegister(a)`, then RESULT, RESP_BUF[0] and RESP_LEN. -/
def execReadReg (a : Addr7) (s : State) : Result :=
  match s.point with
  | .start => s.gate (.readReg a) (fun s => .next (s.clearResp.transact (.read a) .regDone))
  | .regDone =>
    s.onTx State.raiseTransport (fun rx s =>
      .next (((s.setResult ((readResult rx).setWidth 32)).putResp 0 (readResult rx)).setRespLen 1).succeed)
  | _ => .fault .offProgram

/-- R152, R221: byte i of a ReadRegisters is stored as it arrives. -/
def State.storeRead (b : Byte) (s : State) : State :=
  (s.putResp s.rrIndex.toNat b).setRespLen (s.rrIndex.toNat + 1)

/-- READ_REGS (R152): COUNT reads of consecutive registers, one transaction each. -/
def execReadRegs (a : Addr7) (n : Byte) (s : State) : Result :=
  match s.point with
  | .start =>
    s.gate (.readRegs a n) (fun s =>
      if n.toNat = 0 then .next s.clearResp.succeed else .next (s.clearResp.readRegsBegin a .regsRead))
  | .regsRead =>
    s.onTx State.raiseTransport (fun rx s =>
      (s.storeRead (readResult rx)).readRegsNext a n.toNat .regsRead (readResult rx) (fun s => .next s.succeed))
  | _ => .fault .offProgram

/-- BURST_XFER (R153): one `BurstTransfer(c, L)`; the whole response goes to RESP_BUF. -/
def execBurstXfer (c len : Byte) (s : State) : Result :=
  match s.point with
  | .start => s.gate (.burstXfer c len) (fun s => .next (s.clearResp.transact (Frame.ofBurst c len) .regDone))
  | .regDone => s.onTx State.raiseTransport (fun rx s => .next (s.fillResp (len.toNat + 1) rx).succeed)
  | _ => .fault .offProgram

end Sys2Proof.Machine
end

