-- ==== Sys2Proof/Machine/Motion.lean ====
section
/-! DEFINITION. The motion commands (R220, R221) and the orientation commands (R225, R226). -/

namespace Sys2Proof.Machine

/-- R220, R221: after an attempt without a sample, "sleep ~1 ms and retry". -/
def State.retrySleep (s : State) : State := (s.sleepEvent s.cfg.retrySleepMs).setPoint .checkDeadline

/-- R213: a motion loop begins: LOOP_ID, and the reading that T0 takes in the next step. -/
def State.loopBegin (loop : LoopId) (s : State) : State := ((s.setLoopId loop).nowEvent).setPoint .loopT0Read

/-- R213: before an attempt the clock is read. -/
def State.loopClock (s : State) : State := s.nowEvent.setPoint .deadlineRead

/-- R220: what an attempt's response does: the registers, then the result of a valid sample or the retry sleep. -/
def burstVerdict (rx : List Byte) (s : State) : Result :=
  let x := parseBurst s.cfg.burstLayout rx
  let s' := (s.fillResp (Config.burstPayload + 1) rx).setSample x
  if x.valid then .next (s'.setResult (deltasWord x.deltaX x.deltaY)).succeed else .next s'.retrySleep

/-- BURST_READ (R220): poll the motion burst until a valid sample, or time out. -/
def execBurstRead (t : BitVec 24) (s : State) : Result :=
  match s.point with
  | .start => s.gate (.burstRead t) (fun s => .next (s.loopBegin .burstRead))
  | .loopT0Read => .next s.takeT0.loopClock
  | .checkDeadline => .next s.loopClock
  | .deadlineRead =>
    if expired s.env.clock s.t0 t.toNat then .next (s.raise .timeout (timeoutInfo .burstRead 0))
    else .next (s.clearResp.transact .motionBurst .burstRead)
  | .burstRead => s.onTx State.raiseTransport burstVerdict
  | _ => .fault .offProgram

/-- R221: all five bytes have been read: the result when data-ready is set, or the retry sleep. -/
def slowVerdict (s : State) : Result :=
  if slowReady (s.respByte 0) then
    .next (s.setResult (slowReadWord (s.respByte 1) (s.respByte 2) (s.respByte 3) (s.respByte 4))).succeed
  else .next s.retrySleep

/-- SLOW_READ (R221): poll the data-ready register and the deltas by single reads. -/
def execSlowRead (t : BitVec 24) (s : State) : Result :=
  match s.point with
  | .start => s.gate (.slowRead t) (fun s => .next (s.loopBegin .slowRead))
  | .loopT0Read => .next s.takeT0.loopClock
  | .checkDeadline => .next s.loopClock
  | .deadlineRead =>
    if expired s.env.clock s.t0 t.toNat then .next (s.raise .timeout (timeoutInfo .slowRead 0))
    else .next (s.clearResp.readRegsBegin Config.dataReadyReg .regsRead)
  | .regsRead =>
    s.onTx State.raiseTransport (fun rx s =>
      (s.storeRead (readResult rx)).readRegsNext Config.dataReadyReg Config.slowCount .regsRead (readResult rx)
        slowVerdict)
  | _ => .fault .offProgram

/-- R225, R226: ORIENT after the write completes. -/
def State.recordOrient (b : Byte) (s : State) : State := s.setOrient { byte := b, written := true }

/-- SET_ORIENTATION (R225): write the packed orientation byte. -/
def execSetOrientation (swap invY invX : Bool) (s : State) : Result :=
  match s.point with
  | .start =>
    s.gate (.setOrientation swap invY invX) (fun s =>
      .next (s.transact (.write Config.orientationReg (orientByte swap invY invX)) .regDone))
  | .regDone =>
    s.onTx State.raiseTransport (fun _ s => .next (s.recordOrient (orientByte swap invY invX)).succeed)
  | _ => .fault .offProgram

/-- R226: the byte SET_ROTATION writes; the argument check leaves only legal rotations. -/
def rotationOperand (cfg : Config) (d : BitVec 9) : Byte := (rotationByte cfg.rotation d.toNat).getD 0

/-- SET_ROTATION (R226): map a rotation to an orientation byte and write it. -/
def execSetRotation (d : BitVec 9) (s : State) : Result :=
  match s.point with
  | .start =>
    s.gate (.setRotation d) (fun s =>
      .next (s.transact (.write Config.orientationReg (rotationOperand s.cfg d)) .regDone))
  | .regDone =>
    s.onTx State.raiseTransport (fun _ s => .next (s.recordOrient (rotationOperand s.cfg d)).succeed)
  | _ => .fault .offProgram

end Sys2Proof.Machine
end

