-- ==== Sys2Proof/Machine/Dispatch.lean ====
section
/-! DEFINITION. One arm for each instruction: its meaning. `exec i s` is the next atomic step (R3) of instruction i. -/

namespace Sys2Proof.Machine

def exec (i : Instr) (s : State) : Host.Outcome State Fault Refusal :=
  match i with
  | .writeReg a v => Sys2Proof.Machine.execWriteReg a v s
  | .readReg a => Sys2Proof.Machine.execReadReg a s
  | .readRegs a n => Sys2Proof.Machine.execReadRegs a n s
  | .burstXfer c len => Sys2Proof.Machine.execBurstXfer c len s
  | .playSeq seg => Sys2Proof.Machine.execPlaySeq seg s
  | .bringUp v => Sys2Proof.Machine.execBringUp v s
  | .burstRead t => Sys2Proof.Machine.execBurstRead t s
  | .slowRead t => Sys2Proof.Machine.execSlowRead t s
  | .frameCapture t => Sys2Proof.Machine.execFrameCapture t s
  | .setOrientation swap invY invX => Sys2Proof.Machine.execSetOrientation swap invY invX s
  | .setRotation d => Sys2Proof.Machine.execSetRotation d s
  | .writeFrame a v => Sys2Proof.Machine.execWriteFrame a v s
  | .readFrame a => Sys2Proof.Machine.execReadFrame a s
  | .burstFrame c len => Sys2Proof.Machine.execBurstFrame c len s
  | .motionBurstFrame => Sys2Proof.Machine.execMotionBurstFrame s
  | .seqWrite f g => Sys2Proof.Machine.execSeqWrite f g s
  | .seqWait g => Sys2Proof.Machine.execSeqWait g s
  | .fragUpper u => Sys2Proof.Machine.execFragUpper u s
  | .fragLower b => Sys2Proof.Machine.execFragLower b s
  | .fragNone00 b => Sys2Proof.Machine.execFragNone00 b s
  | .fragNone11 b => Sys2Proof.Machine.execFragNone11 b s

end Sys2Proof.Machine
end

