-- ==== Sys2Proof/Machine/Fetch.lean ====
section
/-! DEFINITION. What the controller's next step is: the instruction it runs, taken from CUR_CMD or from the transaction
under way. -/

namespace Sys2Proof.Machine

/-- The kinds of the controller's next step. -/
inductive NextStep
  /-- R133: the native-select disable, the first event after reset. -/
  | boot
  /-- No command runs: the controller waits for the host. -/
  | wait
  /-- The next atomic step of an instruction. -/
  | run (i : Instr)
  /-- R93, R96: CUR_CMD matches no row of R92. -/
  | illegal
  deriving DecidableEq, Repr

/-- R96, R131: a transaction under way is the frame being run; otherwise the command in CUR_CMD is. -/
def nextStep (s : State) : NextStep :=
  match s.point with
  | .boot => .boot
  | .idle => .wait
  | _ =>
    if s.busBusy then .run s.tx.frame.instr
    else
      match decodeCommand s.curCmd with
      | .ok i => .run i
      | .error _ => .illegal

/-- R133, R300: the end of reset with a software select. -/
def bootStep (s : State) : State := s.nativeDisableEvent.setPoint .idle

/-- R93: an illegal command ends with ILLEGAL_COMMAND, ERRINFO = w, and no bus event. -/
def illegalEnd (s : State) : State := s.raise .illegalCommand s.curCmd

/-- A sequence ROM whose segment PRECAPTURE is WAIT 0 and then a step word. -/
def romOfWord (w : BitVec 16) : List (List (BitVec 16)) := List.replicate 10 [] ++ [[0xFF00, w]]

/-- The command word of `PLAY_SEQ PRECAPTURE`. -/
abbrev playPrecaptureWord : Word := 0x5000000A
/-- The command word of `FRAME_CAPTURE 0`. -/
abbrev captureWord : Word := 0x90000000
/-- The command word of `BURST_READ 0`. -/
abbrev burstReadWord : Word := 0x70000000

/-- A command word accepted, its checks and its first event to come. -/
def State.loadCommand (w : Word) (s : State) : State :=
  ((s.setInputs []).setTx { s.tx with phase := .idle }).accept w

/-- A step word that a running `PLAY_SEQ PRECAPTURE` comes to next, its WAIT 0 being over. -/
def State.loadStep (w : BitVec 16) (s : State) : State :=
  { s.loadCommand playPrecaptureWord with
    cfg := { s.cfg with seqRom := romOfWord w }
    seqSeg := 10
    seqPc := 0
    point := .stepWaited }

/-- A byte in hand, read from RAWDATA_GRAB by a streaming `FRAME_CAPTURE 0`. -/
def State.loadFragment (f : Byte) (s : State) : State :=
  { s.loadCommand captureWord with
    fc := { s.fc with state := .streaming }
    tx := { frame := .read Config.grabReg, phase := .ended (.ok [0, f]) }
    point := .fragmentRead }

/-- The motion burst frame asked for by a running `BURST_READ 0`. -/
def State.loadMotionBurst (s : State) : State :=
  { s.loadCommand burstReadWord with
    tx := { frame := .motionBurst, phase := .requested }
    point := .burstRead }

end Sys2Proof.Machine
end

