-- ==== Sys2Proof/Machine/Step.lean ====
section
/-! DEFINITION. One atomic step (R3): one host access, one reset, or one event of the controller. -/

namespace Sys2Proof.Machine

/-- One step of the controller. -/
def control (s : State) : Host.Outcome State Fault Refusal :=
  match nextStep s with
  | .boot => .next (bootStep s)
  | .wait => .next s
  | .run i => exec i s
  | .illegal => .next (illegalEnd s)

/-- R3: one atomic step. The outside's next input says who takes it; the first event after reset comes before any
access (R133). -/
def step (s : State) : Host.Outcome State Fault Refusal :=
  match s.point with
  | .boot => .next (bootStep s)
  | _ =>
    match s.inputs with
    | [] => control s
    | .pass :: rest => control (s.setInputs rest)
    | .read addr n :: rest => .next ((s.setInputs rest).setHostData (hostRead addr n s))
    | .write addr n v :: rest => .next (hostWrite addr n v (s.setInputs rest))
    | .reset :: rest => .next (s.setInputs rest).afterReset

/-- The host's table word placed where the next step runs it (log entry 12): a command accepted, a step word at SEQ_PC, a
fragment byte in hand, or the motion burst frame asked for. -/
def State.withFetchWord (s : State) (nbits w : Nat) : State :=
  if nbits = 32 then s.loadCommand (BitVec.ofNat 32 w)
  else if nbits = 16 then s.loadStep (BitVec.ofNat 16 w)
  else if nbits = 8 then
    if w = Config.motionBurstCmd.toNat then s.loadMotionBurst else s.loadFragment (BitVec.ofNat 8 w)
  else s

end Sys2Proof.Machine
end

