-- ==== Sys2Proof/Safety.lean ====
section
/-! DEFINITION. What every reachable state satisfies, in the terms the statements use: the canonical buffers, the flags of
STATUS, the chip select, the lifecycle, the capture machine, and the control point that belongs to the running command. -/

namespace Sys2Proof.Safety

open Sys2Proof.Machine

/-! ### Points -/

/-- The points reached with a transaction under way. -/
def transactionPoint : Point → Bool
  | .regDone | .regsRead | .stepWritten | .resetWritten | .flushRead | .diagRead | .cfgWritten | .statRead | .c1Read
  | .c2Read | .c1Written | .c2Written | .idRead | .burstRead | .grabRead | .triggerWritten | .fragmentRead => true
  | .boot | .idle | .start | .stepWaited | .resetWaited | .loopT0Read | .checkDeadline | .deadlineRead | .captureWaited
  | .initT0Read | .pollGrab | .initClockRead | .streamT0Read | .pollStream | .streamClockRead => false

/-- The points at which a command is running (R23: BUSY). -/
def runningPoint (p : Point) : Bool := p != .boot && p != .idle

/-- The points inside the rule of a command (R39). A frame, a step or a fragment has none. -/
def ownPoint : Instr → Point → Bool
  | .writeReg _ _, p | .readReg _, p | .burstXfer _ _, p | .setOrientation _ _ _, p | .setRotation _, p => p == .regDone
  | .readRegs _ _, p => p == .regsRead
  | .playSeq _, p => p == .stepWaited || p == .stepWritten
  | .bringUp _, p =>
    [Point.resetWritten, .resetWaited, .flushRead, .stepWaited, .stepWritten, .diagRead, .cfgWritten, .statRead, .c1Read,
      .c2Read, .c1Written, .c2Written, .idRead].contains p
  | .burstRead _, p => [Point.loopT0Read, .checkDeadline, .deadlineRead, .burstRead].contains p
  | .slowRead _, p => [Point.loopT0Read, .checkDeadline, .deadlineRead, .regsRead].contains p
  | .frameCapture _, p =>
    [Point.stepWaited, .stepWritten, .captureWaited, .initT0Read, .pollGrab, .grabRead, .initClockRead, .triggerWritten,
      .streamT0Read, .pollStream, .fragmentRead, .streamClockRead].contains p
  | .writeFrame _ _, _ | .readFrame _, _ | .burstFrame _ _, _ | .motionBurstFrame, _ | .seqWrite _ _, _ | .seqWait _, _
  | .fragUpper _, _ | .fragLower _, _ | .fragNone00 _, _ | .fragNone11 _, _ => false

/-- The command inside whose rule the controller stands, once its checks have passed. -/
def running (s : State) : Option Instr :=
  if runningPoint s.point && s.point != .start then (decodeCommand s.curCmd).toOption else none

/-! ### The parts of the invariant -/

/-- The buffers are in canonical form and nothing lies outside them (R35, R36). -/
def MemoryOk (m : Memory) : Prop := Memory.wf m ∧ ∀ c ∈ m, inBuffers c.1 = true

/-- R35, R38: RESP_LEN is at most 256, and every byte of RESP_BUF past it reads 0x00. -/
def RespOk (s : State) : Prop :=
  s.respLen ≤ Config.respBufBytes ∧ ∀ i, s.respLen ≤ i → i < Config.respBufBytes → s.respByte i = 0

/-- R23, R24, R25: BUSY while a command runs, and then no result of it yet; ERR, DONE, ERRCODE and ERRINFO agree. -/
def StatusOk (s : State) : Prop :=
  s.status.busy = runningPoint s.point
    ∧ (s.status.busy = true → s.status.done = false ∧ s.status.err = false)
    ∧ (s.status.err = true → s.status.done = true)
    ∧ (s.errCode = .none ↔ s.status.err = false)
    ∧ (s.status.err = false → s.errInfo = 0)

/-- R131, R3: CS_LEVEL says ASSERTED from the event after the assert to the step that takes the result (log entry 15). -/
def levelAsserted (swCs : Bool) : TxPhase → Bool
  | .exchanged _ => true
  | .ended _ => swCs
  | .selected | .abandoned | .idle | .requested => false

/-- R131: the select is held between the assert and the deassert. -/
def selectHeld : TxPhase → Bool
  | .selected | .abandoned | .exchanged _ => true
  | .idle | .requested | .ended _ => false

/-- R66: the response a transaction holds has the length of its frame. -/
def responseFits (f : Frame) : TxPhase → Prop
  | .exchanged (some rx) | .ended (.ok rx) => rx.length = f.bytes.length
  | .exchanged none | .ended (.failed _) | .idle | .requested | .selected | .abandoned => True

/-- R71, R130, R131: CS_LEVEL is ASSERTED exactly from the event after the assert to the step after the deassert, and only
with a software select is there a bracket; the points of the running command know whether a transaction is under way. -/
def BusOk (s : State) : Prop :=
  (s.tx.phase = .idle ↔ transactionPoint s.point = false)
    ∧ (s.csLevel = .asserted ↔ levelAsserted s.cfg.swCs s.tx.phase = true)
    ∧ (s.cfg.swCs = false → selectHeld s.tx.phase = false)
    ∧ responseFits s.tx.frame s.tx.phase
    ∧ (s.point = .boot → s.cfg.swCs = true)

/-- R96: past its checks, the running command is a legal one, permitted, with valid arguments, at a point of its own. -/
def ControlOk (s : State) : Prop :=
  runningPoint s.point = true → s.point ≠ .start →
    ∃ i, decodeCommand s.curCmd = .ok i ∧ ownPoint i s.point = true ∧ permitted i s.dev.state = true ∧ argsValid i = true

/-- R161, R164: SEQ_PC stays inside the segment being played. -/
def SeqOk (s : State) : Prop :=
  s.point = .stepWaited ∨ s.point = .stepWritten → s.seqPc < (s.cfg.segment s.seqSeg.toNat).length

/-- R38: the commands that clear RESP_BUF before their one transaction. -/
def clearsResp : Instr → Bool
  | .writeReg _ _ | .readReg _ | .burstXfer _ _ => true
  | _ => false

/-- R142, R152: while ReadRegisters runs, RR_INDEX counts the reads that are done; R38: RESP_BUF stays clear until the
command's bytes arrive. -/
def ReadsOk (s : State) : Prop :=
  (s.point = .regsRead → s.respLen = s.rrIndex.toNat)
    ∧ (s.point = .idRead → s.rrOut.length = s.rrIndex.toNat)
    ∧ (s.point = .burstRead → s.respLen = 0)
    ∧ (∀ i, running s = some i → clearsResp i = true → s.respLen = 0)

/-- R191: the phase of BRING_UP at each of its points. -/
def phaseAt : Point → BuPhase → Bool
  | .resetWritten, p => p == .reset
  | .resetWaited, p => p == .resetWait
  | .flushRead, p => p == .flush
  | .stepWaited, p | .stepWritten, p => [BuPhase.prologue, .mid, .sub, .tail, .trailer].contains p
  | .diagRead, p | .cfgWritten, p => p == .branchA
  | .statRead, p | .c1Read, p | .c2Read, p => p == .branchB
  | .c1Written, p | .c2Written, p => p == .writeback
  | .idRead, p => p == .idCheck
  | _, _ => false

/-- R180, R191: the lifecycle and the bring-up phase agree. -/
def LifecycleOk (s : State) : Prop :=
  match running s with
  | some (.bringUp v) => s.dev.state = .uninit ∧ s.dev.variant = v ∧ phaseAt s.point s.cal.phase = true
  | _ =>
    (s.dev.state = .uninit ∧ s.cal.phase = .idle) ∨ (s.dev.state = .ready ∧ s.cal.phase = .done)
      ∨ (s.dev.state = .failed ∧ s.cal.phase = .failed)

/-- R240: FC_STATE at each point of a capture. -/
def captureAt : Point → FcState → Bool
  | .stepWaited, x | .stepWritten, x | .captureWaited, x => x == .configuring
  | .initT0Read, x | .pollGrab, x | .grabRead, x | .initClockRead, x | .triggerWritten, x => x == .waitingForGrabReady
  | .streamT0Read, x | .pollStream, x | .fragmentRead, x | .streamClockRead, x => x == .streaming
  | _, _ => false

/-- R240, R241.4: FC_STATE is one of the running states exactly while a capture runs. -/
def CaptureStateOk (s : State) : Prop :=
  match running s with
  | some (.frameCapture _) => captureAt s.point s.fc.state = true
  | _ => s.fc.state ≠ .configuring ∧ s.fc.state ≠ .waitingForGrabReady ∧ s.fc.state ≠ .streaming

/-- R241, R249: what FC_STATE says of the rest of FC_STATUS. -/
def CaptureCountOk (x : FcStatus) : Prop :=
  x.pixelCount ≤ Config.framePixels
    ∧ (x.state = .configuring ∨ x.state = .waitingForGrabReady → x.pixelCount = 0 ∧ x.haveUpper = false)
    ∧ (x.state = .streaming → x.pixelCount < Config.framePixels)
    ∧ (x.state = .complete → x.pixelCount = Config.framePixels)
    ∧ (x.state = .timedOut → x.initTimeout = false → x.pixelCount < Config.framePixels)
    ∧ (x.initTimeout = true → x.state = .timedOut)
    ∧ (x.state = .streaming ∨ x.state = .complete → grabReady x.lastGrabStatus = true)

/-- R240, R250: the trigger is written only after the ready bits have been seen, and the init deadline is looked at only
when they have not. -/
def TriggerOk (s : State) : Prop :=
  (s.point = .triggerWritten → grabReady s.fc.lastGrabStatus = true)
    ∧ (s.point = .initClockRead → grabReady s.fc.lastGrabStatus = false)

/-- R188: the sub-sequence and the write-backs belong to a branch B that is taken. -/
def BranchOk (s : State) : Prop :=
  s.point = .c1Read ∨ s.point = .c2Read ∨ s.cal.phase = .sub ∨ s.cal.phase = .writeback → s.cal.bTaken = true

/-- The frame of the write step at SEQ_PC (R162), if that is a write step. -/
def stepFrame (s : State) : Option Frame :=
  match s.stepWord.map decodeStep with
  | some (.ok (.seqWrite f g)) => some (.write f g)
  | _ => none

/-- R72: the one frame that the rule of the running command puts on the bus at a point, from the command's operands and
the registers that the rule names. -/
def busFrame (i : Instr) (s : State) : Option Frame :=
  match s.point, i with
  | .regDone, .writeReg a v => some (.write a v)
  | .regDone, .readReg a => some (.read a)
  | .regDone, .burstXfer c len => some (Frame.ofBurst c len)
  | .regDone, .setOrientation swap invY invX => some (.write 0x5B (orientByte swap invY invX))
  | .regDone, .setRotation d => some (.write 0x5B (rotationOperand s.cfg d))
  | .regsRead, .readRegs a _ => some (.read (a + BitVec.ofNat 7 s.rrIndex.toNat))
  | .regsRead, .slowRead _ => some (.read (0x02 + BitVec.ofNat 7 s.rrIndex.toNat))
  | .stepWritten, _ => stepFrame s
  | .resetWritten, _ => some (.write 0x3A 0x5A)
  | .flushRead, _ => some (.read (0x02 + BitVec.ofNat 7 s.rrIndex.toNat))
  | .diagRead, .bringUp v => some (.read (s.cfg.regs v).diag)
  | .cfgWritten, .bringUp v => some (.write (s.cfg.regs v).cfg (if s.cal.aBit7 then 0x04 else 0x02))
  | .statRead, .bringUp v => some (.read (s.cfg.regs v).stat)
  | .c1Read, .bringUp v => some (.read (s.cfg.regs v).c1)
  | .c2Read, .bringUp v => some (.read (s.cfg.regs v).c2)
  | .c1Written, .bringUp v => some (.write (s.cfg.regs v).c1Dst s.calVals.c1Adj)
  | .c2Written, .bringUp v => some (.write (s.cfg.regs v).c2Dst s.calVals.c2Adj)
  | .idRead, _ => some (.read (0x00 + BitVec.ofNat 7 s.rrIndex.toNat))
  | .burstRead, _ => some .motionBurst
  | .grabRead, _ => some (.read 0x59)
  | .triggerWritten, _ => some (.write 0x58 0x00)
  | .fragmentRead, _ => some (.read 0x58)
  | _, _ => none

/-- R72, R131: the transaction under way carries the frame that the command's rule gives at this point. -/
def FrameOk (s : State) : Prop :=
  s.tx.phase ≠ .idle → ∃ i, running s = some i ∧ busFrame i s = some s.tx.frame

/-- R285: T0 is a reading of the clock. -/
def ClockOk (s : State) : Prop := s.t0 ≤ s.env.clock

/-- The invariant of the machine. -/
structure Inv (s : State) : Prop where
  config : s.cfg.wf = true
  memory : MemoryOk s.mem
  resp : RespOk s
  status : StatusOk s
  bus : BusOk s
  control : ControlOk s
  seq : SeqOk s
  reads : ReadsOk s
  lifecycle : LifecycleOk s
  captureState : CaptureStateOk s
  captureCount : CaptureCountOk s.fc
  trigger : TriggerOk s
  branch : BranchOk s
  frame : FrameOk s
  clock : ClockOk s

/-! ### Words for the statements -/

/-- k steps of the machine, stopping at the first fault or refusal. -/
def steps : Nat → State → Result
  | 0, s => .next s
  | k + 1, s =>
    match step s with
    | .next t => steps k t
    | .fault e => .fault e
    | .refused e => .refused e

/-- R3, R20: the controller takes the step from s: the outside has no input left, or its next input lets it pass. s' is
the state it takes the step from. -/
def ControllerTurn (s s' : State) : Prop :=
  (s.inputs = [] ∧ s' = s) ∨ ∃ rest, s.inputs = .pass :: rest ∧ s' = { s with inputs := rest }

/-- R20, R300: the step from s is a reset event. -/
def ResetStep (s : State) : Prop := s.point ≠ .boot ∧ ∃ rest, s.inputs = .reset :: rest

/-- R70: the step from s to t is one event. -/
def Emits (e : Event) (s t : State) : Prop := t.trace = s.trace ++ [e]

/-- R22, R96: the command word w has just been accepted and stands in CUR_CMD (log entry 25), and the controller takes the
next steps. -/
def Accepted (w : Word) (s : State) : Prop :=
  s.point = .start ∧ s.curCmd = w ∧ s.inputs = [] ∧ s.tx.phase = .idle

/-- R131, R132: the first event of a transaction. -/
def firstEvent (f : Frame) (s : State) : Event :=
  if s.cfg.swCs then .cs .asserted s.env.csAnswer.1 else .xfer f.bytes (s.env.exchange f.bytes).1

/-- R131: how a transaction ends, from the exchange's answer and the deassert's. -/
def outcomeOf (rx : Option (List Byte)) (deassertOk : Bool) : TxResult :=
  match rx with
  | none => .failed false
  | some l => if deassertOk then .ok l else .failed true

/-- R131, R132: a transaction of frame f has been begun and its first event done. With a software select that is the
assert; without one it is the exchange, after which the transaction is over. -/
def Begun (f : Frame) (s t : State) : Prop :=
  t.trace = s.trace ++ [firstEvent f s] ∧ t.tx.frame = f
    ∧ (s.cfg.swCs = true →
        t.env = s.env.csAnswer.2
          ∧ t.tx.phase = (if s.env.csAnswer.1 then .selected else .abandoned))
    ∧ (s.cfg.swCs = false →
        t.env = (s.env.exchange f.bytes).2
          ∧ t.tx.phase = .ended (outcomeOf (s.env.exchange f.bytes).1 true))

/-- R131, R132: the events of successive transactions that are answered, each with the bytes sent and the two bytes received:
with a software select each exchange stands between its assert and its deassert. -/
def Exchanges (swCs : Bool) (l : List (List Byte × Byte × Byte)) : List Event :=
  l.flatMap (fun x =>
    if swCs then [.cs .asserted true, .xfer x.1 (some [x.2.1, x.2.2]), .cs .deasserted true]
    else [.xfer x.1 (some [x.2.1, x.2.2])])

/-- R15: with a software select, the calls of the next n transactions are answered OK. -/
def SelectsOk (n : Nat) (s : State) : Prop :=
  s.cfg.swCs = true → ∃ more, s.env.csAnswers = List.replicate (2 * n) true ++ more

/-- R70: an exchange. -/
def isExchange : Event → Bool
  | .xfer _ _ => true
  | .cs _ _ | .nativeCsDisable _ | .now _ | .sleep _ _ _ | .accept _ | .ended _ | .reset => false

/-- R131: the last transaction ended with the response rx, which the command's next step takes. -/
def Answered (rx : List Byte) (s : State) : Prop := s.tx.phase = .ended (.ok rx)

/-- The transaction record once its result has been taken. -/
def Taken (s : State) : Tx := { frame := s.tx.frame, phase := .idle }

/-- R131, R3: CS_LEVEL once the result of a transaction has been taken: the deassert's level is recorded in that step, and
only with a software select (log entry 15). -/
def TakenLevel (s : State) : CsLevel := if s.cfg.swCs then .deasserted else s.csLevel

/-- R25, R272: the registers a command ended with an error leaves. -/
def EndedWith (code : ErrCode) (info : Word) (s t : State) : Prop :=
  t.errCode = code ∧ t.errInfo = info ∧ t.status = { s.status with busy := false, done := true, err := true }
    ∧ t.point = .idle ∧ t.trace = s.trace ++ [.ended code]

/-- R271: the registers a command ended with success leaves. -/
def EndedWell (s t : State) : Prop :=
  t.status = { s.status with busy := false, done := true } ∧ t.errCode = s.errCode ∧ t.errInfo = s.errInfo
    ∧ t.point = .idle ∧ t.trace = s.trace ++ [.ended .none]

/-- R275: nothing but STATUS, ERRCODE and ERRINFO (and the control point and the trace) differs. -/
def OnlyEnd (s t : State) : Prop :=
  t = { s with status := t.status, errCode := t.errCode, errInfo := t.errInfo, point := t.point, trace := t.trace }

/-- Every offset outside lo .. lo + n - 1 reads as before. -/
def MemSameOutside (lo n : Nat) (s t : State) : Prop :=
  ∀ x, ¬(lo ≤ x ∧ x < lo + n) → Memory.read t.mem x = Memory.read s.mem x

/-- Every offset reads as before. -/
def MemSame (s t : State) : Prop := ∀ x, Memory.read t.mem x = Memory.read s.mem x

/-- R35: RESP_BUF is all 0x00 and RESP_LEN is 0; no other byte has changed. -/
def RespCleared (s t : State) : Prop :=
  t.respLen = 0 ∧ (∀ i, i < 256 → t.respByte i = 0) ∧ MemSameOutside 0x100 256 s t

/-- R161: how far a Play has come: the segment's next word is run in this step, or the segment is at its end. -/
def PlaysOn (s t : State) : Prop :=
  (∀ f g, s.stepWord = some (0#1 ++ f ++ g) →
      Begun (.write f g) s t
        ∧ t = { s with point := .stepWritten, tx := t.tx, env := t.env, trace := t.trace })
    ∧ (∀ g : Byte, s.stepWord = some (0xFF#8 ++ g) →
        t.trace = s.trace ++ [.sleep g.toNat (s.env.sleep g.toNat).1 (s.env.sleep g.toNat).2.1]
          ∧ t = { s with point := .stepWaited, env := (s.env.sleep g.toNat).2.2, trace := t.trace })

/-- R189: the identity check has begun. -/
def IdentityBegun (s t : State) : Prop :=
  Begun (.read 0x00) s t
    ∧ t = { s with
        cal := { s.cal with phase := .idCheck }, point := .idRead, rrIndex := 0, rrOut := [], tx := t.tx, env := t.env,
        trace := t.trace }

/-- R103: the segment of a phase is part k of its variant. -/
def partNumber : BuPhase → Nat
  | .mid => 1
  | .sub => 2
  | .tail => 3
  | .trailer => 4
  | _ => 0

/-- R186: the start of the segment of a phase: SEQ_SEG is 5v + k, SEQ_PC is 0. -/
def atPart (v : Variant) (p : BuPhase) (s : State) : State :=
  { s with
    cal := { s.cal with phase := p }
    seqSeg := BitVec.ofNat 4 (5 * v.bit.toNat + partNumber p)
    seqPc := 0 }

/-- R186 (e): the trailer is entered: its first word is run, or it is empty and the identity check begins. -/
def EntersTrailer (v : Variant) (s t : State) : Prop :=
  PlaysOn (atPart v .trailer s) t
    ∧ ((atPart v .trailer s).stepWord = none → IdentityBegun (atPart v .trailer s) t)

/-- R186-R188: what follows the segment of a phase: the diagnostic read after the prologue, the status read after the
mid-sequence, the c1 write-back after the sub-sequence, the trailer after the tail, the identity check after the trailer. -/
def AfterPart (v : Variant) (p : BuPhase) (s t : State) : Prop :=
  match p with
  | .prologue =>
    Begun (.read (s.cfg.regs v).diag) s t
      ∧ t = { s with
          cal := { s.cal with phase := .branchA }, point := .diagRead, tx := t.tx, env := t.env, trace := t.trace }
  | .mid =>
    Begun (.read (s.cfg.regs v).stat) s t
      ∧ t = { s with
          cal := { s.cal with phase := .branchB }, point := .statRead, tx := t.tx, env := t.env, trace := t.trace }
  | .sub =>
    Begun (.write (s.cfg.regs v).c1Dst s.calVals.c1Adj) s t
      ∧ t = { s with
          cal := { s.cal with phase := .writeback }, point := .c1Written, tx := t.tx, env := t.env, trace := t.trace }
  | .tail => EntersTrailer v s t
  | .trailer => IdentityBegun s t
  | _ => False

/-- R186: the segment of a phase is entered: its first word is run, or it is empty and what follows it begins. -/
def EntersPart (v : Variant) (p : BuPhase) (s t : State) : Prop :=
  PlaysOn (atPart v p s) t ∧ ((atPart v p s).stepWord = none → AfterPart v p (atPart v p s) t)

/-! ### Fragments (R243) -/

/-- R243: the pixel under assembly and FC_STATUS after a grabbed byte. -/
def Accumulated (f : Byte) (s t : State) : Prop :=
  (f.extractLsb' 6 2 = 0b01 →
      t.pixelByte s.fc.pixelCount = f.extractLsb' 0 6 ++ 0#2
        ∧ t.fc = { s.fc with haveUpper := true, orderErr := s.fc.orderErr || s.fc.haveUpper })
    ∧ (f.extractLsb' 6 2 = 0b10 →
        t.pixelByte s.fc.pixelCount
            = (s.pixelByte s.fc.pixelCount).extractLsb' 2 6
              ++ (match s.cfg.lowerSrc with
                  | .bits32 => f.extractLsb' 2 2
                  | .bits10 => f.extractLsb' 0 2)
          ∧ t.fc = { s.fc with
              haveUpper := false, orderErr := s.fc.orderErr || !s.fc.haveUpper, pixelCount := s.fc.pixelCount + 1 })
    ∧ (f.extractLsb' 6 2 = 0b00 ∨ f.extractLsb' 6 2 = 0b11 → MemSame s t ∧ t.fc = s.fc)
    ∧ MemSameOutside (0x800 + s.fc.pixelCount) 1 s t

/-! ### The bracketing of the bus (R71, R131) -/

/-- Where the bus stands inside a transaction's bracket. -/
inductive Select
  | free
  | asserted
  | refused
  | exchanged
  deriving DecidableEq, Repr

/-- R71, R131: what one event does to a bracket, with a software select; an event that breaks the bracketing has no
successor. A reset drops the bracket (R300). -/
def Select.next : Select → Event → Option Select
  | _, .reset => some .free
  | .free, .cs .asserted true => some .asserted
  | .free, .cs .asserted false => some .refused
  | .free, .cs .deasserted _ | .free, .xfer _ _ => none
  | .free, _ => some .free
  | .asserted, .xfer _ _ => some .exchanged
  | .refused, .cs .deasserted _ | .exchanged, .cs .deasserted _ => some .free
  | .asserted, _ | .refused, _ | .exchanged, _ => none

/-- The bracket after a list of events, if none of them breaks it. -/
def Select.run : Select → List Event → Option Select
  | b, [] => some b
  | b, e :: es => (b.next e).bind (fun b' => b'.run es)

/-- The bracket a transaction's phase stands in. -/
def Select.ofPhase : TxPhase → Select
  | .selected => .asserted
  | .abandoned => .refused
  | .exchanged _ => .exchanged
  | .idle | .requested | .ended _ => .free

/-- R130: a chip-select event. -/
def isSelectEvent : Event → Bool
  | .cs _ _ | .nativeCsDisable _ => true
  | .xfer _ _ | .now _ | .sleep _ _ _ | .accept _ | .ended _ | .reset => false

/-- The bus invariant. With a software select every exchange of the trace stands alone between an assert and the
deassert that follows it; without one the trace has no chip-select event. -/
def Bracketed (s : State) : Prop :=
  (s.cfg.swCs = true → Select.free.run s.trace = some (Select.ofPhase s.tx.phase))
    ∧ (s.cfg.swCs = false → ∀ e ∈ s.trace, isSelectEvent e = false)

end Sys2Proof.Safety
end

