-- ==== Sys2Proof/Certificates/Slice0/Obligations.lean ====
section
/-! DEFINITION. The statements for the provers. Each docstring says which rules of spec/ it rests on; where a statement rests
on a choice of the model, the log entry is named. Where a step takes a transaction's result, `Taken` and `TakenLevel` are the
transaction and CS_LEVEL after it: with a software select CS_LEVEL records the deassert in that step (log entry 15). -/

section

open Sys2Proof Sys2Proof.Machine Sys2Proof.Safety

/-! ### Encodings -/

/-- R91, R97-R100, R106: words written out from the patterns of 30_encoding and 95_test_vectors 2.1 decode to the
instructions they stand for. (That thirteen bytes 0x16, 0, ... are the motion burst frame and no general burst frame is log
entry 13.) -/
def Obligations.WrittenWordsDecode : Prop :=
  decode (.command 0x10003A5A) = .ok (.writeReg 0x3A 0x5A)
    ∧ decode (.command 0x20005900) = .ok (.readReg 0x59)
    ∧ decode (.command 0x30000205) = .ok (.readRegs 0x02 5)
    ∧ decode (.command 0x4000160C) = .ok (.burstXfer 0x16 12)
    ∧ decode (.command 0x5000000A) = .ok (.playSeq 10)
    ∧ decode (.command 0x60000001) = .ok (.bringUp .b)
    ∧ decode (.command 0x70000064) = .ok (.burstRead 100)
    ∧ decode (.command 0x80000032) = .ok (.slowRead 50)
    ∧ decode (.command 0x900003E8) = .ok (.frameCapture 1000)
    ∧ decode (.command 0xA00000C0) = .ok (.setOrientation true true false)
    ∧ decode (.command 0xB000010E) = .ok (.setRotation 270)
    ∧ decode (.frame .write [0xDB, 0xE0]) = .ok (.writeFrame 0x5B 0xE0)
    ∧ decode (.frame .read [0x5B, 0x00]) = .ok (.readFrame 0x5B)
    ∧ decode (.frame .burst [0x80]) = .ok (.burstFrame 0x80 0)
    ∧ decode (.frame .burst [0x16, 0, 0, 0, 0, 0, 0, 0, 0, 0, 0, 0, 0]) = .ok .motionBurstFrame
    ∧ decode (.step 0x7F07) = .ok (.seqWrite 0x7F 0x07)
    ∧ decode (.step 0xFF0A) = .ok (.seqWait 10)
    ∧ decode (.fragment 0x7F) = .ok (.fragUpper 0x3F)
    ∧ decode (.fragment 0x8C) = .ok (.fragLower 0x0C)
    ∧ decode (.fragment 0x3F) = .ok (.fragNone00 0x3F)
    ∧ decode (.fragment 0xC3) = .ok (.fragNone11 0x03)

/-- R91, R97-R100, R106: no bit of any encoding is dropped: decoding the code of a well-formed instruction gives the
instruction back, for every value of every operand. -/
def Obligations.DecodeInvertsEncode : Prop := ∀ i : Instr, i.wf = true → decode (encode i) = .ok i

/-- R91-R93, R97-R102, R106: what the decoder accepts is the code of a well-formed instruction, and that instruction is the
one it answers. So every code has one meaning, and a code with a wrong bit in a fixed place is refused. -/
def Obligations.EncodeInvertsDecode : Prop := ∀ (c : Code) (i : Instr), decode c = .ok i → encode i = c ∧ i.wf = true

/-- R91: the layout of each command, bit 31 leftmost, its fields at their bits. -/
def Obligations.CommandLayouts : Prop :=
  ∀ w : Word,
    (∀ a v, decodeCommand w = .ok (.writeReg a v) ↔ w = 0b0001#4 ++ 0#13 ++ a ++ v)
      ∧ (∀ a, decodeCommand w = .ok (.readReg a) ↔ w = 0b0010#4 ++ 0#13 ++ a ++ 0#8)
      ∧ (∀ a n, decodeCommand w = .ok (.readRegs a n) ↔ w = 0b0011#4 ++ 0#13 ++ a ++ n)
      ∧ (∀ c l, decodeCommand w = .ok (.burstXfer c l) ↔ w = 0b0100#4 ++ 0#12 ++ c ++ l)
      ∧ (∀ seg, decodeCommand w = .ok (.playSeq seg) ↔ w = 0b0101#4 ++ 0#24 ++ seg)
      ∧ (decodeCommand w = .ok (.bringUp .a) ↔ w = 0b0110#4 ++ 0#27 ++ 0#1)
      ∧ (decodeCommand w = .ok (.bringUp .b) ↔ w = 0b0110#4 ++ 0#27 ++ 1#1)
      ∧ (∀ t, decodeCommand w = .ok (.burstRead t) ↔ w = 0b0111#4 ++ 0#4 ++ t)
      ∧ (∀ t, decodeCommand w = .ok (.slowRead t) ↔ w = 0b1000#4 ++ 0#4 ++ t)
      ∧ (∀ t, decodeCommand w = .ok (.frameCapture t) ↔ w = 0b1001#4 ++ 0#4 ++ t)
      ∧ (∀ swap invY invX,
          decodeCommand w = .ok (.setOrientation swap invY invX)
            ↔ w = 0b1010#4 ++ 0#20 ++ BitVec.ofBool swap ++ BitVec.ofBool invY ++ BitVec.ofBool invX ++ 0#5)
      ∧ (∀ d, decodeCommand w = .ok (.setRotation d) ↔ w = 0b1011#4 ++ 0#19 ++ d)

/-- R92: a word encodes a mnemonic iff `(w & mask) = match`, and no two rows of the table match one word. -/
def Obligations.MatchAndMaskRows : Prop :=
  let rows : List (String × Word × Word) :=
    [("WRITE_REG", 0x10000000, 0xFFFF8000), ("READ_REG", 0x20000000, 0xFFFF80FF), ("READ_REGS", 0x30000000, 0xFFFF8000),
      ("BURST_XFER", 0x40000000, 0xFFFF0000), ("PLAY_SEQ", 0x50000000, 0xFFFFFFF0), ("BRING_UP", 0x60000000, 0xFFFFFFFE),
      ("BURST_READ", 0x70000000, 0xFF000000), ("SLOW_READ", 0x80000000, 0xFF000000),
      ("FRAME_CAPTURE", 0x90000000, 0xFF000000), ("SET_ORIENTATION", 0xA0000000, 0xFFFFFF1F),
      ("SET_ROTATION", 0xB0000000, 0xFFFFFE00)]
  (∀ w : Word, ∀ r ∈ rows, (w &&& r.2.2 = r.2.1 ↔ ∃ i, decodeCommand w = .ok i ∧ i.mnemonic = r.1))
    ∧ ∀ w : Word, ∀ r ∈ rows, ∀ r' ∈ rows, w &&& r.2.2 = r.2.1 → w &&& r'.2.2 = r'.2.1 → r = r'

/-- R93: a word with a reserved opcode, or with a defined opcode and a nonzero reserved bit (the bits that the layout of R91
leaves to no field), is no command, and every other word is one; an accepted word that is no command ends with
ILLEGAL_COMMAND, ERRINFO = w, and no bus event, and nothing but STATUS, ERRCODE and ERRINFO changes (R275). -/
def Obligations.IllegalWordsEndWithoutBusEvent : Prop :=
  let reserved : List (Nat × Word) :=
    [(0x1, 0x0FFF8000), (0x2, 0x0FFF80FF), (0x3, 0x0FFF8000), (0x4, 0x0FFF0000), (0x5, 0x0FFFFFF0), (0x6, 0x0FFFFFFE),
      (0x7, 0x0F000000), (0x8, 0x0F000000), (0x9, 0x0F000000), (0xA, 0x0FFFFF1F), (0xB, 0x0FFFFE00)]
  ∀ w : Word,
    ((w.extractLsb' 28 4 = 0x0 ∨ 0xC ≤ (w.extractLsb' 28 4).toNat) → decodeCommand w = .error .reservedOpcode)
      ∧ (∀ r ∈ reserved, (w.extractLsb' 28 4).toNat = r.1 → w &&& r.2 ≠ 0 → decodeCommand w = .error .reservedBits)
      ∧ (∀ r ∈ reserved, (w.extractLsb' 28 4).toNat = r.1 → w &&& r.2 = 0 → ∃ i, decodeCommand w = .ok i)
      ∧ ∀ s : State, Accepted w s → (∀ i, decodeCommand w ≠ .ok i) →
          ∃ t, step s = .next t ∧ EndedWith .illegalCommand w s t ∧ OnlyEnd s t

/-- R112: each pseudo-instruction expands to exactly one command, the one its table gives. (The spacing of the text is the
model's, log entry 18.) -/
def Obligations.PseudoInstructionsExpand : Prop :=
  assemble "CHIP_RESET" = some (.writeReg 0x3A 0x5A) ∧ assemble "WRITE_REG 0x3A, 0x5A" = some (.writeReg 0x3A 0x5A)
    ∧ assemble "FLUSH" = some (.readRegs 0x02 5) ∧ assemble "READ_REGS 0x02, 5" = some (.readRegs 0x02 5)
    ∧ assemble "GET_ID" = some (.readRegs 0x00 2) ∧ assemble "READ_REGS 0x00, 2" = some (.readRegs 0x00 2)
    ∧ assemble "MOTION_BURST" = some (.burstXfer 0x16 12) ∧ assemble "BURST_XFER 0x16, 12" = some (.burstXfer 0x16 12)
    ∧ assemble "GRAB_STATUS" = some (.readReg 0x59) ∧ assemble "READ_REG 0x59" = some (.readReg 0x59)
    ∧ assemble "GRAB_START" = some (.writeReg 0x58 0x00) ∧ assemble "WRITE_REG 0x58, 0x00" = some (.writeReg 0x58 0x00)
    ∧ assemble "GRAB_READ" = some (.readReg 0x58) ∧ assemble "READ_REG 0x58" = some (.readReg 0x58)

/-- R100, R160: a step word with F = 0xFF is WAIT G, one with F in 0x00-0x7F is a write of G to F, and no other is a step;
R101: a flat list of the source maps pair by pair, in order; R102: a list of odd length, or with a pair outside the ranges,
has no sequence. -/
def Obligations.StepWordsAndFlatLists : Prop :=
  (∀ (f g : Byte),
      (f = 0xFF → decodeStep (f ++ g) = .ok (.seqWait g))
        ∧ (f.toNat ≤ 0x7F → decodeStep (f ++ g) = .ok (.seqWrite (f.extractLsb' 0 7) g))
        ∧ (0x80 ≤ f.toNat ∧ f.toNat ≤ 0xFE → decodeStep (f ++ g) = .error .reservedStep))
    ∧ (∀ ps : List (Int × Int),
        (∀ p ∈ ps, (p.1 = -1 ∨ (0 ≤ p.1 ∧ p.1 ≤ 0x7F)) ∧ 0 ≤ p.2 ∧ p.2 ≤ 255) →
          packFlat (ps.flatMap (fun p => [p.1, p.2]))
            = some (ps.map (fun p =>
                if p.1 = -1 then 0xFF00 ||| BitVec.ofInt 16 p.2
                else (BitVec.ofInt 16 p.1 <<< 8) ||| BitVec.ofInt 16 p.2)))
    ∧ (∀ l : List Int, l.length % 2 = 1 → packFlat l = none)
    ∧ (∀ (before : List (Int × Int)) (p q : Int) (after : List Int),
        ¬((p = -1 ∨ (0 ≤ p ∧ p ≤ 0x7F)) ∧ 0 ≤ q ∧ q ≤ 255) →
          packFlat (before.flatMap (fun x => [x.1, x.2]) ++ p :: q :: after) = none)

/-- R97-R99, R144: the bytes of the frames: a write sets the address's high bit, a read never does and its byte 1 is 0x00,
and a burst puts its command byte unchanged before its zero bytes. The motion burst is `BurstFrame(0x16, 12)`. -/
def Obligations.FrameBytes : Prop :=
  (∀ (a : Addr7) (v : Byte),
      (Frame.write a v).bytes = [a.setWidth 8 ||| 0x80, v] ∧ (Frame.write a v).byte0.getLsbD 7 = true)
    ∧ (∀ a : Addr7, (Frame.read a).bytes = [a.setWidth 8, 0x00] ∧ (Frame.read a).byte0.getLsbD 7 = false)
    ∧ (∀ c len : Byte,
        (Frame.ofBurst c len).bytes = c :: List.replicate len.toNat 0x00
          ∧ (Frame.burst c len).bytes = c :: List.replicate len.toNat 0x00)
    ∧ Frame.motionBurst.bytes = [0x16, 0, 0, 0, 0, 0, 0, 0, 0, 0, 0, 0, 0]

/-! ### The sensor -/

/-- R66: every answer to an exchange is BUS_FAIL or a byte list of the frame's length, and each of these is the answer of
some sensor. (That an answer is cut or filled to the length is log entry 3.) -/
def Obligations.AnswersHaveFrameLength : Prop :=
  ∀ tx : List Byte,
    (∀ (e : Env) (rx : List Byte), (e.exchange tx).1 = some rx → rx.length = tx.length)
      ∧ (∀ e : Env, ((({ e with oracle := .script [.busFail] } : Env).exchange tx).1 = none))
      ∧ (∀ (e : Env) (rx : List Byte), rx.length = tx.length →
          (({ e with oracle := .script [.bytes rx] } : Env).exchange tx).1 = some rx)

/-- R67: SIM_SENSOR: a two-byte frame with bit 7 set writes S and answers two zero bytes, one with bit 7 clear answers the
byte S holds, and any other frame takes the scripted bytes, or zero bytes; it never answers BUS_FAIL. -/
def Obligations.SimulatedSensorAnswers : Prop :=
  ∀ (e : Env) (regs : Memory) (scripted : List (List Byte)), e.oracle = .sim regs scripted →
    (∀ b v : Byte, b.getLsbD 7 = true →
        ∃ regs', e.exchange [b, v] = (some [0x00, 0x00], { e with oracle := .sim regs' scripted })
          ∧ ∀ x, Memory.read regs' x = if x = (b.extractLsb' 0 7).toNat then v else Memory.read regs x)
      ∧ (∀ b v : Byte, b.getLsbD 7 = false →
          e.exchange [b, v] = (some [0x00, Memory.read regs (b.extractLsb' 0 7).toNat], e))
      ∧ (∀ tx : List Byte, tx.length ≠ 2 →
          (scripted = [] → e.exchange tx = (some (List.replicate tx.length 0x00), e))
            ∧ ∀ l rest, scripted = l :: rest → l.length = tx.length →
                e.exchange tx = (some l, { e with oracle := .sim regs rest }))

/-! ### Transactions -/

/-- R131 with a software select: the steps of WRITE_FRAME, READ_FRAME, BURST_FRAME and MOTION_BURST_FRAME are the assert,
the exchange and the deassert, with nothing between; after a failed assert, the clean-up deassert alone. BUS_FAIL is
reported ahead of a failed deassert. No register but CS_LEVEL changes. (CS_LEVEL records a call's level in the step after the
call, log entry 15: the assert's here, the deassert's when the result is taken.) -/
def Obligations.SelectBracketsTheExchange : Prop :=
  ∀ (f : Frame) (s : State), s.cfg.swCs = true → s.tx.frame = f → s.tx.phase = .requested →
    (s.env.csAnswer.1 = true →
        ∃ t1 t2 t3, exec f.instr s = .next t1 ∧ exec f.instr t1 = .next t2 ∧ exec f.instr t2 = .next t3
          ∧ t1 = { s with
              env := s.env.csAnswer.2, tx := { frame := f, phase := .selected },
              trace := s.trace ++ [.cs .asserted true] }
          ∧ t2 = { t1 with
              csLevel := .asserted, env := (t1.env.exchange f.bytes).2,
              tx := { frame := f, phase := .exchanged (t1.env.exchange f.bytes).1 },
              trace := t1.trace ++ [.xfer f.bytes (t1.env.exchange f.bytes).1] }
          ∧ t3 = { t2 with
              env := t2.env.csAnswer.2,
              tx := { frame := f, phase := .ended (outcomeOf (t1.env.exchange f.bytes).1 t2.env.csAnswer.1) },
              trace := t2.trace ++ [.cs .deasserted t2.env.csAnswer.1] })
      ∧ (s.env.csAnswer.1 = false →
          ∃ t1 t2, exec f.instr s = .next t1 ∧ exec f.instr t1 = .next t2
            ∧ t1 = { s with
                env := s.env.csAnswer.2, tx := { frame := f, phase := .abandoned },
                trace := s.trace ++ [.cs .asserted false] }
            ∧ t2 = { t1 with
                csLevel := .asserted, env := t1.env.csAnswer.2, tx := { frame := f, phase := .ended (.failed true) },
                trace := t1.trace ++ [.cs .deasserted t1.env.csAnswer.1] })

/-- R132: without a software select a transaction is the exchange and the BUS_FAIL check, and nothing else. -/
def Obligations.NativeSelectIsTheExchangeAlone : Prop :=
  ∀ (f : Frame) (s : State), s.cfg.swCs = false → s.tx.frame = f → s.tx.phase = .requested →
    ∃ t, exec f.instr s = .next t
      ∧ t = { s with
          env := (s.env.exchange f.bytes).2
          tx :=
            { frame := f
              phase := .ended (match (s.env.exchange f.bytes).1 with
                | none => .failed false
                | some rx => .ok rx) }
          trace := s.trace ++ [.xfer f.bytes (s.env.exchange f.bytes).1] }

/-- R131, R272, R273: a TRANSPORT error ends a plain command at once, with FRAME_B0 and CS_FAULT in ERRINFO, and undoes
nothing. R181: in a bring-up it leaves FAIL_PHASE, BU_PHASE = FAILED and the device FAILED. R246: in a capture it leaves
FC_STATE = ABORTED, and everything else of the capture as it was. -/
def Obligations.TransportErrorsEndTheCommand : Prop :=
  ∀ (s : State) (csFault : Bool), s.tx.phase = .ended (.failed csFault) →
    (∀ i : Instr,
        (match i with
          | .writeReg _ _ | .readReg _ | .burstXfer _ _ | .setOrientation _ _ _ | .setRotation _ => s.point = .regDone
          | .readRegs _ _ | .slowRead _ => s.point = .regsRead
          | .playSeq _ => s.point = .stepWritten
          | .burstRead _ => s.point = .burstRead
          | _ => False) →
          ∃ t, exec i s = .next t
            ∧ EndedWith .transport (0#23 ++ BitVec.ofBool csFault ++ s.tx.frame.bytes.headD 0) s t
            ∧ t = { s with
                status := t.status, errCode := t.errCode, errInfo := t.errInfo, point := t.point, trace := t.trace,
                tx := Taken s, csLevel := TakenLevel s })
      ∧ (∀ v : Variant,
          s.point ∈ [Point.resetWritten, .flushRead, .stepWritten, .diagRead, .cfgWritten, .statRead, .c1Read, .c2Read,
            .c1Written, .c2Written, .idRead] →
          ∃ t, exec (.bringUp v) s = .next t
            ∧ EndedWith .transport (0#23 ++ BitVec.ofBool csFault ++ s.tx.frame.bytes.headD 0) s t
            ∧ t = { s with
                status := t.status, errCode := t.errCode, errInfo := t.errInfo, point := t.point, trace := t.trace,
                tx := Taken s, csLevel := TakenLevel s, dev := { s.dev with state := .failed },
                cal := { s.cal with failPhase := s.cal.phase, phase := .failed } })
      ∧ ∀ timeoutMs : BitVec 24,
          s.point ∈ [Point.stepWritten, .grabRead, .triggerWritten, .fragmentRead] →
          ∃ t, exec (.frameCapture timeoutMs) s = .next t
            ∧ EndedWith .transport (0#23 ++ BitVec.ofBool csFault ++ s.tx.frame.bytes.headD 0) s t
            ∧ t = { s with
                status := t.status, errCode := t.errCode, errInfo := t.errInfo, point := t.point, trace := t.trace,
                tx := Taken s, csLevel := TakenLevel s, fc := { s.fc with state := .aborted } }

/-! ### Acceptance, checks and the host port -/

/-- R22: a word written to CMD is accepted while BUSY = 0: BUSY set, DONE, ERR, OVERRUN, ERRCODE and ERRINFO cleared; while
BUSY = 1 it is dropped and OVERRUN set, and nothing else changes. (That CUR_CMD takes the accepted word in this step is the
model's choice, log entry 25.) -/
def Obligations.CommandWordsAreAcceptedOrDropped : Prop :=
  ∀ (s : State) (w : Word) (rest : List Input), s.point ≠ .boot → s.inputs = .write 0x000 4 w :: rest →
    (s.status.busy = false →
        step s = .next { s with
          inputs := rest
          status := { busy := true, done := false, err := false, overrun := false }
          errCode := .none
          errInfo := 0
          curCmd := w
          point := .start
          trace := s.trace ++ [.accept w] })
      ∧ (s.status.busy = true →
          step s = .next { s with inputs := rest, status := { s.status with overrun := true } })

/-- R95: a legal, permitted command with an operand outside its range ends with INVALID_ARGUMENT, ERRINFO = the command
word, and no bus event; no other operand value is refused. -/
def Obligations.ArgumentChecks : Prop :=
  ∀ (i : Instr) (s : State), i.isCommand = true → s.point = .start → permitted i s.dev.state = true → s.cfg.wf = true →
    (((∃ a n, i = .readRegs a n ∧ 1 ≤ n.toNat ∧ a.toNat + n.toNat - 1 > 0x7F) ∨ (∃ seg, i = .playSeq seg ∧ seg.toNat > 10)
          ∨ ∃ d, i = .setRotation d ∧ d.toNat ≠ 0 ∧ d.toNat ≠ 90 ∧ d.toNat ≠ 180 ∧ d.toNat ≠ 270) →
        ∃ t, exec i s = .next t ∧ EndedWith .invalidArgument s.curCmd s t ∧ OnlyEnd s t)
      ∧ (¬((∃ a n, i = .readRegs a n ∧ 1 ≤ n.toNat ∧ a.toNat + n.toNat - 1 > 0x7F)
            ∨ (∃ seg, i = .playSeq seg ∧ seg.toNat > 10)
            ∨ ∃ d, i = .setRotation d ∧ d.toNat ≠ 0 ∧ d.toNat ≠ 90 ∧ d.toNat ≠ 180 ∧ d.toNat ≠ 270) →
          ∃ t, exec i s = .next t ∧ t.errCode = s.errCode ∧ t.errInfo = s.errInfo ∧ t.status.err = s.status.err)

/-- R180: DEVSTATE.STATE moves only as its table says; a command that is not Permitted ends with STATE, ERRINFO = the
command word, and no bus event, whatever its operands (R274); one that is Permitted does not end with STATE. -/
def Obligations.LifecycleAndPermissions : Prop :=
  (∀ (i : Instr) (s : State), s.point = .start →
      (match i with
        | .writeReg _ _ | .readReg _ | .readRegs _ _ | .burstXfer _ _ | .playSeq _ => s.dev.state = .failed
        | .bringUp _ => s.dev.state ≠ .uninit
        | .burstRead _ | .slowRead _ | .frameCapture _ | .setOrientation _ _ _ | .setRotation _ => s.dev.state ≠ .ready
        | _ => False) →
        ∃ t, exec i s = .next t ∧ EndedWith .state s.curCmd s t ∧ OnlyEnd s t)
    ∧ (∀ (i : Instr) (s : State), s.point = .start → s.cfg.wf = true →
        (match i with
          | .writeReg _ _ | .readReg _ | .readRegs _ _ | .burstXfer _ _ | .playSeq _ => s.dev.state ≠ .failed
          | .bringUp _ => s.dev.state = .uninit
          | .burstRead _ | .slowRead _ | .frameCapture _ | .setOrientation _ _ _ | .setRotation _ => s.dev.state = .ready
          | _ => False) →
          ∃ t, exec i s = .next t ∧ ¬Emits (.ended .state) s t)
    ∧ ∀ s t : State, Inv s → step s = .next t →
        (ResetStep s → t.dev.state = .uninit)
          ∧ (¬ResetStep s → s.dev.state ≠ .uninit → t.dev.state = s.dev.state)
          ∧ (¬ResetStep s → s.dev.state = .uninit → ∀ v, running s = some (.bringUp v) →
              (Emits (.ended .none) s t ↔ t.dev.state = .ready)
                ∧ (Emits (.ended .identityMismatch) s t ∨ Emits (.ended .transport) s t ↔ t.dev.state = .failed))
          ∧ (¬ResetStep s → s.dev.state = .uninit → (∀ v, running s ≠ some (.bringUp v)) → t.dev.state = .uninit)

/-- R21, R23-R34: the words a host reads at the register offsets hold the fields at their bits; CMD reads 0 and DEVSTATE bit
3 is P_SW_CS. A read changes nothing but the value returned (R43). The codes of ERRCODE, STATE, VARIANT, BU_PHASE and
FC_STATE are the numbers of R24, R26, R31 and R33. -/
def Obligations.HostReadsRegisterWords : Prop :=
  ([ErrCode.none, .transport, .timeout, .identityMismatch, .invalidArgument, .illegalCommand, .state].map ErrCode.number
      = [0, 1, 2, 3, 4, 5, 6]
    ∧ [Lifecycle.uninit, .ready, .failed].map Lifecycle.number = [0, 1, 2]
    ∧ [Variant.a, .b].map Variant.bit = [0, 1]
    ∧ [BuPhase.idle, .reset, .resetWait, .flush, .prologue, .branchA, .mid, .branchB, .sub, .writeback, .tail, .trailer,
        .idCheck, .done, .failed].map BuPhase.number = [0, 1, 2, 3, 4, 5, 6, 7, 8, 9, 10, 11, 12, 13, 14]
    ∧ [FcState.idle, .configuring, .waitingForGrabReady, .streaming, .complete, .timedOut, .aborted].map FcState.number
      = [0, 1, 2, 3, 4, 5, 6])
  ∧ ∀ (s : State) (addr : BitVec 12) (rest : List Input), s.point ≠ .boot → s.inputs = .read addr 4 :: rest →
    s.respLen ≤ 256 → s.fc.pixelCount ≤ 1225 →
    ∃ t, step s = .next t ∧ t = { s with inputs := rest, hostData := t.hostData }
      ∧ (addr = 0x000 → t.hostData.toNat = 0)
      ∧ (addr = 0x004 →
          t.hostData.toNat
            = s.status.busy.toNat + 2 * s.status.done.toNat + 4 * s.status.err.toNat + 8 * s.status.overrun.toNat)
      ∧ (addr = 0x008 → t.hostData.toNat = s.errCode.number)
      ∧ (addr = 0x00C → t.hostData = s.errInfo)
      ∧ (addr = 0x010 →
          t.hostData.toNat
            = s.dev.state.number + 4 * s.dev.variant.bit.toNat + 8 * s.cfg.swCs.toNat + 0x100 * s.dev.productId.toNat
              + 0x10000 * s.dev.revisionId.toNat + 0x1000000 * s.dev.idValid.toNat)
      ∧ (addr = 0x014 → t.hostData = s.result)
      ∧ (addr = 0x018 → t.hostData.toNat = s.respLen)
      ∧ (addr = 0x01C →
          t.hostData.toNat
            = s.sample.dataReady.toNat + 2 * s.sample.obstruction.toNat + 4 * s.sample.valid.toNat
              + 8 * s.sample.present.toNat + 0x100 * s.sample.quality.toNat + 0x10000 * s.sample.shutterUpper.toNat
              + 0x1000000 * s.sample.shutterLower.toNat)
      ∧ (addr = 0x020 →
          t.hostData.toNat
            = s.sample.rawSum.toNat + 0x100 * s.sample.rawMax.toNat + 0x10000 * s.sample.rawMin.toNat
              + 0x1000000 * s.sample.statusByte.toNat)
      ∧ (addr = 0x024 → t.hostData.toNat = s.sample.deltaX.toNat + 0x10000 * s.sample.deltaY.toNat)
      ∧ (addr = 0x028 →
          t.hostData.toNat
            = s.cal.phase.number + 0x10 * s.cal.aBit7.toNat + 0x20 * s.cal.bTaken.toNat + 0x40 * s.cal.aDone.toNat
              + 0x80 * s.cal.bDone.toNat + 0x100 * s.cal.diagByte.toNat + 0x10000 * s.cal.bstatByte.toNat
              + 0x1000000 * s.cal.failPhase.number)
      ∧ (addr = 0x02C →
          t.hostData.toNat
            = s.calVals.c1Raw.toNat + 0x100 * s.calVals.c2Raw.toNat + 0x10000 * s.calVals.c1Adj.toNat
              + 0x1000000 * s.calVals.c2Adj.toNat)
      ∧ (addr = 0x030 →
          t.hostData.toNat
            = s.fc.state.number + 8 * s.fc.haveUpper.toNat + 0x10 * s.fc.orderErr.toNat + 0x20 * s.fc.initTimeout.toNat
              + 0x100 * s.fc.lastGrabStatus.toNat + 0x10000 * s.fc.pixelCount)
      ∧ (addr = 0x034 → t.hostData.toNat = s.orient.byte.toNat + 0x100 * s.orient.written.toNat)

/-- R62, R63: a buffer byte is read by a 1-byte access or by an aligned little-endian 4-byte access, a byte past the buffer's
last index reading 0x00; every other access reads 0; a write that is not a 4-byte write to CMD is ignored. No access changes
any controller state. -/
def Obligations.HostBufferAccessesAndRefusals : Prop :=
  ∀ (s : State) (addr : BitVec 12) (n : Nat) (rest : List Input), s.point ≠ .boot →
    (s.inputs = .read addr n :: rest →
        ∃ t, step s = .next t ∧ t = { s with inputs := rest, hostData := t.hostData }
          ∧ (∀ i, n = 1 → i < 256 → addr.toNat = 0x100 + i → t.hostData.toNat = (s.respByte i).toNat)
          ∧ (∀ i, n = 1 → i < 1225 → addr.toNat = 0x800 + i → t.hostData.toNat = (s.pixelByte i).toNat)
          ∧ (∀ i, n = 4 → i % 4 = 0 → i < 256 → addr.toNat = 0x100 + i →
              t.hostData
                = s.respByte (i + 3) ++ s.respByte (i + 2) ++ s.respByte (i + 1) ++ s.respByte i)
          ∧ (∀ i, n = 4 → i % 4 = 0 → i < 1225 → addr.toNat = 0x800 + i →
              t.hostData
                = (if i + 3 < 1225 then s.pixelByte (i + 3) else 0) ++ (if i + 2 < 1225 then s.pixelByte (i + 2) else 0)
                  ++ (if i + 1 < 1225 then s.pixelByte (i + 1) else 0) ++ s.pixelByte i)
          ∧ (n ≠ 1 → n ≠ 4 → t.hostData = 0)
          ∧ (n = 4 → addr.toNat % 4 ≠ 0 → t.hostData = 0)
          ∧ (n = 1 → addr.toNat < 0x100 → t.hostData = 0)
          ∧ (0x038 ≤ addr.toNat ∧ addr.toNat < 0x100 ∨ 0x200 ≤ addr.toNat ∧ addr.toNat < 0x800 ∨ 0xCC9 ≤ addr.toNat →
              t.hostData = 0))
      ∧ ∀ v, s.inputs = .write addr n v :: rest → ¬(addr = 0 ∧ n = 4) → step s = .next { s with inputs := rest }

/-! ### Configuration and reset -/

/-- R11: a configuration is admitted only if every step word of the ROM's eleven segments is legal and the rotation map is
injective with bits [4:0] of every image 0; an ill-formed one is refused before reset. (That a ROM without eleven segments is
ill-formed is log entry 11.) -/
def Obligations.IllFormedConfigurationsAreRefused : Prop :=
  ∀ cfg : Config,
    ((cfg.seqRom.length = 11
        ∧ (∀ seg ∈ cfg.seqRom, ∀ w ∈ seg, (w.extractLsb' 8 8).toNat ≤ 0x7F ∨ w.extractLsb' 8 8 = 0xFF)
        ∧ [cfg.rotation.deg0, cfg.rotation.deg90, cfg.rotation.deg180, cfg.rotation.deg270].Nodup
        ∧ ∀ b ∈ [cfg.rotation.deg0, cfg.rotation.deg90, cfg.rotation.deg180, cfg.rotation.deg270],
            b.extractLsb' 0 5 = 0) →
        powerOn cfg = .next (State.resetOf cfg))
      ∧ (¬(cfg.seqRom.length = 11
          ∧ (∀ seg ∈ cfg.seqRom, ∀ w ∈ seg, (w.extractLsb' 8 8).toNat ≤ 0x7F ∨ w.extractLsb' 8 8 = 0xFF)
          ∧ [cfg.rotation.deg0, cfg.rotation.deg90, cfg.rotation.deg180, cfg.rotation.deg270].Nodup
          ∧ ∀ b ∈ [cfg.rotation.deg0, cfg.rotation.deg90, cfg.rotation.deg180, cfg.rotation.deg270],
              b.extractLsb' 0 5 = 0) →
          powerOn cfg = .refused .illFormedConfiguration)

/-- R300-R302, R133: a reset event in any state gives every register its reset value, appends RESET to the trace, makes no
call and no clock reading, and leaves the environment and the configuration. With a software select the next event is the
one native-select disable, whose answer changes nothing; without one there is none. (That the inputs to come are kept is log
entry 5, that nothing comes before the disable log entry 6, and that a transaction under way is dropped log entry 20.) -/
def Obligations.ResetRestoresEveryRegister : Prop :=
  ∀ (s : State) (rest : List Input), s.point ≠ .boot → s.inputs = .reset :: rest →
    ∃ t, step s = .next t
      ∧ t.status = { busy := false, done := false, err := false, overrun := false }
      ∧ t.errCode = .none ∧ t.errInfo = 0
      ∧ t.dev = { state := .uninit, variant := .a, productId := 0, revisionId := 0, idValid := false }
      ∧ t.result = 0 ∧ t.respLen = 0
      ∧ t.sample.word0 = 0 ∧ t.sample.word1 = 0 ∧ t.sample.word2 = 0
      ∧ t.cal.word = 0 ∧ t.calVals.word = 0 ∧ t.fc.word = 0 ∧ t.fc.pixelCount = 0 ∧ t.orient.word = 0
      ∧ (∀ i, i < 256 → t.respByte i = 0) ∧ (∀ i, i < 1225 → t.pixelByte i = 0)
      ∧ t.curCmd = 0 ∧ t.seqSeg = 0 ∧ t.seqPc = 0 ∧ t.rrIndex = 0 ∧ t.t0 = 0 ∧ t.loopId.number = 0
      ∧ t.c1Work = 0 ∧ t.c2Work = 0 ∧ t.csLevel = .deasserted
      ∧ t.cfg = s.cfg ∧ t.env = s.env ∧ t.inputs = rest ∧ Emits .reset s t ∧ t.tx.phase = .idle
      ∧ (s.cfg.swCs = false → t.point = .idle)
      ∧ (s.cfg.swCs = true →
          t.point = .boot
            ∧ step t = .next { t with
                point := .idle, env := t.env.nativeAnswer.2,
                trace := t.trace ++ [.nativeCsDisable t.env.nativeAnswer.1] })

/-! ### The whole machine -/

/-- R96, R131: on the controller's turn, a step is the exec of the frame under way, else of the command in CUR_CMD, at the
same state. (That a command's meaning is its next atomic step is log entry 1; that an idle controller's step changes nothing
but the input it takes is log entry 5.) -/
def Obligations.StepRunsTheDecodedInstruction : Prop :=
  ∀ s s' : State, s.point ≠ .boot → ControllerTurn s s' →
    (s.point = .idle → step s = .next s')
      ∧ (s.point ≠ .idle → s.busBusy = true → step s = exec s.tx.frame.instr s')
      ∧ (s.point ≠ .idle → s.busBusy = false → ∀ i, decode (.command s.curCmd) = .ok i → step s = exec i s')

/-- The invariant and the bracketing hold of the machine right after reset, over every admitted configuration, and so of
`State.reset`. -/
def Obligations.ResetSatisfiesTheInvariant : Prop :=
  (∀ cfg : Config, cfg.wf = true → Inv (State.resetOf cfg) ∧ Bracketed (State.resetOf cfg)) ∧ Inv State.reset
    ∧ Bracketed State.reset

/-- Every step keeps the invariant: the buffers stay canonical and in bounds, STATUS, ERRCODE and the control point agree,
the running command is legal, permitted and at a point of its own, its transaction carries the frame its rule gives, CS_LEVEL
is ASSERTED exactly from the step after the assert until the transaction's result is taken (log entry 15), SEQ_PC stays in its
segment, BU_PHASE and FC_STATE match the point, PIXEL_COUNT obeys R241 and R249, and T0 is no later than the clock. -/
def Obligations.EveryStepKeepsTheInvariant : Prop := ∀ s t : State, Inv s → step s = .next t → Inv t

/-- R66, R271, R272: in every state of the invariant the machine takes its step: no input, no answer of the sensor and no
reading of the clock ends a run. -/
def Obligations.NoStepFaultsOrIsRefused : Prop := ∀ s : State, Inv s → ∃ t, step s = .next t

/-- R70, R3, R42: a step appends at most one event to the trace, takes none away, and leaves the configuration. -/
def Obligations.OneEventAtMostPerStep : Prop :=
  ∀ s t : State, step s = .next t → t.cfg = s.cfg ∧ ∃ l : List Event, l.length ≤ 1 ∧ t.trace = s.trace ++ l

/-- R71, R130, R131: with a software select every exchange stands alone between its assert and its deassert, with no other
event between, unless a RESET cuts the bracket off (R300: reset makes no call of CsDeassert; log entry 20); without one the
trace has no chip-select event. -/
def Obligations.EveryExchangeStaysBracketed : Prop :=
  ∀ s t : State, Inv s → Bracketed s → step s = .next t → Bracketed t

/-- R72, R144, R61: an exchange on the bus carries exactly the frame that the rule of the running command gives at its
point, and its answer has the frame's length. -/
def Obligations.OnlyTheRuleFrameIsExchanged : Prop :=
  ∀ (s t : State) (tx : List Byte) (rx : Option (List Byte)), Inv s → step s = .next t → Emits (.xfer tx rx) s t →
    ∃ i f, running t = some i ∧ busFrame i t = some f ∧ tx = f.bytes ∧ ∀ l, rx = some l → l.length = tx.length

/-- R285, R15: the clock never goes back, a reading is the clock's value, and a sleep ends at least its bound after the
reading at its call. -/
def Obligations.ClockNeverGoesBack : Prop :=
  ∀ s t : State, step s = .next t →
    s.env.clock ≤ t.env.clock
      ∧ (∀ v, Emits (.now v) s t → s.env.clock ≤ v ∧ t.env.clock = v)
      ∧ ∀ ms before after, Emits (.sleep ms before after) s t →
          s.env.clock ≤ before ∧ before + ms * 1000 ≤ after ∧ t.env.clock = after

/-- R38, R27, R240: a step changes a result register only for a command whose row lists it: RESULT only at a success end. -/
def Obligations.OnlyTheListedRegistersChange : Prop :=
  ∀ s t : State, step s = .next t → ¬ResetStep s → s.point ≠ .boot →
    (t.result ≠ s.result →
        Emits (.ended .none) s t
          ∧ ∃ i, decodeCommand s.curCmd = .ok i ∧ i.mnemonic ∈ ["READ_REG", "BURST_READ", "SLOW_READ"])
      ∧ (t.respLen ≠ s.respLen ∨ (∃ k, k < 256 ∧ t.respByte k ≠ s.respByte k) →
          ∃ i, decodeCommand s.curCmd = .ok i
            ∧ i.mnemonic ∈ ["WRITE_REG", "READ_REG", "READ_REGS", "BURST_XFER", "BURST_READ", "SLOW_READ"])
      ∧ (t.sample ≠ s.sample → ∃ i, decodeCommand s.curCmd = .ok i ∧ i.mnemonic = "BURST_READ")
      ∧ (t.dev ≠ s.dev ∨ t.cal ≠ s.cal ∨ t.calVals ≠ s.calVals →
          ∃ i, decodeCommand s.curCmd = .ok i ∧ i.mnemonic = "BRING_UP")
      ∧ (t.fc ≠ s.fc ∨ (∃ k, k < 1225 ∧ t.pixelByte k ≠ s.pixelByte k) →
          ∃ i, decodeCommand s.curCmd = .ok i ∧ i.mnemonic = "FRAME_CAPTURE")
      ∧ (t.orient ≠ s.orient →
          ∃ i, decodeCommand s.curCmd = .ok i ∧ i.mnemonic ∈ ["SET_ORIENTATION", "SET_ROTATION"])

/-- R270-R272, R288: a running command ends in exactly one END event, which carries its code: NONE leaves ERR = 0 and the
error registers at 0, any other code is in ERRCODE with ERR = 1; nothing else but a reset takes BUSY away, and a command is
accepted only when none runs. (That CUR_CMD then holds its word is the model's choice, log entry 25.) -/
def Obligations.EveryCommandEndsOnce : Prop :=
  ∀ s t : State, Inv s → step s = .next t →
    (∀ c, Emits (.ended c) s t →
        s.status.busy = true ∧ t.status.busy = false ∧ t.status.done = true ∧ t.status.overrun = s.status.overrun
          ∧ t.status.err = (c != .none) ∧ t.errCode = c ∧ (c = .none → t.errInfo = 0) ∧ t.point = .idle
          ∧ t.tx.phase = .idle)
      ∧ (s.status.busy = true → t.status.busy = false → ResetStep s ∨ ∃ c, Emits (.ended c) s t)
      ∧ (∀ w, Emits (.accept w) s t → s.status.busy = false ∧ t.status.busy = true ∧ t.curCmd = w)

/-- R213, R222, R251: TIMEOUT is raised only at a reading more than TIMEOUT_MS milliseconds after T0, with LOOP and the
partial pixel count in ERRINFO. T0 changes only at a reset, or in the step after the reading with which a loop begins, and
then to that reading. (That it is the step after is R3, log entry 15.) -/
def Obligations.TimeoutsComeOnlyPastTheDeadline : Prop :=
  ∀ s t : State, Inv s → step s = .next t →
    (Emits (.ended .timeout) s t →
        ∃ i T, decodeCommand s.curCmd = .ok i ∧ s.env.clock > s.t0 + T * 1000
          ∧ ((∃ m, i = .burstRead m ∧ T = m.toNat ∧ t.errInfo.toNat = 0)
            ∨ (∃ m, i = .slowRead m ∧ T = m.toNat ∧ t.errInfo.toNat = 1)
            ∨ (∃ m, i = .frameCapture m ∧ T = m.toNat ∧ s.fc.state = .waitingForGrabReady ∧ t.errInfo.toNat = 2)
            ∨ ∃ m, i = .frameCapture m ∧ T = m.toNat ∧ s.fc.state = .streaming
              ∧ t.errInfo.toNat = 3 + 0x10000 * s.fc.pixelCount))
      ∧ (t.t0 ≠ s.t0 →
          ResetStep s ∨ (s.point ∈ [Point.loopT0Read, .initT0Read, .streamT0Read] ∧ t.t0 = s.env.clock))
      ∧ (t.point ∈ [Point.loopT0Read, .initT0Read, .streamT0Read] → t.point ≠ s.point →
          Emits (.now t.env.clock) s t ∧ s.point ∈ [Point.start, .captureWaited, .triggerWritten])

/-- R240, R241: FC_STATE moves only as its table says: STREAMING only from WAITING_FOR_GRAB_READY, with the last grab-status
byte ready and the trigger write completed; COMPLETE only at 1225 pixels; TIMED_OUT only past the deadline; ABORTED only by a
TRANSPORT error; a new capture only from a state that is not running, past its checks. -/
def Obligations.CaptureStateMovesByItsTable : Prop :=
  ∀ s t : State, Inv s → step s = .next t → t.fc.state ≠ s.fc.state →
    (ResetStep s ∧ t.fc.state = .idle)
      ∨ ∃ T, decodeCommand s.curCmd = .ok (.frameCapture T) ∧ s.dev.state = .ready
        ∧ ((s.fc.state ∈ [FcState.idle, .complete, .timedOut, .aborted] ∧ s.point = .start ∧ t.fc.state = .configuring)
          ∨ (s.fc.state = .configuring ∧ s.point = .captureWaited ∧ t.fc.state = .waitingForGrabReady)
          ∨ (s.fc.state = .waitingForGrabReady ∧ s.point = .triggerWritten ∧ s.tx.frame = .write 0x58 0x00
            ∧ (∃ rx, Answered rx s) ∧ s.fc.lastGrabStatus &&& 0xC0 = 0xC0 ∧ t.fc.state = .streaming)
          ∨ (s.fc.state = .waitingForGrabReady ∧ s.fc.lastGrabStatus &&& 0xC0 ≠ 0xC0
            ∧ s.env.clock > s.t0 + T.toNat * 1000 ∧ t.fc.state = .timedOut ∧ t.fc.initTimeout = true)
          ∨ (s.fc.state = .streaming ∧ t.fc.pixelCount = 1225 ∧ t.fc.state = .complete)
          ∨ (s.fc.state = .streaming ∧ t.fc.pixelCount < 1225 ∧ s.env.clock > s.t0 + T.toNat * 1000
            ∧ t.fc.state = .timedOut)
          ∨ (s.fc.state ∈ [FcState.configuring, .waitingForGrabReady, .streaming] ∧ Emits (.ended .transport) s t
            ∧ t.fc.state = .aborted))

/-- R191: BU_PHASE only goes up in its order during a bring-up. A step leaves out only PROLOGUE, MID, SUB, TAIL or TRAILER
where that segment of the variant is empty (the step then passes through the phase), and SUB and WRITEBACK when branch B is
not taken; an error sets FAIL_PHASE to the phase it arose in. -/
def Obligations.BringUpPhasesComeInOrder : Prop :=
  ∀ s t : State, Inv s → step s = .next t → t.cal.phase ≠ s.cal.phase →
    (ResetStep s ∧ t.cal.phase = .idle)
      ∨ ∃ v, decodeCommand s.curCmd = .ok (.bringUp v) ∧ s.dev.state = .uninit
        ∧ ((s.point = .start ∧ s.cal.phase = .idle ∧ t.cal.phase = .reset)
          ∨ (t.cal.phase = .failed ∧ t.cal.failPhase = s.cal.phase
            ∧ (Emits (.ended .transport) s t ∨ (s.cal.phase = .idCheck ∧ Emits (.ended .identityMismatch) s t)))
          ∨ (1 ≤ s.cal.phase.number ∧ s.cal.phase.number < t.cal.phase.number ∧ t.cal.phase.number ≤ 13
            ∧ (t.cal.phase = .done ↔ Emits (.ended .none) s t)
            ∧ ∀ n, s.cal.phase.number < n → n < t.cal.phase.number →
                (n = 4 ∧ s.cfg.segment (5 * v.bit.toNat) = [])
                  ∨ (n = 6 ∧ s.cfg.segment (5 * v.bit.toNat + 1) = [])
                  ∨ (n = 8 ∧ (s.cfg.segment (5 * v.bit.toNat + 2) = [] ∨ t.cal.bTaken = false))
                  ∨ (n = 9 ∧ t.cal.bTaken = false)
                  ∨ (n = 10 ∧ s.cfg.segment (5 * v.bit.toNat + 3) = [])
                  ∨ (n = 11 ∧ s.cfg.segment (5 * v.bit.toNat + 4) = [])))

/-! ### The transport commands -/

/-- R150, R97: WRITE_REG clears RESP_BUF and RESP_LEN and begins the one transaction `[a | 0x80, v]`; when it has been
answered, whatever the answer, the command succeeds. -/
def Obligations.WriteRegWritesOneRegister : Prop :=
  (∀ (a : Addr7) (v : Byte) (s : State), s.point = .start → s.dev.state ≠ .failed →
      ∃ t, exec (.writeReg a v) s = .next t ∧ Begun (.write a v) s t ∧ RespCleared s t
        ∧ t = { s with
            point := .regDone, respLen := 0, mem := t.mem, tx := t.tx, env := t.env, trace := t.trace })
    ∧ ∀ (a : Addr7) (v : Byte) (s : State) (rx : List Byte), s.point = .regDone → Answered rx s →
        ∃ t, exec (.writeReg a v) s = .next t ∧ EndedWell s t
          ∧ t = { s with status := t.status, point := .idle, trace := t.trace, tx := Taken s, csLevel := TakenLevel s }

/-- R151, R98: READ_REG begins the one transaction `[a, 0x00]`; its result rx[1] goes to RESULT and RESP_BUF[0], and rx[0] is
ignored. -/
def Obligations.ReadRegReadsOneRegister : Prop :=
  (∀ (a : Addr7) (s : State), s.point = .start → s.dev.state ≠ .failed →
      ∃ t, exec (.readReg a) s = .next t ∧ Begun (.read a) s t ∧ RespCleared s t
        ∧ t = { s with
            point := .regDone, respLen := 0, mem := t.mem, tx := t.tx, env := t.env, trace := t.trace })
    ∧ ∀ (a : Addr7) (s : State) (x b : Byte), s.point = .regDone → Answered [x, b] s →
        ∃ t, exec (.readReg a) s = .next t ∧ EndedWell s t ∧ t.respByte 0 = b ∧ MemSameOutside 0x100 1 s t
          ∧ t = { s with
              result := b.setWidth 32, respLen := 1, mem := t.mem, status := t.status, point := .idle, trace := t.trace,
              tx := Taken s, csLevel := TakenLevel s }

/-- R152, R142: READ_REGS makes COUNT reads of consecutive registers, one transaction each, and stores each byte as it
arrives; with COUNT = 0 it makes none. -/
def Obligations.ReadRegsReadsCountRegisters : Prop :=
  ∀ (a : Addr7) (n : Byte) (s : State),
    (s.point = .start → s.dev.state ≠ .failed → n = 0 →
        ∃ t, exec (.readRegs a n) s = .next t ∧ EndedWell s t ∧ RespCleared s t
          ∧ t = { s with respLen := 0, mem := t.mem, status := t.status, point := .idle, trace := t.trace })
      ∧ (s.point = .start → s.dev.state ≠ .failed → 1 ≤ n.toNat → a.toNat + n.toNat - 1 ≤ 0x7F →
          ∃ t, exec (.readRegs a n) s = .next t ∧ Begun (.read a) s t ∧ RespCleared s t
            ∧ t = { s with
                point := .regsRead, rrIndex := 0, rrOut := t.rrOut, respLen := 0, mem := t.mem, tx := t.tx, env := t.env,
                trace := t.trace })
      ∧ (∀ x b : Byte, s.point = .regsRead → Answered [x, b] s → s.rrIndex.toNat + 1 < n.toNat →
          a.toNat + n.toNat - 1 ≤ 0x7F →
          ∃ t, exec (.readRegs a n) s = .next t
            ∧ (∃ a' : Addr7, a'.toNat = a.toNat + s.rrIndex.toNat + 1 ∧ Begun (.read a') s t)
            ∧ t.respByte s.rrIndex.toNat = b ∧ MemSameOutside (0x100 + s.rrIndex.toNat) 1 s t
            ∧ t = { s with
                rrIndex := s.rrIndex + 1, rrOut := t.rrOut, respLen := s.rrIndex.toNat + 1, mem := t.mem, tx := t.tx,
                env := t.env, csLevel := TakenLevel s, trace := t.trace })
      ∧ (∀ x b : Byte, s.point = .regsRead → Answered [x, b] s → n.toNat ≤ s.rrIndex.toNat + 1 →
          ∃ t, exec (.readRegs a n) s = .next t ∧ EndedWell s t
            ∧ t.respByte s.rrIndex.toNat = b ∧ MemSameOutside (0x100 + s.rrIndex.toNat) 1 s t
            ∧ t = { s with
                rrOut := t.rrOut, respLen := s.rrIndex.toNat + 1, mem := t.mem, status := t.status, point := .idle,
                trace := t.trace, tx := Taken s, csLevel := TakenLevel s })

/-- R153, R99: BURST_XFER begins the one transaction `[c] ++ repeat(L, 0x00)`; the whole response goes to RESP_BUF. -/
def Obligations.BurstXferReturnsTheResponse : Prop :=
  (∀ (c len : Byte) (s : State), s.point = .start → s.dev.state ≠ .failed →
      ∃ t f, exec (.burstXfer c len) s = .next t ∧ f.bytes = c :: List.replicate len.toNat 0x00 ∧ Begun f s t
        ∧ RespCleared s t
        ∧ t = { s with
            point := .regDone, respLen := 0, mem := t.mem, tx := t.tx, env := t.env, trace := t.trace })
    ∧ ∀ (c len : Byte) (s : State) (rx : List Byte), s.point = .regDone → Answered rx s → rx.length = len.toNat + 1 →
        ∃ t, exec (.burstXfer c len) s = .next t ∧ EndedWell s t
          ∧ (∀ i, i ≤ len.toNat → t.respByte i = rx.getD i 0) ∧ MemSameOutside 0x100 (len.toNat + 1) s t
          ∧ t = { s with
              respLen := len.toNat + 1, mem := t.mem, status := t.status, point := .idle, trace := t.trace,
              tx := Taken s, csLevel := TakenLevel s }

/-! ### The sequence player -/

/-- R162, R163: a write step begins exactly one transaction, of `[F | 0x80, G]`; a WAIT step is exactly one Sleep(G) with no
bus event, after which at least G milliseconds have passed. No register changes. (SEQ_PC advances in the step that follows,
log entry 15.) -/
def Obligations.StepWordsDoOneThing : Prop :=
  (∀ (f : Addr7) (g : Byte) (s : State),
      ∃ t, exec (.seqWrite f g) s = .next t ∧ Begun (.write f g) s t
        ∧ t = { s with point := .stepWritten, tx := t.tx, env := t.env, trace := t.trace })
    ∧ ∀ (g : Byte) (s : State),
        ∃ t before after, exec (.seqWait g) s = .next t ∧ Emits (.sleep g.toNat before after) s t
          ∧ s.env.clock ≤ before ∧ before + g.toNat * 1000 ≤ after ∧ t.env.clock = after
          ∧ t = { s with point := .stepWaited, env := t.env, trace := t.trace }

/-- R165, R161: PLAY_SEQ starts its segment at step 0, runs the words top to bottom, moves SEQ_PC past a WAIT that is over
(in the step after its sleep, log entry 15) and past a write step whose transaction has been answered, and succeeds at the
segment's end. No register but STATUS changes. -/
def Obligations.PlaySeqRunsItsSegment : Prop :=
  ∀ (seg : BitVec 4) (s u : State), s.cfg.wf = true →
    ((s.point = .start ∧ s.dev.state ≠ .failed ∧ seg.toNat ≤ 10 ∧ u = { s with seqSeg := seg, seqPc := 0 })
      ∨ (s.point = .stepWaited ∧ u = { s with seqPc := s.seqPc + 1 })
      ∨ (s.point = .stepWritten ∧ (∃ rx, Answered rx s)
        ∧ u = { s with seqPc := s.seqPc + 1, tx := Taken s, csLevel := TakenLevel s })) →
    ∃ t, exec (.playSeq seg) s = .next t ∧ PlaysOn u t
      ∧ (u.stepWord = none →
          EndedWell u t ∧ t = { u with status := t.status, point := .idle, trace := t.trace })

/-! ### Bring-up -/

/-- R181-R183: BRING_UP records the variant, clears the calibration registers, writes 0x5A to POWER_UP_RESET, sleeps 20 ms,
and makes the five reads of the flush, whose results go to no register; then the prologue is entered. -/
def Obligations.BringUpResetsAndFlushes : Prop :=
  ∀ (v : Variant) (s : State),
    (s.point = .start → s.dev.state = .uninit →
        ∃ t, exec (.bringUp v) s = .next t ∧ Begun (.write 0x3A 0x5A) s t
          ∧ t = { s with
              point := .resetWritten, dev := { s.dev with variant := v, idValid := false },
              cal :=
                { phase := .reset, aBit7 := false, bTaken := false, aDone := false, bDone := false, diagByte := 0,
                  bstatByte := 0, failPhase := .idle },
              calVals := { c1Raw := 0, c2Raw := 0, c1Adj := 0, c2Adj := 0 }, tx := t.tx, env := t.env,
              trace := t.trace })
      ∧ (s.point = .resetWritten → (∃ rx, Answered rx s) →
          ∃ t before after, exec (.bringUp v) s = .next t ∧ Emits (.sleep 20 before after) s t
            ∧ before + 20000 ≤ after
            ∧ t = { s with
                point := .resetWaited, cal := { s.cal with phase := .resetWait }, env := t.env, trace := t.trace,
                tx := Taken s, csLevel := TakenLevel s })
      ∧ (s.point = .resetWaited →
          ∃ t, exec (.bringUp v) s = .next t ∧ Begun (.read 0x02) s t
            ∧ t = { s with
                point := .flushRead, cal := { s.cal with phase := .flush }, rrIndex := 0, rrOut := t.rrOut, tx := t.tx,
                env := t.env, trace := t.trace })
      ∧ (s.point = .flushRead → (∃ rx, Answered rx s) → s.rrIndex.toNat < 4 →
          ∃ t, exec (.bringUp v) s = .next t
            ∧ (∃ a : Addr7, a.toNat = 0x02 + s.rrIndex.toNat + 1 ∧ Begun (.read a) s t)
            ∧ t = { s with
                rrIndex := s.rrIndex + 1, rrOut := t.rrOut, tx := t.tx, env := t.env, csLevel := TakenLevel s,
                trace := t.trace })
      ∧ (s.point = .flushRead → (∃ rx, Answered rx s) → s.rrIndex.toNat = 4 → s.cfg.wf = true →
          ∃ t l, exec (.bringUp v) s = .next t
            ∧ EntersPart v .prologue { s with rrOut := l, tx := Taken s, csLevel := TakenLevel s } t)

/-- R186: inside a segment of a bring-up the player goes on, and at its end comes what the secret sauce puts there: branch A
after the prologue, branch B after the mid-sequence, the write-back after the sub-sequence, the trailer after the tail, the
identity check after the trailer. -/
def Obligations.BringUpPlaysItsSegments : Prop :=
  ∀ (v : Variant) (s u : State), s.cfg.wf = true → s.cal.phase ∈ [BuPhase.prologue, .mid, .sub, .tail, .trailer] →
    ((s.point = .stepWaited ∧ u = { s with seqPc := s.seqPc + 1 })
      ∨ (s.point = .stepWritten ∧ (∃ rx, Answered rx s)
        ∧ u = { s with seqPc := s.seqPc + 1, tx := Taken s, csLevel := TakenLevel s })) →
    ∃ t, exec (.bringUp v) s = .next t ∧ PlaysOn u t ∧ (u.stepWord = none → AfterPart v s.cal.phase u t)

/-- R187: branch A records the diagnostic byte, and bit 7 of it alone selects 0x04 or 0x02 for the config register; then the
mid-sequence is entered. -/
def Obligations.BranchAWritesByBitSeven : Prop :=
  ∀ (v : Variant) (s : State),
    (∀ x d : Byte, s.point = .diagRead → Answered [x, d] s →
        ∃ t, exec (.bringUp v) s = .next t
          ∧ (d.getLsbD 7 = true → Begun (.write (s.cfg.regs v).cfg 0x04) s t)
          ∧ (d.getLsbD 7 = false → Begun (.write (s.cfg.regs v).cfg 0x02) s t)
          ∧ t = { s with
              point := .cfgWritten, cal := { s.cal with diagByte := d, aBit7 := d.getLsbD 7, aDone := true }, tx := t.tx,
              env := t.env, csLevel := TakenLevel s, trace := t.trace })
      ∧ (s.point = .cfgWritten → (∃ rx, Answered rx s) → s.cfg.wf = true →
          ∃ t, exec (.bringUp v) s = .next t ∧ EntersPart v .mid { s with tx := Taken s, csLevel := TakenLevel s } t)

/-- R188, R184, R185: branch B compares the whole status byte with 0x00. If it is taken, c1 and c2 are read, adjusted and
recorded, the sub-sequence is played and the adjusted bytes are written back, c1 first; then, as when it is not taken, the
tail is entered. (C1_WORK and C2_WORK take the values before the clamp and the division's result, log entry 8.) -/
def Obligations.BranchBAdjustsAndWritesBack : Prop :=
  ∀ (v : Variant) (s : State), s.cfg.wf = true →
    (∀ x b : Byte, s.point = .statRead → Answered [x, b] s → b = 0x00 →
        ∃ t, exec (.bringUp v) s = .next t ∧ Begun (.read (s.cfg.regs v).c1) s t
          ∧ t = { s with
              point := .c1Read, cal := { s.cal with bstatByte := b, bDone := true, bTaken := true }, tx := t.tx,
              env := t.env, csLevel := TakenLevel s, trace := t.trace })
      ∧ (∀ x b : Byte, s.point = .statRead → Answered [x, b] s → b ≠ 0x00 →
          ∃ t, exec (.bringUp v) s = .next t
            ∧ EntersPart v .tail
                { s with
                  tx := Taken s, csLevel := TakenLevel s,
                  cal := { s.cal with bstatByte := b, bDone := true, bTaken := false } } t)
      ∧ (∀ x c1 : Byte, s.point = .c1Read → Answered [x, c1] s →
          ∃ t, exec (.bringUp v) s = .next t ∧ Begun (.read (s.cfg.regs v).c2) s t
            ∧ t = { s with
                point := .c2Read, calVals := { s.calVals with c1Raw := c1 }, tx := t.tx, env := t.env,
                csLevel := TakenLevel s, trace := t.trace })
      ∧ (∀ x c2 : Byte, s.point = .c2Read → Answered [x, c2] s →
          ∃ t a1 a2 w1 w2, exec (.bringUp v) s = .next t
            ∧ a1.toNat = adjC1 s.cfg.c1Mode s.calVals.c1Raw.toNat ∧ a2.toNat = c2.toNat * 45 / 100
            ∧ EntersPart v .sub
                { s with
                  tx := Taken s, csLevel := TakenLevel s,
                  calVals := { s.calVals with c2Raw := c2, c1Adj := a1, c2Adj := a2 }, c1Work := w1, c2Work := w2 } t)
      ∧ (s.point = .c1Written → (∃ rx, Answered rx s) →
          ∃ t, exec (.bringUp v) s = .next t ∧ Begun (.write (s.cfg.regs v).c2Dst s.calVals.c2Adj) s t
            ∧ t = { s with point := .c2Written, tx := t.tx, env := t.env, csLevel := TakenLevel s, trace := t.trace })
      ∧ (s.point = .c2Written → (∃ rx, Answered rx s) →
          ∃ t, exec (.bringUp v) s = .next t ∧ EntersPart v .tail { s with tx := Taken s, csLevel := TakenLevel s } t)

/-- R189, R190: the identity check reads registers 0x00 and 0x01, records both bytes before it tests them, and ends the
bring-up READY for (0x49, 0x00) and (0x49, 0x01), and FAILED with IDENTITY_MISMATCH for every other pair. -/
def Obligations.IdentityCheckDecidesTheBringUp : Prop :=
  ∀ (v : Variant) (s : State),
    (∀ x p : Byte, s.point = .idRead → Answered [x, p] s → s.rrIndex = 0 →
        ∃ t, exec (.bringUp v) s = .next t ∧ Begun (.read 0x01) s t
          ∧ t = { s with
              rrIndex := 1, rrOut := s.rrOut ++ [p], tx := t.tx, env := t.env, csLevel := TakenLevel s, trace := t.trace })
      ∧ ∀ x p r : Byte, s.point = .idRead → Answered [x, r] s → s.rrIndex = 1 → s.rrOut = [p] →
          ∃ t, exec (.bringUp v) s = .next t
            ∧ (p = 0x49 ∧ (r = 0x00 ∨ r = 0x01) →
                EndedWell s t
                  ∧ t = { s with
                      dev := { s.dev with state := .ready, productId := p, revisionId := r, idValid := true },
                      cal := { s.cal with phase := .done }, rrOut := t.rrOut, status := t.status, point := .idle,
                      trace := t.trace, tx := Taken s, csLevel := TakenLevel s })
            ∧ (¬(p = 0x49 ∧ (r = 0x00 ∨ r = 0x01)) →
                EndedWith .identityMismatch (0#16 ++ r ++ p) s t
                  ∧ t = { s with
                      dev := { s.dev with state := .failed, productId := p, revisionId := r, idValid := true },
                      cal := { s.cal with failPhase := s.cal.phase, phase := .failed }, rrOut := t.rrOut,
                      status := t.status, errCode := .identityMismatch, errInfo := t.errInfo, point := .idle,
                      trace := t.trace, tx := Taken s, csLevel := TakenLevel s })

/-- R184, R185, R192: the calibration arithmetic in closed form, in both modes; the results fit in 6 and in 7 bits. -/
def Obligations.CalibrationArithmetic : Prop :=
  ∀ c : Byte,
    (c.toNat ≤ 14 → adjC1 .sequential c.toNat = c.toNat + 14)
      ∧ (15 ≤ c.toNat ∧ c.toNat ≤ 28 → adjC1 .sequential c.toNat = c.toNat + 25)
      ∧ (29 ≤ c.toNat ∧ c.toNat ≤ 52 → adjC1 .sequential c.toNat = c.toNat + 11)
      ∧ (53 ≤ c.toNat → adjC1 .sequential c.toNat = 63)
      ∧ (c.toNat ≤ 28 → adjC1 .exclusive c.toNat = c.toNat + 14)
      ∧ (29 ≤ c.toNat ∧ c.toNat ≤ 52 → adjC1 .exclusive c.toNat = c.toNat + 11)
      ∧ (53 ≤ c.toNat → adjC1 .exclusive c.toNat = 63)
      ∧ adjC2 c.toNat = c.toNat * 45 / 100 ∧ adjC2 c.toNat ≤ 114

/-! ### The motion commands -/

/-- R210-R212: the fields of a 13-byte burst response in both layouts, and the validity predicate. -/
def Obligations.BurstSampleFieldsAndValidity : Prop :=
  (∀ r0 r1 r2 r3 r4 r5 r6 r7 r8 r9 r10 r11 r12 : Byte,
      (∀ x, x = parseBurst .doc [r0, r1, r2, r3, r4, r5, r6, r7, r8, r9, r10, r11, r12] →
          x.statusByte = r1 ∧ x.dataReady = r1.getLsbD 7 ∧ x.obstruction = r1.getLsbD 6
            ∧ x.deltaX.toInt = (r3 ++ r2).toInt ∧ x.deltaY.toInt = (r5 ++ r4).toInt ∧ x.quality = r6 ∧ x.rawSum = r7
            ∧ x.rawMax = r8 ∧ x.rawMin = r9 ∧ x.shutterUpper = r10 ∧ x.shutterLower = r11 ∧ x.present = true
            ∧ x.valid = sampleValid x)
        ∧ (∀ x, x = parseBurst .shifted [r0, r1, r2, r3, r4, r5, r6, r7, r8, r9, r10, r11, r12] →
          x.statusByte = r1 ∧ x.dataReady = r1.getLsbD 7 ∧ x.obstruction = r2.getLsbD 6
            ∧ x.deltaX.toInt = (r4 ++ r3).toInt ∧ x.deltaY.toInt = (r6 ++ r5).toInt ∧ x.quality = r7 ∧ x.rawSum = r8
            ∧ x.rawMax = r9 ∧ x.rawMin = r10 ∧ x.shutterUpper = r11 ∧ x.shutterLower = r12 ∧ x.present = true
            ∧ x.valid = sampleValid x))
    ∧ ∀ x : Sample,
        sampleValid x = true ↔ x.dataReady = true ∧ ¬(x.quality.toNat < 0x19 ∧ x.shutterUpper = 0x1F)

/-- R220, R213: BURST_READ reads T0 once, checks the deadline before each attempt, makes one motion burst per attempt, keeps
the response and the sample of every attempt, and returns the deltas of the first valid sample; after an attempt without one
it sleeps and tries again. (T0 takes its reading in the step after the reading, log entry 15.) -/
def Obligations.BurstReadPollsForAValidSample : Prop :=
  ∀ (timeoutMs : BitVec 24) (s : State),
    (s.point = .start → s.dev.state = .ready →
        ∃ t now, exec (.burstRead timeoutMs) s = .next t ∧ Emits (.now now) s t ∧ s.env.clock ≤ now ∧ t.env.clock = now
          ∧ t = { s with point := .loopT0Read, loopId := .burstRead, env := t.env, trace := t.trace })
      ∧ (s.point = .loopT0Read →
          ∃ t now, exec (.burstRead timeoutMs) s = .next t ∧ Emits (.now now) s t ∧ t.env.clock = now
            ∧ t = { s with point := .deadlineRead, t0 := s.env.clock, env := t.env, trace := t.trace })
      ∧ (s.point = .checkDeadline →
          ∃ t now, exec (.burstRead timeoutMs) s = .next t ∧ Emits (.now now) s t ∧ t.env.clock = now
            ∧ t = { s with point := .deadlineRead, env := t.env, trace := t.trace })
      ∧ (s.point = .deadlineRead → s.env.clock - s.t0 > timeoutMs.toNat * 1000 →
          ∃ t, exec (.burstRead timeoutMs) s = .next t ∧ EndedWith .timeout 0 s t ∧ OnlyEnd s t)
      ∧ (s.point = .deadlineRead → s.env.clock - s.t0 ≤ timeoutMs.toNat * 1000 →
          ∃ t, exec (.burstRead timeoutMs) s = .next t ∧ Begun .motionBurst s t ∧ RespCleared s t
            ∧ t = { s with
                point := .burstRead, respLen := 0, mem := t.mem, tx := t.tx, env := t.env, trace := t.trace })
      ∧ ∀ rx : List Byte, s.point = .burstRead → Answered rx s → rx.length = 13 →
          ∃ t, exec (.burstRead timeoutMs) s = .next t
            ∧ (∀ i, i < 13 → t.respByte i = rx.getD i 0) ∧ MemSameOutside 0x100 13 s t ∧ t.respLen = 13
            ∧ t.sample = parseBurst s.cfg.burstLayout rx
            ∧ (t.sample.valid = true →
                EndedWell s t ∧ t.result = t.sample.deltaY ++ t.sample.deltaX
                  ∧ t = { s with
                      sample := t.sample, result := t.result, respLen := 13, mem := t.mem, status := t.status,
                      point := .idle, trace := t.trace, tx := Taken s, csLevel := TakenLevel s })
            ∧ (t.sample.valid = false →
                (∃ before after, Emits (.sleep s.cfg.retrySleepMs before after) s t
                    ∧ before + s.cfg.retrySleepMs * 1000 ≤ after)
                  ∧ t = { s with
                      sample := t.sample, respLen := 13, mem := t.mem, point := .checkDeadline, env := t.env,
                      trace := t.trace, tx := Taken s, csLevel := TakenLevel s })

/-- R221, R105: SLOW_READ reads T0 once, checks the deadline before each attempt, makes five single reads from DATA_READY per
attempt, and returns the two little-endian deltas when bit 7 of the first byte is set, else sleeps and tries again. It has no
quality filter and writes no sample. (T0: log entry 15.) -/
def Obligations.SlowReadPollsForDataReady : Prop :=
  ∀ (timeoutMs : BitVec 24) (s : State),
    (s.point = .start → s.dev.state = .ready →
        ∃ t now, exec (.slowRead timeoutMs) s = .next t ∧ Emits (.now now) s t ∧ s.env.clock ≤ now ∧ t.env.clock = now
          ∧ t = { s with point := .loopT0Read, loopId := .slowRead, env := t.env, trace := t.trace })
      ∧ (s.point = .loopT0Read →
          ∃ t now, exec (.slowRead timeoutMs) s = .next t ∧ Emits (.now now) s t ∧ t.env.clock = now
            ∧ t = { s with point := .deadlineRead, t0 := s.env.clock, env := t.env, trace := t.trace })
      ∧ (s.point = .checkDeadline →
          ∃ t now, exec (.slowRead timeoutMs) s = .next t ∧ Emits (.now now) s t ∧ t.env.clock = now
            ∧ t = { s with point := .deadlineRead, env := t.env, trace := t.trace })
      ∧ (s.point = .deadlineRead → s.env.clock - s.t0 > timeoutMs.toNat * 1000 →
          ∃ t, exec (.slowRead timeoutMs) s = .next t ∧ EndedWith .timeout 1 s t ∧ OnlyEnd s t)
      ∧ (s.point = .deadlineRead → s.env.clock - s.t0 ≤ timeoutMs.toNat * 1000 →
          ∃ t, exec (.slowRead timeoutMs) s = .next t ∧ Begun (.read 0x02) s t ∧ RespCleared s t
            ∧ t = { s with
                point := .regsRead, rrIndex := 0, rrOut := t.rrOut, respLen := 0, mem := t.mem, tx := t.tx, env := t.env,
                trace := t.trace })
      ∧ (∀ x b : Byte, s.point = .regsRead → Answered [x, b] s → s.rrIndex.toNat < 4 →
          ∃ t, exec (.slowRead timeoutMs) s = .next t
            ∧ (∃ a : Addr7, a.toNat = 0x02 + s.rrIndex.toNat + 1 ∧ Begun (.read a) s t)
            ∧ t.respByte s.rrIndex.toNat = b ∧ MemSameOutside (0x100 + s.rrIndex.toNat) 1 s t
            ∧ t = { s with
                rrIndex := s.rrIndex + 1, rrOut := t.rrOut, respLen := s.rrIndex.toNat + 1, mem := t.mem, tx := t.tx,
                env := t.env, csLevel := TakenLevel s, trace := t.trace })
      ∧ ∀ x b : Byte, s.point = .regsRead → Answered [x, b] s → s.rrIndex = 4 →
          ∃ t, exec (.slowRead timeoutMs) s = .next t ∧ t.respByte 4 = b ∧ MemSameOutside 0x104 1 s t
            ∧ ((s.respByte 0).getLsbD 7 = true →
                EndedWell s t ∧ t.result = b ++ s.respByte 3 ++ s.respByte 2 ++ s.respByte 1
                  ∧ t = { s with
                      result := t.result, rrOut := t.rrOut, respLen := 5, mem := t.mem, status := t.status,
                      point := .idle, trace := t.trace, tx := Taken s, csLevel := TakenLevel s })
            ∧ ((s.respByte 0).getLsbD 7 = false →
                (∃ before after, Emits (.sleep s.cfg.retrySleepMs before after) s t
                    ∧ before + s.cfg.retrySleepMs * 1000 ≤ after)
                  ∧ t = { s with
                      rrOut := t.rrOut, respLen := 5, mem := t.mem, point := .checkDeadline, env := t.env,
                      trace := t.trace, tx := Taken s, csLevel := TakenLevel s })

/-- R225, R226, R108: SET_ORIENTATION writes `{swap, invY, invX, 0b00000}` to ORIENTATION and SET_ROTATION the map's byte of
its rotation; ORIENT records the byte when the write has been answered. In an admitted configuration the four rotations give
four different bytes (R11). -/
def Obligations.OrientationCommandsWriteOneByte : Prop :=
  (∀ cfg : Config, cfg.wf = true →
      [cfg.rotation.deg0, cfg.rotation.deg90, cfg.rotation.deg180, cfg.rotation.deg270].Nodup)
    ∧ ∀ (s : State) (i : Instr) (b : Byte),
    ((∃ swap invY invX, i = .setOrientation swap invY invX
        ∧ b = BitVec.ofBool swap ++ BitVec.ofBool invY ++ BitVec.ofBool invX ++ 0b00000#5)
      ∨ (i = .setRotation 0 ∧ b = s.cfg.rotation.deg0) ∨ (i = .setRotation 90 ∧ b = s.cfg.rotation.deg90)
      ∨ (i = .setRotation 180 ∧ b = s.cfg.rotation.deg180) ∨ (i = .setRotation 270 ∧ b = s.cfg.rotation.deg270)) →
    (s.point = .start → s.dev.state = .ready →
        ∃ t, exec i s = .next t ∧ Begun (.write 0x5B b) s t
          ∧ t = { s with point := .regDone, tx := t.tx, env := t.env, trace := t.trace })
      ∧ (s.point = .regDone → (∃ rx, Answered rx s) →
          ∃ t, exec i s = .next t ∧ EndedWell s t
            ∧ t = { s with
                orient := { byte := b, written := true }, status := t.status, point := .idle, trace := t.trace,
                tx := Taken s, csLevel := TakenLevel s })

/-! ### Frame capture -/

/-- R250: FRAME_CAPTURE enters CONFIGURING with FC_STATUS cleared and plays PRECAPTURE, then sleeps 10 ms. PIXEL_BUF is not
touched. -/
def Obligations.CaptureConfiguresTheSensor : Prop :=
  ∀ (timeoutMs : BitVec 24) (s u : State), s.cfg.wf = true →
    ((s.point = .start ∧ s.dev.state = .ready
        ∧ u = { s with
            seqSeg := 10, seqPc := 0,
            fc :=
              { state := .configuring, haveUpper := false, orderErr := false, initTimeout := false, lastGrabStatus := 0,
                pixelCount := 0 } })
      ∨ (s.point = .stepWaited ∧ u = { s with seqPc := s.seqPc + 1 })
      ∨ (s.point = .stepWritten ∧ (∃ rx, Answered rx s)
        ∧ u = { s with seqPc := s.seqPc + 1, tx := Taken s, csLevel := TakenLevel s })) →
    ∃ t, exec (.frameCapture timeoutMs) s = .next t ∧ PlaysOn u t
      ∧ (u.stepWord = none →
          ∃ before after, Emits (.sleep 10 before after) u t ∧ before + 10000 ≤ after
            ∧ t = { u with point := .captureWaited, env := t.env, trace := t.trace })

/-- R250, R251, R107: the grab-ready poll: T0 is read on entering WAITING_FOR_GRAB_READY (and takes its reading in the next
step, log entry 15); each status byte is recorded; bits [7:6] both set start the trigger write; otherwise the deadline is
checked after the attempt, and past it the capture ends TIMED_OUT with INIT_TIMEOUT. -/
def Obligations.CaptureWaitsForGrabReady : Prop :=
  ∀ (timeoutMs : BitVec 24) (s : State),
    (s.point = .captureWaited →
        ∃ t now, exec (.frameCapture timeoutMs) s = .next t ∧ Emits (.now now) s t ∧ s.env.clock ≤ now
          ∧ t.env.clock = now
          ∧ t = { s with
              point := .initT0Read, fc := { s.fc with state := .waitingForGrabReady }, loopId := .captureInit,
              env := t.env, trace := t.trace })
      ∧ (s.point = .initT0Read →
          ∃ t, exec (.frameCapture timeoutMs) s = .next t ∧ Begun (.read 0x59) s t
            ∧ t = { s with point := .grabRead, t0 := s.env.clock, tx := t.tx, env := t.env, trace := t.trace })
      ∧ (s.point = .pollGrab →
          ∃ t, exec (.frameCapture timeoutMs) s = .next t ∧ Begun (.read 0x59) s t
            ∧ t = { s with point := .grabRead, tx := t.tx, env := t.env, trace := t.trace })
      ∧ (∀ x g : Byte, s.point = .grabRead → Answered [x, g] s → g &&& 0xC0 = 0xC0 →
          ∃ t, exec (.frameCapture timeoutMs) s = .next t ∧ Begun (.write 0x58 0x00) s t
            ∧ t = { s with
                point := .triggerWritten, fc := { s.fc with lastGrabStatus := g }, tx := t.tx, env := t.env,
                csLevel := TakenLevel s, trace := t.trace })
      ∧ (∀ x g : Byte, s.point = .grabRead → Answered [x, g] s → g &&& 0xC0 ≠ 0xC0 →
          ∃ t now, exec (.frameCapture timeoutMs) s = .next t ∧ Emits (.now now) s t ∧ t.env.clock = now
            ∧ t = { s with
                point := .initClockRead, fc := { s.fc with lastGrabStatus := g }, env := t.env, trace := t.trace,
                tx := Taken s, csLevel := TakenLevel s })
      ∧ (s.point = .initClockRead → s.env.clock - s.t0 > timeoutMs.toNat * 1000 →
          ∃ t, exec (.frameCapture timeoutMs) s = .next t ∧ EndedWith .timeout 2 s t
            ∧ t = { s with
                fc := { s.fc with state := .timedOut, initTimeout := true }, status := t.status, errCode := t.errCode,
                errInfo := t.errInfo, point := .idle, trace := t.trace })
      ∧ (s.point = .initClockRead → s.env.clock - s.t0 ≤ timeoutMs.toNat * 1000 → s.cfg.framePollSleepMs = 0 →
          ∃ t, exec (.frameCapture timeoutMs) s = .next t ∧ Begun (.read 0x59) s t
            ∧ t = { s with point := .grabRead, tx := t.tx, env := t.env, trace := t.trace })
      ∧ (s.point = .initClockRead → s.env.clock - s.t0 ≤ timeoutMs.toNat * 1000 → s.cfg.framePollSleepMs > 0 →
          ∃ t before after, exec (.frameCapture timeoutMs) s = .next t
            ∧ Emits (.sleep s.cfg.framePollSleepMs before after) s t
            ∧ before + s.cfg.framePollSleepMs * 1000 ≤ after
            ∧ t = { s with point := .pollGrab, env := t.env, trace := t.trace })

/-- R250, R249, R251: STREAMING is entered when the trigger write has been answered: PIXEL_BUF is cleared and T0 read again
(it takes its reading in the next step, log entry 15); each read of RAWDATA_GRAB is accumulated; 1225 pixels end the capture
in COMPLETE before the deadline is looked at; past the deadline it ends TIMED_OUT with the partial pixel count. -/
def Obligations.CaptureStreamsUntilComplete : Prop :=
  ∀ (timeoutMs : BitVec 24) (s : State),
    (s.point = .triggerWritten → (∃ rx, Answered rx s) →
        ∃ t now, exec (.frameCapture timeoutMs) s = .next t ∧ Emits (.now now) s t ∧ s.env.clock ≤ now
          ∧ t.env.clock = now ∧ (∀ k, k < 1225 → t.pixelByte k = 0) ∧ MemSameOutside 0x800 1225 s t
          ∧ t = { s with
              point := .streamT0Read, fc := { s.fc with state := .streaming }, mem := t.mem, loopId := .captureStream,
              env := t.env, trace := t.trace, tx := Taken s, csLevel := TakenLevel s })
      ∧ (s.point = .streamT0Read →
          ∃ t, exec (.frameCapture timeoutMs) s = .next t ∧ Begun (.read 0x58) s t
            ∧ t = { s with point := .fragmentRead, t0 := s.env.clock, tx := t.tx, env := t.env, trace := t.trace })
      ∧ (s.point = .pollStream →
          ∃ t, exec (.frameCapture timeoutMs) s = .next t ∧ Begun (.read 0x58) s t
            ∧ t = { s with point := .fragmentRead, tx := t.tx, env := t.env, trace := t.trace })
      ∧ (∀ x f : Byte, s.point = .fragmentRead → Answered [x, f] s → s.fc.pixelCount < 1225 →
          ∃ t u, exec (.frameCapture timeoutMs) s = .next t ∧ Accumulated f s u
            ∧ (u.fc.pixelCount = 1225 →
                EndedWell s t
                  ∧ t = { s with
                      fc := { u.fc with state := .complete }, mem := u.mem, status := t.status, point := .idle,
                      trace := t.trace, tx := Taken s, csLevel := TakenLevel s })
            ∧ (u.fc.pixelCount ≠ 1225 →
                ∃ now, Emits (.now now) s t ∧ t.env.clock = now
                  ∧ t = { s with
                      fc := u.fc, mem := u.mem, point := .streamClockRead, env := t.env, trace := t.trace,
                      tx := Taken s, csLevel := TakenLevel s }))
      ∧ (s.point = .streamClockRead → s.env.clock - s.t0 > timeoutMs.toNat * 1000 →
          ∃ t, exec (.frameCapture timeoutMs) s = .next t
            ∧ EndedWith .timeout (0#5 ++ BitVec.ofNat 11 s.fc.pixelCount ++ 0#14 ++ 3#2) s t
            ∧ t = { s with
                fc := { s.fc with state := .timedOut }, status := t.status, errCode := t.errCode, errInfo := t.errInfo,
                point := .idle, trace := t.trace })
      ∧ (s.point = .streamClockRead → s.env.clock - s.t0 ≤ timeoutMs.toNat * 1000 → s.cfg.framePollSleepMs = 0 →
          ∃ t, exec (.frameCapture timeoutMs) s = .next t ∧ Begun (.read 0x58) s t
            ∧ t = { s with point := .fragmentRead, tx := t.tx, env := t.env, trace := t.trace })
      ∧ (s.point = .streamClockRead → s.env.clock - s.t0 ≤ timeoutMs.toNat * 1000 → s.cfg.framePollSleepMs > 0 →
          ∃ t before after, exec (.frameCapture timeoutMs) s = .next t
            ∧ Emits (.sleep s.cfg.framePollSleepMs before after) s t
            ∧ before + s.cfg.framePollSleepMs * 1000 ≤ after
            ∧ t = { s with point := .pollStream, env := t.env, trace := t.trace })

/-- R243, R245, R247: an upper fragment places pixel bits [7:2], a lower one pixel bits [1:0] and completes the pixel, an
order violation sets ORDER_ERR and still places its payload, and a byte of another tag changes nothing. No other register
and no other byte changes. -/
def Obligations.FragmentsBuildPixels : Prop :=
  ∀ (i : Instr) (f : Byte) (s : State), decode (.fragment f) = .ok i → s.fc.pixelCount < 1225 →
    ∃ t, exec i s = .next t ∧ Accumulated f s t ∧ t = { s with fc := t.fc, mem := t.mem }

/-- R244: a pixel assembled from an upper fragment and then a lower one has the value `(u[5:0] << 2) | f[L+1:L]`. -/
def Obligations.FragmentPairsMakeThePixelValue : Prop :=
  ∀ (u low : BitVec 6) (s : State), s.fc.pixelCount < 1225 → s.fc.haveUpper = false →
    ∃ s1 s2, exec (.fragUpper u) s = .next s1 ∧ exec (.fragLower low) s1 = .next s2
      ∧ s2.fc.pixelCount = s.fc.pixelCount + 1 ∧ s2.fc.haveUpper = false ∧ s2.fc.orderErr = s.fc.orderErr
      ∧ (s.cfg.lowerSrc = .bits32 → (s2.pixelByte s.fc.pixelCount).toNat = 4 * u.toNat + low.toNat / 4 % 4)
      ∧ (s.cfg.lowerSrc = .bits10 → (s2.pixelByte s.fc.pixelCount).toNat = 4 * u.toNat + low.toNat % 4)

/-! ### Whole commands -/

/-- 95_test_vectors S1 (R150, R151, R67): under SIM_SENSOR, WRITE_REG a, v and then READ_REG a end with RESULT = v, for every
a and v, without a software select and with one whose calls answer OK. -/
def Obligations.WriteThenReadReturnsTheValue : Prop :=
  ∀ (a : Addr7) (v : Byte) (s : State) (regs : Memory) (scripted : List (List Byte)),
    s.point = .idle → s.status.busy = false → s.tx.phase = .idle → s.dev.state ≠ .failed →
    s.env.oracle = .sim regs scripted →
    (s.cfg.swCs = false →
        s.inputs
            = [.write 0x000 4 (0x1#4 ++ 0#13 ++ a ++ v), .pass, .pass, .write 0x000 4 (0x2#4 ++ 0#13 ++ a ++ 0#8)] →
        ∃ t, steps 6 s = .next t ∧ t.result = v.setWidth 32 ∧ t.respByte 0 = v ∧ t.respLen = 1
          ∧ t.status = { busy := false, done := true, err := false, overrun := false } ∧ t.errCode = .none
          ∧ t.trace
            = s.trace
              ++ [.accept (0x1#4 ++ 0#13 ++ a ++ v), .xfer [1#1 ++ a, v] (some [0, 0]), .ended .none,
                .accept (0x2#4 ++ 0#13 ++ a ++ 0#8), .xfer [0#1 ++ a, 0] (some [0, v]), .ended .none])
      ∧ ∀ rest, s.cfg.swCs = true → s.env.csAnswers = true :: true :: true :: true :: rest →
          s.inputs
            = [.write 0x000 4 (0x1#4 ++ 0#13 ++ a ++ v), .pass, .pass, .pass, .pass,
              .write 0x000 4 (0x2#4 ++ 0#13 ++ a ++ 0#8)] →
          ∃ t, steps 10 s = .next t ∧ t.result = v.setWidth 32 ∧ t.respByte 0 = v ∧ t.respLen = 1
            ∧ t.status = { busy := false, done := true, err := false, overrun := false } ∧ t.errCode = .none
            ∧ t.trace
              = s.trace
                ++ [.accept (0x1#4 ++ 0#13 ++ a ++ v), .cs .asserted true, .xfer [1#1 ++ a, v] (some [0, 0]),
                  .cs .deasserted true, .ended .none, .accept (0x2#4 ++ 0#13 ++ a ++ 0#8), .cs .asserted true,
                  .xfer [0#1 ++ a, 0] (some [0, v]), .cs .deasserted true, .ended .none]

/-- R152, R142: a READ_REGS whose reads are all answered makes exactly COUNT transactions, of consecutive addresses, and
leaves byte i of the answers in RESP_BUF[i] and RESP_LEN = COUNT, with or without a software select. -/
def Obligations.ReadRegsRunsToItsEnd : Prop :=
  ∀ (a : Addr7) (answers : List (Byte × Byte)) (more : List Answer) (s : State),
    1 ≤ answers.length → a.toNat + answers.length ≤ 128 →
    Accepted (0x3#4 ++ 0#13 ++ a ++ BitVec.ofNat 8 answers.length) s → s.dev.state ≠ .failed →
    s.env.oracle = .script (answers.map (fun p => .bytes [p.1, p.2]) ++ more) → SelectsOk answers.length s →
    ∃ t events, events = Exchanges s.cfg.swCs (answers.mapIdx (fun i p => ([BitVec.ofNat 8 (a.toNat + i), 0x00], p)))
      ∧ steps (events.length + 1) s = .next t ∧ t.trace = s.trace ++ events ++ [.ended .none]
      ∧ t.respLen = answers.length
      ∧ (∀ i, t.respByte i = (answers.map Prod.snd).getD i (if i < 256 then 0 else s.respByte i))
      ∧ t.result = s.result ∧ t.status = { s.status with busy := false, done := true } ∧ t.point = .idle

/-- R161, R163, R166, R165: a segment all of whose writes are answered runs every one of its words once, in ROM order: one
transaction for each write step, one sleep for each WAIT step and no other event; the WAIT durations bound the time from
below; and SEQ_PC ends at the segment's length. With or without a software select. -/
def Obligations.PlaySeqRunsEveryStepOnce : Prop :=
  ∀ (seg : BitVec 4) (words : List (BitVec 16)) (answers : List (Byte × Byte)) (more : List Answer) (s : State),
    seg.toNat ≤ 10 → s.cfg.wf = true → words = s.cfg.segment seg.toNat → Accepted (0x5#4 ++ 0#24 ++ seg) s →
    s.dev.state ≠ .failed → answers.length = words.countP (fun w => w.extractLsb' 8 8 != 0xFF) →
    s.env.oracle = .script (answers.map (fun p => .bytes [p.1, p.2]) ++ more) → SelectsOk answers.length s →
    ∃ (t : State) (events : List (List Event)), steps (events.flatten.length + 1) s = .next t
      ∧ t.trace = s.trace ++ events.flatten ++ [.ended .none]
      ∧ List.Forall₂
          (fun w es =>
            if w.extractLsb' 8 8 = 0xFF then
              ∃ before after, es = [Event.sleep (w.extractLsb' 0 8).toNat before after]
                ∧ before + (w.extractLsb' 0 8).toNat * 1000 ≤ after
            else ∃ p ∈ answers, es = Exchanges s.cfg.swCs [([0x80 ||| w.extractLsb' 8 8, w.extractLsb' 0 8], p)])
          words events
      ∧ t.seqPc = words.length ∧ t.status = { s.status with busy := false, done := true }
      ∧ s.env.clock
          + ((words.filter (fun w => w.extractLsb' 8 8 == 0xFF)).map (fun w => (w.extractLsb' 0 8).toNat * 1000)).sum
        ≤ t.env.clock

/-- R193, R181-R189: a bring-up with empty segments, each transaction of which is answered by any two bytes, makes 11
transactions and one sleep when branch B is not taken and 15 and one sleep when it is, in the order of R191, and ends as the
identity bytes decide. With or without a software select. -/
def Obligations.BringUpRunsItsFixedOrder : Prop :=
  ∀ (v : Variant) (s : State) (more : List Answer) (reset f1 f2 f3 f4 f5 d c st c1 c2 w1 w2 p r : Byte × Byte),
    Accepted (0x6#4 ++ 0#27 ++ v.bit) s → s.dev.state = .uninit → s.cfg.wf = true → (∀ seg, s.cfg.segment seg = []) →
    (st.2 ≠ 0x00 →
        s.env.oracle
            = .script ([reset, f1, f2, f3, f4, f5, d, c, st, p, r].map (fun x => .bytes [x.1, x.2]) ++ more) →
        SelectsOk 11 s →
        ∃ t before after events,
          events
              = Exchanges s.cfg.swCs [([0xBA, 0x5A], reset)] ++ [.sleep 20 before after]
                ++ Exchanges s.cfg.swCs
                  [([0x02, 0], f1), ([0x03, 0], f2), ([0x04, 0], f3), ([0x05, 0], f4), ([0x06, 0], f5),
                    ([0#1 ++ (s.cfg.regs v).diag, 0], d),
                    ([1#1 ++ (s.cfg.regs v).cfg, if d.2.getLsbD 7 then 0x04 else 0x02], c),
                    ([0#1 ++ (s.cfg.regs v).stat, 0], st), ([0x00, 0], p), ([0x01, 0], r)]
            ∧ steps (events.length + 1) s = .next t
            ∧ t.trace
              = s.trace ++ events ++ [.ended (if p.2 = 0x49 ∧ (r.2 = 0x00 ∨ r.2 = 0x01) then .none else .identityMismatch)]
            ∧ before + 20000 ≤ after
            ∧ t.dev.state = (if p.2 = 0x49 ∧ (r.2 = 0x00 ∨ r.2 = 0x01) then .ready else .failed))
      ∧ (st.2 = 0x00 →
          s.env.oracle
              = .script
                ([reset, f1, f2, f3, f4, f5, d, c, st, c1, c2, w1, w2, p, r].map (fun x => .bytes [x.1, x.2]) ++ more) →
          SelectsOk 15 s →
          ∃ t before after events,
            events
                = Exchanges s.cfg.swCs [([0xBA, 0x5A], reset)] ++ [.sleep 20 before after]
                  ++ Exchanges s.cfg.swCs
                    [([0x02, 0], f1), ([0x03, 0], f2), ([0x04, 0], f3), ([0x05, 0], f4), ([0x06, 0], f5),
                      ([0#1 ++ (s.cfg.regs v).diag, 0], d),
                      ([1#1 ++ (s.cfg.regs v).cfg, if d.2.getLsbD 7 then 0x04 else 0x02], c),
                      ([0#1 ++ (s.cfg.regs v).stat, 0], st), ([0#1 ++ (s.cfg.regs v).c1, 0], c1),
                      ([0#1 ++ (s.cfg.regs v).c2, 0], c2),
                      ([1#1 ++ (s.cfg.regs v).c1Dst, BitVec.ofNat 8 (adjC1 s.cfg.c1Mode c1.2.toNat)], w1),
                      ([1#1 ++ (s.cfg.regs v).c2Dst, BitVec.ofNat 8 (c2.2.toNat * 45 / 100)], w2),
                      ([0x00, 0], p), ([0x01, 0], r)]
              ∧ steps (events.length + 1) s = .next t
              ∧ t.trace
                = s.trace ++ events
                  ++ [.ended (if p.2 = 0x49 ∧ (r.2 = 0x00 ∨ r.2 = 0x01) then .none else .identityMismatch)]
              ∧ before + 20000 ≤ after
              ∧ t.dev.state = (if p.2 = 0x49 ∧ (r.2 = 0x00 ∨ r.2 = 0x01) then .ready else .failed))

/-- R249, R244, R248: from the reading with which STREAMING is entered, 1225 upper and lower fragments in alternation, read
before the deadline and without a poll sleep, complete the capture, not before: pixel i has the value of the i-th pair under
either P_LOWER_SRC_LSB, and the exchanges are exactly the 2450 reads of RAWDATA_GRAB. With or without a software select. -/
def Obligations.CaptureAssemblesAFullFrame : Prop :=
  ∀ (timeoutMs : BitVec 24) (pixels : List ((Byte × BitVec 6) × (Byte × BitVec 6))) (answers : List (Byte × Byte))
    (advances moreSteps : List Nat) (more : List Answer) (s : State),
    pixels.length = 1225 → answers = pixels.flatMap (fun p => [(p.1.1, 0b01#2 ++ p.1.2), (p.2.1, 0b10#2 ++ p.2.2)]) →
    Inv s → s.inputs = [] → s.curCmd = 0x9#4 ++ 0#4 ++ timeoutMs → s.point = .streamT0Read →
    s.fc.pixelCount = 0 → s.fc.haveUpper = false → s.fc.orderErr = false → s.cfg.framePollSleepMs = 0 →
    s.env.oracle = .script (answers.map (fun p => .bytes [p.1, p.2]) ++ more) → SelectsOk 2450 s →
    s.env.nowSteps = advances ++ moreSteps → advances.length = 2449 → advances.sum ≤ timeoutMs.toNat * 1000 →
    ∃ n, n = (if s.cfg.swCs then 9800 else 4900)
      ∧ (∀ k u, k < n → steps k s = .next u → u.fc.state = .streaming)
      ∧ ∃ t, steps n s = .next t ∧ t.fc.state = .complete ∧ t.fc.pixelCount = 1225 ∧ t.fc.orderErr = false
        ∧ t.status = { s.status with busy := false, done := true }
        ∧ (∃ events, t.trace = s.trace ++ events
          ∧ events.filter isExchange = answers.map (fun p => .xfer [0x58, 0x00] (some [p.1, p.2])))
        ∧ ∀ i up low, pixels[i]? = some (up, low) →
            (s.cfg.lowerSrc = .bits32 → (t.pixelByte i).toNat = 4 * up.2.toNat + low.2.toNat / 4 % 4)
              ∧ (s.cfg.lowerSrc = .bits10 → (t.pixelByte i).toNat = 4 * up.2.toNat + low.2.toNat % 4)

end
end

