-- ==== Sys2Proof/Laws/State.lean ====
section
/-! SUPPORT. One lemma for each field under each named operation, so that no later proof unfolds a record update. (The
field lemmas of the plain updates `State.set…` and `State.emit` are made beside them by `simps`.) -/

namespace Sys2Proof.Machine

@[simp] theorem State.nowEvent_cfg (s : State) : (s.nowEvent).cfg = s.cfg := rfl
@[simp] theorem State.nowEvent_status (s : State) : (s.nowEvent).status = s.status := rfl
@[simp] theorem State.nowEvent_errCode (s : State) : (s.nowEvent).errCode = s.errCode := rfl
@[simp] theorem State.nowEvent_errInfo (s : State) : (s.nowEvent).errInfo = s.errInfo := rfl
@[simp] theorem State.nowEvent_dev (s : State) : (s.nowEvent).dev = s.dev := rfl
@[simp] theorem State.nowEvent_result (s : State) : (s.nowEvent).result = s.result := rfl
@[simp] theorem State.nowEvent_respLen (s : State) : (s.nowEvent).respLen = s.respLen := rfl
@[simp] theorem State.nowEvent_sample (s : State) : (s.nowEvent).sample = s.sample := rfl
@[simp] theorem State.nowEvent_cal (s : State) : (s.nowEvent).cal = s.cal := rfl
@[simp] theorem State.nowEvent_calVals (s : State) : (s.nowEvent).calVals = s.calVals := rfl
@[simp] theorem State.nowEvent_fc (s : State) : (s.nowEvent).fc = s.fc := rfl
@[simp] theorem State.nowEvent_orient (s : State) : (s.nowEvent).orient = s.orient := rfl
@[simp] theorem State.nowEvent_mem (s : State) : (s.nowEvent).mem = s.mem := rfl
@[simp] theorem State.nowEvent_curCmd (s : State) : (s.nowEvent).curCmd = s.curCmd := rfl
@[simp] theorem State.nowEvent_seqSeg (s : State) : (s.nowEvent).seqSeg = s.seqSeg := rfl
@[simp] theorem State.nowEvent_seqPc (s : State) : (s.nowEvent).seqPc = s.seqPc := rfl
@[simp] theorem State.nowEvent_rrIndex (s : State) : (s.nowEvent).rrIndex = s.rrIndex := rfl
@[simp] theorem State.nowEvent_t0 (s : State) : (s.nowEvent).t0 = s.t0 := rfl
@[simp] theorem State.nowEvent_loopId (s : State) : (s.nowEvent).loopId = s.loopId := rfl
@[simp] theorem State.nowEvent_csLevel (s : State) : (s.nowEvent).csLevel = s.csLevel := rfl
@[simp] theorem State.nowEvent_c1Work (s : State) : (s.nowEvent).c1Work = s.c1Work := rfl
@[simp] theorem State.nowEvent_c2Work (s : State) : (s.nowEvent).c2Work = s.c2Work := rfl
@[simp] theorem State.nowEvent_trace (s : State) : (s.nowEvent).trace = s.trace ++ [.now s.env.now.1] := rfl
@[simp] theorem State.nowEvent_point (s : State) : (s.nowEvent).point = s.point := rfl
@[simp] theorem State.nowEvent_tx (s : State) : (s.nowEvent).tx = s.tx := rfl
@[simp] theorem State.nowEvent_rrOut (s : State) : (s.nowEvent).rrOut = s.rrOut := rfl
@[simp] theorem State.nowEvent_env (s : State) : (s.nowEvent).env = s.env.now.2 := rfl
@[simp] theorem State.nowEvent_inputs (s : State) : (s.nowEvent).inputs = s.inputs := rfl
@[simp] theorem State.nowEvent_hostData (s : State) : (s.nowEvent).hostData = s.hostData := rfl


@[simp] theorem State.sleepEvent_cfg (ms : Nat) (s : State) : (s.sleepEvent ms).cfg = s.cfg := rfl
@[simp] theorem State.sleepEvent_status (ms : Nat) (s : State) : (s.sleepEvent ms).status = s.status := rfl
@[simp] theorem State.sleepEvent_errCode (ms : Nat) (s : State) : (s.sleepEvent ms).errCode = s.errCode := rfl
@[simp] theorem State.sleepEvent_errInfo (ms : Nat) (s : State) : (s.sleepEvent ms).errInfo = s.errInfo := rfl
@[simp] theorem State.sleepEvent_dev (ms : Nat) (s : State) : (s.sleepEvent ms).dev = s.dev := rfl
@[simp] theorem State.sleepEvent_result (ms : Nat) (s : State) : (s.sleepEvent ms).result = s.result := rfl
@[simp] theorem State.sleepEvent_respLen (ms : Nat) (s : State) : (s.sleepEvent ms).respLen = s.respLen := rfl
@[simp] theorem State.sleepEvent_sample (ms : Nat) (s : State) : (s.sleepEvent ms).sample = s.sample := rfl
@[simp] theorem State.sleepEvent_cal (ms : Nat) (s : State) : (s.sleepEvent ms).cal = s.cal := rfl
@[simp] theorem State.sleepEvent_calVals (ms : Nat) (s : State) : (s.sleepEvent ms).calVals = s.calVals := rfl
@[simp] theorem State.sleepEvent_fc (ms : Nat) (s : State) : (s.sleepEvent ms).fc = s.fc := rfl
@[simp] theorem State.sleepEvent_orient (ms : Nat) (s : State) : (s.sleepEvent ms).orient = s.orient := rfl
@[simp] theorem State.sleepEvent_mem (ms : Nat) (s : State) : (s.sleepEvent ms).mem = s.mem := rfl
@[simp] theorem State.sleepEvent_curCmd (ms : Nat) (s : State) : (s.sleepEvent ms).curCmd = s.curCmd := rfl
@[simp] theorem State.sleepEvent_seqSeg (ms : Nat) (s : State) : (s.sleepEvent ms).seqSeg = s.seqSeg := rfl
@[simp] theorem State.sleepEvent_seqPc (ms : Nat) (s : State) : (s.sleepEvent ms).seqPc = s.seqPc := rfl
@[simp] theorem State.sleepEvent_rrIndex (ms : Nat) (s : State) : (s.sleepEvent ms).rrIndex = s.rrIndex := rfl
@[simp] theorem State.sleepEvent_t0 (ms : Nat) (s : State) : (s.sleepEvent ms).t0 = s.t0 := rfl
@[simp] theorem State.sleepEvent_loopId (ms : Nat) (s : State) : (s.sleepEvent ms).loopId = s.loopId := rfl
@[simp] theorem State.sleepEvent_csLevel (ms : Nat) (s : State) : (s.sleepEvent ms).csLevel = s.csLevel := rfl
@[simp] theorem State.sleepEvent_c1Work (ms : Nat) (s : State) : (s.sleepEvent ms).c1Work = s.c1Work := rfl
@[simp] theorem State.sleepEvent_c2Work (ms : Nat) (s : State) : (s.sleepEvent ms).c2Work = s.c2Work := rfl
@[simp] theorem State.sleepEvent_trace (ms : Nat) (s : State) : (s.sleepEvent ms).trace = s.trace ++ [.sleep ms (s.env.sleep ms).1 (s.env.sleep ms).2.1] := rfl
@[simp] theorem State.sleepEvent_point (ms : Nat) (s : State) : (s.sleepEvent ms).point = s.point := rfl
@[simp] theorem State.sleepEvent_tx (ms : Nat) (s : State) : (s.sleepEvent ms).tx = s.tx := rfl
@[simp] theorem State.sleepEvent_rrOut (ms : Nat) (s : State) : (s.sleepEvent ms).rrOut = s.rrOut := rfl
@[simp] theorem State.sleepEvent_env (ms : Nat) (s : State) : (s.sleepEvent ms).env = (s.env.sleep ms).2.2 := rfl
@[simp] theorem State.sleepEvent_inputs (ms : Nat) (s : State) : (s.sleepEvent ms).inputs = s.inputs := rfl
@[simp] theorem State.sleepEvent_hostData (ms : Nat) (s : State) : (s.sleepEvent ms).hostData = s.hostData := rfl

@[simp] theorem State.nativeDisableEvent_cfg (s : State) : (s.nativeDisableEvent).cfg = s.cfg := rfl
@[simp] theorem State.nativeDisableEvent_status (s : State) : (s.nativeDisableEvent).status = s.status := rfl
@[simp] theorem State.nativeDisableEvent_errCode (s : State) : (s.nativeDisableEvent).errCode = s.errCode := rfl
@[simp] theorem State.nativeDisableEvent_errInfo (s : State) : (s.nativeDisableEvent).errInfo = s.errInfo := rfl
@[simp] theorem State.nativeDisableEvent_dev (s : State) : (s.nativeDisableEvent).dev = s.dev := rfl
@[simp] theorem State.nativeDisableEvent_result (s : State) : (s.nativeDisableEvent).result = s.result := rfl
@[simp] theorem State.nativeDisableEvent_respLen (s : State) : (s.nativeDisableEvent).respLen = s.respLen := rfl
@[simp] theorem State.nativeDisableEvent_sample (s : State) : (s.nativeDisableEvent).sample = s.sample := rfl
@[simp] theorem State.nativeDisableEvent_cal (s : State) : (s.nativeDisableEvent).cal = s.cal := rfl
@[simp] theorem State.nativeDisableEvent_calVals (s : State) : (s.nativeDisableEvent).calVals = s.calVals := rfl
@[simp] theorem State.nativeDisableEvent_fc (s : State) : (s.nativeDisableEvent).fc = s.fc := rfl
@[simp] theorem State.nativeDisableEvent_orient (s : State) : (s.nativeDisableEvent).orient = s.orient := rfl
@[simp] theorem State.nativeDisableEvent_mem (s : State) : (s.nativeDisableEvent).mem = s.mem := rfl
@[simp] theorem State.nativeDisableEvent_curCmd (s : State) : (s.nativeDisableEvent).curCmd = s.curCmd := rfl
@[simp] theorem State.nativeDisableEvent_seqSeg (s : State) : (s.nativeDisableEvent).seqSeg = s.seqSeg := rfl
@[simp] theorem State.nativeDisableEvent_seqPc (s : State) : (s.nativeDisableEvent).seqPc = s.seqPc := rfl
@[simp] theorem State.nativeDisableEvent_rrIndex (s : State) : (s.nativeDisableEvent).rrIndex = s.rrIndex := rfl
@[simp] theorem State.nativeDisableEvent_t0 (s : State) : (s.nativeDisableEvent).t0 = s.t0 := rfl
@[simp] theorem State.nativeDisableEvent_loopId (s : State) : (s.nativeDisableEvent).loopId = s.loopId := rfl
@[simp] theorem State.nativeDisableEvent_csLevel (s : State) : (s.nativeDisableEvent).csLevel = s.csLevel := rfl
@[simp] theorem State.nativeDisableEvent_c1Work (s : State) : (s.nativeDisableEvent).c1Work = s.c1Work := rfl
@[simp] theorem State.nativeDisableEvent_c2Work (s : State) : (s.nativeDisableEvent).c2Work = s.c2Work := rfl
@[simp] theorem State.nativeDisableEvent_trace (s : State) : (s.nativeDisableEvent).trace = s.trace ++ [.nativeCsDisable s.env.nativeAnswer.1] := rfl
@[simp] theorem State.nativeDisableEvent_point (s : State) : (s.nativeDisableEvent).point = s.point := rfl
@[simp] theorem State.nativeDisableEvent_tx (s : State) : (s.nativeDisableEvent).tx = s.tx := rfl
@[simp] theorem State.nativeDisableEvent_rrOut (s : State) : (s.nativeDisableEvent).rrOut = s.rrOut := rfl
@[simp] theorem State.nativeDisableEvent_env (s : State) : (s.nativeDisableEvent).env = s.env.nativeAnswer.2 := rfl
@[simp] theorem State.nativeDisableEvent_inputs (s : State) : (s.nativeDisableEvent).inputs = s.inputs := rfl
@[simp] theorem State.nativeDisableEvent_hostData (s : State) : (s.nativeDisableEvent).hostData = s.hostData := rfl

@[simp] theorem State.assertEvent_cfg (s : State) : (s.assertEvent).cfg = s.cfg := rfl
@[simp] theorem State.assertEvent_status (s : State) : (s.assertEvent).status = s.status := rfl
@[simp] theorem State.assertEvent_errCode (s : State) : (s.assertEvent).errCode = s.errCode := rfl
@[simp] theorem State.assertEvent_errInfo (s : State) : (s.assertEvent).errInfo = s.errInfo := rfl
@[simp] theorem State.assertEvent_dev (s : State) : (s.assertEvent).dev = s.dev := rfl
@[simp] theorem State.assertEvent_result (s : State) : (s.assertEvent).result = s.result := rfl
@[simp] theorem State.assertEvent_respLen (s : State) : (s.assertEvent).respLen = s.respLen := rfl
@[simp] theorem State.assertEvent_sample (s : State) : (s.assertEvent).sample = s.sample := rfl
@[simp] theorem State.assertEvent_cal (s : State) : (s.assertEvent).cal = s.cal := rfl
@[simp] theorem State.assertEvent_calVals (s : State) : (s.assertEvent).calVals = s.calVals := rfl
@[simp] theorem State.assertEvent_fc (s : State) : (s.assertEvent).fc = s.fc := rfl
@[simp] theorem State.assertEvent_orient (s : State) : (s.assertEvent).orient = s.orient := rfl
@[simp] theorem State.assertEvent_mem (s : State) : (s.assertEvent).mem = s.mem := rfl
@[simp] theorem State.assertEvent_curCmd (s : State) : (s.assertEvent).curCmd = s.curCmd := rfl
@[simp] theorem State.assertEvent_seqSeg (s : State) : (s.assertEvent).seqSeg = s.seqSeg := rfl
@[simp] theorem State.assertEvent_seqPc (s : State) : (s.assertEvent).seqPc = s.seqPc := rfl
@[simp] theorem State.assertEvent_rrIndex (s : State) : (s.assertEvent).rrIndex = s.rrIndex := rfl
@[simp] theorem State.assertEvent_t0 (s : State) : (s.assertEvent).t0 = s.t0 := rfl
@[simp] theorem State.assertEvent_loopId (s : State) : (s.assertEvent).loopId = s.loopId := rfl
@[simp] theorem State.assertEvent_csLevel (s : State) : (s.assertEvent).csLevel = s.csLevel := rfl
@[simp] theorem State.assertEvent_c1Work (s : State) : (s.assertEvent).c1Work = s.c1Work := rfl
@[simp] theorem State.assertEvent_c2Work (s : State) : (s.assertEvent).c2Work = s.c2Work := rfl
@[simp] theorem State.assertEvent_trace (s : State) : (s.assertEvent).trace = s.trace ++ [.cs .asserted s.env.csAnswer.1] := rfl
@[simp] theorem State.assertEvent_point (s : State) : (s.assertEvent).point = s.point := rfl
@[simp] theorem State.assertEvent_tx (s : State) : (s.assertEvent).tx = s.tx := rfl
@[simp] theorem State.assertEvent_rrOut (s : State) : (s.assertEvent).rrOut = s.rrOut := rfl
@[simp] theorem State.assertEvent_env (s : State) : (s.assertEvent).env = s.env.csAnswer.2 := rfl
@[simp] theorem State.assertEvent_inputs (s : State) : (s.assertEvent).inputs = s.inputs := rfl
@[simp] theorem State.assertEvent_hostData (s : State) : (s.assertEvent).hostData = s.hostData := rfl

@[simp] theorem State.deassertEvent_cfg (s : State) : (s.deassertEvent).cfg = s.cfg := rfl
@[simp] theorem State.deassertEvent_status (s : State) : (s.deassertEvent).status = s.status := rfl
@[simp] theorem State.deassertEvent_errCode (s : State) : (s.deassertEvent).errCode = s.errCode := rfl
@[simp] theorem State.deassertEvent_errInfo (s : State) : (s.deassertEvent).errInfo = s.errInfo := rfl
@[simp] theorem State.deassertEvent_dev (s : State) : (s.deassertEvent).dev = s.dev := rfl
@[simp] theorem State.deassertEvent_result (s : State) : (s.deassertEvent).result = s.result := rfl
@[simp] theorem State.deassertEvent_respLen (s : State) : (s.deassertEvent).respLen = s.respLen := rfl
@[simp] theorem State.deassertEvent_sample (s : State) : (s.deassertEvent).sample = s.sample := rfl
@[simp] theorem State.deassertEvent_cal (s : State) : (s.deassertEvent).cal = s.cal := rfl
@[simp] theorem State.deassertEvent_calVals (s : State) : (s.deassertEvent).calVals = s.calVals := rfl
@[simp] theorem State.deassertEvent_fc (s : State) : (s.deassertEvent).fc = s.fc := rfl
@[simp] theorem State.deassertEvent_orient (s : State) : (s.deassertEvent).orient = s.orient := rfl
@[simp] theorem State.deassertEvent_mem (s : State) : (s.deassertEvent).mem = s.mem := rfl
@[simp] theorem State.deassertEvent_curCmd (s : State) : (s.deassertEvent).curCmd = s.curCmd := rfl
@[simp] theorem State.deassertEvent_seqSeg (s : State) : (s.deassertEvent).seqSeg = s.seqSeg := rfl
@[simp] theorem State.deassertEvent_seqPc (s : State) : (s.deassertEvent).seqPc = s.seqPc := rfl
@[simp] theorem State.deassertEvent_rrIndex (s : State) : (s.deassertEvent).rrIndex = s.rrIndex := rfl
@[simp] theorem State.deassertEvent_t0 (s : State) : (s.deassertEvent).t0 = s.t0 := rfl
@[simp] theorem State.deassertEvent_loopId (s : State) : (s.deassertEvent).loopId = s.loopId := rfl
@[simp] theorem State.deassertEvent_csLevel (s : State) : (s.deassertEvent).csLevel = s.csLevel := rfl
@[simp] theorem State.deassertEvent_c1Work (s : State) : (s.deassertEvent).c1Work = s.c1Work := rfl
@[simp] theorem State.deassertEvent_c2Work (s : State) : (s.deassertEvent).c2Work = s.c2Work := rfl
@[simp] theorem State.deassertEvent_trace (s : State) : (s.deassertEvent).trace = s.trace ++ [.cs .deasserted s.env.csAnswer.1] := rfl
@[simp] theorem State.deassertEvent_point (s : State) : (s.deassertEvent).point = s.point := rfl
@[simp] theorem State.deassertEvent_tx (s : State) : (s.deassertEvent).tx = s.tx := rfl
@[simp] theorem State.deassertEvent_rrOut (s : State) : (s.deassertEvent).rrOut = s.rrOut := rfl
@[simp] theorem State.deassertEvent_env (s : State) : (s.deassertEvent).env = s.env.csAnswer.2 := rfl
@[simp] theorem State.deassertEvent_inputs (s : State) : (s.deassertEvent).inputs = s.inputs := rfl
@[simp] theorem State.deassertEvent_hostData (s : State) : (s.deassertEvent).hostData = s.hostData := rfl

@[simp] theorem State.xferEvent_cfg (bytes : List Byte) (s : State) : (s.xferEvent bytes).cfg = s.cfg := rfl
@[simp] theorem State.xferEvent_status (bytes : List Byte) (s : State) : (s.xferEvent bytes).status = s.status := rfl
@[simp] theorem State.xferEvent_errCode (bytes : List Byte) (s : State) : (s.xferEvent bytes).errCode = s.errCode := rfl
@[simp] theorem State.xferEvent_errInfo (bytes : List Byte) (s : State) : (s.xferEvent bytes).errInfo = s.errInfo := rfl
@[simp] theorem State.xferEvent_dev (bytes : List Byte) (s : State) : (s.xferEvent bytes).dev = s.dev := rfl
@[simp] theorem State.xferEvent_result (bytes : List Byte) (s : State) : (s.xferEvent bytes).result = s.result := rfl
@[simp] theorem State.xferEvent_respLen (bytes : List Byte) (s : State) : (s.xferEvent bytes).respLen = s.respLen := rfl
@[simp] theorem State.xferEvent_sample (bytes : List Byte) (s : State) : (s.xferEvent bytes).sample = s.sample := rfl
@[simp] theorem State.xferEvent_cal (bytes : List Byte) (s : State) : (s.xferEvent bytes).cal = s.cal := rfl
@[simp] theorem State.xferEvent_calVals (bytes : List Byte) (s : State) : (s.xferEvent bytes).calVals = s.calVals := rfl
@[simp] theorem State.xferEvent_fc (bytes : List Byte) (s : State) : (s.xferEvent bytes).fc = s.fc := rfl
@[simp] theorem State.xferEvent_orient (bytes : List Byte) (s : State) : (s.xferEvent bytes).orient = s.orient := rfl
@[simp] theorem State.xferEvent_mem (bytes : List Byte) (s : State) : (s.xferEvent bytes).mem = s.mem := rfl
@[simp] theorem State.xferEvent_curCmd (bytes : List Byte) (s : State) : (s.xferEvent bytes).curCmd = s.curCmd := rfl
@[simp] theorem State.xferEvent_seqSeg (bytes : List Byte) (s : State) : (s.xferEvent bytes).seqSeg = s.seqSeg := rfl
@[simp] theorem State.xferEvent_seqPc (bytes : List Byte) (s : State) : (s.xferEvent bytes).seqPc = s.seqPc := rfl
@[simp] theorem State.xferEvent_rrIndex (bytes : List Byte) (s : State) : (s.xferEvent bytes).rrIndex = s.rrIndex := rfl
@[simp] theorem State.xferEvent_t0 (bytes : List Byte) (s : State) : (s.xferEvent bytes).t0 = s.t0 := rfl
@[simp] theorem State.xferEvent_loopId (bytes : List Byte) (s : State) : (s.xferEvent bytes).loopId = s.loopId := rfl
@[simp] theorem State.xferEvent_csLevel (bytes : List Byte) (s : State) : (s.xferEvent bytes).csLevel = s.csLevel := rfl
@[simp] theorem State.xferEvent_c1Work (bytes : List Byte) (s : State) : (s.xferEvent bytes).c1Work = s.c1Work := rfl
@[simp] theorem State.xferEvent_c2Work (bytes : List Byte) (s : State) : (s.xferEvent bytes).c2Work = s.c2Work := rfl
@[simp] theorem State.xferEvent_trace (bytes : List Byte) (s : State) : (s.xferEvent bytes).trace = s.trace ++ [.xfer bytes (s.env.exchange bytes).1] := rfl
@[simp] theorem State.xferEvent_point (bytes : List Byte) (s : State) : (s.xferEvent bytes).point = s.point := rfl
@[simp] theorem State.xferEvent_tx (bytes : List Byte) (s : State) : (s.xferEvent bytes).tx = s.tx := rfl
@[simp] theorem State.xferEvent_rrOut (bytes : List Byte) (s : State) : (s.xferEvent bytes).rrOut = s.rrOut := rfl
@[simp] theorem State.xferEvent_env (bytes : List Byte) (s : State) : (s.xferEvent bytes).env = (s.env.exchange bytes).2 := rfl
@[simp] theorem State.xferEvent_inputs (bytes : List Byte) (s : State) : (s.xferEvent bytes).inputs = s.inputs := rfl
@[simp] theorem State.xferEvent_hostData (bytes : List Byte) (s : State) : (s.xferEvent bytes).hostData = s.hostData := rfl

@[simp] theorem State.accept_cfg (w : Word) (s : State) : (s.accept w).cfg = s.cfg := by simp [State.accept]
@[simp] theorem State.accept_status (w : Word) (s : State) : (s.accept w).status = s.status.accepted := by simp [State.accept]
@[simp] theorem State.accept_errCode (w : Word) (s : State) : (s.accept w).errCode = .none := by simp [State.accept]
@[simp] theorem State.accept_errInfo (w : Word) (s : State) : (s.accept w).errInfo = 0 := by simp [State.accept]
@[simp] theorem State.accept_dev (w : Word) (s : State) : (s.accept w).dev = s.dev := by simp [State.accept]
@[simp] theorem State.accept_result (w : Word) (s : State) : (s.accept w).result = s.result := by simp [State.accept]
@[simp] theorem State.accept_respLen (w : Word) (s : State) : (s.accept w).respLen = s.respLen := by simp [State.accept]
@[simp] theorem State.accept_sample (w : Word) (s : State) : (s.accept w).sample = s.sample := by simp [State.accept]
@[simp] theorem State.accept_cal (w : Word) (s : State) : (s.accept w).cal = s.cal := by simp [State.accept]
@[simp] theorem State.accept_calVals (w : Word) (s : State) : (s.accept w).calVals = s.calVals := by simp [State.accept]
@[simp] theorem State.accept_fc (w : Word) (s : State) : (s.accept w).fc = s.fc := by simp [State.accept]
@[simp] theorem State.accept_orient (w : Word) (s : State) : (s.accept w).orient = s.orient := by simp [State.accept]
@[simp] theorem State.accept_mem (w : Word) (s : State) : (s.accept w).mem = s.mem := by simp [State.accept]
@[simp] theorem State.accept_curCmd (w : Word) (s : State) : (s.accept w).curCmd = w := by simp [State.accept]
@[simp] theorem State.accept_seqSeg (w : Word) (s : State) : (s.accept w).seqSeg = s.seqSeg := by simp [State.accept]
@[simp] theorem State.accept_seqPc (w : Word) (s : State) : (s.accept w).seqPc = s.seqPc := by simp [State.accept]
@[simp] theorem State.accept_rrIndex (w : Word) (s : State) : (s.accept w).rrIndex = s.rrIndex := by simp [State.accept]
@[simp] theorem State.accept_t0 (w : Word) (s : State) : (s.accept w).t0 = s.t0 := by simp [State.accept]
@[simp] theorem State.accept_loopId (w : Word) (s : State) : (s.accept w).loopId = s.loopId := by simp [State.accept]
@[simp] theorem State.accept_csLevel (w : Word) (s : State) : (s.accept w).csLevel = s.csLevel := by simp [State.accept]
@[simp] theorem State.accept_c1Work (w : Word) (s : State) : (s.accept w).c1Work = s.c1Work := by simp [State.accept]
@[simp] theorem State.accept_c2Work (w : Word) (s : State) : (s.accept w).c2Work = s.c2Work := by simp [State.accept]
@[simp] theorem State.accept_trace (w : Word) (s : State) : (s.accept w).trace = s.trace ++ [.accept w] := by simp [State.accept]
@[simp] theorem State.accept_point (w : Word) (s : State) : (s.accept w).point = .start := by simp [State.accept]
@[simp] theorem State.accept_tx (w : Word) (s : State) : (s.accept w).tx = s.tx := by simp [State.accept]
@[simp] theorem State.accept_rrOut (w : Word) (s : State) : (s.accept w).rrOut = s.rrOut := by simp [State.accept]
@[simp] theorem State.accept_env (w : Word) (s : State) : (s.accept w).env = s.env := by simp [State.accept]
@[simp] theorem State.accept_inputs (w : Word) (s : State) : (s.accept w).inputs = s.inputs := by simp [State.accept]
@[simp] theorem State.accept_hostData (w : Word) (s : State) : (s.accept w).hostData = s.hostData := by simp [State.accept]

@[simp] theorem State.dropCommand_cfg (s : State) : (s.dropCommand).cfg = s.cfg := by simp [State.dropCommand]
@[simp] theorem State.dropCommand_status (s : State) : (s.dropCommand).status = s.status.dropped := by simp [State.dropCommand]
@[simp] theorem State.dropCommand_errCode (s : State) : (s.dropCommand).errCode = s.errCode := by simp [State.dropCommand]
@[simp] theorem State.dropCommand_errInfo (s : State) : (s.dropCommand).errInfo = s.errInfo := by simp [State.dropCommand]
@[simp] theorem State.dropCommand_dev (s : State) : (s.dropCommand).dev = s.dev := by simp [State.dropCommand]
@[simp] theorem State.dropCommand_result (s : State) : (s.dropCommand).result = s.result := by simp [State.dropCommand]
@[simp] theorem State.dropCommand_respLen (s : State) : (s.dropCommand).respLen = s.respLen := by simp [State.dropCommand]
@[simp] theorem State.dropCommand_sample (s : State) : (s.dropCommand).sample = s.sample := by simp [State.dropCommand]
@[simp] theorem State.dropCommand_cal (s : State) : (s.dropCommand).cal = s.cal := by simp [State.dropCommand]
@[simp] theorem State.dropCommand_calVals (s : State) : (s.dropCommand).calVals = s.calVals := by simp [State.dropCommand]
@[simp] theorem State.dropCommand_fc (s : State) : (s.dropCommand).fc = s.fc := by simp [State.dropCommand]
@[simp] theorem State.dropCommand_orient (s : State) : (s.dropCommand).orient = s.orient := by simp [State.dropCommand]
@[simp] theorem State.dropCommand_mem (s : State) : (s.dropCommand).mem = s.mem := by simp [State.dropCommand]
@[simp] theorem State.dropCommand_curCmd (s : State) : (s.dropCommand).curCmd = s.curCmd := by simp [State.dropCommand]
@[simp] theorem State.dropCommand_seqSeg (s : State) : (s.dropCommand).seqSeg = s.seqSeg := by simp [State.dropCommand]
@[simp] theorem State.dropCommand_seqPc (s : State) : (s.dropCommand).seqPc = s.seqPc := by simp [State.dropCommand]
@[simp] theorem State.dropCommand_rrIndex (s : State) : (s.dropCommand).rrIndex = s.rrIndex := by simp [State.dropCommand]
@[simp] theorem State.dropCommand_t0 (s : State) : (s.dropCommand).t0 = s.t0 := by simp [State.dropCommand]
@[simp] theorem State.dropCommand_loopId (s : State) : (s.dropCommand).loopId = s.loopId := by simp [State.dropCommand]
@[simp] theorem State.dropCommand_csLevel (s : State) : (s.dropCommand).csLevel = s.csLevel := by simp [State.dropCommand]
@[simp] theorem State.dropCommand_c1Work (s : State) : (s.dropCommand).c1Work = s.c1Work := by simp [State.dropCommand]
@[simp] theorem State.dropCommand_c2Work (s : State) : (s.dropCommand).c2Work = s.c2Work := by simp [State.dropCommand]
@[simp] theorem State.dropCommand_trace (s : State) : (s.dropCommand).trace = s.trace := by simp [State.dropCommand]
@[simp] theorem State.dropCommand_point (s : State) : (s.dropCommand).point = s.point := by simp [State.dropCommand]
@[simp] theorem State.dropCommand_tx (s : State) : (s.dropCommand).tx = s.tx := by simp [State.dropCommand]
@[simp] theorem State.dropCommand_rrOut (s : State) : (s.dropCommand).rrOut = s.rrOut := by simp [State.dropCommand]
@[simp] theorem State.dropCommand_env (s : State) : (s.dropCommand).env = s.env := by simp [State.dropCommand]
@[simp] theorem State.dropCommand_inputs (s : State) : (s.dropCommand).inputs = s.inputs := by simp [State.dropCommand]
@[simp] theorem State.dropCommand_hostData (s : State) : (s.dropCommand).hostData = s.hostData := by simp [State.dropCommand]

@[simp] theorem State.raise_cfg (code : ErrCode) (info : Word) (s : State) : (s.raise code info).cfg = s.cfg := by simp [State.raise]
@[simp] theorem State.raise_status (code : ErrCode) (info : Word) (s : State) : (s.raise code info).status = s.status.erred := by simp [State.raise]
@[simp] theorem State.raise_errCode (code : ErrCode) (info : Word) (s : State) : (s.raise code info).errCode = code := by simp [State.raise]
@[simp] theorem State.raise_errInfo (code : ErrCode) (info : Word) (s : State) : (s.raise code info).errInfo = info := by simp [State.raise]
@[simp] theorem State.raise_dev (code : ErrCode) (info : Word) (s : State) : (s.raise code info).dev = s.dev := by simp [State.raise]
@[simp] theorem State.raise_result (code : ErrCode) (info : Word) (s : State) : (s.raise code info).result = s.result := by simp [State.raise]
@[simp] theorem State.raise_respLen (code : ErrCode) (info : Word) (s : State) : (s.raise code info).respLen = s.respLen := by simp [State.raise]
@[simp] theorem State.raise_sample (code : ErrCode) (info : Word) (s : State) : (s.raise code info).sample = s.sample := by simp [State.raise]
@[simp] theorem State.raise_cal (code : ErrCode) (info : Word) (s : State) : (s.raise code info).cal = s.cal := by simp [State.raise]
@[simp] theorem State.raise_calVals (code : ErrCode) (info : Word) (s : State) : (s.raise code info).calVals = s.calVals := by simp [State.raise]
@[simp] theorem State.raise_fc (code : ErrCode) (info : Word) (s : State) : (s.raise code info).fc = s.fc := by simp [State.raise]
@[simp] theorem State.raise_orient (code : ErrCode) (info : Word) (s : State) : (s.raise code info).orient = s.orient := by simp [State.raise]
@[simp] theorem State.raise_mem (code : ErrCode) (info : Word) (s : State) : (s.raise code info).mem = s.mem := by simp [State.raise]
@[simp] theorem State.raise_curCmd (code : ErrCode) (info : Word) (s : State) : (s.raise code info).curCmd = s.curCmd := by simp [State.raise]
@[simp] theorem State.raise_seqSeg (code : ErrCode) (info : Word) (s : State) : (s.raise code info).seqSeg = s.seqSeg := by simp [State.raise]
@[simp] theorem State.raise_seqPc (code : ErrCode) (info : Word) (s : State) : (s.raise code info).seqPc = s.seqPc := by simp [State.raise]
@[simp] theorem State.raise_rrIndex (code : ErrCode) (info : Word) (s : State) : (s.raise code info).rrIndex = s.rrIndex := by simp [State.raise]
@[simp] theorem State.raise_t0 (code : ErrCode) (info : Word) (s : State) : (s.raise code info).t0 = s.t0 := by simp [State.raise]
@[simp] theorem State.raise_loopId (code : ErrCode) (info : Word) (s : State) : (s.raise code info).loopId = s.loopId := by simp [State.raise]
@[simp] theorem State.raise_csLevel (code : ErrCode) (info : Word) (s : State) : (s.raise code info).csLevel = s.csLevel := by simp [State.raise]
@[simp] theorem State.raise_c1Work (code : ErrCode) (info : Word) (s : State) : (s.raise code info).c1Work = s.c1Work := by simp [State.raise]
@[simp] theorem State.raise_c2Work (code : ErrCode) (info : Word) (s : State) : (s.raise code info).c2Work = s.c2Work := by simp [State.raise]
@[simp] theorem State.raise_trace (code : ErrCode) (info : Word) (s : State) : (s.raise code info).trace = s.trace ++ [.ended code] := by simp [State.raise]
@[simp] theorem State.raise_point (code : ErrCode) (info : Word) (s : State) : (s.raise code info).point = .idle := by simp [State.raise]
@[simp] theorem State.raise_tx (code : ErrCode) (info : Word) (s : State) : (s.raise code info).tx = s.tx := by simp [State.raise]
@[simp] theorem State.raise_rrOut (code : ErrCode) (info : Word) (s : State) : (s.raise code info).rrOut = s.rrOut := by simp [State.raise]
@[simp] theorem State.raise_env (code : ErrCode) (info : Word) (s : State) : (s.raise code info).env = s.env := by simp [State.raise]
@[simp] theorem State.raise_inputs (code : ErrCode) (info : Word) (s : State) : (s.raise code info).inputs = s.inputs := by simp [State.raise]
@[simp] theorem State.raise_hostData (code : ErrCode) (info : Word) (s : State) : (s.raise code info).hostData = s.hostData := by simp [State.raise]

@[simp] theorem State.succeed_cfg (s : State) : (s.succeed).cfg = s.cfg := by simp [State.succeed]
@[simp] theorem State.succeed_status (s : State) : (s.succeed).status = s.status.succeeded := by simp [State.succeed]
@[simp] theorem State.succeed_errCode (s : State) : (s.succeed).errCode = s.errCode := by simp [State.succeed]
@[simp] theorem State.succeed_errInfo (s : State) : (s.succeed).errInfo = s.errInfo := by simp [State.succeed]
@[simp] theorem State.succeed_dev (s : State) : (s.succeed).dev = s.dev := by simp [State.succeed]
@[simp] theorem State.succeed_result (s : State) : (s.succeed).result = s.result := by simp [State.succeed]
@[simp] theorem State.succeed_respLen (s : State) : (s.succeed).respLen = s.respLen := by simp [State.succeed]
@[simp] theorem State.succeed_sample (s : State) : (s.succeed).sample = s.sample := by simp [State.succeed]
@[simp] theorem State.succeed_cal (s : State) : (s.succeed).cal = s.cal := by simp [State.succeed]
@[simp] theorem State.succeed_calVals (s : State) : (s.succeed).calVals = s.calVals := by simp [State.succeed]
@[simp] theorem State.succeed_fc (s : State) : (s.succeed).fc = s.fc := by simp [State.succeed]
@[simp] theorem State.succeed_orient (s : State) : (s.succeed).orient = s.orient := by simp [State.succeed]
@[simp] theorem State.succeed_mem (s : State) : (s.succeed).mem = s.mem := by simp [State.succeed]
@[simp] theorem State.succeed_curCmd (s : State) : (s.succeed).curCmd = s.curCmd := by simp [State.succeed]
@[simp] theorem State.succeed_seqSeg (s : State) : (s.succeed).seqSeg = s.seqSeg := by simp [State.succeed]
@[simp] theorem State.succeed_seqPc (s : State) : (s.succeed).seqPc = s.seqPc := by simp [State.succeed]
@[simp] theorem State.succeed_rrIndex (s : State) : (s.succeed).rrIndex = s.rrIndex := by simp [State.succeed]
@[simp] theorem State.succeed_t0 (s : State) : (s.succeed).t0 = s.t0 := by simp [State.succeed]
@[simp] theorem State.succeed_loopId (s : State) : (s.succeed).loopId = s.loopId := by simp [State.succeed]
@[simp] theorem State.succeed_csLevel (s : State) : (s.succeed).csLevel = s.csLevel := by simp [State.succeed]
@[simp] theorem State.succeed_c1Work (s : State) : (s.succeed).c1Work = s.c1Work := by simp [State.succeed]
@[simp] theorem State.succeed_c2Work (s : State) : (s.succeed).c2Work = s.c2Work := by simp [State.succeed]
@[simp] theorem State.succeed_trace (s : State) : (s.succeed).trace = s.trace ++ [.ended .none] := by simp [State.succeed]
@[simp] theorem State.succeed_point (s : State) : (s.succeed).point = .idle := by simp [State.succeed]
@[simp] theorem State.succeed_tx (s : State) : (s.succeed).tx = s.tx := by simp [State.succeed]
@[simp] theorem State.succeed_rrOut (s : State) : (s.succeed).rrOut = s.rrOut := by simp [State.succeed]
@[simp] theorem State.succeed_env (s : State) : (s.succeed).env = s.env := by simp [State.succeed]
@[simp] theorem State.succeed_inputs (s : State) : (s.succeed).inputs = s.inputs := by simp [State.succeed]
@[simp] theorem State.succeed_hostData (s : State) : (s.succeed).hostData = s.hostData := by simp [State.succeed]

@[simp] theorem State.clearResp_cfg (s : State) : (s.clearResp).cfg = s.cfg := by simp [State.clearResp]
@[simp] theorem State.clearResp_status (s : State) : (s.clearResp).status = s.status := by simp [State.clearResp]
@[simp] theorem State.clearResp_errCode (s : State) : (s.clearResp).errCode = s.errCode := by simp [State.clearResp]
@[simp] theorem State.clearResp_errInfo (s : State) : (s.clearResp).errInfo = s.errInfo := by simp [State.clearResp]
@[simp] theorem State.clearResp_dev (s : State) : (s.clearResp).dev = s.dev := by simp [State.clearResp]
@[simp] theorem State.clearResp_result (s : State) : (s.clearResp).result = s.result := by simp [State.clearResp]
@[simp] theorem State.clearResp_respLen (s : State) : (s.clearResp).respLen = 0 := by simp [State.clearResp]
@[simp] theorem State.clearResp_sample (s : State) : (s.clearResp).sample = s.sample := by simp [State.clearResp]
@[simp] theorem State.clearResp_cal (s : State) : (s.clearResp).cal = s.cal := by simp [State.clearResp]
@[simp] theorem State.clearResp_calVals (s : State) : (s.clearResp).calVals = s.calVals := by simp [State.clearResp]
@[simp] theorem State.clearResp_fc (s : State) : (s.clearResp).fc = s.fc := by simp [State.clearResp]
@[simp] theorem State.clearResp_orient (s : State) : (s.clearResp).orient = s.orient := by simp [State.clearResp]
@[simp] theorem State.clearResp_mem (s : State) : (s.clearResp).mem = Memory.clear s.mem respBase Config.respBufBytes := by simp [State.clearResp]
@[simp] theorem State.clearResp_curCmd (s : State) : (s.clearResp).curCmd = s.curCmd := by simp [State.clearResp]
@[simp] theorem State.clearResp_seqSeg (s : State) : (s.clearResp).seqSeg = s.seqSeg := by simp [State.clearResp]
@[simp] theorem State.clearResp_seqPc (s : State) : (s.clearResp).seqPc = s.seqPc := by simp [State.clearResp]
@[simp] theorem State.clearResp_rrIndex (s : State) : (s.clearResp).rrIndex = s.rrIndex := by simp [State.clearResp]
@[simp] theorem State.clearResp_t0 (s : State) : (s.clearResp).t0 = s.t0 := by simp [State.clearResp]
@[simp] theorem State.clearResp_loopId (s : State) : (s.clearResp).loopId = s.loopId := by simp [State.clearResp]
@[simp] theorem State.clearResp_csLevel (s : State) : (s.clearResp).csLevel = s.csLevel := by simp [State.clearResp]
@[simp] theorem State.clearResp_c1Work (s : State) : (s.clearResp).c1Work = s.c1Work := by simp [State.clearResp]
@[simp] theorem State.clearResp_c2Work (s : State) : (s.clearResp).c2Work = s.c2Work := by simp [State.clearResp]
@[simp] theorem State.clearResp_trace (s : State) : (s.clearResp).trace = s.trace := by simp [State.clearResp]
@[simp] theorem State.clearResp_point (s : State) : (s.clearResp).point = s.point := by simp [State.clearResp]
@[simp] theorem State.clearResp_tx (s : State) : (s.clearResp).tx = s.tx := by simp [State.clearResp]
@[simp] theorem State.clearResp_rrOut (s : State) : (s.clearResp).rrOut = s.rrOut := by simp [State.clearResp]
@[simp] theorem State.clearResp_env (s : State) : (s.clearResp).env = s.env := by simp [State.clearResp]
@[simp] theorem State.clearResp_inputs (s : State) : (s.clearResp).inputs = s.inputs := by simp [State.clearResp]
@[simp] theorem State.clearResp_hostData (s : State) : (s.clearResp).hostData = s.hostData := by simp [State.clearResp]

@[simp] theorem State.clearPixels_cfg (s : State) : (s.clearPixels).cfg = s.cfg := by simp [State.clearPixels]
@[simp] theorem State.clearPixels_status (s : State) : (s.clearPixels).status = s.status := by simp [State.clearPixels]
@[simp] theorem State.clearPixels_errCode (s : State) : (s.clearPixels).errCode = s.errCode := by simp [State.clearPixels]
@[simp] theorem State.clearPixels_errInfo (s : State) : (s.clearPixels).errInfo = s.errInfo := by simp [State.clearPixels]
@[simp] theorem State.clearPixels_dev (s : State) : (s.clearPixels).dev = s.dev := by simp [State.clearPixels]
@[simp] theorem State.clearPixels_result (s : State) : (s.clearPixels).result = s.result := by simp [State.clearPixels]
@[simp] theorem State.clearPixels_respLen (s : State) : (s.clearPixels).respLen = s.respLen := by simp [State.clearPixels]
@[simp] theorem State.clearPixels_sample (s : State) : (s.clearPixels).sample = s.sample := by simp [State.clearPixels]
@[simp] theorem State.clearPixels_cal (s : State) : (s.clearPixels).cal = s.cal := by simp [State.clearPixels]
@[simp] theorem State.clearPixels_calVals (s : State) : (s.clearPixels).calVals = s.calVals := by simp [State.clearPixels]
@[simp] theorem State.clearPixels_fc (s : State) : (s.clearPixels).fc = s.fc := by simp [State.clearPixels]
@[simp] theorem State.clearPixels_orient (s : State) : (s.clearPixels).orient = s.orient := by simp [State.clearPixels]
@[simp] theorem State.clearPixels_mem (s : State) : (s.clearPixels).mem = Memory.clear s.mem pixelBase Config.framePixels := by simp [State.clearPixels]
@[simp] theorem State.clearPixels_curCmd (s : State) : (s.clearPixels).curCmd = s.curCmd := by simp [State.clearPixels]
@[simp] theorem State.clearPixels_seqSeg (s : State) : (s.clearPixels).seqSeg = s.seqSeg := by simp [State.clearPixels]
@[simp] theorem State.clearPixels_seqPc (s : State) : (s.clearPixels).seqPc = s.seqPc := by simp [State.clearPixels]
@[simp] theorem State.clearPixels_rrIndex (s : State) : (s.clearPixels).rrIndex = s.rrIndex := by simp [State.clearPixels]
@[simp] theorem State.clearPixels_t0 (s : State) : (s.clearPixels).t0 = s.t0 := by simp [State.clearPixels]
@[simp] theorem State.clearPixels_loopId (s : State) : (s.clearPixels).loopId = s.loopId := by simp [State.clearPixels]
@[simp] theorem State.clearPixels_csLevel (s : State) : (s.clearPixels).csLevel = s.csLevel := by simp [State.clearPixels]
@[simp] theorem State.clearPixels_c1Work (s : State) : (s.clearPixels).c1Work = s.c1Work := by simp [State.clearPixels]
@[simp] theorem State.clearPixels_c2Work (s : State) : (s.clearPixels).c2Work = s.c2Work := by simp [State.clearPixels]
@[simp] theorem State.clearPixels_trace (s : State) : (s.clearPixels).trace = s.trace := by simp [State.clearPixels]
@[simp] theorem State.clearPixels_point (s : State) : (s.clearPixels).point = s.point := by simp [State.clearPixels]
@[simp] theorem State.clearPixels_tx (s : State) : (s.clearPixels).tx = s.tx := by simp [State.clearPixels]
@[simp] theorem State.clearPixels_rrOut (s : State) : (s.clearPixels).rrOut = s.rrOut := by simp [State.clearPixels]
@[simp] theorem State.clearPixels_env (s : State) : (s.clearPixels).env = s.env := by simp [State.clearPixels]
@[simp] theorem State.clearPixels_inputs (s : State) : (s.clearPixels).inputs = s.inputs := by simp [State.clearPixels]
@[simp] theorem State.clearPixels_hostData (s : State) : (s.clearPixels).hostData = s.hostData := by simp [State.clearPixels]

@[simp] theorem State.setPhase_cfg (p : BuPhase) (s : State) : (s.setPhase p).cfg = s.cfg := by simp [State.setPhase]
@[simp] theorem State.setPhase_status (p : BuPhase) (s : State) : (s.setPhase p).status = s.status := by simp [State.setPhase]
@[simp] theorem State.setPhase_errCode (p : BuPhase) (s : State) : (s.setPhase p).errCode = s.errCode := by simp [State.setPhase]
@[simp] theorem State.setPhase_errInfo (p : BuPhase) (s : State) : (s.setPhase p).errInfo = s.errInfo := by simp [State.setPhase]
@[simp] theorem State.setPhase_dev (p : BuPhase) (s : State) : (s.setPhase p).dev = s.dev := by simp [State.setPhase]
@[simp] theorem State.setPhase_result (p : BuPhase) (s : State) : (s.setPhase p).result = s.result := by simp [State.setPhase]
@[simp] theorem State.setPhase_respLen (p : BuPhase) (s : State) : (s.setPhase p).respLen = s.respLen := by simp [State.setPhase]
@[simp] theorem State.setPhase_sample (p : BuPhase) (s : State) : (s.setPhase p).sample = s.sample := by simp [State.setPhase]
@[simp] theorem State.setPhase_cal (p : BuPhase) (s : State) : (s.setPhase p).cal = { s.cal with phase := p } := by simp [State.setPhase]
@[simp] theorem State.setPhase_calVals (p : BuPhase) (s : State) : (s.setPhase p).calVals = s.calVals := by simp [State.setPhase]
@[simp] theorem State.setPhase_fc (p : BuPhase) (s : State) : (s.setPhase p).fc = s.fc := by simp [State.setPhase]
@[simp] theorem State.setPhase_orient (p : BuPhase) (s : State) : (s.setPhase p).orient = s.orient := by simp [State.setPhase]
@[simp] theorem State.setPhase_mem (p : BuPhase) (s : State) : (s.setPhase p).mem = s.mem := by simp [State.setPhase]
@[simp] theorem State.setPhase_curCmd (p : BuPhase) (s : State) : (s.setPhase p).curCmd = s.curCmd := by simp [State.setPhase]
@[simp] theorem State.setPhase_seqSeg (p : BuPhase) (s : State) : (s.setPhase p).seqSeg = s.seqSeg := by simp [State.setPhase]
@[simp] theorem State.setPhase_seqPc (p : BuPhase) (s : State) : (s.setPhase p).seqPc = s.seqPc := by simp [State.setPhase]
@[simp] theorem State.setPhase_rrIndex (p : BuPhase) (s : State) : (s.setPhase p).rrIndex = s.rrIndex := by simp [State.setPhase]
@[simp] theorem State.setPhase_t0 (p : BuPhase) (s : State) : (s.setPhase p).t0 = s.t0 := by simp [State.setPhase]
@[simp] theorem State.setPhase_loopId (p : BuPhase) (s : State) : (s.setPhase p).loopId = s.loopId := by simp [State.setPhase]
@[simp] theorem State.setPhase_csLevel (p : BuPhase) (s : State) : (s.setPhase p).csLevel = s.csLevel := by simp [State.setPhase]
@[simp] theorem State.setPhase_c1Work (p : BuPhase) (s : State) : (s.setPhase p).c1Work = s.c1Work := by simp [State.setPhase]
@[simp] theorem State.setPhase_c2Work (p : BuPhase) (s : State) : (s.setPhase p).c2Work = s.c2Work := by simp [State.setPhase]
@[simp] theorem State.setPhase_trace (p : BuPhase) (s : State) : (s.setPhase p).trace = s.trace := by simp [State.setPhase]
@[simp] theorem State.setPhase_point (p : BuPhase) (s : State) : (s.setPhase p).point = s.point := by simp [State.setPhase]
@[simp] theorem State.setPhase_tx (p : BuPhase) (s : State) : (s.setPhase p).tx = s.tx := by simp [State.setPhase]
@[simp] theorem State.setPhase_rrOut (p : BuPhase) (s : State) : (s.setPhase p).rrOut = s.rrOut := by simp [State.setPhase]
@[simp] theorem State.setPhase_env (p : BuPhase) (s : State) : (s.setPhase p).env = s.env := by simp [State.setPhase]
@[simp] theorem State.setPhase_inputs (p : BuPhase) (s : State) : (s.setPhase p).inputs = s.inputs := by simp [State.setPhase]
@[simp] theorem State.setPhase_hostData (p : BuPhase) (s : State) : (s.setPhase p).hostData = s.hostData := by simp [State.setPhase]

@[simp] theorem State.markFailed_cfg (s : State) : (s.markFailed).cfg = s.cfg := by simp [State.markFailed]
@[simp] theorem State.markFailed_status (s : State) : (s.markFailed).status = s.status := by simp [State.markFailed]
@[simp] theorem State.markFailed_errCode (s : State) : (s.markFailed).errCode = s.errCode := by simp [State.markFailed]
@[simp] theorem State.markFailed_errInfo (s : State) : (s.markFailed).errInfo = s.errInfo := by simp [State.markFailed]
@[simp] theorem State.markFailed_dev (s : State) : (s.markFailed).dev = { s.dev with state := .failed } := by simp [State.markFailed]
@[simp] theorem State.markFailed_result (s : State) : (s.markFailed).result = s.result := by simp [State.markFailed]
@[simp] theorem State.markFailed_respLen (s : State) : (s.markFailed).respLen = s.respLen := by simp [State.markFailed]
@[simp] theorem State.markFailed_sample (s : State) : (s.markFailed).sample = s.sample := by simp [State.markFailed]
@[simp] theorem State.markFailed_cal (s : State) : (s.markFailed).cal = { s.cal with failPhase := s.cal.phase, phase := .failed } := by simp [State.markFailed]
@[simp] theorem State.markFailed_calVals (s : State) : (s.markFailed).calVals = s.calVals := by simp [State.markFailed]
@[simp] theorem State.markFailed_fc (s : State) : (s.markFailed).fc = s.fc := by simp [State.markFailed]
@[simp] theorem State.markFailed_orient (s : State) : (s.markFailed).orient = s.orient := by simp [State.markFailed]
@[simp] theorem State.markFailed_mem (s : State) : (s.markFailed).mem = s.mem := by simp [State.markFailed]
@[simp] theorem State.markFailed_curCmd (s : State) : (s.markFailed).curCmd = s.curCmd := by simp [State.markFailed]
@[simp] theorem State.markFailed_seqSeg (s : State) : (s.markFailed).seqSeg = s.seqSeg := by simp [State.markFailed]
@[simp] theorem State.markFailed_seqPc (s : State) : (s.markFailed).seqPc = s.seqPc := by simp [State.markFailed]
@[simp] theorem State.markFailed_rrIndex (s : State) : (s.markFailed).rrIndex = s.rrIndex := by simp [State.markFailed]
@[simp] theorem State.markFailed_t0 (s : State) : (s.markFailed).t0 = s.t0 := by simp [State.markFailed]
@[simp] theorem State.markFailed_loopId (s : State) : (s.markFailed).loopId = s.loopId := by simp [State.markFailed]
@[simp] theorem State.markFailed_csLevel (s : State) : (s.markFailed).csLevel = s.csLevel := by simp [State.markFailed]
@[simp] theorem State.markFailed_c1Work (s : State) : (s.markFailed).c1Work = s.c1Work := by simp [State.markFailed]
@[simp] theorem State.markFailed_c2Work (s : State) : (s.markFailed).c2Work = s.c2Work := by simp [State.markFailed]
@[simp] theorem State.markFailed_trace (s : State) : (s.markFailed).trace = s.trace := by simp [State.markFailed]
@[simp] theorem State.markFailed_point (s : State) : (s.markFailed).point = s.point := by simp [State.markFailed]
@[simp] theorem State.markFailed_tx (s : State) : (s.markFailed).tx = s.tx := by simp [State.markFailed]
@[simp] theorem State.markFailed_rrOut (s : State) : (s.markFailed).rrOut = s.rrOut := by simp [State.markFailed]
@[simp] theorem State.markFailed_env (s : State) : (s.markFailed).env = s.env := by simp [State.markFailed]
@[simp] theorem State.markFailed_inputs (s : State) : (s.markFailed).inputs = s.inputs := by simp [State.markFailed]
@[simp] theorem State.markFailed_hostData (s : State) : (s.markFailed).hostData = s.hostData := by simp [State.markFailed]

@[simp] theorem State.setFcState_cfg (x : FcState) (s : State) : (s.setFcState x).cfg = s.cfg := by simp [State.setFcState]
@[simp] theorem State.setFcState_status (x : FcState) (s : State) : (s.setFcState x).status = s.status := by simp [State.setFcState]
@[simp] theorem State.setFcState_errCode (x : FcState) (s : State) : (s.setFcState x).errCode = s.errCode := by simp [State.setFcState]
@[simp] theorem State.setFcState_errInfo (x : FcState) (s : State) : (s.setFcState x).errInfo = s.errInfo := by simp [State.setFcState]
@[simp] theorem State.setFcState_dev (x : FcState) (s : State) : (s.setFcState x).dev = s.dev := by simp [State.setFcState]
@[simp] theorem State.setFcState_result (x : FcState) (s : State) : (s.setFcState x).result = s.result := by simp [State.setFcState]
@[simp] theorem State.setFcState_respLen (x : FcState) (s : State) : (s.setFcState x).respLen = s.respLen := by simp [State.setFcState]
@[simp] theorem State.setFcState_sample (x : FcState) (s : State) : (s.setFcState x).sample = s.sample := by simp [State.setFcState]
@[simp] theorem State.setFcState_cal (x : FcState) (s : State) : (s.setFcState x).cal = s.cal := by simp [State.setFcState]
@[simp] theorem State.setFcState_calVals (x : FcState) (s : State) : (s.setFcState x).calVals = s.calVals := by simp [State.setFcState]
@[simp] theorem State.setFcState_fc (x : FcState) (s : State) : (s.setFcState x).fc = { s.fc with state := x } := by simp [State.setFcState]
@[simp] theorem State.setFcState_orient (x : FcState) (s : State) : (s.setFcState x).orient = s.orient := by simp [State.setFcState]
@[simp] theorem State.setFcState_mem (x : FcState) (s : State) : (s.setFcState x).mem = s.mem := by simp [State.setFcState]
@[simp] theorem State.setFcState_curCmd (x : FcState) (s : State) : (s.setFcState x).curCmd = s.curCmd := by simp [State.setFcState]
@[simp] theorem State.setFcState_seqSeg (x : FcState) (s : State) : (s.setFcState x).seqSeg = s.seqSeg := by simp [State.setFcState]
@[simp] theorem State.setFcState_seqPc (x : FcState) (s : State) : (s.setFcState x).seqPc = s.seqPc := by simp [State.setFcState]
@[simp] theorem State.setFcState_rrIndex (x : FcState) (s : State) : (s.setFcState x).rrIndex = s.rrIndex := by simp [State.setFcState]
@[simp] theorem State.setFcState_t0 (x : FcState) (s : State) : (s.setFcState x).t0 = s.t0 := by simp [State.setFcState]
@[simp] theorem State.setFcState_loopId (x : FcState) (s : State) : (s.setFcState x).loopId = s.loopId := by simp [State.setFcState]
@[simp] theorem State.setFcState_csLevel (x : FcState) (s : State) : (s.setFcState x).csLevel = s.csLevel := by simp [State.setFcState]
@[simp] theorem State.setFcState_c1Work (x : FcState) (s : State) : (s.setFcState x).c1Work = s.c1Work := by simp [State.setFcState]
@[simp] theorem State.setFcState_c2Work (x : FcState) (s : State) : (s.setFcState x).c2Work = s.c2Work := by simp [State.setFcState]
@[simp] theorem State.setFcState_trace (x : FcState) (s : State) : (s.setFcState x).trace = s.trace := by simp [State.setFcState]
@[simp] theorem State.setFcState_point (x : FcState) (s : State) : (s.setFcState x).point = s.point := by simp [State.setFcState]
@[simp] theorem State.setFcState_tx (x : FcState) (s : State) : (s.setFcState x).tx = s.tx := by simp [State.setFcState]
@[simp] theorem State.setFcState_rrOut (x : FcState) (s : State) : (s.setFcState x).rrOut = s.rrOut := by simp [State.setFcState]
@[simp] theorem State.setFcState_env (x : FcState) (s : State) : (s.setFcState x).env = s.env := by simp [State.setFcState]
@[simp] theorem State.setFcState_inputs (x : FcState) (s : State) : (s.setFcState x).inputs = s.inputs := by simp [State.setFcState]
@[simp] theorem State.setFcState_hostData (x : FcState) (s : State) : (s.setFcState x).hostData = s.hostData := by simp [State.setFcState]

@[simp] theorem State.recordOrient_cfg (b : Byte) (s : State) : (s.recordOrient b).cfg = s.cfg := by simp [State.recordOrient]
@[simp] theorem State.recordOrient_status (b : Byte) (s : State) : (s.recordOrient b).status = s.status := by simp [State.recordOrient]
@[simp] theorem State.recordOrient_errCode (b : Byte) (s : State) : (s.recordOrient b).errCode = s.errCode := by simp [State.recordOrient]
@[simp] theorem State.recordOrient_errInfo (b : Byte) (s : State) : (s.recordOrient b).errInfo = s.errInfo := by simp [State.recordOrient]
@[simp] theorem State.recordOrient_dev (b : Byte) (s : State) : (s.recordOrient b).dev = s.dev := by simp [State.recordOrient]
@[simp] theorem State.recordOrient_result (b : Byte) (s : State) : (s.recordOrient b).result = s.result := by simp [State.recordOrient]
@[simp] theorem State.recordOrient_respLen (b : Byte) (s : State) : (s.recordOrient b).respLen = s.respLen := by simp [State.recordOrient]
@[simp] theorem State.recordOrient_sample (b : Byte) (s : State) : (s.recordOrient b).sample = s.sample := by simp [State.recordOrient]
@[simp] theorem State.recordOrient_cal (b : Byte) (s : State) : (s.recordOrient b).cal = s.cal := by simp [State.recordOrient]
@[simp] theorem State.recordOrient_calVals (b : Byte) (s : State) : (s.recordOrient b).calVals = s.calVals := by simp [State.recordOrient]
@[simp] theorem State.recordOrient_fc (b : Byte) (s : State) : (s.recordOrient b).fc = s.fc := by simp [State.recordOrient]
@[simp] theorem State.recordOrient_orient (b : Byte) (s : State) : (s.recordOrient b).orient = { byte := b, written := true } := by simp [State.recordOrient]
@[simp] theorem State.recordOrient_mem (b : Byte) (s : State) : (s.recordOrient b).mem = s.mem := by simp [State.recordOrient]
@[simp] theorem State.recordOrient_curCmd (b : Byte) (s : State) : (s.recordOrient b).curCmd = s.curCmd := by simp [State.recordOrient]
@[simp] theorem State.recordOrient_seqSeg (b : Byte) (s : State) : (s.recordOrient b).seqSeg = s.seqSeg := by simp [State.recordOrient]
@[simp] theorem State.recordOrient_seqPc (b : Byte) (s : State) : (s.recordOrient b).seqPc = s.seqPc := by simp [State.recordOrient]
@[simp] theorem State.recordOrient_rrIndex (b : Byte) (s : State) : (s.recordOrient b).rrIndex = s.rrIndex := by simp [State.recordOrient]
@[simp] theorem State.recordOrient_t0 (b : Byte) (s : State) : (s.recordOrient b).t0 = s.t0 := by simp [State.recordOrient]
@[simp] theorem State.recordOrient_loopId (b : Byte) (s : State) : (s.recordOrient b).loopId = s.loopId := by simp [State.recordOrient]
@[simp] theorem State.recordOrient_csLevel (b : Byte) (s : State) : (s.recordOrient b).csLevel = s.csLevel := by simp [State.recordOrient]
@[simp] theorem State.recordOrient_c1Work (b : Byte) (s : State) : (s.recordOrient b).c1Work = s.c1Work := by simp [State.recordOrient]
@[simp] theorem State.recordOrient_c2Work (b : Byte) (s : State) : (s.recordOrient b).c2Work = s.c2Work := by simp [State.recordOrient]
@[simp] theorem State.recordOrient_trace (b : Byte) (s : State) : (s.recordOrient b).trace = s.trace := by simp [State.recordOrient]
@[simp] theorem State.recordOrient_point (b : Byte) (s : State) : (s.recordOrient b).point = s.point := by simp [State.recordOrient]
@[simp] theorem State.recordOrient_tx (b : Byte) (s : State) : (s.recordOrient b).tx = s.tx := by simp [State.recordOrient]
@[simp] theorem State.recordOrient_rrOut (b : Byte) (s : State) : (s.recordOrient b).rrOut = s.rrOut := by simp [State.recordOrient]
@[simp] theorem State.recordOrient_env (b : Byte) (s : State) : (s.recordOrient b).env = s.env := by simp [State.recordOrient]
@[simp] theorem State.recordOrient_inputs (b : Byte) (s : State) : (s.recordOrient b).inputs = s.inputs := by simp [State.recordOrient]
@[simp] theorem State.recordOrient_hostData (b : Byte) (s : State) : (s.recordOrient b).hostData = s.hostData := by simp [State.recordOrient]

@[simp] theorem State.loopClock_cfg (s : State) : (s.loopClock).cfg = s.cfg := by simp [State.loopClock]
@[simp] theorem State.loopClock_status (s : State) : (s.loopClock).status = s.status := by simp [State.loopClock]
@[simp] theorem State.loopClock_errCode (s : State) : (s.loopClock).errCode = s.errCode := by simp [State.loopClock]
@[simp] theorem State.loopClock_errInfo (s : State) : (s.loopClock).errInfo = s.errInfo := by simp [State.loopClock]
@[simp] theorem State.loopClock_dev (s : State) : (s.loopClock).dev = s.dev := by simp [State.loopClock]
@[simp] theorem State.loopClock_result (s : State) : (s.loopClock).result = s.result := by simp [State.loopClock]
@[simp] theorem State.loopClock_respLen (s : State) : (s.loopClock).respLen = s.respLen := by simp [State.loopClock]
@[simp] theorem State.loopClock_sample (s : State) : (s.loopClock).sample = s.sample := by simp [State.loopClock]
@[simp] theorem State.loopClock_cal (s : State) : (s.loopClock).cal = s.cal := by simp [State.loopClock]
@[simp] theorem State.loopClock_calVals (s : State) : (s.loopClock).calVals = s.calVals := by simp [State.loopClock]
@[simp] theorem State.loopClock_fc (s : State) : (s.loopClock).fc = s.fc := by simp [State.loopClock]
@[simp] theorem State.loopClock_orient (s : State) : (s.loopClock).orient = s.orient := by simp [State.loopClock]
@[simp] theorem State.loopClock_mem (s : State) : (s.loopClock).mem = s.mem := by simp [State.loopClock]
@[simp] theorem State.loopClock_curCmd (s : State) : (s.loopClock).curCmd = s.curCmd := by simp [State.loopClock]
@[simp] theorem State.loopClock_seqSeg (s : State) : (s.loopClock).seqSeg = s.seqSeg := by simp [State.loopClock]
@[simp] theorem State.loopClock_seqPc (s : State) : (s.loopClock).seqPc = s.seqPc := by simp [State.loopClock]
@[simp] theorem State.loopClock_rrIndex (s : State) : (s.loopClock).rrIndex = s.rrIndex := by simp [State.loopClock]
@[simp] theorem State.loopClock_t0 (s : State) : (s.loopClock).t0 = s.t0 := by simp [State.loopClock]
@[simp] theorem State.loopClock_loopId (s : State) : (s.loopClock).loopId = s.loopId := by simp [State.loopClock]
@[simp] theorem State.loopClock_csLevel (s : State) : (s.loopClock).csLevel = s.csLevel := by simp [State.loopClock]
@[simp] theorem State.loopClock_c1Work (s : State) : (s.loopClock).c1Work = s.c1Work := by simp [State.loopClock]
@[simp] theorem State.loopClock_c2Work (s : State) : (s.loopClock).c2Work = s.c2Work := by simp [State.loopClock]
@[simp] theorem State.loopClock_trace (s : State) : (s.loopClock).trace = s.trace ++ [.now s.env.now.1] := by simp [State.loopClock]
@[simp] theorem State.loopClock_point (s : State) : (s.loopClock).point = .deadlineRead := by simp [State.loopClock]
@[simp] theorem State.loopClock_tx (s : State) : (s.loopClock).tx = s.tx := by simp [State.loopClock]
@[simp] theorem State.loopClock_rrOut (s : State) : (s.loopClock).rrOut = s.rrOut := by simp [State.loopClock]
@[simp] theorem State.loopClock_env (s : State) : (s.loopClock).env = s.env.now.2 := by simp [State.loopClock]
@[simp] theorem State.loopClock_inputs (s : State) : (s.loopClock).inputs = s.inputs := by simp [State.loopClock]
@[simp] theorem State.loopClock_hostData (s : State) : (s.loopClock).hostData = s.hostData := by simp [State.loopClock]

@[simp] theorem State.loopBegin_cfg (l : LoopId) (s : State) : (s.loopBegin l).cfg = s.cfg := by simp [State.loopBegin]
@[simp] theorem State.loopBegin_status (l : LoopId) (s : State) : (s.loopBegin l).status = s.status := by simp [State.loopBegin]
@[simp] theorem State.loopBegin_errCode (l : LoopId) (s : State) : (s.loopBegin l).errCode = s.errCode := by simp [State.loopBegin]
@[simp] theorem State.loopBegin_errInfo (l : LoopId) (s : State) : (s.loopBegin l).errInfo = s.errInfo := by simp [State.loopBegin]
@[simp] theorem State.loopBegin_dev (l : LoopId) (s : State) : (s.loopBegin l).dev = s.dev := by simp [State.loopBegin]
@[simp] theorem State.loopBegin_result (l : LoopId) (s : State) : (s.loopBegin l).result = s.result := by simp [State.loopBegin]
@[simp] theorem State.loopBegin_respLen (l : LoopId) (s : State) : (s.loopBegin l).respLen = s.respLen := by simp [State.loopBegin]
@[simp] theorem State.loopBegin_sample (l : LoopId) (s : State) : (s.loopBegin l).sample = s.sample := by simp [State.loopBegin]
@[simp] theorem State.loopBegin_cal (l : LoopId) (s : State) : (s.loopBegin l).cal = s.cal := by simp [State.loopBegin]
@[simp] theorem State.loopBegin_calVals (l : LoopId) (s : State) : (s.loopBegin l).calVals = s.calVals := by simp [State.loopBegin]
@[simp] theorem State.loopBegin_fc (l : LoopId) (s : State) : (s.loopBegin l).fc = s.fc := by simp [State.loopBegin]
@[simp] theorem State.loopBegin_orient (l : LoopId) (s : State) : (s.loopBegin l).orient = s.orient := by simp [State.loopBegin]
@[simp] theorem State.loopBegin_mem (l : LoopId) (s : State) : (s.loopBegin l).mem = s.mem := by simp [State.loopBegin]
@[simp] theorem State.loopBegin_curCmd (l : LoopId) (s : State) : (s.loopBegin l).curCmd = s.curCmd := by simp [State.loopBegin]
@[simp] theorem State.loopBegin_seqSeg (l : LoopId) (s : State) : (s.loopBegin l).seqSeg = s.seqSeg := by simp [State.loopBegin]
@[simp] theorem State.loopBegin_seqPc (l : LoopId) (s : State) : (s.loopBegin l).seqPc = s.seqPc := by simp [State.loopBegin]
@[simp] theorem State.loopBegin_rrIndex (l : LoopId) (s : State) : (s.loopBegin l).rrIndex = s.rrIndex := by simp [State.loopBegin]
@[simp] theorem State.loopBegin_t0 (l : LoopId) (s : State) : (s.loopBegin l).t0 = s.t0 := by simp [State.loopBegin]
@[simp] theorem State.loopBegin_loopId (l : LoopId) (s : State) : (s.loopBegin l).loopId = l := by simp [State.loopBegin]
@[simp] theorem State.loopBegin_csLevel (l : LoopId) (s : State) : (s.loopBegin l).csLevel = s.csLevel := by simp [State.loopBegin]
@[simp] theorem State.loopBegin_c1Work (l : LoopId) (s : State) : (s.loopBegin l).c1Work = s.c1Work := by simp [State.loopBegin]
@[simp] theorem State.loopBegin_c2Work (l : LoopId) (s : State) : (s.loopBegin l).c2Work = s.c2Work := by simp [State.loopBegin]
@[simp] theorem State.loopBegin_trace (l : LoopId) (s : State) : (s.loopBegin l).trace = s.trace ++ [.now s.env.now.1] := by simp [State.loopBegin]
@[simp] theorem State.loopBegin_point (l : LoopId) (s : State) : (s.loopBegin l).point = .loopT0Read := by simp [State.loopBegin]
@[simp] theorem State.loopBegin_tx (l : LoopId) (s : State) : (s.loopBegin l).tx = s.tx := by simp [State.loopBegin]
@[simp] theorem State.loopBegin_rrOut (l : LoopId) (s : State) : (s.loopBegin l).rrOut = s.rrOut := by simp [State.loopBegin]
@[simp] theorem State.loopBegin_env (l : LoopId) (s : State) : (s.loopBegin l).env = s.env.now.2 := by simp [State.loopBegin]
@[simp] theorem State.loopBegin_inputs (l : LoopId) (s : State) : (s.loopBegin l).inputs = s.inputs := by simp [State.loopBegin]
@[simp] theorem State.loopBegin_hostData (l : LoopId) (s : State) : (s.loopBegin l).hostData = s.hostData := by simp [State.loopBegin]

@[simp] theorem State.retrySleep_cfg (s : State) : (s.retrySleep).cfg = s.cfg := by simp [State.retrySleep]
@[simp] theorem State.retrySleep_status (s : State) : (s.retrySleep).status = s.status := by simp [State.retrySleep]
@[simp] theorem State.retrySleep_errCode (s : State) : (s.retrySleep).errCode = s.errCode := by simp [State.retrySleep]
@[simp] theorem State.retrySleep_errInfo (s : State) : (s.retrySleep).errInfo = s.errInfo := by simp [State.retrySleep]
@[simp] theorem State.retrySleep_dev (s : State) : (s.retrySleep).dev = s.dev := by simp [State.retrySleep]
@[simp] theorem State.retrySleep_result (s : State) : (s.retrySleep).result = s.result := by simp [State.retrySleep]
@[simp] theorem State.retrySleep_respLen (s : State) : (s.retrySleep).respLen = s.respLen := by simp [State.retrySleep]
@[simp] theorem State.retrySleep_sample (s : State) : (s.retrySleep).sample = s.sample := by simp [State.retrySleep]
@[simp] theorem State.retrySleep_cal (s : State) : (s.retrySleep).cal = s.cal := by simp [State.retrySleep]
@[simp] theorem State.retrySleep_calVals (s : State) : (s.retrySleep).calVals = s.calVals := by simp [State.retrySleep]
@[simp] theorem State.retrySleep_fc (s : State) : (s.retrySleep).fc = s.fc := by simp [State.retrySleep]
@[simp] theorem State.retrySleep_orient (s : State) : (s.retrySleep).orient = s.orient := by simp [State.retrySleep]
@[simp] theorem State.retrySleep_mem (s : State) : (s.retrySleep).mem = s.mem := by simp [State.retrySleep]
@[simp] theorem State.retrySleep_curCmd (s : State) : (s.retrySleep).curCmd = s.curCmd := by simp [State.retrySleep]
@[simp] theorem State.retrySleep_seqSeg (s : State) : (s.retrySleep).seqSeg = s.seqSeg := by simp [State.retrySleep]
@[simp] theorem State.retrySleep_seqPc (s : State) : (s.retrySleep).seqPc = s.seqPc := by simp [State.retrySleep]
@[simp] theorem State.retrySleep_rrIndex (s : State) : (s.retrySleep).rrIndex = s.rrIndex := by simp [State.retrySleep]
@[simp] theorem State.retrySleep_t0 (s : State) : (s.retrySleep).t0 = s.t0 := by simp [State.retrySleep]
@[simp] theorem State.retrySleep_loopId (s : State) : (s.retrySleep).loopId = s.loopId := by simp [State.retrySleep]
@[simp] theorem State.retrySleep_csLevel (s : State) : (s.retrySleep).csLevel = s.csLevel := by simp [State.retrySleep]
@[simp] theorem State.retrySleep_c1Work (s : State) : (s.retrySleep).c1Work = s.c1Work := by simp [State.retrySleep]
@[simp] theorem State.retrySleep_c2Work (s : State) : (s.retrySleep).c2Work = s.c2Work := by simp [State.retrySleep]
@[simp] theorem State.retrySleep_trace (s : State) : (s.retrySleep).trace = s.trace ++ [.sleep s.cfg.retrySleepMs (s.env.sleep s.cfg.retrySleepMs).1 (s.env.sleep s.cfg.retrySleepMs).2.1] := by simp [State.retrySleep]
@[simp] theorem State.retrySleep_point (s : State) : (s.retrySleep).point = .checkDeadline := by simp [State.retrySleep]
@[simp] theorem State.retrySleep_tx (s : State) : (s.retrySleep).tx = s.tx := by simp [State.retrySleep]
@[simp] theorem State.retrySleep_rrOut (s : State) : (s.retrySleep).rrOut = s.rrOut := by simp [State.retrySleep]
@[simp] theorem State.retrySleep_env (s : State) : (s.retrySleep).env = (s.env.sleep s.cfg.retrySleepMs).2.2 := by simp [State.retrySleep]
@[simp] theorem State.retrySleep_inputs (s : State) : (s.retrySleep).inputs = s.inputs := by simp [State.retrySleep]
@[simp] theorem State.retrySleep_hostData (s : State) : (s.retrySleep).hostData = s.hostData := by simp [State.retrySleep]

@[simp] theorem State.putResp_cfg (i : Nat) (v : Byte) (s : State) : (s.putResp i v).cfg = s.cfg := by unfold State.putResp; split <;> simp
@[simp] theorem State.putResp_status (i : Nat) (v : Byte) (s : State) : (s.putResp i v).status = s.status := by unfold State.putResp; split <;> simp
@[simp] theorem State.putResp_errCode (i : Nat) (v : Byte) (s : State) : (s.putResp i v).errCode = s.errCode := by unfold State.putResp; split <;> simp
@[simp] theorem State.putResp_errInfo (i : Nat) (v : Byte) (s : State) : (s.putResp i v).errInfo = s.errInfo := by unfold State.putResp; split <;> simp
@[simp] theorem State.putResp_dev (i : Nat) (v : Byte) (s : State) : (s.putResp i v).dev = s.dev := by unfold State.putResp; split <;> simp
@[simp] theorem State.putResp_result (i : Nat) (v : Byte) (s : State) : (s.putResp i v).result = s.result := by unfold State.putResp; split <;> simp
@[simp] theorem State.putResp_respLen (i : Nat) (v : Byte) (s : State) : (s.putResp i v).respLen = s.respLen := by unfold State.putResp; split <;> simp
@[simp] theorem State.putResp_sample (i : Nat) (v : Byte) (s : State) : (s.putResp i v).sample = s.sample := by unfold State.putResp; split <;> simp
@[simp] theorem State.putResp_cal (i : Nat) (v : Byte) (s : State) : (s.putResp i v).cal = s.cal := by unfold State.putResp; split <;> simp
@[simp] theorem State.putResp_calVals (i : Nat) (v : Byte) (s : State) : (s.putResp i v).calVals = s.calVals := by unfold State.putResp; split <;> simp
@[simp] theorem State.putResp_fc (i : Nat) (v : Byte) (s : State) : (s.putResp i v).fc = s.fc := by unfold State.putResp; split <;> simp
@[simp] theorem State.putResp_orient (i : Nat) (v : Byte) (s : State) : (s.putResp i v).orient = s.orient := by unfold State.putResp; split <;> simp
@[simp] theorem State.putResp_curCmd (i : Nat) (v : Byte) (s : State) : (s.putResp i v).curCmd = s.curCmd := by unfold State.putResp; split <;> simp
@[simp] theorem State.putResp_seqSeg (i : Nat) (v : Byte) (s : State) : (s.putResp i v).seqSeg = s.seqSeg := by unfold State.putResp; split <;> simp
@[simp] theorem State.putResp_seqPc (i : Nat) (v : Byte) (s : State) : (s.putResp i v).seqPc = s.seqPc := by unfold State.putResp; split <;> simp
@[simp] theorem State.putResp_rrIndex (i : Nat) (v : Byte) (s : State) : (s.putResp i v).rrIndex = s.rrIndex := by unfold State.putResp; split <;> simp
@[simp] theorem State.putResp_t0 (i : Nat) (v : Byte) (s : State) : (s.putResp i v).t0 = s.t0 := by unfold State.putResp; split <;> simp
@[simp] theorem State.putResp_loopId (i : Nat) (v : Byte) (s : State) : (s.putResp i v).loopId = s.loopId := by unfold State.putResp; split <;> simp
@[simp] theorem State.putResp_csLevel (i : Nat) (v : Byte) (s : State) : (s.putResp i v).csLevel = s.csLevel := by unfold State.putResp; split <;> simp
@[simp] theorem State.putResp_c1Work (i : Nat) (v : Byte) (s : State) : (s.putResp i v).c1Work = s.c1Work := by unfold State.putResp; split <;> simp
@[simp] theorem State.putResp_c2Work (i : Nat) (v : Byte) (s : State) : (s.putResp i v).c2Work = s.c2Work := by unfold State.putResp; split <;> simp
@[simp] theorem State.putResp_trace (i : Nat) (v : Byte) (s : State) : (s.putResp i v).trace = s.trace := by unfold State.putResp; split <;> simp
@[simp] theorem State.putResp_point (i : Nat) (v : Byte) (s : State) : (s.putResp i v).point = s.point := by unfold State.putResp; split <;> simp
@[simp] theorem State.putResp_tx (i : Nat) (v : Byte) (s : State) : (s.putResp i v).tx = s.tx := by unfold State.putResp; split <;> simp
@[simp] theorem State.putResp_rrOut (i : Nat) (v : Byte) (s : State) : (s.putResp i v).rrOut = s.rrOut := by unfold State.putResp; split <;> simp
@[simp] theorem State.putResp_env (i : Nat) (v : Byte) (s : State) : (s.putResp i v).env = s.env := by unfold State.putResp; split <;> simp
@[simp] theorem State.putResp_inputs (i : Nat) (v : Byte) (s : State) : (s.putResp i v).inputs = s.inputs := by unfold State.putResp; split <;> simp
@[simp] theorem State.putResp_hostData (i : Nat) (v : Byte) (s : State) : (s.putResp i v).hostData = s.hostData := by unfold State.putResp; split <;> simp

@[simp] theorem State.putPixel_cfg (i : Nat) (v : Byte) (s : State) : (s.putPixel i v).cfg = s.cfg := by unfold State.putPixel; split <;> simp
@[simp] theorem State.putPixel_status (i : Nat) (v : Byte) (s : State) : (s.putPixel i v).status = s.status := by unfold State.putPixel; split <;> simp
@[simp] theorem State.putPixel_errCode (i : Nat) (v : Byte) (s : State) : (s.putPixel i v).errCode = s.errCode := by unfold State.putPixel; split <;> simp
@[simp] theorem State.putPixel_errInfo (i : Nat) (v : Byte) (s : State) : (s.putPixel i v).errInfo = s.errInfo := by unfold State.putPixel; split <;> simp
@[simp] theorem State.putPixel_dev (i : Nat) (v : Byte) (s : State) : (s.putPixel i v).dev = s.dev := by unfold State.putPixel; split <;> simp
@[simp] theorem State.putPixel_result (i : Nat) (v : Byte) (s : State) : (s.putPixel i v).result = s.result := by unfold State.putPixel; split <;> simp
@[simp] theorem State.putPixel_respLen (i : Nat) (v : Byte) (s : State) : (s.putPixel i v).respLen = s.respLen := by unfold State.putPixel; split <;> simp
@[simp] theorem State.putPixel_sample (i : Nat) (v : Byte) (s : State) : (s.putPixel i v).sample = s.sample := by unfold State.putPixel; split <;> simp
@[simp] theorem State.putPixel_cal (i : Nat) (v : Byte) (s : State) : (s.putPixel i v).cal = s.cal := by unfold State.putPixel; split <;> simp
@[simp] theorem State.putPixel_calVals (i : Nat) (v : Byte) (s : State) : (s.putPixel i v).calVals = s.calVals := by unfold State.putPixel; split <;> simp
@[simp] theorem State.putPixel_fc (i : Nat) (v : Byte) (s : State) : (s.putPixel i v).fc = s.fc := by unfold State.putPixel; split <;> simp
@[simp] theorem State.putPixel_orient (i : Nat) (v : Byte) (s : State) : (s.putPixel i v).orient = s.orient := by unfold State.putPixel; split <;> simp
@[simp] theorem State.putPixel_curCmd (i : Nat) (v : Byte) (s : State) : (s.putPixel i v).curCmd = s.curCmd := by unfold State.putPixel; split <;> simp
@[simp] theorem State.putPixel_seqSeg (i : Nat) (v : Byte) (s : State) : (s.putPixel i v).seqSeg = s.seqSeg := by unfold State.putPixel; split <;> simp
@[simp] theorem State.putPixel_seqPc (i : Nat) (v : Byte) (s : State) : (s.putPixel i v).seqPc = s.seqPc := by unfold State.putPixel; split <;> simp
@[simp] theorem State.putPixel_rrIndex (i : Nat) (v : Byte) (s : State) : (s.putPixel i v).rrIndex = s.rrIndex := by unfold State.putPixel; split <;> simp
@[simp] theorem State.putPixel_t0 (i : Nat) (v : Byte) (s : State) : (s.putPixel i v).t0 = s.t0 := by unfold State.putPixel; split <;> simp
@[simp] theorem State.putPixel_loopId (i : Nat) (v : Byte) (s : State) : (s.putPixel i v).loopId = s.loopId := by unfold State.putPixel; split <;> simp
@[simp] theorem State.putPixel_csLevel (i : Nat) (v : Byte) (s : State) : (s.putPixel i v).csLevel = s.csLevel := by unfold State.putPixel; split <;> simp
@[simp] theorem State.putPixel_c1Work (i : Nat) (v : Byte) (s : State) : (s.putPixel i v).c1Work = s.c1Work := by unfold State.putPixel; split <;> simp
@[simp] theorem State.putPixel_c2Work (i : Nat) (v : Byte) (s : State) : (s.putPixel i v).c2Work = s.c2Work := by unfold State.putPixel; split <;> simp
@[simp] theorem State.putPixel_trace (i : Nat) (v : Byte) (s : State) : (s.putPixel i v).trace = s.trace := by unfold State.putPixel; split <;> simp
@[simp] theorem State.putPixel_point (i : Nat) (v : Byte) (s : State) : (s.putPixel i v).point = s.point := by unfold State.putPixel; split <;> simp
@[simp] theorem State.putPixel_tx (i : Nat) (v : Byte) (s : State) : (s.putPixel i v).tx = s.tx := by unfold State.putPixel; split <;> simp
@[simp] theorem State.putPixel_rrOut (i : Nat) (v : Byte) (s : State) : (s.putPixel i v).rrOut = s.rrOut := by unfold State.putPixel; split <;> simp
@[simp] theorem State.putPixel_env (i : Nat) (v : Byte) (s : State) : (s.putPixel i v).env = s.env := by unfold State.putPixel; split <;> simp
@[simp] theorem State.putPixel_inputs (i : Nat) (v : Byte) (s : State) : (s.putPixel i v).inputs = s.inputs := by unfold State.putPixel; split <;> simp
@[simp] theorem State.putPixel_hostData (i : Nat) (v : Byte) (s : State) : (s.putPixel i v).hostData = s.hostData := by unfold State.putPixel; split <;> simp

@[simp] theorem State.putRespFrom_cfg (i : Nat) (l : List Byte) (s : State) : (s.putRespFrom i l).cfg = s.cfg := by
  induction l generalizing i s with
  | nil => rfl
  | cons b bs ih => simp [State.putRespFrom, ih]
@[simp] theorem State.putRespFrom_status (i : Nat) (l : List Byte) (s : State) : (s.putRespFrom i l).status = s.status := by
  induction l generalizing i s with
  | nil => rfl
  | cons b bs ih => simp [State.putRespFrom, ih]
@[simp] theorem State.putRespFrom_errCode (i : Nat) (l : List Byte) (s : State) : (s.putRespFrom i l).errCode = s.errCode := by
  induction l generalizing i s with
  | nil => rfl
  | cons b bs ih => simp [State.putRespFrom, ih]
@[simp] theorem State.putRespFrom_errInfo (i : Nat) (l : List Byte) (s : State) : (s.putRespFrom i l).errInfo = s.errInfo := by
  induction l generalizing i s with
  | nil => rfl
  | cons b bs ih => simp [State.putRespFrom, ih]
@[simp] theorem State.putRespFrom_dev (i : Nat) (l : List Byte) (s : State) : (s.putRespFrom i l).dev = s.dev := by
  induction l generalizing i s with
  | nil => rfl
  | cons b bs ih => simp [State.putRespFrom, ih]
@[simp] theorem State.putRespFrom_result (i : Nat) (l : List Byte) (s : State) : (s.putRespFrom i l).result = s.result := by
  induction l generalizing i s with
  | nil => rfl
  | cons b bs ih => simp [State.putRespFrom, ih]
@[simp] theorem State.putRespFrom_respLen (i : Nat) (l : List Byte) (s : State) : (s.putRespFrom i l).respLen = s.respLen := by
  induction l generalizing i s with
  | nil => rfl
  | cons b bs ih => simp [State.putRespFrom, ih]
@[simp] theorem State.putRespFrom_sample (i : Nat) (l : List Byte) (s : State) : (s.putRespFrom i l).sample = s.sample := by
  induction l generalizing i s with
  | nil => rfl
  | cons b bs ih => simp [State.putRespFrom, ih]
@[simp] theorem State.putRespFrom_cal (i : Nat) (l : List Byte) (s : State) : (s.putRespFrom i l).cal = s.cal := by
  induction l generalizing i s with
  | nil => rfl
  | cons b bs ih => simp [State.putRespFrom, ih]
@[simp] theorem State.putRespFrom_calVals (i : Nat) (l : List Byte) (s : State) : (s.putRespFrom i l).calVals = s.calVals := by
  induction l generalizing i s with
  | nil => rfl
  | cons b bs ih => simp [State.putRespFrom, ih]
@[simp] theorem State.putRespFrom_fc (i : Nat) (l : List Byte) (s : State) : (s.putRespFrom i l).fc = s.fc := by
  induction l generalizing i s with
  | nil => rfl
  | cons b bs ih => simp [State.putRespFrom, ih]
@[simp] theorem State.putRespFrom_orient (i : Nat) (l : List Byte) (s : State) : (s.putRespFrom i l).orient = s.orient := by
  induction l generalizing i s with
  | nil => rfl
  | cons b bs ih => simp [State.putRespFrom, ih]
@[simp] theorem State.putRespFrom_curCmd (i : Nat) (l : List Byte) (s : State) : (s.putRespFrom i l).curCmd = s.curCmd := by
  induction l generalizing i s with
  | nil => rfl
  | cons b bs ih => simp [State.putRespFrom, ih]
@[simp] theorem State.putRespFrom_seqSeg (i : Nat) (l : List Byte) (s : State) : (s.putRespFrom i l).seqSeg = s.seqSeg := by
  induction l generalizing i s with
  | nil => rfl
  | cons b bs ih => simp [State.putRespFrom, ih]
@[simp] theorem State.putRespFrom_seqPc (i : Nat) (l : List Byte) (s : State) : (s.putRespFrom i l).seqPc = s.seqPc := by
  induction l generalizing i s with
  | nil => rfl
  | cons b bs ih => simp [State.putRespFrom, ih]
@[simp] theorem State.putRespFrom_rrIndex (i : Nat) (l : List Byte) (s : State) : (s.putRespFrom i l).rrIndex = s.rrIndex := by
  induction l generalizing i s with
  | nil => rfl
  | cons b bs ih => simp [State.putRespFrom, ih]
@[simp] theorem State.putRespFrom_t0 (i : Nat) (l : List Byte) (s : State) : (s.putRespFrom i l).t0 = s.t0 := by
  induction l generalizing i s with
  | nil => rfl
  | cons b bs ih => simp [State.putRespFrom, ih]
@[simp] theorem State.putRespFrom_loopId (i : Nat) (l : List Byte) (s : State) : (s.putRespFrom i l).loopId = s.loopId := by
  induction l generalizing i s with
  | nil => rfl
  | cons b bs ih => simp [State.putRespFrom, ih]
@[simp] theorem State.putRespFrom_csLevel (i : Nat) (l : List Byte) (s : State) : (s.putRespFrom i l).csLevel = s.csLevel := by
  induction l generalizing i s with
  | nil => rfl
  | cons b bs ih => simp [State.putRespFrom, ih]
@[simp] theorem State.putRespFrom_c1Work (i : Nat) (l : List Byte) (s : State) : (s.putRespFrom i l).c1Work = s.c1Work := by
  induction l generalizing i s with
  | nil => rfl
  | cons b bs ih => simp [State.putRespFrom, ih]
@[simp] theorem State.putRespFrom_c2Work (i : Nat) (l : List Byte) (s : State) : (s.putRespFrom i l).c2Work = s.c2Work := by
  induction l generalizing i s with
  | nil => rfl
  | cons b bs ih => simp [State.putRespFrom, ih]
@[simp] theorem State.putRespFrom_trace (i : Nat) (l : List Byte) (s : State) : (s.putRespFrom i l).trace = s.trace := by
  induction l generalizing i s with
  | nil => rfl
  | cons b bs ih => simp [State.putRespFrom, ih]
@[simp] theorem State.putRespFrom_point (i : Nat) (l : List Byte) (s : State) : (s.putRespFrom i l).point = s.point := by
  induction l generalizing i s with
  | nil => rfl
  | cons b bs ih => simp [State.putRespFrom, ih]
@[simp] theorem State.putRespFrom_tx (i : Nat) (l : List Byte) (s : State) : (s.putRespFrom i l).tx = s.tx := by
  induction l generalizing i s with
  | nil => rfl
  | cons b bs ih => simp [State.putRespFrom, ih]
@[simp] theorem State.putRespFrom_rrOut (i : Nat) (l : List Byte) (s : State) : (s.putRespFrom i l).rrOut = s.rrOut := by
  induction l generalizing i s with
  | nil => rfl
  | cons b bs ih => simp [State.putRespFrom, ih]
@[simp] theorem State.putRespFrom_env (i : Nat) (l : List Byte) (s : State) : (s.putRespFrom i l).env = s.env := by
  induction l generalizing i s with
  | nil => rfl
  | cons b bs ih => simp [State.putRespFrom, ih]
@[simp] theorem State.putRespFrom_inputs (i : Nat) (l : List Byte) (s : State) : (s.putRespFrom i l).inputs = s.inputs := by
  induction l generalizing i s with
  | nil => rfl
  | cons b bs ih => simp [State.putRespFrom, ih]
@[simp] theorem State.putRespFrom_hostData (i : Nat) (l : List Byte) (s : State) : (s.putRespFrom i l).hostData = s.hostData := by
  induction l generalizing i s with
  | nil => rfl
  | cons b bs ih => simp [State.putRespFrom, ih]

@[simp] theorem State.fillResp_cfg (n : Nat) (l : List Byte) (s : State) : (s.fillResp n l).cfg = s.cfg := by simp [State.fillResp]
@[simp] theorem State.fillResp_status (n : Nat) (l : List Byte) (s : State) : (s.fillResp n l).status = s.status := by simp [State.fillResp]
@[simp] theorem State.fillResp_errCode (n : Nat) (l : List Byte) (s : State) : (s.fillResp n l).errCode = s.errCode := by simp [State.fillResp]
@[simp] theorem State.fillResp_errInfo (n : Nat) (l : List Byte) (s : State) : (s.fillResp n l).errInfo = s.errInfo := by simp [State.fillResp]
@[simp] theorem State.fillResp_dev (n : Nat) (l : List Byte) (s : State) : (s.fillResp n l).dev = s.dev := by simp [State.fillResp]
@[simp] theorem State.fillResp_result (n : Nat) (l : List Byte) (s : State) : (s.fillResp n l).result = s.result := by simp [State.fillResp]
@[simp] theorem State.fillResp_respLen (n : Nat) (l : List Byte) (s : State) : (s.fillResp n l).respLen = n := by simp [State.fillResp]
@[simp] theorem State.fillResp_sample (n : Nat) (l : List Byte) (s : State) : (s.fillResp n l).sample = s.sample := by simp [State.fillResp]
@[simp] theorem State.fillResp_cal (n : Nat) (l : List Byte) (s : State) : (s.fillResp n l).cal = s.cal := by simp [State.fillResp]
@[simp] theorem State.fillResp_calVals (n : Nat) (l : List Byte) (s : State) : (s.fillResp n l).calVals = s.calVals := by simp [State.fillResp]
@[simp] theorem State.fillResp_fc (n : Nat) (l : List Byte) (s : State) : (s.fillResp n l).fc = s.fc := by simp [State.fillResp]
@[simp] theorem State.fillResp_orient (n : Nat) (l : List Byte) (s : State) : (s.fillResp n l).orient = s.orient := by simp [State.fillResp]
@[simp] theorem State.fillResp_curCmd (n : Nat) (l : List Byte) (s : State) : (s.fillResp n l).curCmd = s.curCmd := by simp [State.fillResp]
@[simp] theorem State.fillResp_seqSeg (n : Nat) (l : List Byte) (s : State) : (s.fillResp n l).seqSeg = s.seqSeg := by simp [State.fillResp]
@[simp] theorem State.fillResp_seqPc (n : Nat) (l : List Byte) (s : State) : (s.fillResp n l).seqPc = s.seqPc := by simp [State.fillResp]
@[simp] theorem State.fillResp_rrIndex (n : Nat) (l : List Byte) (s : State) : (s.fillResp n l).rrIndex = s.rrIndex := by simp [State.fillResp]
@[simp] theorem State.fillResp_t0 (n : Nat) (l : List Byte) (s : State) : (s.fillResp n l).t0 = s.t0 := by simp [State.fillResp]
@[simp] theorem State.fillResp_loopId (n : Nat) (l : List Byte) (s : State) : (s.fillResp n l).loopId = s.loopId := by simp [State.fillResp]
@[simp] theorem State.fillResp_csLevel (n : Nat) (l : List Byte) (s : State) : (s.fillResp n l).csLevel = s.csLevel := by simp [State.fillResp]
@[simp] theorem State.fillResp_c1Work (n : Nat) (l : List Byte) (s : State) : (s.fillResp n l).c1Work = s.c1Work := by simp [State.fillResp]
@[simp] theorem State.fillResp_c2Work (n : Nat) (l : List Byte) (s : State) : (s.fillResp n l).c2Work = s.c2Work := by simp [State.fillResp]
@[simp] theorem State.fillResp_trace (n : Nat) (l : List Byte) (s : State) : (s.fillResp n l).trace = s.trace := by simp [State.fillResp]
@[simp] theorem State.fillResp_point (n : Nat) (l : List Byte) (s : State) : (s.fillResp n l).point = s.point := by simp [State.fillResp]
@[simp] theorem State.fillResp_tx (n : Nat) (l : List Byte) (s : State) : (s.fillResp n l).tx = s.tx := by simp [State.fillResp]
@[simp] theorem State.fillResp_rrOut (n : Nat) (l : List Byte) (s : State) : (s.fillResp n l).rrOut = s.rrOut := by simp [State.fillResp]
@[simp] theorem State.fillResp_env (n : Nat) (l : List Byte) (s : State) : (s.fillResp n l).env = s.env := by simp [State.fillResp]
@[simp] theorem State.fillResp_inputs (n : Nat) (l : List Byte) (s : State) : (s.fillResp n l).inputs = s.inputs := by simp [State.fillResp]
@[simp] theorem State.fillResp_hostData (n : Nat) (l : List Byte) (s : State) : (s.fillResp n l).hostData = s.hostData := by simp [State.fillResp]

@[simp] theorem State.storeRead_cfg (b : Byte) (s : State) : (s.storeRead b).cfg = s.cfg := by simp [State.storeRead]
@[simp] theorem State.storeRead_status (b : Byte) (s : State) : (s.storeRead b).status = s.status := by simp [State.storeRead]
@[simp] theorem State.storeRead_errCode (b : Byte) (s : State) : (s.storeRead b).errCode = s.errCode := by simp [State.storeRead]
@[simp] theorem State.storeRead_errInfo (b : Byte) (s : State) : (s.storeRead b).errInfo = s.errInfo := by simp [State.storeRead]
@[simp] theorem State.storeRead_dev (b : Byte) (s : State) : (s.storeRead b).dev = s.dev := by simp [State.storeRead]
@[simp] theorem State.storeRead_result (b : Byte) (s : State) : (s.storeRead b).result = s.result := by simp [State.storeRead]
@[simp] theorem State.storeRead_respLen (b : Byte) (s : State) : (s.storeRead b).respLen = s.rrIndex.toNat + 1 := by simp [State.storeRead]
@[simp] theorem State.storeRead_sample (b : Byte) (s : State) : (s.storeRead b).sample = s.sample := by simp [State.storeRead]
@[simp] theorem State.storeRead_cal (b : Byte) (s : State) : (s.storeRead b).cal = s.cal := by simp [State.storeRead]
@[simp] theorem State.storeRead_calVals (b : Byte) (s : State) : (s.storeRead b).calVals = s.calVals := by simp [State.storeRead]
@[simp] theorem State.storeRead_fc (b : Byte) (s : State) : (s.storeRead b).fc = s.fc := by simp [State.storeRead]
@[simp] theorem State.storeRead_orient (b : Byte) (s : State) : (s.storeRead b).orient = s.orient := by simp [State.storeRead]
@[simp] theorem State.storeRead_curCmd (b : Byte) (s : State) : (s.storeRead b).curCmd = s.curCmd := by simp [State.storeRead]
@[simp] theorem State.storeRead_seqSeg (b : Byte) (s : State) : (s.storeRead b).seqSeg = s.seqSeg := by simp [State.storeRead]
@[simp] theorem State.storeRead_seqPc (b : Byte) (s : State) : (s.storeRead b).seqPc = s.seqPc := by simp [State.storeRead]
@[simp] theorem State.storeRead_rrIndex (b : Byte) (s : State) : (s.storeRead b).rrIndex = s.rrIndex := by simp [State.storeRead]
@[simp] theorem State.storeRead_t0 (b : Byte) (s : State) : (s.storeRead b).t0 = s.t0 := by simp [State.storeRead]
@[simp] theorem State.storeRead_loopId (b : Byte) (s : State) : (s.storeRead b).loopId = s.loopId := by simp [State.storeRead]
@[simp] theorem State.storeRead_csLevel (b : Byte) (s : State) : (s.storeRead b).csLevel = s.csLevel := by simp [State.storeRead]
@[simp] theorem State.storeRead_c1Work (b : Byte) (s : State) : (s.storeRead b).c1Work = s.c1Work := by simp [State.storeRead]
@[simp] theorem State.storeRead_c2Work (b : Byte) (s : State) : (s.storeRead b).c2Work = s.c2Work := by simp [State.storeRead]
@[simp] theorem State.storeRead_trace (b : Byte) (s : State) : (s.storeRead b).trace = s.trace := by simp [State.storeRead]
@[simp] theorem State.storeRead_point (b : Byte) (s : State) : (s.storeRead b).point = s.point := by simp [State.storeRead]
@[simp] theorem State.storeRead_tx (b : Byte) (s : State) : (s.storeRead b).tx = s.tx := by simp [State.storeRead]
@[simp] theorem State.storeRead_rrOut (b : Byte) (s : State) : (s.storeRead b).rrOut = s.rrOut := by simp [State.storeRead]
@[simp] theorem State.storeRead_env (b : Byte) (s : State) : (s.storeRead b).env = s.env := by simp [State.storeRead]
@[simp] theorem State.storeRead_inputs (b : Byte) (s : State) : (s.storeRead b).inputs = s.inputs := by simp [State.storeRead]
@[simp] theorem State.storeRead_hostData (b : Byte) (s : State) : (s.storeRead b).hostData = s.hostData := by simp [State.storeRead]

@[simp] theorem State.txFirst_cfg (f : Frame) (s : State) : (s.txFirst f).cfg = s.cfg := by unfold State.txFirst; split <;> simp
@[simp] theorem State.txFirst_status (f : Frame) (s : State) : (s.txFirst f).status = s.status := by unfold State.txFirst; split <;> simp
@[simp] theorem State.txFirst_errCode (f : Frame) (s : State) : (s.txFirst f).errCode = s.errCode := by unfold State.txFirst; split <;> simp
@[simp] theorem State.txFirst_errInfo (f : Frame) (s : State) : (s.txFirst f).errInfo = s.errInfo := by unfold State.txFirst; split <;> simp
@[simp] theorem State.txFirst_dev (f : Frame) (s : State) : (s.txFirst f).dev = s.dev := by unfold State.txFirst; split <;> simp
@[simp] theorem State.txFirst_result (f : Frame) (s : State) : (s.txFirst f).result = s.result := by unfold State.txFirst; split <;> simp
@[simp] theorem State.txFirst_respLen (f : Frame) (s : State) : (s.txFirst f).respLen = s.respLen := by unfold State.txFirst; split <;> simp
@[simp] theorem State.txFirst_sample (f : Frame) (s : State) : (s.txFirst f).sample = s.sample := by unfold State.txFirst; split <;> simp
@[simp] theorem State.txFirst_cal (f : Frame) (s : State) : (s.txFirst f).cal = s.cal := by unfold State.txFirst; split <;> simp
@[simp] theorem State.txFirst_calVals (f : Frame) (s : State) : (s.txFirst f).calVals = s.calVals := by unfold State.txFirst; split <;> simp
@[simp] theorem State.txFirst_fc (f : Frame) (s : State) : (s.txFirst f).fc = s.fc := by unfold State.txFirst; split <;> simp
@[simp] theorem State.txFirst_orient (f : Frame) (s : State) : (s.txFirst f).orient = s.orient := by unfold State.txFirst; split <;> simp
@[simp] theorem State.txFirst_mem (f : Frame) (s : State) : (s.txFirst f).mem = s.mem := by unfold State.txFirst; split <;> simp
@[simp] theorem State.txFirst_curCmd (f : Frame) (s : State) : (s.txFirst f).curCmd = s.curCmd := by unfold State.txFirst; split <;> simp
@[simp] theorem State.txFirst_seqSeg (f : Frame) (s : State) : (s.txFirst f).seqSeg = s.seqSeg := by unfold State.txFirst; split <;> simp
@[simp] theorem State.txFirst_seqPc (f : Frame) (s : State) : (s.txFirst f).seqPc = s.seqPc := by unfold State.txFirst; split <;> simp
@[simp] theorem State.txFirst_rrIndex (f : Frame) (s : State) : (s.txFirst f).rrIndex = s.rrIndex := by unfold State.txFirst; split <;> simp
@[simp] theorem State.txFirst_t0 (f : Frame) (s : State) : (s.txFirst f).t0 = s.t0 := by unfold State.txFirst; split <;> simp
@[simp] theorem State.txFirst_loopId (f : Frame) (s : State) : (s.txFirst f).loopId = s.loopId := by unfold State.txFirst; split <;> simp
@[simp] theorem State.txFirst_csLevel (f : Frame) (s : State) : (s.txFirst f).csLevel = s.csLevel := by unfold State.txFirst; split <;> simp
@[simp] theorem State.txFirst_c1Work (f : Frame) (s : State) : (s.txFirst f).c1Work = s.c1Work := by unfold State.txFirst; split <;> simp
@[simp] theorem State.txFirst_c2Work (f : Frame) (s : State) : (s.txFirst f).c2Work = s.c2Work := by unfold State.txFirst; split <;> simp
@[simp] theorem State.txFirst_trace (f : Frame) (s : State) : (s.txFirst f).trace = s.trace ++ [Safety.firstEvent f s] := by unfold State.txFirst Safety.firstEvent; split <;> simp_all
@[simp] theorem State.txFirst_point (f : Frame) (s : State) : (s.txFirst f).point = s.point := by unfold State.txFirst; split <;> simp
@[simp] theorem State.txFirst_rrOut (f : Frame) (s : State) : (s.txFirst f).rrOut = s.rrOut := by unfold State.txFirst; split <;> simp
@[simp] theorem State.txFirst_inputs (f : Frame) (s : State) : (s.txFirst f).inputs = s.inputs := by unfold State.txFirst; split <;> simp
@[simp] theorem State.txFirst_hostData (f : Frame) (s : State) : (s.txFirst f).hostData = s.hostData := by unfold State.txFirst; split <;> simp

@[simp] theorem State.busEvent_cfg (f : Frame) (s : State) : (s.busEvent f).cfg = s.cfg := by unfold State.busEvent; split <;> simp
@[simp] theorem State.busEvent_status (f : Frame) (s : State) : (s.busEvent f).status = s.status := by unfold State.busEvent; split <;> simp
@[simp] theorem State.busEvent_errCode (f : Frame) (s : State) : (s.busEvent f).errCode = s.errCode := by unfold State.busEvent; split <;> simp
@[simp] theorem State.busEvent_errInfo (f : Frame) (s : State) : (s.busEvent f).errInfo = s.errInfo := by unfold State.busEvent; split <;> simp
@[simp] theorem State.busEvent_dev (f : Frame) (s : State) : (s.busEvent f).dev = s.dev := by unfold State.busEvent; split <;> simp
@[simp] theorem State.busEvent_result (f : Frame) (s : State) : (s.busEvent f).result = s.result := by unfold State.busEvent; split <;> simp
@[simp] theorem State.busEvent_respLen (f : Frame) (s : State) : (s.busEvent f).respLen = s.respLen := by unfold State.busEvent; split <;> simp
@[simp] theorem State.busEvent_sample (f : Frame) (s : State) : (s.busEvent f).sample = s.sample := by unfold State.busEvent; split <;> simp
@[simp] theorem State.busEvent_cal (f : Frame) (s : State) : (s.busEvent f).cal = s.cal := by unfold State.busEvent; split <;> simp
@[simp] theorem State.busEvent_calVals (f : Frame) (s : State) : (s.busEvent f).calVals = s.calVals := by unfold State.busEvent; split <;> simp
@[simp] theorem State.busEvent_fc (f : Frame) (s : State) : (s.busEvent f).fc = s.fc := by unfold State.busEvent; split <;> simp
@[simp] theorem State.busEvent_orient (f : Frame) (s : State) : (s.busEvent f).orient = s.orient := by unfold State.busEvent; split <;> simp
@[simp] theorem State.busEvent_mem (f : Frame) (s : State) : (s.busEvent f).mem = s.mem := by unfold State.busEvent; split <;> simp
@[simp] theorem State.busEvent_curCmd (f : Frame) (s : State) : (s.busEvent f).curCmd = s.curCmd := by unfold State.busEvent; split <;> simp
@[simp] theorem State.busEvent_seqSeg (f : Frame) (s : State) : (s.busEvent f).seqSeg = s.seqSeg := by unfold State.busEvent; split <;> simp
@[simp] theorem State.busEvent_seqPc (f : Frame) (s : State) : (s.busEvent f).seqPc = s.seqPc := by unfold State.busEvent; split <;> simp
@[simp] theorem State.busEvent_rrIndex (f : Frame) (s : State) : (s.busEvent f).rrIndex = s.rrIndex := by unfold State.busEvent; split <;> simp
@[simp] theorem State.busEvent_t0 (f : Frame) (s : State) : (s.busEvent f).t0 = s.t0 := by unfold State.busEvent; split <;> simp
@[simp] theorem State.busEvent_loopId (f : Frame) (s : State) : (s.busEvent f).loopId = s.loopId := by unfold State.busEvent; split <;> simp
@[simp] theorem State.busEvent_c1Work (f : Frame) (s : State) : (s.busEvent f).c1Work = s.c1Work := by unfold State.busEvent; split <;> simp
@[simp] theorem State.busEvent_c2Work (f : Frame) (s : State) : (s.busEvent f).c2Work = s.c2Work := by unfold State.busEvent; split <;> simp
@[simp] theorem State.busEvent_point (f : Frame) (s : State) : (s.busEvent f).point = s.point := by unfold State.busEvent; split <;> simp
@[simp] theorem State.busEvent_rrOut (f : Frame) (s : State) : (s.busEvent f).rrOut = s.rrOut := by unfold State.busEvent; split <;> simp
@[simp] theorem State.busEvent_inputs (f : Frame) (s : State) : (s.busEvent f).inputs = s.inputs := by unfold State.busEvent; split <;> simp
@[simp] theorem State.busEvent_hostData (f : Frame) (s : State) : (s.busEvent f).hostData = s.hostData := by unfold State.busEvent; split <;> simp

@[simp] theorem State.transact_cfg (f : Frame) (k : Point) (s : State) : (s.transact f k).cfg = s.cfg := by simp [State.transact]
@[simp] theorem State.transact_status (f : Frame) (k : Point) (s : State) : (s.transact f k).status = s.status := by simp [State.transact]
@[simp] theorem State.transact_errCode (f : Frame) (k : Point) (s : State) : (s.transact f k).errCode = s.errCode := by simp [State.transact]
@[simp] theorem State.transact_errInfo (f : Frame) (k : Point) (s : State) : (s.transact f k).errInfo = s.errInfo := by simp [State.transact]
@[simp] theorem State.transact_dev (f : Frame) (k : Point) (s : State) : (s.transact f k).dev = s.dev := by simp [State.transact]
@[simp] theorem State.transact_result (f : Frame) (k : Point) (s : State) : (s.transact f k).result = s.result := by simp [State.transact]
@[simp] theorem State.transact_respLen (f : Frame) (k : Point) (s : State) : (s.transact f k).respLen = s.respLen := by simp [State.transact]
@[simp] theorem State.transact_sample (f : Frame) (k : Point) (s : State) : (s.transact f k).sample = s.sample := by simp [State.transact]
@[simp] theorem State.transact_cal (f : Frame) (k : Point) (s : State) : (s.transact f k).cal = s.cal := by simp [State.transact]
@[simp] theorem State.transact_calVals (f : Frame) (k : Point) (s : State) : (s.transact f k).calVals = s.calVals := by simp [State.transact]
@[simp] theorem State.transact_fc (f : Frame) (k : Point) (s : State) : (s.transact f k).fc = s.fc := by simp [State.transact]
@[simp] theorem State.transact_orient (f : Frame) (k : Point) (s : State) : (s.transact f k).orient = s.orient := by simp [State.transact]
@[simp] theorem State.transact_mem (f : Frame) (k : Point) (s : State) : (s.transact f k).mem = s.mem := by simp [State.transact]
@[simp] theorem State.transact_curCmd (f : Frame) (k : Point) (s : State) : (s.transact f k).curCmd = s.curCmd := by simp [State.transact]
@[simp] theorem State.transact_seqSeg (f : Frame) (k : Point) (s : State) : (s.transact f k).seqSeg = s.seqSeg := by simp [State.transact]
@[simp] theorem State.transact_seqPc (f : Frame) (k : Point) (s : State) : (s.transact f k).seqPc = s.seqPc := by simp [State.transact]
@[simp] theorem State.transact_rrIndex (f : Frame) (k : Point) (s : State) : (s.transact f k).rrIndex = s.rrIndex := by simp [State.transact]
@[simp] theorem State.transact_t0 (f : Frame) (k : Point) (s : State) : (s.transact f k).t0 = s.t0 := by simp [State.transact]
@[simp] theorem State.transact_loopId (f : Frame) (k : Point) (s : State) : (s.transact f k).loopId = s.loopId := by simp [State.transact]
@[simp] theorem State.transact_csLevel (f : Frame) (k : Point) (s : State) : (s.transact f k).csLevel = s.csLevel := by simp [State.transact, State.busEvent]
@[simp] theorem State.transact_c1Work (f : Frame) (k : Point) (s : State) : (s.transact f k).c1Work = s.c1Work := by simp [State.transact]
@[simp] theorem State.transact_c2Work (f : Frame) (k : Point) (s : State) : (s.transact f k).c2Work = s.c2Work := by simp [State.transact]
@[simp] theorem State.transact_trace (f : Frame) (k : Point) (s : State) : (s.transact f k).trace = s.trace ++ [Safety.firstEvent f s] := by simp [State.transact, State.busEvent, State.txFirst, Safety.firstEvent]; split <;> simp_all
@[simp] theorem State.transact_point (f : Frame) (k : Point) (s : State) : (s.transact f k).point = k := by simp [State.transact]
@[simp] theorem State.transact_rrOut (f : Frame) (k : Point) (s : State) : (s.transact f k).rrOut = s.rrOut := by simp [State.transact]
@[simp] theorem State.transact_inputs (f : Frame) (k : Point) (s : State) : (s.transact f k).inputs = s.inputs := by simp [State.transact]
@[simp] theorem State.transact_hostData (f : Frame) (k : Point) (s : State) : (s.transact f k).hostData = s.hostData := by simp [State.transact]

@[simp] theorem State.readAt_cfg (base : Addr7) (i : Nat) (k : Point) (s : State) : (s.readAt base i k).cfg = s.cfg := by simp [State.readAt]
@[simp] theorem State.readAt_status (base : Addr7) (i : Nat) (k : Point) (s : State) : (s.readAt base i k).status = s.status := by simp [State.readAt]
@[simp] theorem State.readAt_errCode (base : Addr7) (i : Nat) (k : Point) (s : State) : (s.readAt base i k).errCode = s.errCode := by simp [State.readAt]
@[simp] theorem State.readAt_errInfo (base : Addr7) (i : Nat) (k : Point) (s : State) : (s.readAt base i k).errInfo = s.errInfo := by simp [State.readAt]
@[simp] theorem State.readAt_dev (base : Addr7) (i : Nat) (k : Point) (s : State) : (s.readAt base i k).dev = s.dev := by simp [State.readAt]
@[simp] theorem State.readAt_result (base : Addr7) (i : Nat) (k : Point) (s : State) : (s.readAt base i k).result = s.result := by simp [State.readAt]
@[simp] theorem State.readAt_respLen (base : Addr7) (i : Nat) (k : Point) (s : State) : (s.readAt base i k).respLen = s.respLen := by simp [State.readAt]
@[simp] theorem State.readAt_sample (base : Addr7) (i : Nat) (k : Point) (s : State) : (s.readAt base i k).sample = s.sample := by simp [State.readAt]
@[simp] theorem State.readAt_cal (base : Addr7) (i : Nat) (k : Point) (s : State) : (s.readAt base i k).cal = s.cal := by simp [State.readAt]
@[simp] theorem State.readAt_calVals (base : Addr7) (i : Nat) (k : Point) (s : State) : (s.readAt base i k).calVals = s.calVals := by simp [State.readAt]
@[simp] theorem State.readAt_fc (base : Addr7) (i : Nat) (k : Point) (s : State) : (s.readAt base i k).fc = s.fc := by simp [State.readAt]
@[simp] theorem State.readAt_orient (base : Addr7) (i : Nat) (k : Point) (s : State) : (s.readAt base i k).orient = s.orient := by simp [State.readAt]
@[simp] theorem State.readAt_mem (base : Addr7) (i : Nat) (k : Point) (s : State) : (s.readAt base i k).mem = s.mem := by simp [State.readAt]
@[simp] theorem State.readAt_curCmd (base : Addr7) (i : Nat) (k : Point) (s : State) : (s.readAt base i k).curCmd = s.curCmd := by simp [State.readAt]
@[simp] theorem State.readAt_seqSeg (base : Addr7) (i : Nat) (k : Point) (s : State) : (s.readAt base i k).seqSeg = s.seqSeg := by simp [State.readAt]
@[simp] theorem State.readAt_seqPc (base : Addr7) (i : Nat) (k : Point) (s : State) : (s.readAt base i k).seqPc = s.seqPc := by simp [State.readAt]
@[simp] theorem State.readAt_rrIndex (base : Addr7) (i : Nat) (k : Point) (s : State) : (s.readAt base i k).rrIndex = BitVec.ofNat 8 i := by simp [State.readAt]
@[simp] theorem State.readAt_t0 (base : Addr7) (i : Nat) (k : Point) (s : State) : (s.readAt base i k).t0 = s.t0 := by simp [State.readAt]
@[simp] theorem State.readAt_loopId (base : Addr7) (i : Nat) (k : Point) (s : State) : (s.readAt base i k).loopId = s.loopId := by simp [State.readAt]
@[simp] theorem State.readAt_csLevel (base : Addr7) (i : Nat) (k : Point) (s : State) : (s.readAt base i k).csLevel = s.csLevel := by simp [State.readAt]
@[simp] theorem State.readAt_c1Work (base : Addr7) (i : Nat) (k : Point) (s : State) : (s.readAt base i k).c1Work = s.c1Work := by simp [State.readAt]
@[simp] theorem State.readAt_c2Work (base : Addr7) (i : Nat) (k : Point) (s : State) : (s.readAt base i k).c2Work = s.c2Work := by simp [State.readAt]
@[simp] theorem State.readAt_trace (base : Addr7) (i : Nat) (k : Point) (s : State) : (s.readAt base i k).trace = s.trace ++ [Safety.firstEvent (.read (base + BitVec.ofNat 7 i)) s] := by simp [State.readAt, Safety.firstEvent]
@[simp] theorem State.readAt_point (base : Addr7) (i : Nat) (k : Point) (s : State) : (s.readAt base i k).point = k := by simp [State.readAt]
@[simp] theorem State.readAt_rrOut (base : Addr7) (i : Nat) (k : Point) (s : State) : (s.readAt base i k).rrOut = s.rrOut := by simp [State.readAt]
@[simp] theorem State.readAt_inputs (base : Addr7) (i : Nat) (k : Point) (s : State) : (s.readAt base i k).inputs = s.inputs := by simp [State.readAt]
@[simp] theorem State.readAt_hostData (base : Addr7) (i : Nat) (k : Point) (s : State) : (s.readAt base i k).hostData = s.hostData := by simp [State.readAt]

@[simp] theorem State.readRegsBegin_cfg (base : Addr7) (k : Point) (s : State) : (s.readRegsBegin base k).cfg = s.cfg := by simp [State.readRegsBegin]
@[simp] theorem State.readRegsBegin_status (base : Addr7) (k : Point) (s : State) : (s.readRegsBegin base k).status = s.status := by simp [State.readRegsBegin]
@[simp] theorem State.readRegsBegin_errCode (base : Addr7) (k : Point) (s : State) : (s.readRegsBegin base k).errCode = s.errCode := by simp [State.readRegsBegin]
@[simp] theorem State.readRegsBegin_errInfo (base : Addr7) (k : Point) (s : State) : (s.readRegsBegin base k).errInfo = s.errInfo := by simp [State.readRegsBegin]
@[simp] theorem State.readRegsBegin_dev (base : Addr7) (k : Point) (s : State) : (s.readRegsBegin base k).dev = s.dev := by simp [State.readRegsBegin]
@[simp] theorem State.readRegsBegin_result (base : Addr7) (k : Point) (s : State) : (s.readRegsBegin base k).result = s.result := by simp [State.readRegsBegin]
@[simp] theorem State.readRegsBegin_respLen (base : Addr7) (k : Point) (s : State) : (s.readRegsBegin base k).respLen = s.respLen := by simp [State.readRegsBegin]
@[simp] theorem State.readRegsBegin_sample (base : Addr7) (k : Point) (s : State) : (s.readRegsBegin base k).sample = s.sample := by simp [State.readRegsBegin]
@[simp] theorem State.readRegsBegin_cal (base : Addr7) (k : Point) (s : State) : (s.readRegsBegin base k).cal = s.cal := by simp [State.readRegsBegin]
@[simp] theorem State.readRegsBegin_calVals (base : Addr7) (k : Point) (s : State) : (s.readRegsBegin base k).calVals = s.calVals := by simp [State.readRegsBegin]
@[simp] theorem State.readRegsBegin_fc (base : Addr7) (k : Point) (s : State) : (s.readRegsBegin base k).fc = s.fc := by simp [State.readRegsBegin]
@[simp] theorem State.readRegsBegin_orient (base : Addr7) (k : Point) (s : State) : (s.readRegsBegin base k).orient = s.orient := by simp [State.readRegsBegin]
@[simp] theorem State.readRegsBegin_mem (base : Addr7) (k : Point) (s : State) : (s.readRegsBegin base k).mem = s.mem := by simp [State.readRegsBegin]
@[simp] theorem State.readRegsBegin_curCmd (base : Addr7) (k : Point) (s : State) : (s.readRegsBegin base k).curCmd = s.curCmd := by simp [State.readRegsBegin]
@[simp] theorem State.readRegsBegin_seqSeg (base : Addr7) (k : Point) (s : State) : (s.readRegsBegin base k).seqSeg = s.seqSeg := by simp [State.readRegsBegin]
@[simp] theorem State.readRegsBegin_seqPc (base : Addr7) (k : Point) (s : State) : (s.readRegsBegin base k).seqPc = s.seqPc := by simp [State.readRegsBegin]
@[simp] theorem State.readRegsBegin_rrIndex (base : Addr7) (k : Point) (s : State) : (s.readRegsBegin base k).rrIndex = 0 := by simp [State.readRegsBegin]
@[simp] theorem State.readRegsBegin_t0 (base : Addr7) (k : Point) (s : State) : (s.readRegsBegin base k).t0 = s.t0 := by simp [State.readRegsBegin]
@[simp] theorem State.readRegsBegin_loopId (base : Addr7) (k : Point) (s : State) : (s.readRegsBegin base k).loopId = s.loopId := by simp [State.readRegsBegin]
@[simp] theorem State.readRegsBegin_csLevel (base : Addr7) (k : Point) (s : State) : (s.readRegsBegin base k).csLevel = s.csLevel := by simp [State.readRegsBegin]
@[simp] theorem State.readRegsBegin_c1Work (base : Addr7) (k : Point) (s : State) : (s.readRegsBegin base k).c1Work = s.c1Work := by simp [State.readRegsBegin]
@[simp] theorem State.readRegsBegin_c2Work (base : Addr7) (k : Point) (s : State) : (s.readRegsBegin base k).c2Work = s.c2Work := by simp [State.readRegsBegin]
@[simp] theorem State.readRegsBegin_trace (base : Addr7) (k : Point) (s : State) : (s.readRegsBegin base k).trace = s.trace ++ [Safety.firstEvent (.read base) s] := by simp [State.readRegsBegin, Safety.firstEvent]
@[simp] theorem State.readRegsBegin_point (base : Addr7) (k : Point) (s : State) : (s.readRegsBegin base k).point = k := by simp [State.readRegsBegin]
@[simp] theorem State.readRegsBegin_rrOut (base : Addr7) (k : Point) (s : State) : (s.readRegsBegin base k).rrOut = [] := by simp [State.readRegsBegin]
@[simp] theorem State.readRegsBegin_inputs (base : Addr7) (k : Point) (s : State) : (s.readRegsBegin base k).inputs = s.inputs := by simp [State.readRegsBegin]
@[simp] theorem State.readRegsBegin_hostData (base : Addr7) (k : Point) (s : State) : (s.readRegsBegin base k).hostData = s.hostData := by simp [State.readRegsBegin]

end Sys2Proof.Machine
end

