-- ==== Sys2Proof/Laws/Memory.lean ====
section
/-! SUPPORT. The laws of the buffers: read after write, read after clear, and that every operation keeps the canonical
form and stays inside the buffers. -/

namespace Sys2Proof.Machine

open Sys2Proof.Safety

namespace Memory

theorem read_insert (m : Memory) (a x : Nat) (v : Byte) :
    read (insert m a v) x = if x = a then v else read m x := by
  induction m with
  | nil =>
    by_cases h : x = a
    · simp [insert, read, h]
    · simp [insert, read, h, Ne.symm h]
  | cons c m ih =>
    obtain ⟨b, w⟩ := c
    simp only [insert]
    split
    · by_cases h : x = a
      · simp [read, h]
      · simp [read, h, Ne.symm h]
    · split
      · rename_i h1 h2
        subst h2
        by_cases h : x = a
        · simp [read, h]
        · simp [read, h, Ne.symm h]
      · simp only [read, ih]
        by_cases h : x = a
        · subst h
          rename_i h1 h2
          simp [Ne.symm h2]
        · simp [h]

theorem read_clear (m : Memory) (lo n x : Nat) :
    read (clear m lo n) x = if lo ≤ x ∧ x < lo + n then 0 else read m x := by
  induction m with
  | nil => simp [clear, read]
  | cons c m ih =>
    obtain ⟨b, w⟩ := c
    by_cases hb : lo ≤ b ∧ b < lo + n
    · have h1 : clear ((b, w) :: m) lo n = clear m lo n := by simp [clear, hb]
      rw [h1, ih]
      by_cases hx : lo ≤ x ∧ x < lo + n
      · simp [hx]
      · have : b ≠ x := fun h => hx (h ▸ hb)
        simp [hx, read, this]
    · have h1 : clear ((b, w) :: m) lo n = (b, w) :: clear m lo n := by
        simp only [clear, List.filter_cons]
        simp [hb]
      rw [h1]
      simp only [read, ih]
      by_cases hx : b = x
      · subst hx
        simp [hb]
      · simp [hx]

theorem read_write (m : Memory) (a x : Nat) (v : Byte) :
    read (write m a v) x = if x = a then v else read m x := by
  unfold write
  split
  · rename_i h
    rw [read_clear]
    by_cases hx : x = a
    · subst hx
      simp [h]
    · rw [if_neg (by omega), if_neg hx]
  · exact read_insert m a x v

@[simp] theorem read_write_same (m : Memory) (a : Nat) (v : Byte) : read (write m a v) a = v := by
  simp [read_write]

theorem read_write_other {m : Memory} {a x : Nat} (v : Byte) (h : x ≠ a) : read (write m a v) x = read m x := by
  simp [read_write, h]

theorem mem_insert {m : Memory} {a : Nat} {v : Byte} {c : Host.Cell} (h : c ∈ insert m a v) : c = (a, v) ∨ c ∈ m := by
  induction m with
  | nil => simpa [insert] using h
  | cons d m ih =>
    obtain ⟨b, w⟩ := d
    simp only [insert] at h
    split at h
    · simpa using h
    · split at h
      · simp only [List.mem_cons] at h
        rcases h with h | h
        · exact .inl h
        · exact .inr (List.mem_cons_of_mem _ h)
      · simp only [List.mem_cons] at h
        rcases h with h | h
        · exact .inr (by simp [h])
        · exact (ih h).imp id (List.mem_cons_of_mem _)

theorem mem_clear {m : Memory} {lo n : Nat} {c : Host.Cell} (h : c ∈ clear m lo n) : c ∈ m :=
  (List.mem_filter.1 h).1

theorem mem_write {m : Memory} {a : Nat} {v : Byte} {c : Host.Cell} (h : c ∈ write m a v) : c = (a, v) ∨ c ∈ m := by
  unfold write at h
  split at h
  · exact .inr (mem_clear h)
  · exact mem_insert h

theorem wf_clear {m : Memory} (lo n : Nat) (h : wf m) : wf (clear m lo n) :=
  ⟨h.1.filter _, fun _ hc => h.2 _ (mem_clear hc)⟩

theorem wf_insert {m : Memory} {a : Nat} {v : Byte} (h : wf m) (hv : v ≠ 0) : wf (insert m a v) := by
  refine ⟨?_, fun c hc => (mem_insert hc).elim (fun e => by simpa [e] using hv) (h.2 c)⟩
  obtain ⟨hp, -⟩ := h
  induction m with
  | nil => simp [insert]
  | cons d m ih =>
    obtain ⟨b, w⟩ := d
    have hp' := List.pairwise_cons.1 hp
    simp only [insert]
    split
    · refine List.pairwise_cons.2 ⟨fun c hc => ?_, hp⟩
      rcases List.mem_cons.1 hc with rfl | hc
      · assumption
      · exact Nat.lt_trans ‹_› (hp'.1 c hc)
    · split
      · rename_i h1 h2
        subst h2
        exact List.pairwise_cons.2 ⟨hp'.1, hp'.2⟩
      · refine List.pairwise_cons.2 ⟨fun c hc => ?_, ih hp'.2⟩
        rcases mem_insert hc with rfl | hc
        · show b < a
          omega
        · exact hp'.1 c hc

/-- Every write keeps the canonical form. -/
theorem wf_write {m : Memory} (a : Nat) (v : Byte) (h : wf m) : wf (write m a v) := by
  unfold write
  split
  · exact wf_clear _ _ h
  · exact wf_insert h ‹_›

end Memory

/-! ### The buffers keep their form -/

theorem memoryOk_nil : MemoryOk [] := ⟨⟨List.Pairwise.nil, by simp⟩, by simp⟩

theorem memoryOk_clear {m : Memory} (lo n : Nat) (h : MemoryOk m) : MemoryOk (Memory.clear m lo n) :=
  ⟨Memory.wf_clear lo n h.1, fun c hc => h.2 c (Memory.mem_clear hc)⟩

theorem memoryOk_write {m : Memory} {a : Nat} (v : Byte) (h : MemoryOk m) (ha : inBuffers a = true) :
    MemoryOk (Memory.write m a v) :=
  ⟨Memory.wf_write a v h.1, fun c hc => (Memory.mem_write hc).elim (fun e => by simpa [e] using ha) (h.2 c)⟩

theorem inBuffers_resp {i : Nat} (h : i < Config.respBufBytes) : inBuffers (respBase + i) = true := by
  have : i < 256 := h
  simp [inBuffers, respBase, this]

theorem inBuffers_pixel {i : Nat} (h : i < Config.framePixels) : inBuffers (pixelBase + i) = true := by
  have : i < 1225 := h
  simp [inBuffers, pixelBase, this]

theorem memoryOk_putResp {s : State} (i : Nat) (v : Byte) (h : MemoryOk s.mem) : MemoryOk (s.putResp i v).mem := by
  unfold State.putResp
  split
  · exact memoryOk_write v h (inBuffers_resp ‹_›)
  · exact h

theorem memoryOk_putPixel {s : State} (i : Nat) (v : Byte) (h : MemoryOk s.mem) : MemoryOk (s.putPixel i v).mem := by
  unfold State.putPixel
  split
  · exact memoryOk_write v h (inBuffers_pixel ‹_›)
  · exact h

theorem memoryOk_putRespFrom {s : State} (i : Nat) (l : List Byte) (h : MemoryOk s.mem) :
    MemoryOk (s.putRespFrom i l).mem := by
  induction l generalizing i s with
  | nil => exact h
  | cons b bs ih => exact ih (i + 1) (memoryOk_putResp i b h)

theorem memoryOk_fillResp {s : State} (n : Nat) (l : List Byte) (h : MemoryOk s.mem) : MemoryOk (s.fillResp n l).mem :=
  memoryOk_putRespFrom 0 _ h

/-! ### What the buffer operations store -/

theorem State.read_putResp (s : State) (i x : Nat) (v : Byte) :
    Memory.read (s.putResp i v).mem x
      = if x = respBase + i ∧ i < Config.respBufBytes then v else Memory.read s.mem x := by
  unfold State.putResp
  split
  · simp [Memory.read_write, *]
  · simp [*]

theorem State.read_putPixel (s : State) (i x : Nat) (v : Byte) :
    Memory.read (s.putPixel i v).mem x
      = if x = pixelBase + i ∧ i < Config.framePixels then v else Memory.read s.mem x := by
  unfold State.putPixel
  split
  · simp [Memory.read_write, *]
  · simp [*]

theorem State.read_putRespFrom (s : State) (i x : Nat) (l : List Byte) (h : i + l.length ≤ Config.respBufBytes) :
    Memory.read (s.putRespFrom i l).mem x
      = if respBase + i ≤ x ∧ x < respBase + i + l.length then l.getD (x - (respBase + i)) 0 else Memory.read s.mem x := by
  induction l generalizing i s with
  | nil =>
    have : ¬(respBase + i ≤ x ∧ x < respBase + i + 0) := by omega
    simp only [State.putRespFrom, List.length_nil, this, if_false]
  | cons b bs ih =>
    simp only [List.length_cons] at h
    simp only [State.putRespFrom, List.length_cons]
    rw [ih _ _ (by omega), State.read_putResp]
    by_cases h1 : x = respBase + i
    · subst h1
      have h2 : ¬(respBase + (i + 1) ≤ respBase + i ∧ respBase + i < respBase + (i + 1) + bs.length) := by omega
      have h3 : respBase + i ≤ respBase + i ∧ respBase + i < respBase + i + (bs.length + 1) := by omega
      have h4 : i < Config.respBufBytes := by omega
      rw [if_neg h2, if_pos ⟨rfl, h4⟩, if_pos h3]
      simp
    · have h5 : ¬(x = respBase + i ∧ i < Config.respBufBytes) := fun h => h1 h.1
      rw [if_neg h5]
      by_cases h2 : respBase + (i + 1) ≤ x ∧ x < respBase + (i + 1) + bs.length
      · have h3 : respBase + i ≤ x ∧ x < respBase + i + (bs.length + 1) := by omega
        rw [if_pos h2, if_pos h3]
        obtain ⟨k, rfl⟩ : ∃ k, x = respBase + (i + 1) + k := ⟨x - (respBase + (i + 1)), by omega⟩
        have e1 : respBase + (i + 1) + k - (respBase + (i + 1)) = k := by omega
        have e2 : respBase + (i + 1) + k - (respBase + i) = k + 1 := by omega
        rw [e1, e2, List.getD_cons_succ]
      · have h3 : ¬(respBase + i ≤ x ∧ x < respBase + i + (bs.length + 1)) := by omega
        rw [if_neg h2, if_neg h3]

theorem fitLength_length (n : Nat) (l : List Byte) : (fitLength n l).length = n := by
  simp [fitLength]

theorem fitLength_of_length {n : Nat} {l : List Byte} (h : l.length = n) : fitLength n l = l := by
  simp [fitLength, ← h]

theorem State.read_fillResp (s : State) (n x : Nat) (l : List Byte) (h : n ≤ Config.respBufBytes) :
    Memory.read (s.fillResp n l).mem x
      = if respBase ≤ x ∧ x < respBase + n then (fitLength n l).getD (x - respBase) 0 else Memory.read s.mem x := by
  have := State.read_putRespFrom s 0 x (fitLength n l) (by rw [fitLength_length]; omega)
  rw [fitLength_length] at this
  simpa [State.fillResp] using this

end Sys2Proof.Machine
end

