-- ==== Sys2Proof/Laws/Bus.lean ====
section
/-! SUPPORT. What the shared operations can do, each said once: a transaction's start and end, the player, ReadRegisters and
the checks before a command's rule. -/

namespace Sys2Proof.Machine

open Sys2Proof.Safety

/-! ### Transactions -/

theorem State.txResult_eq_outcomeOf (rx : Option (List Byte)) (d : Bool) : State.txResult rx d = outcomeOf rx d := by
  cases rx <;> rfl

/-- Beginning a transaction is its first event; it moves the point and changes no register. -/
theorem State.transact_spec (f : Frame) (k : Point) (s : State) :
    Begun f s (s.transact f k)
      ∧ s.transact f k = { s with
          point := k, tx := (s.transact f k).tx, env := (s.transact f k).env,
          trace := (s.transact f k).trace } := by
  refine ⟨⟨by simp, ?_, ?_, ?_⟩, ?_⟩
  · simp only [State.transact, State.busEvent, State.txFirst, State.setTx_tx]
    split <;> simp
  · intro h
    simp [State.transact, State.busEvent, State.txFirst, h]
  · intro h
    simp [State.transact, State.busEvent, State.txFirst, h, State.txResult_eq_outcomeOf]
  · apply State.ext <;> simp

/-- A command takes the response of its transaction. -/
theorem State.onTx_ok {s : State} {rx : List Byte} (h : Answered rx s) (fail : Word → State → Result)
    (k : List Byte → State → Result) : s.onTx fail k = k rx s.taken := by
  unfold Answered at h
  simp [State.onTx, h]

/-- A command takes the TRANSPORT error of its transaction. -/
theorem State.onTx_failed {s : State} {c : Bool} (h : s.tx.phase = .ended (.failed c)) (fail : Word → State → Result)
    (k : List Byte → State → Result) :
    s.onTx fail k = fail (transportInfo s.tx.frame.byte0 c) s.taken := by
  simp [State.onTx, h]

/-- If a command goes on, its transaction is over, and it has taken the response or the error. -/
theorem State.onTx_next {s t : State} {fail : Word → State → Result} {k : List Byte → State → Result}
    (h : s.onTx fail k = .next t) :
    (∃ rx, Answered rx s ∧ k rx s.taken = .next t)
      ∨ ∃ c, s.tx.phase = .ended (.failed c)
        ∧ fail (transportInfo s.tx.frame.byte0 c) s.taken = .next t := by
  unfold State.onTx at h
  split at h
  · exact .inl ⟨_, ‹_›, h⟩
  · exact .inr ⟨_, ‹_›, h⟩
  all_goals cases h

/-! ### The player -/

/-- The steps an ill-formed ROM would have are in no admitted configuration. -/
theorem stepWord_legal {s : State} {w : BitVec 16} (hc : s.cfg.wf = true) (h : s.stepWord = some w) :
    stepWordLegal w = true := by
  simp only [Config.wf, seqRomWf, Bool.and_eq_true, List.all_eq_true] at hc
  unfold State.stepWord Config.segment at h
  have hw := List.mem_of_getElem? h
  by_cases hs : s.seqSeg.toNat < s.cfg.seqRom.length
  · rw [List.getD_eq_getElem _ _ hs] at hw
    exact hc.1.2 _ (List.getElem_mem hs) _ hw
  · rw [List.getD_eq_default _ _ (by omega)] at hw
    simp at hw

/-- A step word is its two bytes. -/
theorem stepWord_bytes (w : BitVec 16) : w = (w.extractLsb' 8 8 ++ w.extractLsb' 0 8 : BitVec 16) := by
  apply BitVec.eq_of_toNat_eq
  have := w.isLt
  rw [BitVec.toNat_append, ← Nat.shiftLeft_add_eq_or_of_lt (BitVec.isLt _)]
  simp [Nat.shiftLeft_eq, Nat.shiftRight_eq_div_pow]
  omega

/-- A step word is the bit above its address, its address and its value. -/
theorem stepWord_fields (w : BitVec 16) :
    w = (w.extractLsb' 15 1 ++ w.extractLsb' 8 7 ++ w.extractLsb' 0 8 : BitVec 16) := by
  apply BitVec.eq_of_toNat_eq
  have := w.isLt
  rw [BitVec.toNat_append, BitVec.toNat_append, ← Nat.shiftLeft_add_eq_or_of_lt (BitVec.isLt _),
    ← Nat.shiftLeft_add_eq_or_of_lt (BitVec.isLt _)]
  simp [Nat.shiftLeft_eq, Nat.shiftRight_eq_div_pow]
  omega

/-- A legal step word is a write or a WAIT. -/
theorem stepWord_cases {w : BitVec 16} (h : stepWordLegal w = true) :
    (∃ f g, w = 0#1 ++ f ++ g ∧ decodeStep w = .ok (.seqWrite f g))
      ∨ ∃ g : Byte, w = 0xFF#8 ++ g ∧ decodeStep w = .ok (.seqWait g) := by
  by_cases h1 : w.extractLsb' 8 8 = 0xFF#8
  · refine .inr ⟨w.extractLsb' 0 8, ?_, by simp [decodeStep, h1]⟩
    rw [← h1]
    exact stepWord_bytes w
  · have h2 : (w.extractLsb' 8 8).toNat ≤ 0x7F := by
      simp only [stepWordLegal, Bool.or_eq_true, decide_eq_true_eq, beq_iff_eq] at h
      rcases h with h | h
      · exact h
      · exact absurd (BitVec.eq_of_toNat_eq h) h1
    have h3 : w.extractLsb' 15 1 = 0#1 := by
      apply BitVec.eq_of_toNat_eq
      simp only [BitVec.extractLsb'_toNat, Nat.shiftRight_eq_div_pow] at h2 ⊢
      have := w.isLt
      simp
      omega
    refine .inl ⟨w.extractLsb' 8 7, w.extractLsb' 0 8, ?_, by simp [decodeStep, h1, h3]⟩
    rw [← h3]
    exact stepWord_fields w

theorem decodeStep_write (f : Addr7) (g : Byte) : decodeStep (0#1 ++ f ++ g) = .ok (.seqWrite f g) := by
  have hf := f.isLt
  have hg := g.isLt
  have hn : (0#1 ++ f ++ g : BitVec 16).toNat = f.toNat * 256 + g.toNat := by
    rw [BitVec.toNat_append, BitVec.toNat_append, ← Nat.shiftLeft_add_eq_or_of_lt (BitVec.isLt _),
      ← Nat.shiftLeft_add_eq_or_of_lt (BitVec.isLt _)]
    simp [Nat.shiftLeft_eq]
  have h1 : (0#1 ++ f ++ g : BitVec 16).extractLsb' 8 8 ≠ 0xFF := by
    intro h
    have := congrArg BitVec.toNat h
    simp only [BitVec.extractLsb'_toNat, hn, Nat.shiftRight_eq_div_pow] at this
    simp at this
    omega
  have h2 : (0#1 ++ f ++ g : BitVec 16).extractLsb' 15 1 = 0 := by
    apply BitVec.eq_of_toNat_eq
    simp only [BitVec.extractLsb'_toNat, hn, Nat.shiftRight_eq_div_pow]
    simp
    omega
  have h3 : (0#1 ++ f ++ g : BitVec 16).extractLsb' 8 7 = f := by
    apply BitVec.eq_of_toNat_eq
    simp only [BitVec.extractLsb'_toNat, hn, Nat.shiftRight_eq_div_pow]
    omega
  have h4 : (0#1 ++ f ++ g : BitVec 16).extractLsb' 0 8 = g := by
    apply BitVec.eq_of_toNat_eq
    simp only [BitVec.extractLsb'_toNat, hn, Nat.shiftRight_eq_div_pow]
    omega
  simp only [decodeStep, h1, h2, h3, h4, if_true, if_false]

theorem decodeStep_wait (g : Byte) : decodeStep (0xFF#8 ++ g) = .ok (.seqWait g) := by
  have hg := g.isLt
  have hn : (0xFF#8 ++ g : BitVec 16).toNat = 0xFF * 256 + g.toNat := by
    rw [BitVec.toNat_append, ← Nat.shiftLeft_add_eq_or_of_lt (BitVec.isLt _)]
    simp [Nat.shiftLeft_eq]
  have h1 : (0xFF#8 ++ g : BitVec 16).extractLsb' 8 8 = 0xFF := by
    apply BitVec.eq_of_toNat_eq
    simp only [BitVec.extractLsb'_toNat, hn, Nat.shiftRight_eq_div_pow]
    simp
    omega
  have h2 : (0xFF#8 ++ g : BitVec 16).extractLsb' 0 8 = g := by
    apply BitVec.eq_of_toNat_eq
    simp only [BitVec.extractLsb'_toNat, hn, Nat.shiftRight_eq_div_pow]
    omega
  simp only [decodeStep, h1, h2, if_true]

/-- A sleep's end is at least its bound after the reading at its call, which is no earlier than the clock. -/
theorem Env.sleep_spec (e : Env) (ms : Nat) :
    e.clock ≤ (e.sleep ms).1 ∧ (e.sleep ms).1 + ms * 1000 ≤ (e.sleep ms).2.1
      ∧ (e.sleep ms).2.2.clock = (e.sleep ms).2.1 ∧ e.clock ≤ (e.sleep ms).2.2.clock := by
  unfold Env.sleep
  split <;> simp [Config.unitsPerMs] <;> omega

/-- A reading is no earlier than the one before, and the clock then stands at it. -/
theorem Env.now_spec (e : Env) : e.clock ≤ e.now.1 ∧ e.now.2.clock = e.now.1 := by
  unfold Env.now
  split <;> simp

/-- What a step word of the player does. -/
def StepRun (s t : State) : Prop :=
  (∃ f g, s.stepWord = some (0#1 ++ f ++ g) ∧ t = s.transact (.write f g) .stepWritten)
    ∨ ∃ g : Byte, s.stepWord = some (0xFF#8 ++ g)
      ∧ t = (s.sleepEvent g.toNat).setPoint .stepWaited

/-- At a segment's end the player returns. -/
theorem State.playNext_none {s : State} (h : s.stepWord = none) (done : State → Result) : s.playNext done = done s := by
  simp [State.playNext, h]

/-- Before it, in an admitted configuration, the player runs the word at SEQ_PC. -/
theorem State.playNext_some {s : State} (hc : s.cfg.wf = true) {w : BitVec 16} (h : s.stepWord = some w)
    (done : State → Result) : ∃ t, s.playNext done = .next t ∧ StepRun s t := by
  rcases stepWord_cases (stepWord_legal hc h) with ⟨f, g, rfl, hd⟩ | ⟨g, rfl, hd⟩
  · exact ⟨_, by simp [State.playNext, h, runStep, hd, execSeqWrite], .inl ⟨f, g, h, rfl⟩⟩
  · exact ⟨_, by simp [State.playNext, h, runStep, hd, execSeqWait], .inr ⟨g, h, rfl⟩⟩

/-- If the player answers a next state, it returned at the segment's end or ran one word. -/
theorem State.playNext_next {s t : State} {done : State → Result} (h : s.playNext done = .next t) :
    (s.stepWord = none ∧ done s = .next t) ∨ StepRun s t := by
  unfold State.playNext at h
  split at h
  · exact .inl ⟨‹_›, h⟩
  · rename_i w hw
    refine .inr ?_
    unfold runStep at h
    split at h
    · rename_i f g hd
      cases h
      refine .inl ⟨f, g, ?_, rfl⟩
      rw [hw]
      unfold decodeStep at hd
      split at hd
      · cases hd
      · split at hd
        · rename_i h0
          cases hd
          have h1 : w.extractLsb' 15 1 = 0#1 := h0
          rw [← h1]
          exact congrArg some (stepWord_fields w)
        · cases hd
    · rename_i g hd
      cases h
      refine .inr ⟨g, ?_, rfl⟩
      rw [hw]
      unfold decodeStep at hd
      split at hd
      · rename_i h0
        cases hd
        have h1 : w.extractLsb' 8 8 = 0xFF#8 := h0
        rw [← h1]
        exact congrArg some (stepWord_bytes w)
      · split at hd <;> cases hd
    · cases h
    · cases h

/-! ### Runs -/

theorem steps_succ (k : Nat) {s t : State} (h : step s = .next t) : steps (k + 1) s = steps k t := by
  show (match step s with | .next t => steps k t | .fault e => .fault e | .refused e => .refused e) = steps k t
  rw [h]

/-- A run is cut at any step. -/
theorem steps_add (j k : Nat) {s t : State} (h : steps j s = .next t) : steps (j + k) s = steps k t := by
  induction j generalizing s with
  | zero => cases h; rw [Nat.zero_add]
  | succ j ih =>
    rw [Nat.succ_add]
    cases hs : step s with
    | next u => rw [steps_succ _ hs] at h ⊢; exact ih h
    | fault e => simp [steps, hs] at h
    | refused e => simp [steps, hs] at h

end Sys2Proof.Machine
end

