-- ==== Sys2Proof/Laws/Encoding.lean ====
section
/-! SUPPORT. The match and mask rows in arithmetic: a row matches a word when the word's fixed fields, as numbers, are the
row's. Encoded words are sums, so both directions of the encodings come down to linear arithmetic. -/

namespace Sys2Proof

/-- A concatenation as a number. -/
theorem append_toNat {n m : Nat} (x : BitVec n) (y : BitVec m) : (x ++ y).toNat = x.toNat * 2 ^ m + y.toNat := by
  rw [BitVec.toNat_append, ← Nat.shiftLeft_add_eq_or_of_lt (BitVec.isLt _), Nat.shiftLeft_eq]

/-- A field as a number. -/
theorem field_toNat {n : Nat} (w : BitVec n) (lo len : Nat) : (w.extractLsb' lo len).toNat = w.toNat / 2 ^ lo % 2 ^ len := by
  rw [BitVec.extractLsb'_toNat, Nat.shiftRight_eq_div_pow]

/-- The mask of the bits from k up keeps the quotient by 2 ^ k. -/
theorem highMask_toNat (w : Word) (k : Nat) : (w &&& BitVec.allOnes 32 <<< k).toNat = w.toNat / 2 ^ k * 2 ^ k := by
  have h : w &&& BitVec.allOnes 32 <<< k = (w >>> k) <<< k := by
    apply BitVec.eq_of_getLsbD_eq
    intro i hi
    rw [BitVec.getLsbD_and, BitVec.getLsbD_shiftLeft, BitVec.getLsbD_shiftLeft, BitVec.getLsbD_ushiftRight,
      BitVec.getLsbD_allOnes]
    by_cases hk : i < k
    · simp [hk]
    · have h1 : k + (i - k) = i := by omega
      have h2 : i - k < 32 := by omega
      simp [hk, hi, h1, h2]
  rw [h, BitVec.toNat_shiftLeft, BitVec.toNat_ushiftRight, Nat.shiftRight_eq_div_pow, Nat.shiftLeft_eq]
  apply Nat.mod_eq_of_lt
  exact Nat.lt_of_le_of_lt (Nat.div_mul_le_self _ _) w.isLt

/-- The mask of the low k bits keeps the remainder by 2 ^ k. -/
theorem lowMask_toNat (w : Word) (k : Nat) (hk : k ≤ 32) : (w &&& BitVec.ofNat 32 (2 ^ k - 1)).toNat = w.toNat % 2 ^ k := by
  have h1 : 2 ^ k ≤ 2 ^ 32 := Nat.pow_le_pow_right (by decide) hk
  have h2 : 0 < 2 ^ k := Nat.pow_pos (by decide)
  rw [BitVec.toNat_and, BitVec.toNat_ofNat, Nat.mod_eq_of_lt (by omega), Nat.and_two_pow_sub_one_eq_mod]

/-- A row whose fixed bits are the bits from k up. -/
theorem CommandRow.hits_high (r : CommandRow) (k n : Nat) (hm : r.mask = BitVec.allOnes 32 <<< k)
    (hb : r.bits.toNat = n * 2 ^ k) (w : Word) : r.hits w = true ↔ w.toNat / 2 ^ k = n := by
  have hk : 0 < 2 ^ k := Nat.pow_pos (by decide)
  simp only [CommandRow.hits, beq_iff_eq, hm]
  rw [← BitVec.toNat_inj, highMask_toNat, hb]
  exact ⟨fun h => Nat.eq_of_mul_eq_mul_right hk h, fun h => by rw [h]⟩

/-- A row whose fixed bits are the bits from k up and the low j bits, which are 0. -/
theorem CommandRow.hits_highLow (r : CommandRow) (k j n : Nat) (hj : j ≤ k) (hk : k ≤ 32)
    (hm : r.mask = BitVec.allOnes 32 <<< k ||| BitVec.ofNat 32 (2 ^ j - 1)) (hb : r.bits.toNat = n * 2 ^ k) (w : Word) :
    r.hits w = true ↔ w.toNat / 2 ^ k = n ∧ w.toNat % 2 ^ j = 0 := by
  have hk0 : 0 < 2 ^ k := Nat.pow_pos (by decide)
  have hsplit : (w &&& r.mask).toNat = w.toNat / 2 ^ k * 2 ^ k + w.toNat % 2 ^ j := by
    rw [hm, BitVec.and_or_distrib_left, BitVec.toNat_or, highMask_toNat, lowMask_toNat _ _ (by omega), ← Nat.shiftLeft_eq]
    rw [Nat.shiftLeft_add_eq_or_of_lt]
    exact Nat.lt_of_lt_of_le (Nat.mod_lt _ (Nat.pow_pos (by decide))) (Nat.pow_le_pow_right (by decide) hj)
  have hlow : w.toNat % 2 ^ j < 2 ^ k :=
    Nat.lt_of_lt_of_le (Nat.mod_lt _ (Nat.pow_pos (by decide))) (Nat.pow_le_pow_right (by decide) hj)
  simp only [CommandRow.hits, beq_iff_eq]
  rw [← BitVec.toNat_inj, hsplit, hb]
  constructor
  · intro h
    have h1 : w.toNat / 2 ^ k = n := by
      have := congrArg (· / 2 ^ k) h
      simpa [Nat.add_div_of_dvd_right, Nat.mul_div_cancel, hk0, Nat.div_eq_of_lt hlow, Nat.add_comm, Nat.add_mul_div_right] using this
    rw [h1] at h
    exact ⟨h1, by omega⟩
  · rintro ⟨rfl, h⟩
    rw [h, Nat.add_zero]

theorem rowWriteReg_hits (w : Word) : rowWriteReg.hits w = true ↔ w.toNat / 2 ^ 15 = 0x1 * 2 ^ 13 :=
  CommandRow.hits_high _ 15 _ (by decide) (by decide) w
theorem rowReadReg_hits (w : Word) :
    rowReadReg.hits w = true ↔ w.toNat / 2 ^ 15 = 0x2 * 2 ^ 13 ∧ w.toNat % 2 ^ 8 = 0 :=
  CommandRow.hits_highLow _ 15 8 _ (by decide) (by decide) (by decide) (by decide) w
theorem rowReadRegs_hits (w : Word) : rowReadRegs.hits w = true ↔ w.toNat / 2 ^ 15 = 0x3 * 2 ^ 13 :=
  CommandRow.hits_high _ 15 _ (by decide) (by decide) w
theorem rowBurstXfer_hits (w : Word) : rowBurstXfer.hits w = true ↔ w.toNat / 2 ^ 16 = 0x4 * 2 ^ 12 :=
  CommandRow.hits_high _ 16 _ (by decide) (by decide) w
theorem rowPlaySeq_hits (w : Word) : rowPlaySeq.hits w = true ↔ w.toNat / 2 ^ 4 = 0x5 * 2 ^ 24 :=
  CommandRow.hits_high _ 4 _ (by decide) (by decide) w
theorem rowBringUp_hits (w : Word) : rowBringUp.hits w = true ↔ w.toNat / 2 ^ 1 = 0x6 * 2 ^ 27 :=
  CommandRow.hits_high _ 1 _ (by decide) (by decide) w
theorem rowBurstRead_hits (w : Word) : rowBurstRead.hits w = true ↔ w.toNat / 2 ^ 24 = 0x7 * 2 ^ 4 :=
  CommandRow.hits_high _ 24 _ (by decide) (by decide) w
theorem rowSlowRead_hits (w : Word) : rowSlowRead.hits w = true ↔ w.toNat / 2 ^ 24 = 0x8 * 2 ^ 4 :=
  CommandRow.hits_high _ 24 _ (by decide) (by decide) w
theorem rowFrameCapture_hits (w : Word) : rowFrameCapture.hits w = true ↔ w.toNat / 2 ^ 24 = 0x9 * 2 ^ 4 :=
  CommandRow.hits_high _ 24 _ (by decide) (by decide) w
theorem rowSetOrientation_hits (w : Word) :
    rowSetOrientation.hits w = true ↔ w.toNat / 2 ^ 8 = 0xA * 2 ^ 20 ∧ w.toNat % 2 ^ 5 = 0 :=
  CommandRow.hits_highLow _ 8 5 _ (by decide) (by decide) (by decide) (by decide) w
theorem rowSetRotation_hits (w : Word) : rowSetRotation.hits w = true ↔ w.toNat / 2 ^ 9 = 0xB * 2 ^ 19 :=
  CommandRow.hits_high _ 9 _ (by decide) (by decide) w

end Sys2Proof
end

