-- ==== Sys2Proof/Laws/PerInstr.lean ====
section
/-! SUPPORT. What holds of every instruction as syntax, one lemma for each constructor: its code has the size that the
format's rule gives it, and is a command word for a host command only. -/

namespace Sys2Proof.Laws.Format

/-- The bits of a code (R12, R90, R97-R100, R106). -/
def codeBits : Code → Nat
  | .command _ => 32
  | .frame _ bytes => 8 * bytes.length
  | .step _ => 16
  | .fragment _ => 8

/-- R90, R97-R100, R106: the bits of an instruction; a burst frame has LEN zero bytes after its command byte. -/
def sizeBits : Instr → Nat
  | .writeReg _ _ | .readReg _ | .readRegs _ _ | .burstXfer _ _ | .playSeq _ | .bringUp _ | .burstRead _ | .slowRead _
  | .frameCapture _ | .setOrientation _ _ _ | .setRotation _ => 32
  | .writeFrame _ _ | .readFrame _ | .seqWrite _ _ | .seqWait _ => 16
  | .burstFrame _ len => 8 * (1 + len.toNat)
  | .motionBurstFrame => 8 * 13
  | .fragUpper _ | .fragLower _ | .fragNone00 _ | .fragNone11 _ => 8

/-- A code is a command word. -/
def isCommandWord : Code → Bool
  | .command _ => true
  | .frame _ _ | .step _ | .fragment _ => false

/-- R90, R91, R97-R100, R106: an instruction's code has its format's size, and is a command word for a host command only. -/
def Statement (i : Instr) : Prop := codeBits (encode i) = sizeBits i ∧ isCommandWord (encode i) = i.isCommand

theorem writeReg (a : Addr7) (v : Byte) : Statement (.writeReg a v) := ⟨rfl, rfl⟩
theorem readReg (a : Addr7) : Statement (.readReg a) := ⟨rfl, rfl⟩
theorem readRegs (a : Addr7) (n : Byte) : Statement (.readRegs a n) := ⟨rfl, rfl⟩
theorem burstXfer (c len : Byte) : Statement (.burstXfer c len) := ⟨rfl, rfl⟩
theorem playSeq (seg : BitVec 4) : Statement (.playSeq seg) := ⟨rfl, rfl⟩
theorem bringUp (v : Variant) : Statement (.bringUp v) := ⟨rfl, rfl⟩
theorem burstRead (t : BitVec 24) : Statement (.burstRead t) := ⟨rfl, rfl⟩
theorem slowRead (t : BitVec 24) : Statement (.slowRead t) := ⟨rfl, rfl⟩
theorem frameCapture (t : BitVec 24) : Statement (.frameCapture t) := ⟨rfl, rfl⟩
theorem setOrientation (swap invY invX : Bool) : Statement (.setOrientation swap invY invX) := ⟨rfl, rfl⟩
theorem setRotation (d : BitVec 9) : Statement (.setRotation d) := ⟨rfl, rfl⟩
theorem writeFrame (a : Addr7) (v : Byte) : Statement (.writeFrame a v) := ⟨rfl, rfl⟩
theorem readFrame (a : Addr7) : Statement (.readFrame a) := ⟨rfl, rfl⟩
theorem burstFrame (c len : Byte) : Statement (.burstFrame c len) := by
  refine ⟨?_, rfl⟩
  simp [encode, Frame.bytes, codeBits, sizeBits, Nat.add_comm]
theorem motionBurstFrame : Statement .motionBurstFrame := ⟨rfl, rfl⟩
theorem seqWrite (f : Addr7) (g : Byte) : Statement (.seqWrite f g) := ⟨rfl, rfl⟩
theorem seqWait (g : Byte) : Statement (.seqWait g) := ⟨rfl, rfl⟩
theorem fragUpper (u : BitVec 6) : Statement (.fragUpper u) := ⟨rfl, rfl⟩
theorem fragLower (b : BitVec 6) : Statement (.fragLower b) := ⟨rfl, rfl⟩
theorem fragNone00 (b : BitVec 6) : Statement (.fragNone00 b) := ⟨rfl, rfl⟩
theorem fragNone11 (b : BitVec 6) : Statement (.fragNone11 b) := ⟨rfl, rfl⟩

end Sys2Proof.Laws.Format
end

