-- ==== Sys2Proof/Laws/Turn.lean ====
section
/-! SUPPORT. What one step of a command can do, said once: the registers it changes, then one event or the command's end.
`Turn i s u act` says that command i, at the point of s, changes the registers to those of u and then does act. -/

namespace Sys2Proof.Machine

open Sys2Proof.Safety

/-- How a step of a command ends, once its registers are written: one event, after which the command goes on at a point,
or the command's end. -/
inductive Act
  | begin (f : Frame) (k : Point)
  | now (k : Point)
  | sleep (ms : Nat) (k : Point)
  | raise (code : ErrCode) (info : Word)
  | succeed

/-- The state after the act. -/
def Act.apply (u : State) : Act → State
  | .begin f k => u.transact f k
  | .now k => u.nowEvent.setPoint k
  | .sleep ms k => (u.sleepEvent ms).setPoint k
  | .raise code info => u.raise code info
  | .succeed => u.succeed

/-- The checks before a command's rule have passed. -/
def Checked (i : Instr) (s : State) : Prop :=
  s.point = .start ∧ permitted i s.dev.state = true ∧ argsValid i = true

/-- The player runs one word of its segment. -/
inductive Word1 (s : State) : State → Act → Prop
  | write (f : Addr7) (g : Byte) (h : s.stepWord = some (0#1 ++ f ++ g)) : Word1 s s (.begin (.write f g) .stepWritten)
  | wait (g : Byte) (h : s.stepWord = some (0xFF#8 ++ g)) :
    Word1 s s (.sleep g.toNat .stepWaited)

/-- The player goes on, from a word's end. -/
inductive Resumed (s : State) : State → Prop
  | waited (h : s.point = .stepWaited) : Resumed s s.nextWord
  | written (rx : List Byte) (h : s.point = .stepWritten) (ha : Answered rx s) :
    Resumed s s.taken.nextWord

/-- The identity check begins. -/
def State.toIdentity (s : State) : State := ((s.setPhase .idCheck).setRrOut []).setRrIndex 0

/-- The trailer is entered. -/
inductive Trailer (v : Variant) (s : State) : State → Act → Prop
  | word (u : State) (a : Act) (h : Word1 (atPart v .trailer s) u a) : Trailer v s u a
  | empty (h : (atPart v .trailer s).stepWord = none) :
    Trailer v s (atPart v .trailer s).toIdentity (.begin (.read (Config.idReg + BitVec.ofNat 7 0)) .idRead)

/-- What follows the segment of the phase. -/
inductive After (v : Variant) (s : State) : BuPhase → State → Act → Prop
  | prologue : After v s .prologue (s.setPhase .branchA) (.begin (.read (s.cfg.regs v).diag) .diagRead)
  | mid : After v s .mid (s.setPhase .branchB) (.begin (.read (s.cfg.regs v).stat) .statRead)
  | sub : After v s .sub (s.setPhase .writeback) (.begin (.write (s.cfg.regs v).c1Dst s.calVals.c1Adj) .c1Written)
  | tail (u : State) (a : Act) (h : Trailer v s u a) : After v s .tail u a
  | trailer : After v s .trailer s.toIdentity (.begin (.read (Config.idReg + BitVec.ofNat 7 0)) .idRead)

/-- The segment of a phase is entered. -/
inductive Enter (v : Variant) (p : BuPhase) (s : State) : State → Act → Prop
  | word (u : State) (a : Act) (h : Word1 (atPart v p s) u a) : Enter v p s u a
  | empty (u : State) (a : Act) (h : (atPart v p s).stepWord = none) (ha : After v (atPart v p s) p u a) : Enter v p s u a

/-- The points at which a command waits for a transaction that, on a TRANSPORT error, changes nothing else. -/
def plainPoint : Instr → Point → Bool
  | .writeReg _ _, p | .readReg _, p | .burstXfer _ _, p | .setOrientation _ _ _, p | .setRotation _, p => p == .regDone
  | .readRegs _ _, p | .slowRead _, p => p == .regsRead
  | .playSeq _, p => p == .stepWritten
  | .burstRead _, p => p == .burstRead
  | _, _ => false

/-- The ERRINFO word of a TRANSPORT error of the transaction under way. -/
def State.txInfo (s : State) (c : Bool) : Word := transportInfo s.tx.frame.byte0 c

/-- BRING_UP's registers at its begin. -/
def bringUpRegs (v : Variant) (s : State) : State :=
  ((s.setDev { s.dev with variant := v, idValid := false }).setCal (State.blank s.cfg).cal).setCalVals
    (State.blank s.cfg).calVals |>.setPhase .reset

/-- Branch B's registers once c2 has been read. -/
def adjustRegs (c2 : Byte) (s : State) : State :=
  (s.setCalVals
    { s.calVals with
      c2Raw := c2, c1Adj := BitVec.ofNat 8 (adjC1 s.cfg.c1Mode s.calVals.c1Raw.toNat),
      c2Adj := BitVec.ofNat 8 (adjC2 c2.toNat) }).setWork
    (c1Stepped s.cfg.c1Mode s.calVals.c1Raw.toNat) (adjC2 c2.toNat)

/-- The accumulator's registers after a grabbed byte. -/
def fragmentRegs (f : Byte) (s : State) : State :=
  match decodeFragment f with
  | .fragUpper u => (s.putPixel s.fc.pixelCount (upperPixel u)).setFc s.fc.upper
  | .fragLower low =>
    (s.putPixel s.fc.pixelCount
      (lowerPixel (s.pixelByte s.fc.pixelCount) (lowerPayload s.cfg.lowerSrc low))).setFc s.fc.lower
  | _ => s

/-- The next read of a ReadRegisters. -/
def State.nextRead (b : Byte) (s : State) : State :=
  (s.setRrOut (s.rrOut ++ [b])).setRrIndex (BitVec.ofNat 8 (s.rrIndex.toNat + 1))

/-- The frame of the next read of a ReadRegisters. -/
def State.nextReadFrame (base : Addr7) (s : State) : Frame := .read (base + BitVec.ofNat 7 (s.rrIndex.toNat + 1))

/-- One step of a command. -/
inductive Turn (s : State) : Instr → State → Act → Prop
  | stateError (i : Instr) (hp : s.point = .start) (h : permitted i s.dev.state = false) : Turn s i s (.raise .state s.curCmd)
  | argError (i : Instr) (hp : s.point = .start) (h : permitted i s.dev.state = true) (ha : argsValid i = false) :
    Turn s i s (.raise .invalidArgument s.curCmd)
  | plainFailed (i : Instr) (c : Bool) (hp : plainPoint i s.point = true) (h : s.tx.phase = .ended (.failed c)) :
    Turn s i s.taken (.raise .transport (s.txInfo c))
  | writeRegBegin (a : Addr7) (v : Byte) (h : Checked (.writeReg a v) s) :
    Turn s (.writeReg a v) s.clearResp (.begin (.write a v) .regDone)
  | writeRegEnd (a : Addr7) (v : Byte) (rx : List Byte) (hp : s.point = .regDone) (ha : Answered rx s) :
    Turn s (.writeReg a v) s.taken .succeed
  | readRegBegin (a : Addr7) (h : Checked (.readReg a) s) : Turn s (.readReg a) s.clearResp (.begin (.read a) .regDone)
  | readRegEnd (a : Addr7) (rx : List Byte) (hp : s.point = .regDone) (ha : Answered rx s) :
    Turn s (.readReg a)
      (((s.taken.setResult ((readResult rx).setWidth 32)).putResp 0 (readResult rx)).setRespLen 1) .succeed
  | readRegsNone (a : Addr7) (n : Byte) (h : Checked (.readRegs a n) s) (hn : n.toNat = 0) :
    Turn s (.readRegs a n) s.clearResp .succeed
  | readRegsBegin (a : Addr7) (n : Byte) (h : Checked (.readRegs a n) s) (hn : n.toNat ≠ 0) :
    Turn s (.readRegs a n) ((s.clearResp.setRrOut []).setRrIndex 0) (.begin (.read (a + BitVec.ofNat 7 0)) .regsRead)
  | readRegsMore (a : Addr7) (n : Byte) (rx : List Byte) (hp : s.point = .regsRead) (ha : Answered rx s)
      (hn : s.rrIndex.toNat + 1 < n.toNat) :
    Turn s (.readRegs a n) ((s.taken.storeRead (readResult rx)).nextRead (readResult rx))
      (.begin (s.nextReadFrame a) .regsRead)
  | readRegsEnd (a : Addr7) (n : Byte) (rx : List Byte) (hp : s.point = .regsRead) (ha : Answered rx s)
      (hn : ¬s.rrIndex.toNat + 1 < n.toNat) :
    Turn s (.readRegs a n) ((s.taken.storeRead (readResult rx)).setRrOut (s.rrOut ++ [readResult rx])) .succeed
  | burstXferBegin (c l : Byte) (h : Checked (.burstXfer c l) s) :
    Turn s (.burstXfer c l) s.clearResp (.begin (Frame.ofBurst c l) .regDone)
  | burstXferEnd (c l : Byte) (rx : List Byte) (hp : s.point = .regDone) (ha : Answered rx s) :
    Turn s (.burstXfer c l) (s.taken.fillResp (l.toNat + 1) rx) .succeed
  | playSeqBegin (seg : BitVec 4) (u : State) (a : Act) (h : Checked (.playSeq seg) s) (hw : Word1 (s.setSeq seg 0) u a) :
    Turn s (.playSeq seg) u a
  | playSeqEmpty (seg : BitVec 4) (h : Checked (.playSeq seg) s) (hw : (s.setSeq seg 0).stepWord = none) :
    Turn s (.playSeq seg) (s.setSeq seg 0) .succeed
  | playSeqMore (seg : BitVec 4) (s' u : State) (a : Act) (h : Resumed s s') (hw : Word1 s' u a) : Turn s (.playSeq seg) u a
  | playSeqEnd (seg : BitVec 4) (s' : State) (h : Resumed s s') (hw : s'.stepWord = none) :
    Turn s (.playSeq seg) s' .succeed
  | bringUpFailed (v : Variant) (c : Bool) (hp : transactionPoint s.point = true)
      (ho : ownPoint (.bringUp v) s.point = true) (h : s.tx.phase = .ended (.failed c)) :
    Turn s (.bringUp v) s.taken.markFailed (.raise .transport (s.txInfo c))
  | bringUpBegin (v : Variant) (h : Checked (.bringUp v) s) :
    Turn s (.bringUp v) (bringUpRegs v s) (.begin (.write Config.resetReg Config.resetCmd) .resetWritten)
  | resetWritten (v : Variant) (rx : List Byte) (hp : s.point = .resetWritten) (ha : Answered rx s) :
    Turn s (.bringUp v) (s.taken.setPhase .resetWait) (.sleep Config.resetWaitMs .resetWaited)
  | resetWaited (v : Variant) (hp : s.point = .resetWaited) :
    Turn s (.bringUp v) (((s.setPhase .flush).setRrOut []).setRrIndex 0)
      (.begin (.read (Config.flushReg + BitVec.ofNat 7 0)) .flushRead)
  | flushMore (v : Variant) (rx : List Byte) (hp : s.point = .flushRead) (ha : Answered rx s)
      (hn : s.rrIndex.toNat + 1 < Config.flushCount) :
    Turn s (.bringUp v) (s.taken.nextRead (readResult rx)) (.begin (s.nextReadFrame Config.flushReg) .flushRead)
  | flushEnd (v : Variant) (rx : List Byte) (u : State) (a : Act) (hp : s.point = .flushRead) (ha : Answered rx s)
      (hn : ¬s.rrIndex.toNat + 1 < Config.flushCount)
      (h : Enter v .prologue (s.taken.setRrOut (s.rrOut ++ [readResult rx])) u a) : Turn s (.bringUp v) u a
  | segmentMore (v : Variant) (s' u : State) (a : Act) (h : Resumed s s') (hw : Word1 s' u a) : Turn s (.bringUp v) u a
  | segmentEnd (v : Variant) (s' u : State) (a : Act) (h : Resumed s s') (hw : s'.stepWord = none)
      (ha : After v s' s.cal.phase u a) : Turn s (.bringUp v) u a
  | diagRead (v : Variant) (rx : List Byte) (hp : s.point = .diagRead) (ha : Answered rx s) :
    Turn s (.bringUp v)
      (s.taken.setCal { s.cal with diagByte := readResult rx, aBit7 := bitAt (readResult rx) 7, aDone := true })
      (.begin (.write (s.cfg.regs v).cfg (if bitAt (readResult rx) 7 then Config.cfgIfBit7 else Config.cfgIfNotBit7))
        .cfgWritten)
  | cfgWritten (v : Variant) (rx : List Byte) (u : State) (a : Act) (hp : s.point = .cfgWritten) (ha : Answered rx s)
      (h : Enter v .mid s.taken u a) : Turn s (.bringUp v) u a
  | statTaken (v : Variant) (rx : List Byte) (hp : s.point = .statRead) (ha : Answered rx s) (hb : readResult rx = 0) :
    Turn s (.bringUp v) (s.taken.setCal { s.cal with bstatByte := readResult rx, bDone := true, bTaken := true })
      (.begin (.read (s.cfg.regs v).c1) .c1Read)
  | statNotTaken (v : Variant) (rx : List Byte) (u : State) (a : Act) (hp : s.point = .statRead) (ha : Answered rx s)
      (hb : readResult rx ≠ 0)
      (h : Enter v .tail (s.taken.setCal { s.cal with bstatByte := readResult rx, bDone := true, bTaken := false }) u a) :
    Turn s (.bringUp v) u a
  | c1Read (v : Variant) (rx : List Byte) (hp : s.point = .c1Read) (ha : Answered rx s) :
    Turn s (.bringUp v) (s.taken.setCalVals { s.calVals with c1Raw := readResult rx })
      (.begin (.read (s.cfg.regs v).c2) .c2Read)
  | c2Read (v : Variant) (rx : List Byte) (u : State) (a : Act) (hp : s.point = .c2Read) (ha : Answered rx s)
      (h : Enter v .sub (adjustRegs (readResult rx) s.taken) u a) : Turn s (.bringUp v) u a
  | c1Written (v : Variant) (rx : List Byte) (hp : s.point = .c1Written) (ha : Answered rx s) :
    Turn s (.bringUp v) s.taken (.begin (.write (s.cfg.regs v).c2Dst s.calVals.c2Adj) .c2Written)
  | c2Written (v : Variant) (rx : List Byte) (u : State) (a : Act) (hp : s.point = .c2Written) (ha : Answered rx s)
      (h : Enter v .tail s.taken u a) : Turn s (.bringUp v) u a
  | idMore (v : Variant) (rx : List Byte) (hp : s.point = .idRead) (ha : Answered rx s)
      (hn : s.rrIndex.toNat + 1 < Config.idCount) :
    Turn s (.bringUp v) (s.taken.nextRead (readResult rx)) (.begin (s.nextReadFrame Config.idReg) .idRead)
  | idMatch (v : Variant) (rx : List Byte) (p r : Byte) (hp : s.point = .idRead) (ha : Answered rx s)
      (hn : ¬s.rrIndex.toNat + 1 < Config.idCount) (h0 : p = byteAt (s.rrOut ++ [readResult rx]) 0)
      (h1 : r = byteAt (s.rrOut ++ [readResult rx]) 1) (hi : identityOk p r = true) :
    Turn s (.bringUp v)
      (((s.taken.setRrOut (s.rrOut ++ [readResult rx])).setDev
        { s.dev with state := .ready, productId := p, revisionId := r, idValid := true }).setPhase .done) .succeed
  | idMismatch (v : Variant) (rx : List Byte) (p r : Byte) (hp : s.point = .idRead) (ha : Answered rx s)
      (hn : ¬s.rrIndex.toNat + 1 < Config.idCount) (h0 : p = byteAt (s.rrOut ++ [readResult rx]) 0)
      (h1 : r = byteAt (s.rrOut ++ [readResult rx]) 1) (hi : identityOk p r = false) :
    Turn s (.bringUp v)
      ((s.taken.setRrOut (s.rrOut ++ [readResult rx])).setDev
        { s.dev with productId := p, revisionId := r, idValid := true }).markFailed
      (.raise .identityMismatch (identityInfo p r))
  | burstReadBegin (t : BitVec 24) (h : Checked (.burstRead t) s) :
    Turn s (.burstRead t) (s.setLoopId .burstRead) (.now .loopT0Read)
  | burstReadT0 (t : BitVec 24) (hp : s.point = .loopT0Read) : Turn s (.burstRead t) s.takeT0 (.now .deadlineRead)
  | burstReadClock (t : BitVec 24) (hp : s.point = .checkDeadline) : Turn s (.burstRead t) s (.now .deadlineRead)
  | burstReadLate (t : BitVec 24) (hp : s.point = .deadlineRead) (h : expired s.env.clock s.t0 t.toNat = true) :
    Turn s (.burstRead t) s (.raise .timeout (timeoutInfo .burstRead 0))
  | burstReadTry (t : BitVec 24) (hp : s.point = .deadlineRead) (h : expired s.env.clock s.t0 t.toNat = false) :
    Turn s (.burstRead t) s.clearResp (.begin .motionBurst .burstRead)
  | burstReadValid (t : BitVec 24) (rx : List Byte) (x : Sample) (hp : s.point = .burstRead) (ha : Answered rx s)
      (hx : x = parseBurst s.cfg.burstLayout rx) (h : x.valid = true) :
    Turn s (.burstRead t)
      (((s.taken.fillResp (Config.burstPayload + 1) rx).setSample x).setResult (deltasWord x.deltaX x.deltaY)) .succeed
  | burstReadInvalid (t : BitVec 24) (rx : List Byte) (x : Sample) (hp : s.point = .burstRead) (ha : Answered rx s)
      (hx : x = parseBurst s.cfg.burstLayout rx) (h : x.valid = false) :
    Turn s (.burstRead t) ((s.taken.fillResp (Config.burstPayload + 1) rx).setSample x)
      (.sleep s.cfg.retrySleepMs .checkDeadline)
  | slowReadBegin (t : BitVec 24) (h : Checked (.slowRead t) s) :
    Turn s (.slowRead t) (s.setLoopId .slowRead) (.now .loopT0Read)
  | slowReadT0 (t : BitVec 24) (hp : s.point = .loopT0Read) : Turn s (.slowRead t) s.takeT0 (.now .deadlineRead)
  | slowReadClock (t : BitVec 24) (hp : s.point = .checkDeadline) : Turn s (.slowRead t) s (.now .deadlineRead)
  | slowReadLate (t : BitVec 24) (hp : s.point = .deadlineRead) (h : expired s.env.clock s.t0 t.toNat = true) :
    Turn s (.slowRead t) s (.raise .timeout (timeoutInfo .slowRead 0))
  | slowReadTry (t : BitVec 24) (hp : s.point = .deadlineRead) (h : expired s.env.clock s.t0 t.toNat = false) :
    Turn s (.slowRead t) ((s.clearResp.setRrOut []).setRrIndex 0)
      (.begin (.read (Config.dataReadyReg + BitVec.ofNat 7 0)) .regsRead)
  | slowReadMore (t : BitVec 24) (rx : List Byte) (hp : s.point = .regsRead) (ha : Answered rx s)
      (hn : s.rrIndex.toNat + 1 < Config.slowCount) :
    Turn s (.slowRead t) ((s.taken.storeRead (readResult rx)).nextRead (readResult rx))
      (.begin (s.nextReadFrame Config.dataReadyReg) .regsRead)
  | slowReadReady (t : BitVec 24) (rx : List Byte) (u : State) (hp : s.point = .regsRead) (ha : Answered rx s)
      (hn : ¬s.rrIndex.toNat + 1 < Config.slowCount)
      (hu : u = (s.taken.storeRead (readResult rx)).setRrOut (s.rrOut ++ [readResult rx]))
      (h : slowReady (u.respByte 0) = true) :
    Turn s (.slowRead t)
      (u.setResult (slowReadWord (u.respByte 1) (u.respByte 2) (u.respByte 3) (u.respByte 4))) .succeed
  | slowReadNotReady (t : BitVec 24) (rx : List Byte) (u : State) (hp : s.point = .regsRead) (ha : Answered rx s)
      (hn : ¬s.rrIndex.toNat + 1 < Config.slowCount)
      (hu : u = (s.taken.storeRead (readResult rx)).setRrOut (s.rrOut ++ [readResult rx]))
      (h : slowReady (u.respByte 0) = false) :
    Turn s (.slowRead t) u (.sleep s.cfg.retrySleepMs .checkDeadline)
  | setOrientationBegin (x y z : Bool) (h : Checked (.setOrientation x y z) s) :
    Turn s (.setOrientation x y z) s (.begin (.write Config.orientationReg (orientByte x y z)) .regDone)
  | setOrientationEnd (x y z : Bool) (rx : List Byte) (hp : s.point = .regDone) (ha : Answered rx s) :
    Turn s (.setOrientation x y z) (s.taken.recordOrient (orientByte x y z)) .succeed
  | setRotationBegin (d : BitVec 9) (h : Checked (.setRotation d) s) :
    Turn s (.setRotation d) s (.begin (.write Config.orientationReg (rotationOperand s.cfg d)) .regDone)
  | setRotationEnd (d : BitVec 9) (rx : List Byte) (hp : s.point = .regDone) (ha : Answered rx s) :
    Turn s (.setRotation d) (s.taken.recordOrient (rotationOperand s.cfg d)) .succeed
  | captureFailed (t : BitVec 24) (c : Bool) (hp : transactionPoint s.point = true)
      (ho : ownPoint (.frameCapture t) s.point = true) (h : s.tx.phase = .ended (.failed c)) :
    Turn s (.frameCapture t) (s.taken.setFcState .aborted) (.raise .transport (s.txInfo c))
  | captureBegin (t : BitVec 24) (u : State) (a : Act) (h : Checked (.frameCapture t) s)
      (hw : Word1 ((s.setFc FcStatus.configured).setSeq precaptureSegment 0) u a) : Turn s (.frameCapture t) u a
  | captureEmpty (t : BitVec 24) (h : Checked (.frameCapture t) s)
      (hw : ((s.setFc FcStatus.configured).setSeq precaptureSegment 0).stepWord = none) :
    Turn s (.frameCapture t) ((s.setFc FcStatus.configured).setSeq precaptureSegment 0)
      (.sleep Config.precaptureWaitMs .captureWaited)
  | captureMore (t : BitVec 24) (s' u : State) (a : Act) (h : Resumed s s') (hw : Word1 s' u a) : Turn s (.frameCapture t) u a
  | captureSettle (t : BitVec 24) (s' : State) (h : Resumed s s') (hw : s'.stepWord = none) :
    Turn s (.frameCapture t) s' (.sleep Config.precaptureWaitMs .captureWaited)
  | captureWaited (t : BitVec 24) (hp : s.point = .captureWaited) :
    Turn s (.frameCapture t) ((s.setFcState .waitingForGrabReady).setLoopId .captureInit) (.now .initT0Read)
  | initT0 (t : BitVec 24) (hp : s.point = .initT0Read) :
    Turn s (.frameCapture t) s.takeT0 (.begin (.read Config.grabStatusReg) .grabRead)
  | pollGrab (t : BitVec 24) (hp : s.point = .pollGrab) :
    Turn s (.frameCapture t) s (.begin (.read Config.grabStatusReg) .grabRead)
  | grabReady (t : BitVec 24) (rx : List Byte) (hp : s.point = .grabRead) (ha : Answered rx s)
      (h : grabReady (readResult rx) = true) :
    Turn s (.frameCapture t) (s.taken.setFc { s.fc with lastGrabStatus := readResult rx })
      (.begin (.write Config.grabReg Config.grabTriggerVal) .triggerWritten)
  | grabNotReady (t : BitVec 24) (rx : List Byte) (hp : s.point = .grabRead) (ha : Answered rx s)
      (h : Sys2Proof.Machine.grabReady (readResult rx) = false) :
    Turn s (.frameCapture t) (s.taken.setFc { s.fc with lastGrabStatus := readResult rx }) (.now .initClockRead)
  | initLate (t : BitVec 24) (hp : s.point = .initClockRead) (h : expired s.env.clock s.t0 t.toNat = true) :
    Turn s (.frameCapture t) (s.setFc { s.fc with state := .timedOut, initTimeout := true })
      (.raise .timeout (timeoutInfo .captureInit 0))
  | initSleep (t : BitVec 24) (hp : s.point = .initClockRead) (h : expired s.env.clock s.t0 t.toNat = false)
      (hs : s.cfg.framePollSleepMs > 0) : Turn s (.frameCapture t) s (.sleep s.cfg.framePollSleepMs .pollGrab)
  | initAgain (t : BitVec 24) (hp : s.point = .initClockRead) (h : expired s.env.clock s.t0 t.toNat = false)
      (hs : ¬s.cfg.framePollSleepMs > 0) : Turn s (.frameCapture t) s (.begin (.read Config.grabStatusReg) .grabRead)
  | triggerWritten (t : BitVec 24) (rx : List Byte) (hp : s.point = .triggerWritten) (ha : Answered rx s) :
    Turn s (.frameCapture t)
      ((s.taken.setFcState .streaming).clearPixels.setLoopId .captureStream) (.now .streamT0Read)
  | streamT0 (t : BitVec 24) (hp : s.point = .streamT0Read) :
    Turn s (.frameCapture t) s.takeT0 (.begin (.read Config.grabReg) .fragmentRead)
  | pollStream (t : BitVec 24) (hp : s.point = .pollStream) :
    Turn s (.frameCapture t) s (.begin (.read Config.grabReg) .fragmentRead)
  | captureComplete (t : BitVec 24) (rx : List Byte) (u : State) (hp : s.point = .fragmentRead) (ha : Answered rx s)
      (hu : u = fragmentRegs (readResult rx) s.taken) (h : u.fc.pixelCount = Config.framePixels) :
    Turn s (.frameCapture t) (u.setFcState .complete) .succeed
  | captureGoesOn (t : BitVec 24) (rx : List Byte) (u : State) (hp : s.point = .fragmentRead) (ha : Answered rx s)
      (hu : u = fragmentRegs (readResult rx) s.taken) (h : u.fc.pixelCount ≠ Config.framePixels) :
    Turn s (.frameCapture t) u (.now .streamClockRead)
  | streamLate (t : BitVec 24) (hp : s.point = .streamClockRead) (h : expired s.env.clock s.t0 t.toNat = true) :
    Turn s (.frameCapture t) (s.setFcState .timedOut) (.raise .timeout (timeoutInfo .captureStream s.fc.pixelCount))
  | streamSleep (t : BitVec 24) (hp : s.point = .streamClockRead) (h : expired s.env.clock s.t0 t.toNat = false)
      (hs : s.cfg.framePollSleepMs > 0) : Turn s (.frameCapture t) s (.sleep s.cfg.framePollSleepMs .pollStream)
  | streamAgain (t : BitVec 24) (hp : s.point = .streamClockRead) (h : expired s.env.clock s.t0 t.toNat = false)
      (hs : ¬s.cfg.framePollSleepMs > 0) : Turn s (.frameCapture t) s (.begin (.read Config.grabReg) .fragmentRead)

/-! ### Every step of a command is a turn -/

theorem State.gate_next {i : Instr} {s t : State} {k : State → Result} (hp : s.point = .start) (h : s.gate i k = .next t) :
    (∃ u a, Turn s i u a ∧ t = a.apply u) ∨ (Checked i s ∧ k s = .next t) := by
  unfold State.gate at h
  split at h
  · split at h
    · exact .inr ⟨⟨hp, ‹_›, ‹_›⟩, h⟩
    · cases h
      exact .inl ⟨_, _, .argError i hp ‹_› (eq_false_of_ne_true ‹_›), rfl⟩
  · cases h
    exact .inl ⟨_, _, .stateError i hp (eq_false_of_ne_true ‹_›), rfl⟩

theorem StepRun.word1 {s t : State} (h : StepRun s t) : ∃ u a, Word1 s u a ∧ t = a.apply u := by
  rcases h with ⟨f, g, hw, rfl⟩ | ⟨g, hw, rfl⟩
  · exact ⟨_, _, .write f g hw, rfl⟩
  · exact ⟨_, _, .wait g hw, rfl⟩

theorem State.playResume_next {s t : State} {fail : Word → State → Result} {done : State → Result}
    (h : s.playResume fail done = .next t) :
    (∃ s', Resumed s s' ∧ s'.stepWord = none ∧ done s' = .next t) ∨ (∃ s' u a, Resumed s s' ∧ Word1 s' u a ∧ t = a.apply u)
      ∨ ∃ c, s.point = .stepWritten ∧ s.tx.phase = .ended (.failed c) ∧ fail (s.txInfo c) s.taken = .next t := by
  unfold State.playResume at h
  split at h
  · rcases State.playNext_next h with ⟨h1, h2⟩ | h1
    · exact .inl ⟨_, .waited ‹_›, h1, h2⟩
    · obtain ⟨u, a, h2, h3⟩ := h1.word1
      exact .inr (.inl ⟨_, u, a, .waited ‹_›, h2, h3⟩)
  · rcases State.onTx_next h with ⟨rx, ha, h⟩ | ⟨c, hc, h⟩
    · rcases State.playNext_next h with ⟨h1, h2⟩ | h1
      · exact .inl ⟨_, .written rx ‹_› ha, h1, h2⟩
      · obtain ⟨u, a, h2, h3⟩ := h1.word1
        exact .inr (.inl ⟨_, u, a, .written rx ‹_› ha, h2, h3⟩)
    · exact .inr (.inr ⟨c, ‹_›, hc, h⟩)
  · cases h

theorem identityCheck_next {s t : State} (h : identityCheck s = .next t) :
    t = (Act.begin (.read (Config.idReg + BitVec.ofNat 7 0)) .idRead).apply s.toIdentity := by
  cases h
  rfl

theorem setPhase_setSeq (v : Variant) (p : BuPhase) (s : State) (k : Nat) (hk : partNumber p = k) :
    (s.setPhase p).setSeq (partSegment v k) 0 = atPart v p s := by
  subst hk
  rfl

theorem trailerPart_next {v : Variant} {s t : State} (h : trailerPart v s = .next t) :
    ∃ u a, Trailer v s u a ∧ t = a.apply u := by
  unfold trailerPart State.play at h
  rw [setPhase_setSeq v .trailer s 4 rfl] at h
  rcases State.playNext_next h with ⟨h1, h2⟩ | h1
  · exact ⟨_, _, .empty h1, identityCheck_next h2⟩
  · obtain ⟨u, a, h2, h3⟩ := h1.word1
    exact ⟨u, a, .word u a h2, h3⟩

/-- A segment is entered, given what comes after it. -/
theorem enter_next {v : Variant} {p : BuPhase} {s t : State} {done : State → Result} (k : Nat) (hk : partNumber p = k)
    (hd : ∀ {s t : State}, done s = .next t → ∃ u a, After v s p u a ∧ t = a.apply u)
    (h : (s.setPhase p).play (partSegment v k) done = .next t) : ∃ u a, Enter v p s u a ∧ t = a.apply u := by
  unfold State.play at h
  rw [setPhase_setSeq v p s k hk] at h
  rcases State.playNext_next h with ⟨h1, h2⟩ | h1
  · obtain ⟨u, a, h3, h4⟩ := hd h2
    exact ⟨u, a, .empty u a h1 h3, h4⟩
  · obtain ⟨u, a, h2, h3⟩ := h1.word1
    exact ⟨u, a, .word u a h2, h3⟩

theorem tailPart_next {v : Variant} {s t : State} (h : tailPart v s = .next t) :
    ∃ u a, Enter v .tail s u a ∧ t = a.apply u :=
  enter_next 3 rfl (fun h => by
    obtain ⟨u, a, h1, h2⟩ := trailerPart_next h
    exact ⟨u, a, .tail u a h1, h2⟩) h

theorem subPart_next {v : Variant} {s t : State} (h : subPart v s = .next t) :
    ∃ u a, Enter v .sub s u a ∧ t = a.apply u :=
  enter_next 2 rfl (fun h => by cases h; exact ⟨_, _, .sub, rfl⟩) h

theorem midPart_next {v : Variant} {s t : State} (h : midPart v s = .next t) :
    ∃ u a, Enter v .mid s u a ∧ t = a.apply u :=
  enter_next 1 rfl (fun h => by cases h; exact ⟨_, _, .mid, rfl⟩) h

theorem prologuePart_next {v : Variant} {s t : State} (h : prologuePart v s = .next t) :
    ∃ u a, Enter v .prologue s u a ∧ t = a.apply u :=
  enter_next 0 rfl (fun h => by cases h; exact ⟨_, _, .prologue, rfl⟩) h

theorem afterSegment_next {v : Variant} {s t : State} (h : afterSegment v s = .next t) :
    ∃ u a, After v s s.cal.phase u a ∧ t = a.apply u := by
  unfold afterSegment at h
  split at h
  · cases h; rename_i hp; rw [hp]; exact ⟨_, _, .prologue, rfl⟩
  · cases h; rename_i hp; rw [hp]; exact ⟨_, _, .mid, rfl⟩
  · cases h; rename_i hp; rw [hp]; exact ⟨_, _, .sub, rfl⟩
  · rename_i hp; rw [hp]
    obtain ⟨u, a, h1, h2⟩ := trailerPart_next h
    exact ⟨u, a, .tail u a h1, h2⟩
  · rename_i hp; rw [hp]; exact ⟨_, _, .trailer, identityCheck_next h⟩
  · cases h

theorem resumed_phase {s s' : State} (h : Resumed s s') : s'.cal = s.cal := by cases h <;> rfl

theorem writeReg_turn {a : Addr7} {v : Byte} {s t : State} (h : execWriteReg a v s = .next t) :
    ∃ u b, Turn s (.writeReg a v) u b ∧ t = b.apply u := by
  unfold execWriteReg at h
  split at h
  · rcases State.gate_next ‹_› h with h | ⟨hc, h⟩
    · exact h
    · cases h; exact ⟨_, _, .writeRegBegin a v hc, rfl⟩
  · rename_i hp
    rcases State.onTx_next h with ⟨rx, ha, h⟩ | ⟨c, hc, h⟩ <;> cases h
    · exact ⟨_, _, .writeRegEnd a v rx hp ha, rfl⟩
    · exact ⟨_, _, .plainFailed _ c (by simp [plainPoint, hp]) hc, rfl⟩
  · cases h

theorem readReg_turn {a : Addr7} {s t : State} (h : execReadReg a s = .next t) :
    ∃ u b, Turn s (.readReg a) u b ∧ t = b.apply u := by
  unfold execReadReg at h
  split at h
  · rcases State.gate_next ‹_› h with h | ⟨hc, h⟩
    · exact h
    · cases h; exact ⟨_, _, .readRegBegin a hc, rfl⟩
  · rename_i hp
    rcases State.onTx_next h with ⟨rx, ha, h⟩ | ⟨c, hc, h⟩ <;> cases h
    · exact ⟨_, _, .readRegEnd a rx hp ha, rfl⟩
    · exact ⟨_, _, .plainFailed _ c (by simp [plainPoint, hp]) hc, rfl⟩
  · cases h

theorem storeRead_taken_rrIndex (b : Byte) (s : State) : (s.taken.storeRead b).rrIndex = s.rrIndex := by simp
theorem storeRead_taken_rrOut (b : Byte) (s : State) : (s.taken.storeRead b).rrOut = s.rrOut := by simp

theorem readRegs_turn {a : Addr7} {n : Byte} {s t : State} (h : execReadRegs a n s = .next t) :
    ∃ u b, Turn s (.readRegs a n) u b ∧ t = b.apply u := by
  unfold execReadRegs at h
  split at h
  · rcases State.gate_next ‹_› h with h | ⟨hc, h⟩
    · exact h
    · split at h <;> cases h
      · exact ⟨_, _, .readRegsNone a n hc ‹_›, rfl⟩
      · exact ⟨_, _, .readRegsBegin a n hc ‹_›, rfl⟩
  · rename_i hp
    rcases State.onTx_next h with ⟨rx, ha, h⟩ | ⟨c, hc, h⟩
    · unfold State.readRegsNext at h
      rw [storeRead_taken_rrIndex, storeRead_taken_rrOut] at h
      split at h <;> cases h
      · refine ⟨_, _, .readRegsMore a n rx hp ha ‹_›, ?_⟩
        rw [State.nextRead, storeRead_taken_rrIndex, storeRead_taken_rrOut]
        rfl
      · exact ⟨_, _, .readRegsEnd a n rx hp ha ‹_›, rfl⟩
    · cases h
      exact ⟨_, _, .plainFailed _ c (by simp [plainPoint, hp]) hc, rfl⟩
  · cases h

theorem burstXfer_turn {c l : Byte} {s t : State} (h : execBurstXfer c l s = .next t) :
    ∃ u b, Turn s (.burstXfer c l) u b ∧ t = b.apply u := by
  unfold execBurstXfer at h
  split at h
  · rcases State.gate_next ‹_› h with h | ⟨hc, h⟩
    · exact h
    · cases h; exact ⟨_, _, .burstXferBegin c l hc, rfl⟩
  · rename_i hp
    rcases State.onTx_next h with ⟨rx, ha, h⟩ | ⟨c, hc, h⟩ <;> cases h
    · exact ⟨_, _, .burstXferEnd _ l rx hp ha, rfl⟩
    · exact ⟨_, _, .plainFailed _ c (by simp [plainPoint, hp]) hc, rfl⟩
  · cases h

theorem playSeq_resume {seg : BitVec 4} {s t : State}
    (h : s.playResume State.raiseTransport (fun s => .next s.succeed) = .next t) :
    ∃ u b, Turn s (.playSeq seg) u b ∧ t = b.apply u := by
  rcases State.playResume_next h with ⟨s', h1, h2, h⟩ | ⟨s', u, a, h1, h2, h⟩ | ⟨c, hp, hc, h⟩
  · cases h; exact ⟨_, _, .playSeqEnd seg s' h1 h2, rfl⟩
  · exact ⟨_, _, .playSeqMore seg s' u a h1 h2, h⟩
  · cases h
    exact ⟨_, _, .plainFailed _ c (by simp [plainPoint, hp]) hc, rfl⟩

theorem playSeq_turn {seg : BitVec 4} {s t : State} (h : execPlaySeq seg s = .next t) :
    ∃ u b, Turn s (.playSeq seg) u b ∧ t = b.apply u := by
  unfold execPlaySeq at h
  split at h
  · rcases State.gate_next ‹_› h with h | ⟨hc, h⟩
    · exact h
    · rcases State.playNext_next h with ⟨h1, h⟩ | h1
      · cases h; exact ⟨_, _, .playSeqEmpty seg hc h1, rfl⟩
      · obtain ⟨u, a, h2, h3⟩ := h1.word1
        exact ⟨_, _, .playSeqBegin seg u a hc h2, h3⟩
  · exact playSeq_resume h
  · exact playSeq_resume h
  · cases h

/-- BRING_UP takes the result of its transaction. -/
theorem bringUp_onTx {v : Variant} {s t : State} {k : List Byte → State → Result} (hp : transactionPoint s.point = true)
    (ho : ownPoint (.bringUp v) s.point = true) (h : s.onTx bringUpFail k = .next t) :
    (∃ u b, Turn s (.bringUp v) u b ∧ t = b.apply u) ∨ ∃ rx, Answered rx s ∧ k rx s.taken = .next t := by
  rcases State.onTx_next h with h | ⟨c, hc, h⟩
  · exact .inr h
  · cases h; exact .inl ⟨_, _, .bringUpFailed v c hp ho hc, rfl⟩

theorem bringUp_resume {v : Variant} {s t : State} (h : s.playResume bringUpFail (afterSegment v) = .next t) :
    ∃ u b, Turn s (.bringUp v) u b ∧ t = b.apply u := by
  rcases State.playResume_next h with ⟨s', h1, h2, h⟩ | ⟨s', u, a, h1, h2, h⟩ | ⟨c, hp, hc, h⟩
  · obtain ⟨u, a, h3, h4⟩ := afterSegment_next h
    rw [resumed_phase h1] at h3
    exact ⟨_, _, .segmentEnd v s' u a h1 h2 h3, h4⟩
  · exact ⟨_, _, .segmentMore v s' u a h1 h2, h⟩
  · cases h
    exact ⟨_, _, .bringUpFailed v c (by simp [transactionPoint, hp]) (by simp [ownPoint, hp]) hc, rfl⟩

theorem bringUp_turn {v : Variant} {s t : State} (h : execBringUp v s = .next t) :
    ∃ u b, Turn s (.bringUp v) u b ∧ t = b.apply u := by
  unfold execBringUp at h
  split at h
  · rcases State.gate_next ‹_› h with h | ⟨hc, h⟩
    · exact h
    · cases h; exact ⟨_, _, .bringUpBegin v hc, rfl⟩
  · rename_i hp
    rcases bringUp_onTx (v := v) (by simp [transactionPoint, hp]) (by simp [ownPoint, hp]) h with h | ⟨rx, ha, h⟩
    · exact h
    · cases h; exact ⟨_, _, .resetWritten v rx hp ha, rfl⟩
  · rename_i hp; cases h; exact ⟨_, _, .resetWaited v hp, rfl⟩
  · rename_i hp
    rcases bringUp_onTx (v := v) (by simp [transactionPoint, hp]) (by simp [ownPoint, hp]) h with h | ⟨rx, ha, h⟩
    · exact h
    · unfold State.readRegsNext at h
      split at h
      · cases h; exact ⟨_, _, .flushMore v rx hp ha ‹_›, rfl⟩
      · obtain ⟨u, a, h1, h2⟩ := prologuePart_next h
        exact ⟨_, _, .flushEnd v rx u a hp ha ‹_› h1, h2⟩
  · exact bringUp_resume h
  · exact bringUp_resume h
  · rename_i hp
    rcases bringUp_onTx (v := v) (by simp [transactionPoint, hp]) (by simp [ownPoint, hp]) h with h | ⟨rx, ha, h⟩
    · exact h
    · cases h; exact ⟨_, _, .diagRead v rx hp ha, rfl⟩
  · rename_i hp
    rcases bringUp_onTx (v := v) (by simp [transactionPoint, hp]) (by simp [ownPoint, hp]) h with h | ⟨rx, ha, h⟩
    · exact h
    · obtain ⟨u, a, h1, h2⟩ := midPart_next h
      exact ⟨_, _, .cfgWritten v rx u a hp ha h1, h2⟩
  · rename_i hp
    rcases bringUp_onTx (v := v) (by simp [transactionPoint, hp]) (by simp [ownPoint, hp]) h with h | ⟨rx, ha, h⟩
    · exact h
    · simp only [statVerdict] at h
      split at h
      · rename_i h0
        cases h
        exact ⟨_, _, .statTaken v rx hp ha h0, by rw [h0]; rfl⟩
      · rename_i h0
        have h1 : (readResult rx == 0) = false := by simpa using h0
        rw [h1] at h
        obtain ⟨u, a, h2, h3⟩ := tailPart_next h
        exact ⟨_, _, .statNotTaken v rx u a hp ha h0 h2, h3⟩
  · rename_i hp
    rcases bringUp_onTx (v := v) (by simp [transactionPoint, hp]) (by simp [ownPoint, hp]) h with h | ⟨rx, ha, h⟩
    · exact h
    · cases h; exact ⟨_, _, .c1Read v rx hp ha, rfl⟩
  · rename_i hp
    rcases bringUp_onTx (v := v) (by simp [transactionPoint, hp]) (by simp [ownPoint, hp]) h with h | ⟨rx, ha, h⟩
    · exact h
    · obtain ⟨u, a, h1, h2⟩ := subPart_next h
      exact ⟨_, _, .c2Read v rx u a hp ha h1, h2⟩
  · rename_i hp
    rcases bringUp_onTx (v := v) (by simp [transactionPoint, hp]) (by simp [ownPoint, hp]) h with h | ⟨rx, ha, h⟩
    · exact h
    · cases h; exact ⟨_, _, .c1Written v rx hp ha, rfl⟩
  · rename_i hp
    rcases bringUp_onTx (v := v) (by simp [transactionPoint, hp]) (by simp [ownPoint, hp]) h with h | ⟨rx, ha, h⟩
    · exact h
    · obtain ⟨u, a, h1, h2⟩ := tailPart_next h
      exact ⟨_, _, .c2Written v rx u a hp ha h1, h2⟩
  · rename_i hp
    rcases bringUp_onTx (v := v) (by simp [transactionPoint, hp]) (by simp [ownPoint, hp]) h with h | ⟨rx, ha, h⟩
    · exact h
    · unfold State.readRegsNext at h
      split at h
      · cases h; exact ⟨_, _, .idMore v rx hp ha ‹_›, rfl⟩
      · simp only [identityVerdict] at h
        split at h
        · cases h
          exact ⟨_, _, .idMatch v rx _ _ hp ha ‹_› rfl rfl ‹_›, rfl⟩
        · cases h
          exact ⟨_, _, .idMismatch v rx _ _ hp ha ‹_› rfl rfl (eq_false_of_ne_true ‹_›), rfl⟩
  · cases h

theorem burstRead_turn {T : BitVec 24} {s t : State} (h : execBurstRead T s = .next t) :
    ∃ u b, Turn s (.burstRead T) u b ∧ t = b.apply u := by
  unfold execBurstRead at h
  split at h
  · rcases State.gate_next ‹_› h with h | ⟨hc, h⟩
    · exact h
    · cases h; exact ⟨_, _, .burstReadBegin T hc, rfl⟩
  · cases h; exact ⟨_, _, .burstReadT0 T ‹_›, rfl⟩
  · cases h; exact ⟨_, _, .burstReadClock T ‹_›, rfl⟩
  · split at h <;> cases h
    · exact ⟨_, _, .burstReadLate T ‹_› ‹_›, rfl⟩
    · exact ⟨_, _, .burstReadTry T ‹_› (eq_false_of_ne_true ‹_›), rfl⟩
  · rename_i hp
    rcases State.onTx_next h with ⟨rx, ha, h⟩ | ⟨c, hc, h⟩
    · simp only [burstVerdict] at h
      split at h <;> cases h
      · exact ⟨_, _, .burstReadValid T rx _ hp ha rfl ‹_›, rfl⟩
      · exact ⟨_, _, .burstReadInvalid T rx _ hp ha rfl (eq_false_of_ne_true ‹_›), by
          simp [Act.apply, State.retrySleep]⟩
    · cases h
      exact ⟨_, _, .plainFailed _ c (by simp [plainPoint, hp]) hc, rfl⟩
  · cases h

theorem slowRead_turn {T : BitVec 24} {s t : State} (h : execSlowRead T s = .next t) :
    ∃ u b, Turn s (.slowRead T) u b ∧ t = b.apply u := by
  unfold execSlowRead at h
  split at h
  · rcases State.gate_next ‹_› h with h | ⟨hc, h⟩
    · exact h
    · cases h; exact ⟨_, _, .slowReadBegin T hc, rfl⟩
  · cases h; exact ⟨_, _, .slowReadT0 T ‹_›, rfl⟩
  · cases h; exact ⟨_, _, .slowReadClock T ‹_›, rfl⟩
  · split at h <;> cases h
    · exact ⟨_, _, .slowReadLate T ‹_› ‹_›, rfl⟩
    · exact ⟨_, _, .slowReadTry T ‹_› (eq_false_of_ne_true ‹_›), rfl⟩
  · rename_i hp
    rcases State.onTx_next h with ⟨rx, ha, h⟩ | ⟨c, hc, h⟩
    · unfold State.readRegsNext at h
      rw [storeRead_taken_rrIndex, storeRead_taken_rrOut] at h
      split at h
      · cases h
        refine ⟨_, _, .slowReadMore T rx hp ha ‹_›, ?_⟩
        rw [State.nextRead, storeRead_taken_rrIndex, storeRead_taken_rrOut]
        rfl
      · simp only [slowVerdict] at h
        split at h <;> cases h
        · exact ⟨_, _, .slowReadReady T rx _ hp ha ‹_› rfl ‹_›, rfl⟩
        · exact ⟨_, _, .slowReadNotReady T rx _ hp ha ‹_› rfl (eq_false_of_ne_true ‹_›), by
            simp [Act.apply, State.retrySleep]⟩
    · cases h
      exact ⟨_, _, .plainFailed _ c (by simp [plainPoint, hp]) hc, rfl⟩
  · cases h

theorem setOrientation_turn {x y z : Bool} {s t : State} (h : execSetOrientation x y z s = .next t) :
    ∃ u b, Turn s (.setOrientation x y z) u b ∧ t = b.apply u := by
  unfold execSetOrientation at h
  split at h
  · rcases State.gate_next ‹_› h with h | ⟨hc, h⟩
    · exact h
    · cases h; exact ⟨_, _, .setOrientationBegin x y z hc, rfl⟩
  · rename_i hp
    rcases State.onTx_next h with ⟨rx, ha, h⟩ | ⟨c, hc, h⟩ <;> cases h
    · exact ⟨_, _, .setOrientationEnd x y z rx hp ha, rfl⟩
    · exact ⟨_, _, .plainFailed _ c (by simp [plainPoint, hp]) hc, rfl⟩
  · cases h

theorem setRotation_turn {d : BitVec 9} {s t : State} (h : execSetRotation d s = .next t) :
    ∃ u b, Turn s (.setRotation d) u b ∧ t = b.apply u := by
  unfold execSetRotation at h
  split at h
  · rcases State.gate_next ‹_› h with h | ⟨hc, h⟩
    · exact h
    · cases h; exact ⟨_, _, .setRotationBegin d hc, rfl⟩
  · rename_i hp
    rcases State.onTx_next h with ⟨rx, ha, h⟩ | ⟨c, hc, h⟩ <;> cases h
    · exact ⟨_, _, .setRotationEnd d rx hp ha, rfl⟩
    · exact ⟨_, _, .plainFailed _ c (by simp [plainPoint, hp]) hc, rfl⟩
  · cases h

/-- FRAME_CAPTURE takes the result of its transaction. -/
theorem capture_onTx {T : BitVec 24} {s t : State} {k : List Byte → State → Result} (hp : transactionPoint s.point = true)
    (ho : ownPoint (.frameCapture T) s.point = true) (h : s.onTx captureFail k = .next t) :
    (∃ u b, Turn s (.frameCapture T) u b ∧ t = b.apply u) ∨ ∃ rx, Answered rx s ∧ k rx s.taken = .next t := by
  rcases State.onTx_next h with h | ⟨c, hc, h⟩
  · exact .inr h
  · cases h; exact .inl ⟨_, _, .captureFailed T c hp ho hc, rfl⟩

theorem capture_resume {T : BitVec 24} {s t : State} (h : s.playResume captureFail captureWait = .next t) :
    ∃ u b, Turn s (.frameCapture T) u b ∧ t = b.apply u := by
  rcases State.playResume_next h with ⟨s', h1, h2, h⟩ | ⟨s', u, a, h1, h2, h⟩ | ⟨c, hp, hc, h⟩
  · cases h; exact ⟨_, _, .captureSettle T s' h1 h2, rfl⟩
  · exact ⟨_, _, .captureMore T s' u a h1 h2, h⟩
  · cases h
    exact ⟨_, _, .captureFailed T c (by simp [transactionPoint, hp]) (by simp [ownPoint, hp]) hc, rfl⟩

theorem accumulate_eq (f : Byte) (s : State) : accumulate f s = .next (fragmentRegs f s) := by
  unfold accumulate fragmentRegs
  have h : ∃ x, decodeFragment f = .fragUpper x ∨ decodeFragment f = .fragLower x ∨ decodeFragment f = .fragNone00 x
      ∨ decodeFragment f = .fragNone11 x := by
    unfold decodeFragment
    refine ⟨f.extractLsb' 0 6, ?_⟩
    repeat' split
    all_goals simp
  obtain ⟨x, h | h | h | h⟩ := h <;> rw [h] <;> rfl

theorem frameCapture_turn {T : BitVec 24} {s t : State} (h : execFrameCapture T s = .next t) :
    ∃ u b, Turn s (.frameCapture T) u b ∧ t = b.apply u := by
  unfold execFrameCapture at h
  split at h
  · rcases State.gate_next ‹_› h with h | ⟨hc, h⟩
    · exact h
    · rcases State.playNext_next h with ⟨h1, h⟩ | h1
      · cases h; exact ⟨_, _, .captureEmpty T hc h1, rfl⟩
      · obtain ⟨u, a, h2, h3⟩ := h1.word1
        exact ⟨_, _, .captureBegin T u a hc h2, h3⟩
  · exact capture_resume h
  · exact capture_resume h
  · cases h; exact ⟨_, _, .captureWaited T ‹_›, rfl⟩
  · cases h; exact ⟨_, _, .initT0 T ‹_›, rfl⟩
  · cases h; exact ⟨_, _, .pollGrab T ‹_›, rfl⟩
  · rename_i hp
    rcases capture_onTx (T := T) (by simp [transactionPoint, hp]) (by simp [ownPoint, hp]) h with h | ⟨rx, ha, h⟩
    · exact h
    · simp only [grabVerdict] at h
      split at h <;> cases h
      · exact ⟨_, _, .grabReady T rx hp ha ‹_›, rfl⟩
      · exact ⟨_, _, .grabNotReady T rx hp ha (eq_false_of_ne_true ‹_›), rfl⟩
  · rename_i hp
    unfold initDeadline at h
    split at h
    · cases h; exact ⟨_, _, .initLate T hp ‹_›, rfl⟩
    · rename_i he
      have he : expired s.env.clock s.t0 T.toNat = false := by simpa using he
      simp only [State.pollAgain] at h
      split at h <;> cases h
      · exact ⟨_, _, .initSleep T hp he ‹_›, rfl⟩
      · exact ⟨_, _, .initAgain T hp he ‹_›, rfl⟩
  · rename_i hp
    rcases capture_onTx (T := T) (by simp [transactionPoint, hp]) (by simp [ownPoint, hp]) h with h | ⟨rx, ha, h⟩
    · exact h
    · cases h; exact ⟨_, _, .triggerWritten T rx hp ha, rfl⟩
  · cases h; exact ⟨_, _, .streamT0 T ‹_›, rfl⟩
  · cases h; exact ⟨_, _, .pollStream T ‹_›, rfl⟩
  · rename_i hp
    rcases capture_onTx (T := T) (by simp [transactionPoint, hp]) (by simp [ownPoint, hp]) h with h | ⟨rx, ha, h⟩
    · exact h
    · rw [accumulate_eq] at h
      simp only [onNext, captureAfter] at h
      split at h <;> cases h
      · exact ⟨_, _, .captureComplete T rx _ hp ha rfl ‹_›, rfl⟩
      · exact ⟨_, _, .captureGoesOn T rx _ hp ha rfl ‹_›, rfl⟩
  · rename_i hp
    unfold streamDeadline at h
    split at h
    · cases h; exact ⟨_, _, .streamLate T hp ‹_›, rfl⟩
    · rename_i he
      have he : expired s.env.clock s.t0 T.toNat = false := by simpa using he
      simp only [State.pollAgain] at h
      split at h <;> cases h
      · exact ⟨_, _, .streamSleep T hp he ‹_›, rfl⟩
      · exact ⟨_, _, .streamAgain T hp he ‹_›, rfl⟩
  · cases h

/-- Every step of a command is a turn. -/
theorem exec_turn {i : Instr} {s t : State} (hc : i.isCommand = true) (h : exec i s = .next t) :
    ∃ u b, Turn s i u b ∧ t = b.apply u := by
  cases i with
  | writeReg _ _ => exact writeReg_turn h
  | readReg _ => exact readReg_turn h
  | readRegs _ _ => exact readRegs_turn h
  | burstXfer _ _ => exact burstXfer_turn h
  | playSeq _ => exact playSeq_turn h
  | bringUp _ => exact bringUp_turn h
  | burstRead _ => exact burstRead_turn h
  | slowRead _ => exact slowRead_turn h
  | frameCapture _ => exact frameCapture_turn h
  | setOrientation _ _ _ => exact setOrientation_turn h
  | setRotation _ => exact setRotation_turn h
  | _ => cases hc

/-! ### Every step of the machine -/

/-- One step of the machine. -/
inductive Stepped (s t : State) : Prop
  | boot (hp : s.point = .boot) (ht : t = bootStep s)
  | read (hp : s.point ≠ .boot) (addr : BitVec 12) (n : Nat) (rest : List Input) (hi : s.inputs = .read addr n :: rest)
    (ht : t = (s.setInputs rest).setHostData (hostRead addr n s))
  | write (hp : s.point ≠ .boot) (addr : BitVec 12) (n : Nat) (v : Word) (rest : List Input)
    (hi : s.inputs = .write addr n v :: rest) (ht : t = hostWrite addr n v (s.setInputs rest))
  | reset (hp : s.point ≠ .boot) (rest : List Input) (hi : s.inputs = .reset :: rest)
    (ht : t = (s.setInputs rest).afterReset)
  | wait (hp : s.point = .idle) (hc : ControllerTurn s t)
  | frame (s' : State) (hp : runningPoint s.point = true) (hc : ControllerTurn s s') (hb : s.busBusy = true)
    (ht : t = s'.busEvent s'.tx.frame)
  | illegal (s' : State) (hp : runningPoint s.point = true) (hc : ControllerTurn s s') (hb : s.busBusy = false)
    (hd : ∀ i, decodeCommand s.curCmd ≠ .ok i) (ht : t = illegalEnd s')
  | turn (s' u : State) (i : Instr) (a : Act) (hp : runningPoint s.point = true) (hc : ControllerTurn s s')
    (hb : s.busBusy = false) (hd : decodeCommand s.curCmd = .ok i) (h : Turn s' i u a) (ht : t = a.apply u)

theorem frame_exec (f : Frame) (s : State) : exec f.instr s = .next (s.busEvent f) := by cases f <;> rfl

/-- What the decoder of command words answers is a command. -/
theorem decodeCommand_isCommand {w : Word} {i : Instr} (h : decodeCommand w = .ok i) : i.isCommand = true := by
  have key : ∀ (b : Bool) (j : Instr) (r : Except DecodeError Instr), j.isCommand = true →
      ((if b = true then .ok j else r) = .ok i) → i.isCommand = true ∨ r = .ok i := by
    intro b j r hj h
    cases b
    · exact .inr h
    · cases h; exact .inl hj
  unfold decodeCommand at h
  rcases key _ _ _ rfl h with h | h; · exact h
  rcases key _ _ _ rfl h with h | h; · exact h
  rcases key _ _ _ rfl h with h | h; · exact h
  rcases key _ _ _ rfl h with h | h; · exact h
  rcases key _ _ _ rfl h with h | h; · exact h
  rcases key _ _ _ rfl h with h | h; · exact h
  rcases key _ _ _ rfl h with h | h; · exact h
  rcases key _ _ _ rfl h with h | h; · exact h
  rcases key _ _ _ rfl h with h | h; · exact h
  rcases key _ _ _ rfl h with h | h; · exact h
  rcases key _ _ _ rfl h with h | h; · exact h
  by_cases hc : 1 ≤ (w.extractLsb' 28 4).toNat ∧ (w.extractLsb' 28 4).toNat ≤ 0xB
  · rw [if_pos hc] at h; cases h
  · rw [if_neg hc] at h; cases h

theorem control_next {s s' t : State} (hb : s.point ≠ .boot) (hc : ControllerTurn s s')
    (h : Sys2Proof.Machine.control s' = .next t) : Stepped s t := by
  have e : s'.point = s.point ∧ s'.tx = s.tx ∧ s'.curCmd = s.curCmd ∧ s'.busBusy = s.busBusy := by
    rcases hc with ⟨-, rfl⟩ | ⟨r, -, rfl⟩ <;> exact ⟨rfl, rfl, rfl, rfl⟩
  obtain ⟨e1, e2, e3, e4⟩ := e
  have key : s.point ≠ .idle → runningPoint s.point = true := by
    intro hi
    simp [runningPoint, hi, hb]
  unfold Sys2Proof.Machine.control nextStep at h
  rw [e1, e4, e3] at h
  split at h
  · rename_i hn
    split at hn
    · exact absurd ‹_› hb
    · cases hn
    · split at hn <;> [cases hn; split at hn <;> cases hn]
  · rename_i hn
    split at hn
    · cases hn
    · cases h; exact .wait ‹_› hc
    · split at hn <;> [cases hn; split at hn <;> cases hn]
  · rename_i i hn
    split at hn
    · cases hn
    · cases hn
    · rename_i hp _
      split at hn
      · cases hn
        rw [frame_exec] at h
        cases h
        exact .frame s' (key (by assumption)) hc ‹_› rfl
      · split at hn <;> cases hn
        rename_i hd
        obtain ⟨u, a, h1, h2⟩ := exec_turn (decodeCommand_isCommand hd) h
        exact .turn s' u _ a (key (by assumption)) hc (eq_false_of_ne_true ‹_›) hd h1 h2
  · rename_i hn
    split at hn
    · cases hn
    · cases hn
    · split at hn
      · cases hn
      · split at hn <;> cases hn
        rename_i hd
        cases h
        exact .illegal s' (key (by assumption)) hc (eq_false_of_ne_true ‹_›) (fun i h => by rw [hd] at h; cases h) rfl

/-- Every step of the machine is one of these. -/
theorem step_next {s t : State} (h : step s = .next t) : Stepped s t := by
  unfold step at h
  split at h
  · cases h; exact .boot ‹_› rfl
  · have hp : s.point ≠ .boot := by assumption
    split at h
    · exact control_next hp (.inl ⟨‹_›, rfl⟩) h
    · exact control_next hp (.inr ⟨_, ‹_›, rfl⟩) h
    · cases h; exact .read hp _ _ _ ‹_› rfl
    · cases h; exact .write hp _ _ _ _ ‹_› rfl
    · cases h; exact .reset hp _ ‹_› rfl

/-! ### What the registers of a turn leave alone -/

/-- The fields that only the act of a turn can change (and CS_LEVEL only the taking of a result, `Turn.level`). -/
structure Kept (s u : State) : Prop where
  cfg : u.cfg = s.cfg
  status : u.status = s.status
  errCode : u.errCode = s.errCode
  errInfo : u.errInfo = s.errInfo
  trace : u.trace = s.trace
  env : u.env = s.env
  curCmd : u.curCmd = s.curCmd
  inputs : u.inputs = s.inputs
  hostData : u.hostData = s.hostData

theorem Kept.refl (s : State) : Kept s s := ⟨rfl, rfl, rfl, rfl, rfl, rfl, rfl, rfl, rfl⟩

theorem Kept.trans {s u v : State} (h : Kept s u) (h' : Kept u v) : Kept s v :=
  ⟨h'.1.trans h.1, h'.2.trans h.2, h'.3.trans h.3, h'.4.trans h.4, h'.5.trans h.5, h'.6.trans h.6, h'.7.trans h.7,
    h'.8.trans h.8, h'.9.trans h.9⟩

theorem Kept.after {s u v : State} (h' : Kept u v) (h : Kept s u) : Kept s v := h.trans h'

theorem Word1.kept {s u : State} {a : Act} (h : Word1 s u a) : Kept s u := by
  cases h <;> exact ⟨rfl, rfl, rfl, rfl, rfl, rfl, rfl, rfl, rfl⟩

theorem Resumed.kept {s s' : State} (h : Resumed s s') : Kept s s' := by
  cases h <;> exact ⟨rfl, rfl, rfl, rfl, rfl, rfl, rfl, rfl, rfl⟩

theorem Trailer.kept {v : Variant} {s u : State} {a : Act} (h : Trailer v s u a) : Kept s u := by
  cases h with
  | word _ _ h => exact h.kept.after ⟨rfl, rfl, rfl, rfl, rfl, rfl, rfl, rfl, rfl⟩
  | empty _ => exact ⟨rfl, rfl, rfl, rfl, rfl, rfl, rfl, rfl, rfl⟩

theorem After.kept {v : Variant} {p : BuPhase} {s u : State} {a : Act} (h : After v s p u a) : Kept s u := by
  cases h with
  | tail _ _ h => exact h.kept
  | _ => exact ⟨rfl, rfl, rfl, rfl, rfl, rfl, rfl, rfl, rfl⟩

theorem Enter.kept {v : Variant} {p : BuPhase} {s u : State} {a : Act} (h : Enter v p s u a) : Kept s u := by
  cases h with
  | word h => exact h.kept.after ⟨rfl, rfl, rfl, rfl, rfl, rfl, rfl, rfl, rfl⟩
  | empty _ h => exact h.kept.after ⟨rfl, rfl, rfl, rfl, rfl, rfl, rfl, rfl, rfl⟩

theorem fragmentRegs_cases (f : Byte) (s : State) :
    (fragmentRegs f s = s)
      ∨ (fragmentRegs f s = (s.putPixel s.fc.pixelCount (upperPixel (f.extractLsb' 0 6))).setFc s.fc.upper)
      ∨ fragmentRegs f s
        = (s.putPixel s.fc.pixelCount
          (lowerPixel (s.pixelByte s.fc.pixelCount) (lowerPayload s.cfg.lowerSrc (f.extractLsb' 0 6)))).setFc s.fc.lower := by
  unfold fragmentRegs decodeFragment
  by_cases h1 : f.extractLsb' 6 2 = 0b01
  · rw [if_pos h1]; exact .inr (.inl rfl)
  · rw [if_neg h1]
    by_cases h2 : f.extractLsb' 6 2 = 0b10
    · rw [if_pos h2]; exact .inr (.inr rfl)
    · rw [if_neg h2]
      by_cases h3 : f.extractLsb' 6 2 = 0b00
      · rw [if_pos h3]; exact .inl rfl
      · rw [if_neg h3]; exact .inl rfl

theorem fragmentRegs_kept (f : Byte) (s : State) : Kept s (fragmentRegs f s) := by
  rcases fragmentRegs_cases f s with h | h | h <;> rw [h]
  · exact Kept.refl s
  all_goals constructor <;> simp

theorem taken_kept (s : State) : Kept s s.taken := ⟨rfl, rfl, rfl, rfl, rfl, rfl, rfl, rfl, rfl⟩

theorem Turn.kept {s u : State} {i : Instr} {a : Act} (h : Turn s i u a) : Kept s u := by
  cases h
  case playSeqBegin hw => exact hw.kept.after ⟨rfl, rfl, rfl, rfl, rfl, rfl, rfl, rfl, rfl⟩
  case playSeqMore h hw => exact h.kept.trans hw.kept
  case playSeqEnd h _ => exact h.kept
  case flushEnd h => exact h.kept.after ⟨rfl, rfl, rfl, rfl, rfl, rfl, rfl, rfl, rfl⟩
  case segmentMore h hw => exact h.kept.trans hw.kept
  case segmentEnd h _ ha => exact h.kept.trans ha.kept
  case cfgWritten h => exact (taken_kept s).trans h.kept
  case statNotTaken h => exact h.kept.after ⟨rfl, rfl, rfl, rfl, rfl, rfl, rfl, rfl, rfl⟩
  case c2Read h => exact h.kept.after ⟨rfl, rfl, rfl, rfl, rfl, rfl, rfl, rfl, rfl⟩
  case c2Written h => exact (taken_kept s).trans h.kept
  case captureBegin hw => exact hw.kept.after ⟨rfl, rfl, rfl, rfl, rfl, rfl, rfl, rfl, rfl⟩
  case captureMore h hw => exact h.kept.trans hw.kept
  case captureSettle h _ => exact h.kept
  case captureComplete hu _ => subst hu; exact ((taken_kept s).trans (fragmentRegs_kept _ _)).trans ⟨rfl, rfl, rfl, rfl, rfl, rfl, rfl, rfl, rfl⟩
  case captureGoesOn hu _ => subst hu; exact (taken_kept s).trans (fragmentRegs_kept _ _)
  case slowReadReady hu _ => subst hu; constructor <;> simp
  case slowReadNotReady hu _ => subst hu; constructor <;> simp
  all_goals constructor <;> simp [State.nextRead, bringUpRegs]

/-! ### CS_LEVEL in a turn: the taking of a result records the deassert's level -/

theorem Word1.level {s u : State} {a : Act} (h : Word1 s u a) : u.csLevel = s.csLevel := by cases h <;> rfl

theorem Trailer.level {v : Variant} {s u : State} {a : Act} (h : Trailer v s u a) : u.csLevel = s.csLevel := by
  cases h with
  | word _ _ h => exact h.level
  | empty _ => rfl

theorem After.level {v : Variant} {p : BuPhase} {s u : State} {a : Act} (h : After v s p u a) : u.csLevel = s.csLevel := by
  cases h with
  | tail _ _ h => exact h.level
  | _ => rfl

theorem Enter.level {v : Variant} {p : BuPhase} {s u : State} {a : Act} (h : Enter v p s u a) :
    u.csLevel = s.csLevel := by
  cases h with
  | word h => exact h.level
  | empty _ h => exact h.level

theorem fragmentRegs_level (f : Byte) (s : State) : (fragmentRegs f s).csLevel = s.csLevel := by
  rcases fragmentRegs_cases f s with h | h | h <;> rw [h] <;> simp

/-- The level a turn starts from: where a transaction's result is due, it has been taken. -/
def State.levelDue (s : State) : CsLevel := if transactionPoint s.point then s.taken.csLevel else s.csLevel

theorem State.levelDue_of_not {s : State} (h : transactionPoint s.point = false) : s.levelDue = s.csLevel := by
  simp [State.levelDue, h]

theorem State.levelDue_of {s : State} (h : transactionPoint s.point = true) : s.levelDue = s.taken.csLevel := by
  simp [State.levelDue, h]

theorem Resumed.level {s s' : State} (h : Resumed s s') : s'.csLevel = s.levelDue := by
  cases h with
  | waited h => rw [State.levelDue_of_not (by rw [h]; rfl)]; rfl
  | written rx h ha => rw [State.levelDue_of (by rw [h]; rfl)]; rfl

theorem plainPoint_transaction {i : Instr} {p : Point} (h : plainPoint i p = true) : transactionPoint p = true := by
  cases i <;> cases p <;> first | rfl | cases h

theorem Turn.level {s u : State} {i : Instr} {a : Act} (h : Turn s i u a) : u.csLevel = s.levelDue := by
  have start : s.point = .start → s.levelDue = s.csLevel := fun h => State.levelDue_of_not (by rw [h]; rfl)
  cases h
  case plainFailed hp => rw [State.levelDue_of (plainPoint_transaction hp)]
  case bringUpFailed hp _ _ => rw [State.levelDue_of hp]; rfl
  case captureFailed hp _ _ => rw [State.levelDue_of hp]; rfl
  case playSeqBegin hc hw => rw [start hc.1]; exact hw.level
  case captureBegin hc hw => rw [start hc.1]; exact hw.level
  case playSeqMore h hw => exact hw.level.trans h.level
  case playSeqEnd h _ => exact h.level
  case segmentMore h hw => exact hw.level.trans h.level
  case segmentEnd h _ ha => exact ha.level.trans h.level
  case captureMore h hw => exact hw.level.trans h.level
  case captureSettle h _ => exact h.level
  case captureComplete hp _ hu _ =>
    subst hu; rw [State.levelDue_of (by rw [hp]; rfl)]; exact fragmentRegs_level _ _
  case captureGoesOn hp _ hu _ =>
    subst hu; rw [State.levelDue_of (by rw [hp]; rfl)]; exact fragmentRegs_level _ _
  case slowReadReady hp _ _ hu _ => subst hu; rw [State.levelDue_of (by rw [hp]; rfl)]; simp
  case slowReadNotReady hp _ _ hu _ => subst hu; rw [State.levelDue_of (by rw [hp]; rfl)]; simp
  case flushEnd hp _ _ h => rw [State.levelDue_of (by rw [hp]; rfl)]; exact h.level
  case cfgWritten hp _ h => rw [State.levelDue_of (by rw [hp]; rfl)]; exact h.level
  case statNotTaken hp _ _ h => rw [State.levelDue_of (by rw [hp]; rfl)]; exact h.level
  case c2Read hp _ h => rw [State.levelDue_of (by rw [hp]; rfl)]; exact h.level
  case c2Written hp _ h => rw [State.levelDue_of (by rw [hp]; rfl)]; exact h.level
  case stateError hp _ => exact (start hp).symm
  case argError hp _ _ => exact (start hp).symm
  all_goals simp_all [State.levelDue, transactionPoint, State.nextRead, Checked, bringUpRegs]

end Sys2Proof.Machine
end

