-- ==== Sys2Proof/Tests/Slice0.lean ====
section
/-! SUPPORT. Tests, whose expected values are the worked examples and vectors of 95_test_vectors or are written out from the
rule named; the smoke tests of the well-formedness checks; and, for each statement, states that meet its hypotheses. -/

namespace Sys2Proof.Tests

open Sys2Proof.Machine Sys2Proof.Safety

/-! ### Small states -/

/-- The toy ROM of programs P2 and P4. -/
def rom : List (List (BitVec 16)) :=
  [[0x7F00], [0x4D11], [0x7F00, 0x61AD], [0xFF0A, 0x7F00], [0x6F1C], [], [], [], [], [], [0x7F07, 0xFF0A, 0x4C00]]

/-- The toy configuration of programs P2 and P4. -/
def toy (sw : Bool) : Config where
  swCs := sw
  regsA := { diag := 0x67, cfg := 0x48, stat := 0x73, c1 := 0x70, c2 := 0x71, c1Dst := 0x70, c2Dst := 0x71 }
  regsB := { diag := 0x47, cfg := 0x43, stat := 0x44, c1 := 0x7F, c2 := 0x00, c1Dst := 0x7F, c2Dst := 0x00 }
  seqRom := rom
  rotation := { deg0 := 0xE0, deg90 := 0x40, deg180 := 0x80, deg270 := 0x20 }
  c1Mode := .sequential
  burstLayout := .doc
  lowerSrc := .bits32
  retrySleepMs := 1
  framePollSleepMs := 0

/-- The bring-up phase that goes with a lifecycle state. -/
def phaseOf : Lifecycle → BuPhase
  | .uninit => .idle
  | .ready => .done
  | .failed => .failed

/-- A state with no command running, after a script of answers. -/
def rest (sw : Bool) (d : Lifecycle) (answers : List Answer) : State :=
  { State.blank (toy sw) with
    dev := { (State.blank (toy sw)).dev with state := d }
    cal := { (State.blank (toy sw)).cal with phase := phaseOf d }
    env :=
      { oracle := .script answers, csAnswers := [], nativeAnswers := [], nowSteps := [0, 0], sleepSteps := [(0, 0)],
        clock := 0, drawn := 0 } }

/-- A command at a point of its own. -/
def mid (sw : Bool) (d : Lifecycle) (p : Point) (w : Word) (answers : List Answer) : State :=
  { rest sw d answers with
    point := p, curCmd := w, status := { busy := true, done := false, err := false, overrun := false } }

/-- The transaction of a frame has ended with a response. -/
def got (f : Frame) (rx : List Byte) (s : State) : State := { s with tx := { frame := f, phase := .ended (.ok rx) } }

/-- The transaction of a frame has ended with a TRANSPORT error. -/
def lost (f : Frame) (cs : Bool) (s : State) : State := { s with tx := { frame := f, phase := .ended (.failed cs) } }

/-- A bring-up in a phase. -/
def inPhase (p : BuPhase) (s : State) : State := { s with cal := { s.cal with phase := p } }

/-- A capture in a state. -/
def capturing (x : FcState) (g : Byte) (pixels : Nat) (s : State) : State :=
  { s with fc := { s.fc with state := x, lastGrabStatus := g, pixelCount := pixels } }

/-- The clock stands at t, and T0 is 0. -/
def clockAt (t : Nat) (s : State) : State := { s with env := { s.env with clock := t } }

/-- An outcome is a next state with a property. -/
def after (r : Result) (p : State → Bool) : Bool :=
  match r with
  | .next t => p t
  | .fault _ | .refused _ => false

/-- An outcome that passes is a next state. -/
theorem next_of_after {s : State} {p : State → Bool} (h : after (step s) p = true) : ∃ t, step s = .next t ∧ p t = true := by
  cases hs : step s with
  | next t => rw [hs] at h; exact ⟨t, rfl, h⟩
  | fault e => rw [hs] at h; cases h
  | refused e => rw [hs] at h; cases h

/-- The next step from s is one event. -/
theorem emits_of_after {s : State} {e : Event} (h : after (step s) (fun t => t.trace == s.trace ++ [e]) = true) :
    ∃ t, step s = .next t ∧ Emits e s t := by
  obtain ⟨t, ht, hp⟩ := next_of_after h
  exact ⟨t, ht, eq_of_beq hp⟩

/-! ### The invariant of a small state -/

/-- What a state's running command is asked for, as a check. -/
def commandCheck (s : State) : Bool :=
  match running s with
  | none => s.tx.phase == .idle && (!runningPoint s.point || s.point == .start)
  | some i =>
    ownPoint i s.point && permitted i s.dev.state && argsValid i && (!clearsResp i || s.respLen == 0)
      && (s.tx.phase == .idle || busFrame i s == some s.tx.frame)

/-- The lifecycle, as a check. -/
def lifecycleCheck (s : State) : Bool :=
  match running s with
  | some (.bringUp v) => s.dev.state == .uninit && s.dev.variant == v && phaseAt s.point s.cal.phase
  | _ =>
    (s.dev.state == .uninit && s.cal.phase == .idle) || (s.dev.state == .ready && s.cal.phase == .done)
      || (s.dev.state == .failed && s.cal.phase == .failed)

/-- The capture state, as a check. -/
def captureCheck (s : State) : Bool :=
  match running s with
  | some (.frameCapture _) => captureAt s.point s.fc.state
  | _ => s.fc.state != .configuring && s.fc.state != .waitingForGrabReady && s.fc.state != .streaming

/-- The response's length, as a check. -/
def responseCheck (s : State) : Bool :=
  match s.tx.phase with
  | .exchanged (some rx) | .ended (.ok rx) => rx.length == s.tx.frame.bytes.length
  | _ => true

/-- STATUS and the error registers, as a check. -/
def statusCheck (s : State) : Bool :=
  decide (s.status.busy = runningPoint s.point ∧ (s.status.busy = true → s.status.done = false ∧ s.status.err = false)
    ∧ (s.status.err = true → s.status.done = true) ∧ (s.errCode = .none ↔ s.status.err = false)
    ∧ (s.status.err = false → s.errInfo = 0))

/-- The bus, as a check. -/
def busCheck (s : State) : Bool :=
  decide ((s.tx.phase = .idle ↔ transactionPoint s.point = false) ∧ (s.csLevel = .asserted ↔ levelAsserted s.cfg.swCs s.tx.phase = true)
    ∧ (s.cfg.swCs = false → selectHeld s.tx.phase = false) ∧ responseCheck s = true ∧ (s.point = .boot → s.cfg.swCs = true))

/-- The player and the reads, as a check. -/
def walkCheck (s : State) : Bool :=
  decide ((s.point = .stepWaited ∨ s.point = .stepWritten → s.seqPc < (s.cfg.segment s.seqSeg.toNat).length)
    ∧ (s.point = .regsRead → s.respLen = s.rrIndex.toNat) ∧ (s.point = .idRead → s.rrOut.length = s.rrIndex.toNat)
    ∧ (s.point = .burstRead → s.respLen = 0))

/-- FC_STATUS, as a check. -/
def countCheck (x : FcStatus) : Bool :=
  decide (x.pixelCount ≤ 1225
    ∧ (x.state = .configuring ∨ x.state = .waitingForGrabReady → x.pixelCount = 0 ∧ x.haveUpper = false)
    ∧ (x.state = .streaming → x.pixelCount < 1225) ∧ (x.state = .complete → x.pixelCount = 1225)
    ∧ (x.state = .timedOut → x.initTimeout = false → x.pixelCount < 1225) ∧ (x.initTimeout = true → x.state = .timedOut)
    ∧ (x.state = .streaming ∨ x.state = .complete → grabReady x.lastGrabStatus = true))

/-- The trigger and branch B, as a check. -/
def verdictCheck (s : State) : Bool :=
  decide (((s.point = .triggerWritten → grabReady s.fc.lastGrabStatus = true)
      ∧ (s.point = .initClockRead → grabReady s.fc.lastGrabStatus = false))
    ∧ (s.point = .c1Read ∨ s.point = .c2Read ∨ s.cal.phase = .sub ∨ s.cal.phase = .writeback → s.cal.bTaken = true))

/-- The invariant of a state whose buffers are clear, as a check. -/
def invCheck (s : State) : Bool :=
  s.cfg.wf && decide (s.respLen ≤ 256) && decide (s.t0 ≤ s.env.clock) && statusCheck s && busCheck s && commandCheck s
    && lifecycleCheck s && captureCheck s && walkCheck s && countCheck s.fc && verdictCheck s

theorem inv_of_check {s : State} (hm : s.mem = []) (h : invCheck s = true) : Inv s := by
  unfold invCheck at h
  simp only [Bool.and_eq_true] at h
  obtain ⟨⟨⟨⟨⟨⟨⟨⟨⟨⟨hc, hr⟩, ht⟩, hst⟩, hb⟩, hcmd⟩, hl⟩, hcap⟩, hw⟩, hcc⟩, hv⟩ := h
  have hread : ∀ a, Memory.read s.mem a = 0 := fun a => by rw [hm]; rfl
  obtain ⟨b1, b2, b3, b4, b5⟩ := of_decide_eq_true hb
  obtain ⟨q1, q3, q4, q5⟩ := of_decide_eq_true hw
  have hv' := of_decide_eq_true hv
  have hst' := of_decide_eq_true hst
  have hcc' := of_decide_eq_true hcc
  have ht' := of_decide_eq_true ht
  have hr' := of_decide_eq_true hr
  refine ⟨hc, ?_, ⟨hr', fun i _ _ => hread _⟩, hst', ⟨b1, b2, b3, ?_, b5⟩, ?_, q1,
    ⟨q3, q4, q5, ?_⟩, ?_, ?_, hcc', hv'.1, hv'.2, ?_, ht'⟩
  · rw [hm]; exact ⟨⟨List.Pairwise.nil, by simp⟩, by simp⟩
  · unfold responseCheck at b4; unfold responseFits
    rcases hph : s.tx.phase with _ | _ | _ | _ | (_ | rx) | (rx | c) <;> simp_all
  · intro hp hns
    unfold commandCheck at hcmd
    cases hrun : running s with
    | none => simp [hrun, hp, hns] at hcmd
    | some i =>
      simp only [hrun, Bool.and_eq_true] at hcmd
      refine ⟨i, ?_, hcmd.1.1.1.1, hcmd.1.1.1.2, hcmd.1.1.2⟩
      unfold running at hrun
      rw [if_pos (by simp [hp, hns])] at hrun
      cases hd : decodeCommand s.curCmd with
      | ok j => rw [hd] at hrun; simp [Except.toOption] at hrun; rw [hrun]
      | error e => rw [hd] at hrun; simp [Except.toOption] at hrun
  · intro i hrun hcl
    unfold commandCheck at hcmd
    simp [hrun, hcl] at hcmd
    exact hcmd.1.2
  · unfold LifecycleOk; unfold lifecycleCheck at hl
    split at hl <;> simp_all [or_assoc]
  · unfold CaptureStateOk; unfold captureCheck at hcap
    split at hcap <;> simp_all
  · intro hne
    unfold commandCheck at hcmd
    cases hrun : running s with
    | none => simp [hrun, hne] at hcmd
    | some i => simp [hrun, hne] at hcmd; exact ⟨i, rfl, hcmd.2⟩

/-! ### Well-formedness refuses -/

theorem test_burst_frame_of_the_motion_burst_is_ill_formed : (Instr.burstFrame 0x16 12).wf = false := by decide
theorem test_other_burst_frames_are_well_formed :
    (Instr.burstFrame 0x16 11).wf = true ∧ (Instr.burstFrame 0x16 13).wf = true ∧ (Instr.burstFrame 0x17 12).wf = true := by
  decide
theorem test_reserved_step_words_are_ill_formed :
    stepWordLegal 0x8000 = false ∧ stepWordLegal 0xFEFF = false ∧ stepWordLegal 0x7FFF = true ∧ stepWordLegal 0xFF00 = true := by
  decide
theorem test_rom_needs_eleven_legal_segments :
    seqRomWf (List.replicate 10 []) = false ∧ seqRomWf ([[0x8000]] ++ List.replicate 10 []) = false
      ∧ seqRomWf (List.replicate 10 [] ++ [[0xFE00]]) = false ∧ seqRomWf rom = true := by
  decide
theorem test_rotation_map_is_injective_with_low_bits_zero :
    ({ deg0 := 0xE0, deg90 := 0x40, deg180 := 0xE0, deg270 := 0x20 } : RotationMap).wf = false
      ∧ ({ deg0 := 0xE0, deg90 := 0x41, deg180 := 0x80, deg270 := 0x20 } : RotationMap).wf = false
      ∧ (toy true).rotation.wf = true := by
  decide

/-! ### Decoding: words written out from the patterns (95_test_vectors 2.1 and 30_encoding) -/

theorem test_decode_write_reg : decodeCommand 0b00010000000000000101101111100000 = .ok (.writeReg 0x5B 0xE0) := by decide
theorem test_decode_read_reg : decodeCommand 0b00100000000000000111111100000000 = .ok (.readReg 0x7F) := by decide
theorem test_decode_read_regs : decodeCommand 0b00110000000000000000001000000101 = .ok (.readRegs 0x02 5) := by decide
theorem test_decode_burst_xfer : decodeCommand 0b01000000000000001000000000001100 = .ok (.burstXfer 0x80 12) := by decide
theorem test_decode_play_seq : decodeCommand 0b01010000000000000000000000001010 = .ok (.playSeq 10) := by decide
theorem test_decode_bring_up : decodeCommand 0b01100000000000000000000000000001 = .ok (.bringUp .b) := by decide
theorem test_decode_burst_read : decodeCommand 0b01110000100000000000000000000001 = .ok (.burstRead 0x800001) := by decide
theorem test_decode_slow_read : decodeCommand 0b10000000000000000000000000110010 = .ok (.slowRead 50) := by decide
theorem test_decode_frame_capture : decodeCommand 0b10010000000000000000001111101000 = .ok (.frameCapture 1000) := by decide
theorem test_decode_set_orientation :
    decodeCommand 0b10100000000000000000000010100000 = .ok (.setOrientation true false true) := by decide
theorem test_decode_set_rotation : decodeCommand 0b10110000000000000000000100001110 = .ok (.setRotation 270) := by decide
theorem test_decode_write_frame : decode (.frame .write [0xBA, 0x5A]) = .ok (.writeFrame 0x3A 0x5A) := by decide
theorem test_decode_read_frame : decode (.frame .read [0x7F, 0x00]) = .ok (.readFrame 0x7F) := by decide
theorem test_decode_burst_frame : decode (.frame .burst [0x16, 0, 0, 0]) = .ok (.burstFrame 0x16 3) := by decide
theorem test_decode_motion_burst_frame :
    decode (.frame .burst [0x16, 0, 0, 0, 0, 0, 0, 0, 0, 0, 0, 0, 0]) = .ok .motionBurstFrame := by decide
theorem test_decode_seq_write : decodeStep 0b0110000110101101 = .ok (.seqWrite 0x61 0xAD) := by decide
theorem test_decode_seq_wait : decodeStep 0b1111111100001010 = .ok (.seqWait 10) := by decide
theorem test_decode_frag_upper : decodeFragment 0b01101010 = .fragUpper 0b101010 := by decide
theorem test_decode_frag_lower : decodeFragment 0b10001100 = .fragLower 0b001100 := by decide
theorem test_decode_frag_none_00 : decodeFragment 0b00111111 = .fragNone00 0b111111 := by decide
theorem test_decode_frag_none_11 : decodeFragment 0b11000011 = .fragNone11 0b000011 := by decide
theorem test_reserved_words_are_refused :
    decodeCommand 0x00000000 = .error .reservedOpcode ∧ decodeCommand 0xC0000000 = .error .reservedOpcode
      ∧ decodeCommand 0xF0000000 = .error .reservedOpcode ∧ decodeCommand 0x10008000 = .error .reservedBits
      ∧ decodeCommand 0x20005B01 = .error .reservedBits ∧ decodeCommand 0x60000002 = .error .reservedBits
      ∧ decodeCommand 0xA0000001 = .error .reservedBits ∧ decodeCommand 0x71000000 = .error .reservedBits
      ∧ decodeCommand 0x5000001B = .error .reservedBits := by
  decide
theorem test_reserved_codes_are_refused :
    decodeStep 0x8000 = .error .reservedStep ∧ decodeStep 0xFEFF = .error .reservedStep
      ∧ decode (.frame .write [0x3A, 0x5A]) = .error .notAWriteFrame
      ∧ decode (.frame .read [0x3A, 0x01]) = .error .notAReadFrame
      ∧ decode (.frame .burst [0x16, 0x01]) = .error .notABurstFrame := by
  decide
theorem test_table_words :
    decodeTableWord 32 0x20005900 = some (.readReg 0x59) ∧ decodeTableWord 16 0xFF0A = some (.seqWait 10)
      ∧ decodeTableWord 8 0x16 = some .motionBurstFrame ∧ decodeTableWord 8 0x8C = some (.fragLower 0x0C)
      ∧ decodeTableWord 32 0xC0000000 = none := by
  decide

/-! ### The assembler (R110-R112, R101) -/

theorem test_assemble_words :
    assembleWord "WRITE_REG 0x3A, 0x5A" = some 0x10003A5A ∧ assembleWord "GRAB_STATUS" = some 0x20005900
      ∧ assembleWord "BRING_UP B" = some 0x60000001 ∧ assembleWord "PLAY_SEQ PRECAPTURE" = some 0x5000000A
      ∧ assembleWord "SET_ORIENTATION SWAP|INVY|INVX" = some 0xA00000E0 ∧ assembleWord "SET_ROTATION 270" = some 0xB000010E := by
  decide
theorem test_assembly_errors :
    assemble "READ_REG 0x80" = none ∧ assemble "SET_ROTATION 512" = none ∧ assemble "PLAY_SEQ C_PROLOGUE" = none := by
  decide
theorem test_assemble_steps :
    assembleStep "W 0x7F, 0x07" = some (.seqWrite 0x7F 0x07) ∧ assembleStep "WAIT 10" = some (.seqWait 10) := by decide
theorem test_flat_list : packFlat [0x7F, 0x07, -1, 10, 0x4C, 0x00] = some [0x7F07, 0xFF0A, 0x4C00] := by decide
theorem test_flat_list_refused :
    packFlat [0x7F] = none ∧ packFlat [-2, 0] = none ∧ packFlat [0x80, 0] = none ∧ packFlat [0, 256] = none
      ∧ packFlat [0, -1] = none := by
  decide

/-! ### One step of each instruction -/

/-- 2.2: the assert of `WRITE_REG 0x5B, 0xE0`. -/
theorem test_write_reg_begins :
    after (exec (.writeReg 0x5B 0xE0) (mid true .ready .start 0x10005BE0 []))
      (fun t => t.trace.length == 1 && t.tx.frame.bytes == [0xDB, 0xE0]) = true := by
  decide
/-- 2.2: its success end. -/
theorem test_write_reg_ends :
    after (exec (.writeReg 0x5B 0xE0) (got (.write 0x5B 0xE0) [1, 2] (mid false .ready .regDone 0x10005BE0 [])))
      (fun t => t.status.word == 0x2 && t.trace == [.ended .none]) = true := by
  decide
/-- 2.2: rx[0] is ignored. -/
theorem test_read_reg_result :
    after (exec (.readReg 0x49) (got (.read 0x49) [0x12, 0x34] (mid false .ready .regDone 0x20004900 [])))
      (fun t => t.result == 0x34 && t.respByte 0 == 0x34 && t.respLen == 1) = true := by
  decide
/-- 2.2: an assert that answers CS_FAIL: ERRINFO 0x000001DB. -/
theorem test_write_reg_select_failed :
    after (exec (.writeReg 0x5B 0xE0) (lost (.write 0x5B 0xE0) true (mid true .ready .regDone 0x10005BE0 [])))
      (fun t => t.errInfo == 0x000001DB && t.errCode.word == 1 && t.status.word == 0x6 && t.dev.state == .ready) = true := by
  decide
/-- 2.1: `READ_REGS 0x7F, 1` makes the one frame [0x7F, 0x00], and `READ_REGS 0x00, 0` makes none. -/
theorem test_read_regs_begins :
    after (exec (.readRegs 0x7F 1) (mid false .ready .start 0x30007F01 [.bytes [0, 0x5A]]))
        (fun t => t.trace == [.xfer [0x7F, 0x00] (some [0, 0x5A])]) = true
      ∧ after (exec (.readRegs 0x00 0) (mid false .ready .start 0x30000000 []))
        (fun t => t.trace == [.ended .none] && t.respLen == 0) = true := by
  decide
/-- 2.2: BUS_FAIL on the third frame of `READ_REGS 0x02, 5`. -/
theorem test_read_regs_fails :
    after
      (exec (.readRegs 0x02 5)
        { lost (.read 0x04) false (mid false .ready .regsRead 0x30000205 []) with respLen := 2, rrIndex := 2 })
      (fun t => t.errInfo == 0x00000004 && t.respLen == 2) = true := by
  decide
/-- 2.2: `BURST_XFER 0x80, 0`. -/
theorem test_burst_xfer :
    after (exec (.burstXfer 0x80 0) (got (.burst 0x80 0) [0x77] (mid false .ready .regDone 0x40008000 [])))
      (fun t => t.respLen == 1 && t.respByte 0 == 0x77 && t.result == 0) = true := by
  decide
/-- P4: the first step of PRECAPTURE. -/
theorem test_play_seq_begins :
    after (exec (.playSeq 10) (mid false .ready .start 0x5000000A [.bytes [0, 0]]))
      (fun t => t.trace == [.xfer [0xFF, 0x07] (some [0, 0])] && t.seqSeg == 10 && t.seqPc == 0) = true := by
  decide
/-- 2.3: an empty segment (B_PROLOGUE of the toy ROM) ends with no event of its own. -/
theorem test_play_seq_empty :
    after (exec (.playSeq 5) (mid false .ready .start 0x50000005 [])) (fun t => t.trace == [.ended .none]) = true := by
  decide
/-- S4: `W 0x4C, 0x00` is exactly one exchange of [0xCC, 0x00]. -/
theorem test_seq_write :
    after (exec (.seqWrite 0x4C 0x00) (mid false .ready .start 0x5000000A [.bytes [0, 0]]))
      (fun t => t.trace == [.xfer [0xCC, 0x00] (some [0, 0])]) = true := by
  decide
/-- S4: `WAIT 10` sleeps at least 10 ms and makes no exchange; R161, R3: SEQ_PC passes it in the next event's step. -/
theorem test_seq_wait :
    after (exec (.seqWait 10) (mid false .ready .start 0x5000000A []))
        (fun t => t.trace == [.sleep 10 0 10000] && t.seqPc == 0) = true
      ∧ after
        (exec (.playSeq 10)
          { mid false .ready .stepWaited 0x5000000A [.bytes [0, 0]] with seqSeg := 10, seqPc := 1 })
        (fun t => t.trace == [.xfer [0xCC, 0x00] (some [0, 0])] && t.seqPc == 2) = true := by
  decide
/-- P2, event 1. -/
theorem test_bring_up_begins :
    after (exec (.bringUp .a) (mid false .uninit .start 0x60000000 [.bytes [0, 0]]))
      (fun t => t.trace == [.xfer [0xBA, 0x5A] (some [0, 0])] && t.cal.phase == .reset) = true := by
  decide
/-- S6 and P2: (0x49, 0x02) is an identity mismatch, with ERRINFO 0x00000249. -/
theorem test_bring_up_mismatch :
    after
      (exec (.bringUp .a)
        { got (.read 0x01) [0, 0x02] (inPhase .idCheck (mid false .uninit .idRead 0x60000000 [])) with
          rrIndex := 1, rrOut := [0x49] })
      (fun t => t.errCode.word == 3 && t.errInfo == 0x00000249 && t.dev.state == .failed && t.cal.failPhase == .idCheck)
        = true := by
  decide
/-- P3: the third attempt's sample is valid: RESULT 0xFFFE0005. -/
theorem test_burst_read_valid :
    after
      (exec (.burstRead 100)
        (got .motionBurst [0x00, 0x80, 0x05, 0x00, 0xFE, 0xFF, 0x19, 0, 0, 0, 0x1F, 0, 0]
          (mid false .ready .burstRead 0x70000064 [])))
      (fun t => t.result == 0xFFFE0005 && t.sample.word0 == 0x001F190D && t.sample.word1 == 0x80000000
        && t.sample.word2 == 0xFFFE0005 && t.respLen == 13 && t.status.word == 0x2) = true := by
  decide
/-- P3: the second attempt's sample is not: the retry sleep. -/
theorem test_burst_read_invalid :
    after
      (exec (.burstRead 100)
        (got .motionBurst [0x00, 0x80, 0x05, 0x00, 0xFE, 0xFF, 0x18, 0, 0, 0, 0x1F, 0, 0]
          (mid false .ready .burstRead 0x70000064 [])))
      (fun t => t.trace == [.sleep 1 0 1000] && t.sample.valid == false && t.result == 0) = true := by
  decide
/-- 2.5: s = [0x80, 0x00, 0x80, 0xFF, 0x7F] gives RESULT 0x7FFF8000; bit 7 clear retries. -/
theorem test_slow_read :
    after
        (exec (.slowRead 50)
          { got (.read 0x06) [0, 0x7F] (mid false .ready .regsRead 0x80000032 []) with
            respLen := 4, rrIndex := 4, mem := [(0x100, 0x80), (0x102, 0x80), (0x103, 0xFF)] })
        (fun t => t.result == 0x7FFF8000 && t.respLen == 5 && t.sample.present == false) = true
      ∧ after
        (exec (.slowRead 50)
          { got (.read 0x06) [0, 0x7F] (mid false .ready .regsRead 0x80000032 []) with
            respLen := 4, rrIndex := 4, mem := [(0x100, 0x7F)] })
        (fun t => t.trace == [.sleep 1 0 1000]) = true := by
  decide
/-- 2.5: `SET_ORIENTATION INVX` writes 0x20, and ORIENT is 0x00000120. -/
theorem test_set_orientation :
    after (exec (.setOrientation false false true) (mid false .ready .start 0xA0000020 [.bytes [0, 0]]))
        (fun t => t.trace == [.xfer [0xDB, 0x20] (some [0, 0])]) = true
      ∧ after
        (exec (.setOrientation false false true) (got (.write 0x5B 0x20) [0, 0] (mid false .ready .regDone 0xA0000020 [])))
        (fun t => t.orient.word == 0x00000120) = true := by
  decide
/-- 2.5: `SET_ROTATION 90` under the toy map. -/
theorem test_set_rotation :
    after (exec (.setRotation 90) (mid false .ready .start 0xB000005A [.bytes [0, 0]]))
        (fun t => t.trace == [.xfer [0xDB, 0x40] (some [0, 0])]) = true
      ∧ after (exec (.setRotation 90) (got (.write 0x5B 0x40) [0, 0] (mid false .ready .regDone 0xB000005A [])))
        (fun t => t.orient.word == 0x00000140) = true := by
  decide
/-- P4, point 3: 0x80 is not ready, and 0xC0 writes the trigger. -/
theorem test_frame_capture_grab :
    after
        (exec (.frameCapture 1000)
          (got (.read 0x59) [0, 0x80] (capturing .waitingForGrabReady 0 0 (mid false .ready .grabRead 0x900003E8 []))))
        (fun t => t.trace == [.now 0] && t.fc.lastGrabStatus == 0x80) = true
      ∧ after
        (exec (.frameCapture 1000)
          (got (.read 0x59) [0, 0xC0]
            (capturing .waitingForGrabReady 0 0 (mid false .ready .grabRead 0x900003E8 [.bytes [0, 0]]))))
        (fun t => t.trace == [.xfer [0xD8, 0x00] (some [0, 0])]) = true := by
  decide
/-- 2.6: the stream timeout at 100 pixels with an upper pending, and the init timeout. -/
theorem test_frame_capture_timeouts :
    after
        (exec (.frameCapture 1)
          (clockAt 1001
            { mid false .ready .streamClockRead 0x90000001 [] with
              fc := { (State.blank (toy false)).fc with
                state := .streaming, haveUpper := true, lastGrabStatus := 0xC0, pixelCount := 100 } }))
        (fun t => t.fc.word == 0x0064C00D && t.errInfo == 0x00640003) = true
      ∧ after
        (exec (.frameCapture 1)
          (clockAt 1001 (capturing .waitingForGrabReady 0x80 0 (mid false .ready .initClockRead 0x90000001 []))))
        (fun t => t.fc.word == 0x00008025 && t.errInfo == 0x00000002) = true := by
  decide
/-- The frames of 2.2, without a software select. -/
theorem test_write_frame :
    after (exec (.writeFrame 0x5B 0xE0) (mid false .ready .regDone 0x10005BE0 [.bytes [1, 2]]))
      (fun t => t.trace == [.xfer [0xDB, 0xE0] (some [1, 2])]) = true := by
  decide
theorem test_read_frame :
    after (exec (.readFrame 0x02) (mid false .ready .regDone 0x20000200 [.busFail]))
      (fun t => t.trace == [.xfer [0x02, 0x00] none] && t.tx.phase == .ended (.failed false)) = true := by
  decide
theorem test_burst_frame :
    after (exec (.burstFrame 0x16 3) (mid false .ready .regDone 0x40001603 [.bytes [0, 1, 2, 3]]))
      (fun t => t.trace == [.xfer [0x16, 0, 0, 0] (some [0, 1, 2, 3])]) = true := by
  decide
theorem test_motion_burst_frame :
    after (exec .motionBurstFrame (mid false .ready .burstRead 0x70000064 [.bytes []]))
      (fun t => t.trace == [.xfer (0x16 :: List.replicate 12 0) (some (List.replicate 13 0))]) = true := by
  decide
/-- 2.6: 0x7F gives pixel 0 = 0xFC with HAVE_UPPER; two in a row set ORDER_ERR. -/
theorem test_frag_upper :
    after (exec (.fragUpper 0x3F) (mid false .ready .fragmentRead 0x90000000 []))
        (fun t => t.pixelByte 0 == 0xFC && t.fc.haveUpper && !t.fc.orderErr && t.fc.pixelCount == 0) = true
      ∧ after
        (exec (.fragUpper 0x3F)
          { mid false .ready .fragmentRead 0x90000000 [] with fc := { (State.blank (toy false)).fc with haveUpper := true } })
        (fun t => t.fc.orderErr) = true := by
  decide
/-- 2.6: 0x8C alone gives pixel 0 = 0x03 and ORDER_ERR under L = 2, and pixel 0 = 0x00 under L = 0. -/
theorem test_frag_lower :
    after (exec (.fragLower 0x0C) (mid false .ready .fragmentRead 0x90000000 []))
        (fun t => t.pixelByte 0 == 0x03 && t.fc.orderErr && t.fc.pixelCount == 1) = true
      ∧ after
        (exec (.fragLower 0x0C)
          { mid false .ready .fragmentRead 0x90000000 [] with cfg := { toy false with lowerSrc := .bits10 } })
        (fun t => t.pixelByte 0 == 0x00) = true := by
  decide
theorem test_frag_none_00 :
    exec (.fragNone00 0x3F) (mid false .ready .fragmentRead 0x90000000 [])
      = .next (mid false .ready .fragmentRead 0x90000000 []) := rfl
theorem test_frag_none_11 :
    exec (.fragNone11 0x03) (mid false .ready .fragmentRead 0x90000000 [])
      = .next (mid false .ready .fragmentRead 0x90000000 []) := rfl

/-! ### Operand forms and the host port -/

/-- R131, R3: CS_LEVEL records the assert in the exchange's step and the deassert in the step that takes the result. -/
theorem test_cs_level :
    after
        (exec (.readFrame 0x02)
          { mid true .ready .regDone 0x20000200 [.bytes [0, 1]] with tx := { frame := .read 0x02, phase := .selected } })
        (fun t => t.csLevel == .asserted && t.trace == [.xfer [0x02, 0x00] (some [0, 1])]) = true
      ∧ after
        (exec (.readReg 0x02) { got (.read 0x02) [0, 1] (mid true .ready .regDone 0x20000200 []) with csLevel := .asserted })
        (fun t => t.csLevel == .deasserted && t.trace == [.ended .none]) = true := by
  decide
/-- R213, R3: T0 takes its reading in the step of the next event. -/
theorem test_t0 :
    after (exec (.burstRead 100) (clockAt 7 (mid false .ready .loopT0Read 0x70000064 [])))
        (fun t => t.t0 == 7 && t.trace == [.now 7]) = true
      ∧ after (exec (.frameCapture 2) (clockAt 7 (mid false .ready .streamT0Read 0x90000002 [.bytes [0, 0]])))
        (fun t => t.t0 == 7 && t.trace == [.xfer [0x58, 0x00] (some [0, 0])]) = true := by
  decide

/-- S3. -/
theorem test_calibration :
    adjC1 .sequential 28 = 53 ∧ adjC1 .exclusive 28 = 42 ∧ adjC1 .sequential 29 = 40 ∧ adjC1 .sequential 0x50 = 0x3F
      ∧ adjC1 .sequential 255 = 63 ∧ adjC2 100 = 45 ∧ adjC2 255 = 114 := by
  decide
/-- 2.5: the sample r under both layouts. -/
theorem test_parse_burst :
    (parseBurst .doc [0x00, 0x80, 0xFD, 0xFF, 0x02, 0x01, 0x19, 0x10, 0x20, 0x05, 0x1F, 0x30, 0x00]).word0 = 0x301F190D
      ∧ (parseBurst .doc [0x00, 0x80, 0xFD, 0xFF, 0x02, 0x01, 0x19, 0x10, 0x20, 0x05, 0x1F, 0x30, 0x00]).word1 = 0x80052010
      ∧ (parseBurst .doc [0x00, 0x80, 0xFD, 0xFF, 0x02, 0x01, 0x19, 0x10, 0x20, 0x05, 0x1F, 0x30, 0x00]).word2 = 0x0102FFFD
      ∧ (parseBurst .shifted [0x00, 0x80, 0xFD, 0xFF, 0x02, 0x01, 0x19, 0x10, 0x20, 0x05, 0x1F, 0x30, 0x00]).deltaX = 767
      ∧ (parseBurst .shifted [0x00, 0x80, 0xFD, 0xFF, 0x02, 0x01, 0x19, 0x10, 0x20, 0x05, 0x1F, 0x30, 0x00]).obstruction
        = true := by
  decide
/-- 2.6. -/
theorem test_grab_ready :
    grabReady 0xC0 = true ∧ grabReady 0xFF = true ∧ grabReady 0xC1 = true ∧ grabReady 0x80 = false ∧ grabReady 0x40 = false
      ∧ grabReady 0x3F = false := by
  decide
/-- P4: a full capture's FC_STATUS and the first word of PIXEL_BUF. -/
theorem test_host_port :
    hostRead 0x030 4 (capturing .complete 0xC0 1225 (rest false .ready [])) = 0x04C9C004
      ∧ hostRead 0x800 4 { rest false .ready [] with mem := [(0x801, 0x05), (0x802, 0x0A), (0x803, 0x0F)] } = 0x0F0A0500
      ∧ hostRead 0x010 4 (rest true .uninit []) = 0x00000008 ∧ hostRead 0xCC8 4 (rest true .uninit []) = 0
      ∧ hostRead 0x801 1 { rest false .ready [] with mem := [(0x801, 0x05)] } = 0x05 := by
  decide
/-- 2.7: reset with a software select: RESET, then the native-select disable. -/
theorem test_reset_boot :
    after (step (State.resetOf (toy true)))
      (fun t => t.point == .idle && hostRead 0x010 4 t == 0x00000008 && t.trace.length == 2) = true := by
  decide
/-- P5, 1 and 2: SET_ROTATION 45 is checked for STATE first. -/
theorem test_check_order :
    after (exec (.setRotation 45) (mid false .uninit .start 0xB000002D [])) (fun t => t.errCode.word == 6) = true
      ∧ after (exec (.setRotation 45) (mid false .ready .start 0xB000002D []))
        (fun t => t.errCode.word == 4 && t.errInfo == 0xB000002D && t.trace == [.ended .invalidArgument]) = true := by
  decide
/-- P5, 3 and 6: an illegal word ends with code 5; a word written while a command runs is dropped. -/
theorem test_illegal_and_dropped :
    after (step (mid false .ready .start 0xC0000000 [])) (fun t => t.errCode.word == 5 && t.errInfo == 0xC0000000) = true
      ∧ after (step { mid false .ready .pollGrab 0x900003E8 [] with inputs := [.write 0 4 0x20000000] })
        (fun t => t.status.word == 0x9 && t.curCmd == 0x900003E8 && t.trace == []) = true := by
  decide
/-- The host's word is placed where the next step runs it. -/
theorem test_with_fetch_word :
    nextStep ((rest false .uninit []).withFetchWord 32 0x20005900) = .run (.readReg 0x59)
      ∧ after (step ((rest false .ready []).withFetchWord 16 0xFF0A)) (fun t => t.trace.length == 2 && t.seqPc == 1) = true
      ∧ nextStep ((rest false .ready []).withFetchWord 8 0x16) = .run .motionBurstFrame
      ∧ after (step ((rest false .ready []).withFetchWord 8 0x8C)) (fun t => t.fc.pixelCount == 1) = true := by
  decide

/-! ### Witnesses: for each statement with hypotheses, states that meet them -/

theorem witness_decode_inverts_encode :
    (Instr.burstFrame 0x16 11).wf = true ∧ (Instr.burstFrame 0xFF 255).wf = true ∧ (Instr.writeReg 0x7F 0xFF).wf = true
      ∧ (Instr.setRotation 511).wf = true ∧ (Instr.fragNone11 0x3F).wf = true := by
  decide
theorem witness_encode_inverts_decode :
    decode (.frame .burst [0x16, 0]) = .ok (.burstFrame 0x16 1) ∧ decode (.step 0x7FFF) = .ok (.seqWrite 0x7F 0xFF)
      ∧ decode (.command 0xB00001FF) = .ok (.setRotation 511) ∧ decode (.fragment 0xFF) = .ok (.fragNone11 0x3F) := by
  decide
theorem witness_command_layouts :
    decodeCommand 0x10007FFF = .ok (.writeReg 0x7F 0xFF) ∧ decodeCommand 0x20007F00 = .ok (.readReg 0x7F)
      ∧ decodeCommand 0x30007FFF = .ok (.readRegs 0x7F 0xFF) ∧ decodeCommand 0x4000FFFF = .ok (.burstXfer 0xFF 0xFF)
      ∧ decodeCommand 0x5000000F = .ok (.playSeq 0xF) ∧ decodeCommand 0x60000000 = .ok (.bringUp .a)
      ∧ decodeCommand 0x70FFFFFF = .ok (.burstRead 0xFFFFFF) ∧ decodeCommand 0x80FFFFFF = .ok (.slowRead 0xFFFFFF)
      ∧ decodeCommand 0x90FFFFFF = .ok (.frameCapture 0xFFFFFF)
      ∧ decodeCommand 0xA00000E0 = .ok (.setOrientation true true true) := by
  decide
theorem witness_match_and_mask :
    (0x10007FFF : Word) &&& 0xFFFF8000 = 0x10000000 ∧ (0xA00000E0 : Word) &&& 0xFFFFFF1F = 0xA0000000 := by decide
theorem witness_illegal_words :
    (0x0FFFFFFF : Word).extractLsb' 28 4 = 0 ∧ 0xC ≤ ((0xC0000000 : Word).extractLsb' 28 4).toNat
      ∧ ((0x30008000 : Word).extractLsb' 28 4).toNat = 3 ∧ (0x30008000 : Word) &&& 0x0FFF8000 ≠ 0
      ∧ ((0xB0000200 : Word).extractLsb' 28 4).toNat = 0xB ∧ (0xB0000200 : Word) &&& 0x0FFFFE00 ≠ 0
      ∧ ((0xB00001FF : Word).extractLsb' 28 4).toNat = 0xB ∧ (0xB00001FF : Word) &&& 0x0FFFFE00 = 0 := by
  decide
theorem witness_illegal_accepted :
    Accepted 0x60000002 (mid false .ready .start 0x60000002 []) ∧ ∀ i, decodeCommand 0x60000002 ≠ .ok i := by
  refine ⟨⟨rfl, rfl, rfl, rfl⟩, fun i h => ?_⟩
  have h2 : decodeCommand 0x60000002 = .error .reservedBits := by decide
  rw [h2] at h
  cases h
theorem witness_step_words :
    (0x7F : Byte).toNat ≤ 0x7F ∧ 0x80 ≤ (0x80 : Byte).toNat ∧ (0x80 : Byte).toNat ≤ 0xFE ∧ (0xFE : Byte).toNat ≤ 0xFE := by
  decide
theorem witness_flat_lists :
    (∀ p ∈ [((-1 : Int), (255 : Int)), (0x7F, 0), (0, 255)],
        (p.1 = -1 ∨ (0 ≤ p.1 ∧ p.1 ≤ 0x7F)) ∧ 0 ≤ p.2 ∧ p.2 ≤ 255)
      ∧ [(1 : Int)].length % 2 = 1
      ∧ ¬(((0x80 : Int) = -1 ∨ (0 ≤ (0x80 : Int) ∧ (0x80 : Int) ≤ 0x7F)) ∧ 0 ≤ (0 : Int) ∧ (0 : Int) ≤ 255)
      ∧ ¬(((-2 : Int) = -1 ∨ (0 ≤ (-2 : Int) ∧ (-2 : Int) ≤ 0x7F)) ∧ 0 ≤ (0 : Int) ∧ (0 : Int) ≤ 255)
      ∧ ¬(((0 : Int) = -1 ∨ (0 ≤ (0 : Int) ∧ (0 : Int) ≤ 0x7F)) ∧ 0 ≤ (256 : Int) ∧ (256 : Int) ≤ 255) := by
  decide
theorem witness_frame_bytes : (Frame.write 0x7F 0xFF).bytes = [0xFF, 0xFF] ∧ (Frame.read 0x7F).bytes = [0x7F, 0x00] := by decide
theorem witness_answers :
    ((rest false .ready [.bytes [1]]).env.exchange [0x02, 0x00]).1 = some [1, 0]
      ∧ ((rest false .ready [.busFail]).env.exchange [0x02, 0x00]).1 = none := by
  decide
theorem witness_sim_sensor :
    ({ (rest false .ready []).env with oracle := .sim [(0, 0x49)] [] } : Env).oracle = .sim [(0, 0x49)] []
      ∧ (0xFF : Byte).getLsbD 7 = true ∧ (0x7F : Byte).getLsbD 7 = false ∧ ([0x16, 0, 0] : List Byte).length ≠ 2 := by
  decide

/-- A transaction asked for, with the select's next answer. -/
def asking (sw ok : Bool) (f : Frame) : State :=
  { mid sw .ready .regDone 0x20000200 [.bytes [0, 1]] with
    tx := { frame := f, phase := .requested }
    env := { (rest sw .ready [.bytes [0, 1]]).env with csAnswers := [ok] } }

theorem witness_select_brackets :
    (asking true true (.read 0x02)).cfg.swCs = true ∧ (asking true true (.read 0x02)).tx.frame = .read 0x02
      ∧ (asking true true (.read 0x02)).tx.phase = .requested ∧ (asking true true (.read 0x02)).env.csAnswer.1 = true
      ∧ (asking true false .motionBurst).env.csAnswer.1 = false ∧ (asking true false .motionBurst).tx.phase = .requested := by
  decide
theorem witness_native_select :
    (asking false true (.write 0x7F 0xFF)).cfg.swCs = false ∧ (asking false true (.write 0x7F 0xFF)).tx.phase = .requested
      ∧ (asking false true (.write 0x7F 0xFF)).tx.frame = .write 0x7F 0xFF := by
  decide
theorem witness_transport_plain (p : Point) (cs : Bool) :
    (lost (.read 0x02) cs (mid true .ready p 0x20000200 [])).tx.phase = .ended (.failed cs)
      ∧ (lost (.read 0x02) cs (mid true .ready p 0x20000200 [])).point = p := ⟨rfl, rfl⟩
theorem witness_accept :
    (rest false .failed []).status.busy = false ∧ (rest false .failed []).point ≠ .boot
      ∧ ({ rest false .failed [] with inputs := [.write 0 4 0xFFFFFFFF] } : State).inputs = .write 0x000 4 0xFFFFFFFF :: []
      ∧ (mid false .ready .start 0x20000200 []).status.busy = true ∧ (mid false .ready .start 0x20000200 []).point ≠ .boot := by
  decide
theorem witness_argument_checks :
    (Instr.readRegs 0x7F 2).isCommand = true ∧ (mid false .ready .start 0x30007F02 []).point = .start
      ∧ permitted (.readRegs 0x7F 2) (mid false .ready .start 0x30007F02 []).dev.state = true
      ∧ (mid false .ready .start 0x30007F02 []).cfg.wf = true
      ∧ (0x7F : Addr7).toNat + (2 : Byte).toNat - 1 > 0x7F ∧ ¬((0x7F : Addr7).toNat + (1 : Byte).toNat - 1 > 0x7F)
      ∧ ¬((0x00 : Addr7).toNat + (128 : Byte).toNat - 1 > 0x7F) ∧ (0x00 : Addr7).toNat + (129 : Byte).toNat - 1 > 0x7F
      ∧ (11 : BitVec 4).toNat > 10 ∧ ¬((10 : BitVec 4).toNat > 10) ∧ (360 : BitVec 9).toNat ≠ 270
      ∧ permitted (.playSeq 11) .uninit = true ∧ permitted (.setRotation 360) .ready = true := by
  decide
theorem witness_permissions :
    (mid false .failed .start 0x20000200 []).dev.state = .failed ∧ (mid false .ready .start 0x60000000 []).dev.state ≠ .uninit
      ∧ (mid false .failed .start 0x60000000 []).dev.state ≠ .uninit
      ∧ (mid false .uninit .start 0x70000000 []).dev.state ≠ .ready ∧ (mid false .failed .start 0xB0000000 []).point = .start := by
  decide

/-- A full result and a full frame, and a host input to come. -/
def reading (i : Input) : State := { capturing .complete 0xC0 1225 (rest false .ready []) with respLen := 256, inputs := [i] }

theorem witness_host_reads :
    (reading (.read 0x034 4)).point ≠ .boot ∧ (reading (.read 0x034 4)).respLen ≤ 256
      ∧ (reading (.read 0x034 4)).fc.pixelCount ≤ 1225 ∧ (reading (.read 0x034 4)).inputs = .read 0x034 4 :: []
      ∧ (reading (.read 0x000 4)).inputs = .read 0x000 4 :: [] := by
  decide
theorem witness_host_buffers :
    (reading (.read 0x1FF 1)).inputs = .read 0x1FF 1 :: [] ∧ (0x1FF : BitVec 12).toNat = 0x100 + 255
      ∧ (0xCC8 : BitVec 12).toNat = 0x800 + 1224 ∧ (0x1FC : BitVec 12).toNat = 0x100 + 252 ∧ 252 % 4 = 0 ∧ 1224 % 4 = 0
      ∧ (0x0FD : BitVec 12).toNat % 4 ≠ 0 ∧ (0x0FF : BitVec 12).toNat < 0x100 ∧ 0x038 ≤ (0x038 : BitVec 12).toNat
      ∧ 0x200 ≤ (0x7FF : BitVec 12).toNat ∧ (0x7FF : BitVec 12).toNat < 0x800 ∧ 0xCC9 ≤ (0xCC9 : BitVec 12).toNat
      ∧ (reading (.write 0x004 4 1)).inputs = .write 0x004 4 1 :: [] ∧ ¬((0x004 : BitVec 12).toNat = 0 ∧ (4 : Nat) = 4)
      ∧ ¬((0x000 : BitVec 12).toNat = 0 ∧ (1 : Nat) = 4) := by
  decide
theorem witness_configurations :
    (toy true).seqRom.length = 11
      ∧ (∀ seg ∈ (toy true).seqRom, ∀ w ∈ seg, (w.extractLsb' 8 8).toNat ≤ 0x7F ∨ w.extractLsb' 8 8 = 0xFF)
      ∧ [(toy true).rotation.deg0, (toy true).rotation.deg90, (toy true).rotation.deg180, (toy true).rotation.deg270].Nodup
      ∧ (∀ b ∈ [(toy true).rotation.deg0, (toy true).rotation.deg90, (toy true).rotation.deg180, (toy true).rotation.deg270],
          b.extractLsb' 0 5 = 0)
      ∧ ¬({ toy true with seqRom := [] } : Config).seqRom.length = 11 :=
  ⟨by decide, by simp [toy, rom], by decide, by decide, by decide⟩
theorem witness_reset (sw : Bool) :
    ({ mid sw .failed .regDone 0x20000200 [] with inputs := [.reset] } : State).point ≠ .boot
      ∧ ({ mid sw .failed .regDone 0x20000200 [] with inputs := [.reset] } : State).inputs = .reset :: []
      ∧ ({ mid sw .failed .regDone 0x20000200 [] with inputs := [.reset] } : State).cfg.swCs = sw := by
  cases sw <;> decide
theorem witness_step_runs :
    ControllerTurn (rest false .ready []) (rest false .ready []) ∧ (rest false .ready []).point = .idle
      ∧ (∀ s : State, ControllerTurn { s with inputs := [.pass] } { s with inputs := [] })
      ∧ (asking true true (.read 0x02)).busBusy = true ∧ (asking true true (.read 0x02)).point ≠ .idle
      ∧ (mid false .ready .checkDeadline 0x70000064 []).busBusy = false
      ∧ decode (.command (mid false .ready .checkDeadline 0x70000064 []).curCmd) = .ok (.burstRead 100) :=
  ⟨.inl ⟨rfl, rfl⟩, by decide, fun _ => .inr ⟨[], rfl, rfl⟩, by decide, by decide, by decide, by decide⟩

/-! ### Witnesses: states of the invariant, and what their steps do -/

/-- P3: at the deadline reading of `BURST_READ 2`, 3000 µs after T0. -/
def burstLate : State := clockAt 3000 (mid false .ready .deadlineRead 0x70000002 [])
/-- The same of `SLOW_READ 2`. -/
def slowLate : State := clockAt 3000 (mid false .ready .deadlineRead 0x80000002 [])
/-- The grab-ready poll of `FRAME_CAPTURE 2` after an unready byte, at its deadline. -/
def initLate : State := clockAt 3000 (capturing .waitingForGrabReady 0x80 0 (mid false .ready .initClockRead 0x90000002 []))
/-- The stream of `FRAME_CAPTURE 2`, at its deadline. -/
def streamLate : State := clockAt 3000 (capturing .streaming 0xC0 1224 (mid false .ready .streamClockRead 0x90000002 []))

theorem inv_burstLate : Inv burstLate :=
  inv_of_check rfl (by decide)
theorem inv_slowLate : Inv slowLate :=
  inv_of_check rfl (by decide)
theorem inv_initLate : Inv initLate :=
  inv_of_check rfl (by decide)
theorem inv_streamLate : Inv streamLate :=
  inv_of_check rfl (by decide)

theorem witness_timeouts :
    (∃ t, step burstLate = .next t ∧ Emits (.ended .timeout) burstLate t)
      ∧ (∃ t, step slowLate = .next t ∧ Emits (.ended .timeout) slowLate t)
      ∧ (∃ t, step initLate = .next t ∧ Emits (.ended .timeout) initLate t)
      ∧ ∃ t, step streamLate = .next t ∧ Emits (.ended .timeout) streamLate t :=
  ⟨emits_of_after (by decide), emits_of_after (by decide), emits_of_after (by decide), emits_of_after (by decide)⟩

/-- `BURST_READ 100` past its checks: T0 is read. -/
def burstBegins : State := mid false .ready .start 0x70000064 []

theorem inv_burstBegins : Inv burstBegins :=
  inv_of_check rfl (by decide)

/-- The clock has been read for its T0. -/
def burstT0 : State := clockAt 5 (mid false .ready .loopT0Read 0x70000064 [])

theorem witness_t0_is_read :
    Inv burstBegins ∧ (∃ t, step burstBegins = .next t ∧ (t.point == .loopT0Read && t.point != burstBegins.point) = true)
      ∧ Inv burstT0 ∧ ∃ t, step burstT0 = .next t ∧ (t.t0 != burstT0.t0) = true :=
  ⟨inv_burstBegins, next_of_after (by decide), inv_of_check rfl (by decide), next_of_after (by decide)⟩

/-- An idle machine with a host input to come. -/
def idleWith (i : Input) : State := { rest true .ready [] with inputs := [i] }

theorem witness_reset_and_accept :
    Inv (idleWith .reset) ∧ ResetStep (idleWith .reset) ∧ (∃ t, step (idleWith .reset) = .next t ∧ Emits .reset (idleWith .reset) t)
      ∧ Inv (idleWith (.write 0 4 0x20000200))
      ∧ (∃ t, step (idleWith (.write 0 4 0x20000200)) = .next t
        ∧ Emits (.accept 0x20000200) (idleWith (.write 0 4 0x20000200)) t)
      ∧ Bracketed (idleWith .reset) :=
  ⟨inv_of_check rfl (by decide), ⟨by decide, [], rfl⟩, emits_of_after (by decide), inv_of_check rfl (by decide),
    emits_of_after (by decide), fun _ => rfl, fun h => by cases h⟩

/-- The exchange of a read under way inside its bracket. -/
def exchanging : State :=
  { mid true .ready .regDone 0x20000200 [.bytes [0, 0x5A]] with
    tx := { frame := .read 0x02, phase := .selected }, trace := [.cs .asserted true] }

theorem witness_exchange :
    Inv exchanging ∧ Bracketed exchanging
      ∧ ∃ t, step exchanging = .next t ∧ Emits (.xfer [0x02, 0x00] (some [0, 0x5A])) exchanging t :=
  ⟨inv_of_check rfl (by decide), ⟨fun _ => rfl, fun h => by cases h⟩, emits_of_after (by decide)⟩

theorem witness_now : ∃ t, step burstBegins = .next t ∧ Emits (.now 0) burstBegins t := emits_of_after (by decide)

/-- A WAIT step of A_TAIL to come. -/
def waitStep : State := mid false .ready .start 0x50000003 []

theorem witness_sleep : ∃ t, step waitStep = .next t ∧ Emits (.sleep 10 0 10000) waitStep t :=
  emits_of_after (by decide)

/-- `READ_REG 0x02` whose read has been answered. -/
def readDone : State := got (.read 0x02) [0, 0x5A] (mid false .ready .regDone 0x20000200 [])

theorem witness_success_end :
    Inv readDone ∧ ¬ResetStep readDone ∧ readDone.point ≠ .boot ∧ readDone.status.busy = true
      ∧ (∃ t, step readDone = .next t ∧ Emits (.ended .none) readDone t)
      ∧ ∃ t, step readDone = .next t
        ∧ (t.result != readDone.result && t.respLen != readDone.respLen && !t.status.busy) = true :=
  ⟨inv_of_check rfl (by decide), fun ⟨_, _, h⟩ => (by cases h), by decide, rfl, emits_of_after (by decide),
    next_of_after (by decide)⟩

/-- `SET_ROTATION 90` answered; a burst answered; a fragment answered. -/
def rotationDone : State := got (.write 0x5B 0x40) [0, 0] (mid false .ready .regDone 0xB000005A [])
def burstDone : State := got .motionBurst (List.replicate 13 0) (mid false .ready .burstRead 0x70000064 [])
def fragmentRead (pixels : Nat) : State :=
  got (.read 0x58) [0, 0x84] (capturing .streaming 0xC0 pixels (mid false .ready .fragmentRead 0x900003E8 []))

theorem witness_listed_registers :
    (∃ t, step rotationDone = .next t ∧ (t.orient != rotationDone.orient) = true)
      ∧ (∃ t, step burstDone = .next t ∧ (t.sample != burstDone.sample) = true)
      ∧ ∃ t, step (fragmentRead 0) = .next t
        ∧ (t.fc != (fragmentRead 0).fc && t.pixelByte 0 != (fragmentRead 0).pixelByte 0) = true :=
  ⟨next_of_after (by decide), next_of_after (by decide), next_of_after (by decide)⟩

/-- `BRING_UP A` at its identity check, with revision r. -/
def identity (r : Byte) : State :=
  { got (.read 0x01) [0, r] (inPhase .idCheck (mid false .uninit .idRead 0x60000000 [])) with rrIndex := 1, rrOut := [0x49] }

theorem witness_lifecycle :
    Inv (identity 0x01) ∧ running (identity 0x01) = some (.bringUp .a) ∧ (identity 0x01).dev.state = .uninit
      ∧ (∃ t, step (identity 0x01) = .next t ∧ Emits (.ended .none) (identity 0x01) t)
      ∧ (∃ t, step (identity 0x01) = .next t ∧ (t.dev.state == .ready) = true) ∧ Inv (identity 0x02)
      ∧ (∃ t, step (identity 0x02) = .next t ∧ Emits (.ended .identityMismatch) (identity 0x02) t)
      ∧ ∃ t, step (identity 0x02) = .next t ∧ (t.dev.state == .failed) = true :=
  ⟨inv_of_check rfl (by decide), by decide, rfl, emits_of_after (by decide), next_of_after (by decide),
    inv_of_check rfl (by decide), emits_of_after (by decide), next_of_after (by decide)⟩

/-- The begin of `BRING_UP A`, its mid-sequence at its end, and its tail at its end. -/
def bringUpBegins : State := mid false .uninit .start 0x60000000 [.bytes [0, 0]]
def midEnds : State :=
  { got (.write 0x4D 0x11) [0, 0] (inPhase .mid (mid false .uninit .stepWritten 0x60000000 [.bytes [0, 1]])) with
    seqSeg := 1, seqPc := 0 }
/-- Branch B's status byte is 0x01: SUB and WRITEBACK are left out. -/
def statNotZero : State :=
  got (.read 0x73) [0, 1] (inPhase .branchB (mid false .uninit .statRead 0x60000000 [.bytes [0, 1]]))
def resetLost : State := lost (.write 0x3A 0x5A) false (inPhase .reset (mid false .uninit .resetWritten 0x60000000 []))

theorem witness_phases :
    Inv bringUpBegins ∧ (∃ t, step bringUpBegins = .next t ∧ (t.cal.phase == .reset) = true)
      ∧ Inv midEnds ∧ (∃ t, step midEnds = .next t ∧ (t.cal.phase == .branchB) = true)
      ∧ Inv statNotZero ∧ (∃ t, step statNotZero = .next t ∧ (t.cal.phase == .tail && !t.cal.bTaken) = true)
      ∧ Inv resetLost ∧ ∃ t, step resetLost = .next t ∧ (t.cal.phase == .failed && t.cal.failPhase == .reset) = true :=
  ⟨inv_of_check rfl (by decide), next_of_after (by decide), inv_of_check rfl (by decide), next_of_after (by decide),
    inv_of_check rfl (by decide), next_of_after (by decide), inv_of_check rfl (by decide), next_of_after (by decide)⟩

def captureBegins : State := mid false .ready .start 0x90000002 [.bytes [0, 0]]
def captureSettled : State := capturing .configuring 0 0 (mid false .ready .captureWaited 0x90000002 [])
def triggered : State :=
  got (.write 0x58 0x00) [0, 0] (capturing .waitingForGrabReady 0xC0 0 (mid false .ready .triggerWritten 0x90000002 []))
def triggerLost : State :=
  lost (.write 0x58 0x00) false (capturing .waitingForGrabReady 0xC0 0 (mid false .ready .triggerWritten 0x90000002 []))

theorem witness_capture_states :
    Inv captureBegins ∧ (∃ t, step captureBegins = .next t ∧ (t.fc.state == .configuring) = true)
      ∧ Inv captureSettled ∧ (∃ t, step captureSettled = .next t ∧ (t.fc.state == .waitingForGrabReady) = true)
      ∧ Inv triggered ∧ (∃ t, step triggered = .next t ∧ (t.fc.state == .streaming) = true)
      ∧ Inv (fragmentRead 1224) ∧ (∃ t, step (fragmentRead 1224) = .next t ∧ (t.fc.state == .complete) = true)
      ∧ (∃ t, step initLate = .next t ∧ (t.fc.state == .timedOut && t.fc.initTimeout) = true)
      ∧ (∃ t, step streamLate = .next t ∧ (t.fc.state == .timedOut) = true)
      ∧ Inv triggerLost ∧ ∃ t, step triggerLost = .next t ∧ (t.fc.state == .aborted) = true :=
  ⟨inv_of_check rfl (by decide), next_of_after (by decide), inv_of_check rfl (by decide), next_of_after (by decide),
    inv_of_check rfl (by decide), next_of_after (by decide), inv_of_check rfl (by decide), next_of_after (by decide),
    next_of_after (by decide), next_of_after (by decide), inv_of_check rfl (by decide), next_of_after (by decide)⟩

/-! ### Witnesses: the points of each command -/

theorem witness_write_reg :
    (mid true .uninit .start 0x10003A5A []).point = .start ∧ (mid true .uninit .start 0x10003A5A []).dev.state ≠ .failed
      ∧ Answered [0xFF, 0xFF] (got (.write 0x3A 0x5A) [0xFF, 0xFF] (mid true .uninit .regDone 0x10003A5A [])) :=
  ⟨rfl, by decide, rfl⟩
theorem witness_read_reg :
    (mid true .ready .start 0x20007F00 []).point = .start ∧ (mid true .ready .start 0x20007F00 []).dev.state ≠ .failed
      ∧ readDone.point = .regDone ∧ Answered [0, 0x5A] readDone :=
  ⟨rfl, by decide, rfl, rfl⟩
theorem witness_read_regs :
    (mid true .ready .start 0x30000000 []).dev.state ≠ .failed ∧ 1 ≤ (1 : Byte).toNat
      ∧ (0x7F : Addr7).toNat + (1 : Byte).toNat - 1 ≤ 0x7F
      ∧ Answered [0, 7] (got (.read 0x02) [0, 7] (mid true .ready .regsRead 0x30000202 []))
      ∧ (mid true .ready .regsRead 0x30000202 []).rrIndex.toNat + 1 < (2 : Byte).toNat
      ∧ (2 : Byte).toNat ≤ ({ mid true .ready .regsRead 0x30000202 [] with rrIndex := 1 } : State).rrIndex.toNat + 1 :=
  ⟨by decide, by decide, by decide, rfl, by decide, by decide⟩
theorem witness_burst_xfer :
    (mid true .uninit .start 0x400016FF []).dev.state ≠ .failed
      ∧ Answered (List.replicate 256 1) (got (.burst 0x16 255) (List.replicate 256 1) (mid true .uninit .regDone 0x400016FF []))
      ∧ (List.replicate 256 (1 : Byte)).length = (255 : Byte).toNat + 1 :=
  ⟨by decide, rfl, List.length_replicate⟩
/-- A segment at its start, at its write step's end, and at its own end. -/
theorem witness_play_seq :
    (toy true).wf = true ∧ (mid true .uninit .start 0x5000000A []).point = .start ∧ (10 : BitVec 4).toNat ≤ 10
      ∧ ({ mid true .uninit .start 0x5000000A [] with seqSeg := 10, seqPc := 0 } : State).stepWord = some (0#1 ++ 0x7F#7 ++ 0x07#8)
      ∧ ({ mid true .uninit .stepWritten 0x5000000A [] with seqSeg := 10, seqPc := 0 + 1 } : State).stepWord
        = some (0xFF#8 ++ 0x0A#8)
      ∧ ({ mid true .uninit .stepWaited 0x5000000A [] with seqSeg := 10, seqPc := 2 + 1 } : State).stepWord = none
      ∧ Answered [0, 0] (got (.write 0x7F 0x07) [0, 0] (mid true .uninit .stepWritten 0x5000000A [])) :=
  ⟨by decide, rfl, by decide, by decide, by decide, by decide, rfl⟩
theorem witness_bring_up :
    (mid true .uninit .start 0x60000001 []).dev.state = .uninit
      ∧ Answered [0, 0] (got (.write 0x3A 0x5A) [0, 0] (mid true .uninit .resetWritten 0x60000001 []))
      ∧ (mid true .uninit .resetWaited 0x60000001 []).point = .resetWaited
      ∧ ({ mid true .uninit .flushRead 0x60000001 [] with rrIndex := 3 } : State).rrIndex.toNat < 4
      ∧ ({ mid true .uninit .flushRead 0x60000001 [] with rrIndex := 4 } : State).rrIndex.toNat = 4 ∧ (toy true).wf = true :=
  ⟨rfl, rfl, rfl, by decide, by decide, by decide⟩
theorem witness_bring_up_segments :
    midEnds.cfg.wf = true ∧ midEnds.cal.phase ∈ [BuPhase.prologue, .mid, .sub, .tail, .trailer]
      ∧ midEnds.point = .stepWritten ∧ Answered [0, 0] midEnds
      ∧ ({ midEnds with
          seqPc := midEnds.seqPc + 1, tx := Taken midEnds, csLevel := TakenLevel midEnds } : State).stepWord = none :=
  ⟨by decide, by decide, rfl, rfl, by decide⟩
theorem witness_branch_a :
    Answered [0, 0x80] (got (.read 0x67) [0, 0x80] (mid true .uninit .diagRead 0x60000000 [])) ∧ (0x80 : Byte).getLsbD 7 = true
      ∧ (0x7F : Byte).getLsbD 7 = false
      ∧ Answered [0, 0] (got (.write 0x48 0x04) [0, 0] (mid true .uninit .cfgWritten 0x60000000 [])) :=
  ⟨rfl, by decide, by decide, rfl⟩
theorem witness_branch_b (p : Point) (b : Byte) :
    Answered [0, b] (got (.read 0x73) [0, b] (mid true .uninit p 0x60000000 []))
      ∧ (got (.read 0x73) [0, b] (mid true .uninit p 0x60000000 [])).point = p ∧ (0x01 : Byte) ≠ 0x00
      ∧ (toy true).wf = true :=
  ⟨rfl, rfl, by decide, by decide⟩
theorem witness_identity :
    (identity 0x01).point = .idRead ∧ Answered [0, 0x01] (identity 0x01) ∧ (identity 0x01).rrIndex = 1
      ∧ (identity 0x01).rrOut = [0x49]
      ∧ Answered [0, 0x49] (got (.read 0x00) [0, 0x49] (mid true .uninit .idRead 0x60000000 []))
      ∧ (mid true .uninit .idRead 0x60000000 []).rrIndex = 0 :=
  ⟨rfl, rfl, rfl, rfl, rfl, rfl⟩
theorem witness_calibration :
    (14 : Byte).toNat ≤ 14 ∧ 15 ≤ (15 : Byte).toNat ∧ (28 : Byte).toNat ≤ 28 ∧ 29 ≤ (29 : Byte).toNat
      ∧ (52 : Byte).toNat ≤ 52 ∧ 53 ≤ (53 : Byte).toNat ∧ 53 ≤ (255 : Byte).toNat := by
  decide
/-- The deadline of 100 ms: at 100 000 it has not passed, at 100 001 it has. -/
theorem witness_burst_read :
    burstBegins.point = .start ∧ burstBegins.dev.state = .ready ∧ burstT0.point = .loopT0Read ∧ burstDone.point = .burstRead
      ∧ Answered (List.replicate 13 0) burstDone ∧ (List.replicate 13 (0 : Byte)).length = 13
      ∧ ¬((clockAt 100000 burstBegins).env.clock - (clockAt 100000 burstBegins).t0 > (100 : BitVec 24).toNat * 1000)
      ∧ (clockAt 100001 burstBegins).env.clock - (clockAt 100001 burstBegins).t0 > (100 : BitVec 24).toNat * 1000 :=
  ⟨rfl, rfl, rfl, rfl, rfl, by decide, by decide, by decide⟩
/-- A slow read's last byte, with data ready and without. -/
theorem witness_slow_read :
    Answered [0, 1] (got (.read 0x06) [0, 1] { mid false .ready .regsRead 0x80000064 [] with rrIndex := 4 })
      ∧ (({ mid false .ready .regsRead 0x80000064 [] with rrIndex := 4, mem := [(0x100, 0x80)] } : State).respByte 0).getLsbD 7 = true
      ∧ (({ mid false .ready .regsRead 0x80000064 [] with rrIndex := 4, mem := [(0x100, 0x7F)] } : State).respByte 0).getLsbD 7 = false
      ∧ ({ mid false .ready .regsRead 0x80000064 [] with rrIndex := 3 } : State).rrIndex.toNat < 4 :=
  ⟨rfl, by decide, by decide, by decide⟩
theorem witness_orientation :
    (toy false).wf = true ∧ rotationDone.point = .regDone ∧ Answered [0, 0] rotationDone ∧ rotationDone.cfg.rotation.deg90 = 0x40
      ∧ (mid true .ready .start 0xA00000E0 []).dev.state = .ready ∧ (mid true .ready .start 0xA00000E0 []).point = .start :=
  ⟨by decide, rfl, rfl, rfl, rfl, rfl⟩
theorem witness_capture_configures :
    captureBegins.cfg.wf = true ∧ captureBegins.point = .start ∧ captureBegins.dev.state = .ready
      ∧ ({ capturing .configuring 0 0 (mid false .ready .stepWaited 0x90000002 []) with
          seqSeg := 10, seqPc := 2 + 1 } : State).stepWord = none := by
  decide
theorem witness_capture_waits :
    captureSettled.point = .captureWaited ∧ (mid false .ready .initT0Read 0x90000002 []).point = .initT0Read
      ∧ (mid false .ready .pollGrab 0x90000002 []).point = .pollGrab
      ∧ Answered [0, 0xC0] (got (.read 0x59) [0, 0xC0] (mid false .ready .grabRead 0x90000002 []))
      ∧ (0xC0 : Byte) &&& 0xC0 = 0xC0 ∧ (0xBF : Byte) &&& 0xC0 ≠ 0xC0
      ∧ initLate.env.clock - initLate.t0 > (2 : BitVec 24).toNat * 1000
      ∧ (clockAt 2000 initLate).env.clock - (clockAt 2000 initLate).t0 ≤ (2 : BitVec 24).toNat * 1000
      ∧ (clockAt 2000 initLate).cfg.framePollSleepMs = 0
      ∧ ({ clockAt 2000 initLate with cfg := { toy false with framePollSleepMs := 1 } } : State).cfg.framePollSleepMs > 0 :=
  ⟨rfl, rfl, rfl, rfl, by decide, by decide, by decide, by decide, by decide, by decide⟩
theorem witness_capture_streams :
    triggered.point = .triggerWritten ∧ Answered [0, 0] triggered
      ∧ (mid false .ready .streamT0Read 0x90000002 []).point = .streamT0Read
      ∧ (mid false .ready .pollStream 0x90000002 []).point = .pollStream
      ∧ (fragmentRead 1224).point = .fragmentRead ∧ Answered [0, 0x84] (fragmentRead 1224)
      ∧ (fragmentRead 1224).fc.pixelCount < 1225 ∧ streamLate.point = .streamClockRead
      ∧ streamLate.env.clock - streamLate.t0 > (2 : BitVec 24).toNat * 1000
      ∧ (clockAt 2000 streamLate).env.clock - (clockAt 2000 streamLate).t0 ≤ (2 : BitVec 24).toNat * 1000
      ∧ (clockAt 2000 streamLate).cfg.framePollSleepMs = 0 :=
  ⟨rfl, rfl, rfl, rfl, rfl, rfl, by decide, rfl, by decide, by decide, by decide⟩
theorem witness_fragments :
    decode (.fragment 0x7F) = .ok (.fragUpper 0x3F) ∧ decode (.fragment 0xBF) = .ok (.fragLower 0x3F)
      ∧ decode (.fragment 0x00) = .ok (.fragNone00 0) ∧ decode (.fragment 0xC0) = .ok (.fragNone11 0)
      ∧ (fragmentRead 1224).fc.pixelCount < 1225 ∧ (fragmentRead 0).fc.haveUpper = false
      ∧ (fragmentRead 0).cfg.lowerSrc = .bits32
      ∧ ({ fragmentRead 0 with cfg := { toy false with lowerSrc := .bits10 } } : State).cfg.lowerSrc = .bits10 := by
  decide

/-! ### Witnesses: whole commands, each in one concrete state -/

/-- The select calls of the next n transactions answer OK. -/
def selectsOk (n : Nat) (s : State) : State := { s with env := { s.env with csAnswers := List.replicate (2 * n) true } }

theorem selectsOk_spec (n : Nat) (s : State) : SelectsOk n (selectsOk n s) := fun _ => ⟨[], by simp [selectsOk]⟩

/-- SIM_SENSOR, all of whose registers hold 0x00, and host inputs to come. -/
def simulated (sw : Bool) (inputs : List Input) : State :=
  { selectsOk 2 (rest sw .uninit []) with
    env := { (selectsOk 2 (rest sw .uninit [])).env with oracle := .sim [] [] }
    inputs := inputs }

/-- The host's inputs for `WRITE_REG 0x7F, 0xFF` and `READ_REG 0x7F`. -/
def writeRead (passes : List Input) : List Input :=
  .write 0x000 4 (0x1#4 ++ 0#13 ++ 0x7F#7 ++ 0xFF#8) :: passes ++ [.write 0x000 4 (0x2#4 ++ 0#13 ++ 0x7F#7 ++ 0#8)]

def writeReadNative : State := simulated false (writeRead [.pass, .pass])
def writeReadSelect : State := simulated true (writeRead [.pass, .pass, .pass, .pass])

theorem witness_write_then_read :
    (writeReadNative.point = .idle ∧ writeReadNative.status.busy = false ∧ writeReadNative.tx.phase = .idle
        ∧ writeReadNative.dev.state ≠ .failed ∧ writeReadNative.env.oracle = .sim [] [] ∧ writeReadNative.cfg.swCs = false
        ∧ writeReadNative.inputs
          = [.write 0x000 4 (0x1#4 ++ 0#13 ++ 0x7F#7 ++ 0xFF#8), .pass, .pass,
            .write 0x000 4 (0x2#4 ++ 0#13 ++ 0x7F#7 ++ 0#8)])
      ∧ writeReadSelect.point = .idle ∧ writeReadSelect.status.busy = false ∧ writeReadSelect.tx.phase = .idle
      ∧ writeReadSelect.dev.state ≠ .failed ∧ writeReadSelect.env.oracle = .sim [] [] ∧ writeReadSelect.cfg.swCs = true
      ∧ writeReadSelect.env.csAnswers = true :: true :: true :: true :: []
      ∧ writeReadSelect.inputs
        = [.write 0x000 4 (0x1#4 ++ 0#13 ++ 0x7F#7 ++ 0xFF#8), .pass, .pass, .pass, .pass,
          .write 0x000 4 (0x2#4 ++ 0#13 ++ 0x7F#7 ++ 0#8)] :=
  ⟨⟨rfl, rfl, rfl, by decide, rfl, rfl, rfl⟩, rfl, rfl, rfl, by decide, rfl, rfl, rfl, rfl⟩

/-- An accepted `READ_REGS 0x7F, 1`. -/
def readRegsRun (sw : Bool) : State := selectsOk 1 (mid sw .uninit .start 0x30007F01 [.bytes [3, 0x49]])

theorem witness_read_regs_run (sw : Bool) :
    1 ≤ [((3 : Byte), (0x49 : Byte))].length ∧ (0x7F : Addr7).toNat + [((3 : Byte), (0x49 : Byte))].length ≤ 128
      ∧ Accepted (0x3#4 ++ 0#13 ++ 0x7F#7 ++ BitVec.ofNat 8 [((3 : Byte), (0x49 : Byte))].length) (readRegsRun sw)
      ∧ (readRegsRun sw).dev.state ≠ .failed
      ∧ (readRegsRun sw).env.oracle = .script ([((3 : Byte), (0x49 : Byte))].map (fun p => .bytes [p.1, p.2]) ++ [])
      ∧ SelectsOk [((3 : Byte), (0x49 : Byte))].length (readRegsRun sw) :=
  ⟨by decide, by decide, ⟨rfl, by decide +revert, rfl, rfl⟩, by decide +revert, rfl, selectsOk_spec _ _⟩

/-- An accepted `PLAY_SEQ PRECAPTURE` of the toy ROM: two writes and a WAIT. -/
def playSeqRun (sw : Bool) : State := selectsOk 2 (mid sw .uninit .start 0x5000000A [.bytes [1, 2], .bytes [3, 4]])

theorem witness_play_seq_run (sw : Bool) :
    (10 : BitVec 4).toNat ≤ 10 ∧ (playSeqRun sw).cfg.wf = true
      ∧ ([0x7F07, 0xFF0A, 0x4C00] : List (BitVec 16)) = (playSeqRun sw).cfg.segment (10 : BitVec 4).toNat
      ∧ Accepted (0x5#4 ++ 0#24 ++ 10#4) (playSeqRun sw) ∧ (playSeqRun sw).dev.state ≠ .failed
      ∧ [((1 : Byte), (2 : Byte)), (3, 4)].length
        = ([0x7F07, 0xFF0A, 0x4C00] : List (BitVec 16)).countP (fun w => w.extractLsb' 8 8 != 0xFF)
      ∧ (playSeqRun sw).env.oracle = .script ([((1 : Byte), (2 : Byte)), (3, 4)].map (fun p => .bytes [p.1, p.2]) ++ [])
      ∧ SelectsOk [((1 : Byte), (2 : Byte)), (3, 4)].length (playSeqRun sw) :=
  ⟨by decide, by decide +revert, rfl, ⟨rfl, by decide +revert, rfl, rfl⟩, by decide +revert, by decide, rfl,
    selectsOk_spec _ _⟩

/-- An accepted `BRING_UP B` over a ROM of empty segments, its n transactions answered by the byte pairs of a list. -/
def bringUpRun (sw : Bool) (n : Nat) (answers : List (Byte × Byte)) : State :=
  { selectsOk n (mid sw .uninit .start 0x60000001 (answers.map (fun x => .bytes [x.1, x.2]) ++ [])) with
    cfg := { toy sw with seqRom := List.replicate 11 [] } }

theorem empty_rom_segments (sw : Bool) (seg : Nat) :
    ({ toy sw with seqRom := List.replicate 11 [] } : Config).segment seg = [] := by
  simp only [Config.segment, List.getD_eq_getElem?_getD, List.getElem?_replicate]
  split <;> rfl

/-- Branch B is not taken on the status byte 0x01. -/
def runNotTaken (sw : Bool) : State :=
  bringUpRun sw 11 [(9, 8), (7, 6), (5, 4), (3, 2), (1, 0), (1, 1), (2, 0x80), (3, 3), (4, 0x01), (5, 0x49), (6, 0x01)]

/-- Branch B is taken on the status byte 0x00. -/
def runTaken (sw : Bool) : State :=
  bringUpRun sw 15
    [(9, 8), (7, 6), (5, 4), (3, 2), (1, 0), (1, 1), (2, 0x80), (3, 3), (4, 0x00), (5, 28), (6, 100), (7, 7), (8, 8),
      (5, 0x49), (6, 0x02)]

theorem witness_bring_up_run (sw : Bool) :
    Accepted (0x6#4 ++ 0#27 ++ Variant.bit .b) (runNotTaken sw) ∧ (runNotTaken sw).dev.state = .uninit
      ∧ (runNotTaken sw).cfg.wf = true ∧ (∀ seg, (runNotTaken sw).cfg.segment seg = [])
      ∧ ((4, 0x01) : Byte × Byte).2 ≠ 0x00
      ∧ (runNotTaken sw).env.oracle
        = .script
          ([((9 : Byte), (8 : Byte)), (7, 6), (5, 4), (3, 2), (1, 0), (1, 1), (2, 0x80), (3, 3), (4, 0x01), (5, 0x49),
            (6, 0x01)].map (fun x => .bytes [x.1, x.2]) ++ [])
      ∧ SelectsOk 11 (runNotTaken sw) :=
  ⟨⟨rfl, by decide +revert, rfl, rfl⟩, rfl, by decide +revert, empty_rom_segments sw, by decide, rfl,
    fun _ => ⟨[], by simp [runNotTaken, bringUpRun, selectsOk]⟩⟩

theorem witness_bring_up_run_branch_b (sw : Bool) :
    Accepted (0x6#4 ++ 0#27 ++ Variant.bit .b) (runTaken sw) ∧ (runTaken sw).dev.state = .uninit
      ∧ (runTaken sw).cfg.wf = true ∧ (∀ seg, (runTaken sw).cfg.segment seg = []) ∧ ((4, 0x00) : Byte × Byte).2 = 0x00
      ∧ (runTaken sw).env.oracle
        = .script
          ([((9 : Byte), (8 : Byte)), (7, 6), (5, 4), (3, 2), (1, 0), (1, 1), (2, 0x80), (3, 3), (4, 0x00), (5, 28),
            (6, 100), (7, 7), (8, 8), (5, 0x49), (6, 0x02)].map (fun x => .bytes [x.1, x.2]) ++ [])
      ∧ SelectsOk 15 (runTaken sw) :=
  ⟨⟨rfl, by decide +revert, rfl, rfl⟩, rfl, by decide +revert, empty_rom_segments sw, by decide, rfl,
    fun _ => ⟨[], by simp [runTaken, bringUpRun, selectsOk]⟩⟩

/-- 1225 pixels, the first bytes of whose answers are 1 and 2. -/
def somePixels : List ((Byte × BitVec 6) × (Byte × BitVec 6)) := List.replicate 1225 ((1, 5), (2, 0x0C))

def someAnswers : List (Byte × Byte) :=
  somePixels.flatMap (fun p => [(p.1.1, 0b01#2 ++ p.1.2), (p.2.1, 0b10#2 ++ p.2.2)])

/-- The reading with which a capture of those pixels enters STREAMING has been made. -/
def streamBegins (sw : Bool) (lower : LowerSrc) : State :=
  let s := capturing .streaming 0xC0 0
    (mid sw .ready .streamT0Read 0x900003E8 (someAnswers.map (fun p => .bytes [p.1, p.2]) ++ []))
  selectsOk 2450
    { s with cfg := { toy sw with lowerSrc := lower }, env := { s.env with nowSteps := List.replicate 2449 0 ++ [] } }

theorem inv_streamBegins (sw : Bool) (lower : LowerSrc) : Inv (streamBegins sw lower) :=
  inv_of_check rfl (by cases sw <;> cases lower <;> decide)

theorem witness_capture_run (sw : Bool) (lower : LowerSrc) :
    somePixels.length = 1225 ∧ Inv (streamBegins sw lower) ∧ (streamBegins sw lower).inputs = []
      ∧ (streamBegins sw lower).curCmd = 0x9#4 ++ 0#4 ++ 1000#24 ∧ (streamBegins sw lower).point = .streamT0Read
      ∧ (streamBegins sw lower).fc.pixelCount = 0 ∧ (streamBegins sw lower).fc.haveUpper = false
      ∧ (streamBegins sw lower).fc.orderErr = false ∧ (streamBegins sw lower).cfg.framePollSleepMs = 0
      ∧ (streamBegins sw lower).env.oracle = .script (someAnswers.map (fun p => .bytes [p.1, p.2]) ++ [])
      ∧ SelectsOk 2450 (streamBegins sw lower)
      ∧ (streamBegins sw lower).env.nowSteps = List.replicate 2449 0 ++ [] ∧ (List.replicate 2449 0).length = 2449
      ∧ (List.replicate 2449 0).sum ≤ (1000 : BitVec 24).toNat * 1000 ∧ (streamBegins sw lower).cfg.lowerSrc = lower :=
  ⟨List.length_replicate, inv_streamBegins sw lower, rfl, show (0x900003E8 : Word) = _ by decide, rfl, rfl, rfl, rfl, rfl,
    rfl, selectsOk_spec _ _, rfl, List.length_replicate, by rw [List.sum_replicate]; decide, rfl⟩

end Sys2Proof.Tests
end

section
/-! PROOFS. The sensor oracle SIM_SENSOR (R67) and the host's accesses to the buffers (R62, R63). -/

namespace Sys2Proof.Machine

/-! ### SIM_SENSOR: one equation for each kind of frame (R67) -/

theorem simXfer_write (regs : Memory) (scripted : List (List Byte)) {b : Byte} (v : Byte) (hb : b.getLsbD 7 = true) :
    simXfer regs scripted [b, v] = ([0x00, 0x00], .sim (Memory.write regs (b.extractLsb' 0 7).toNat v) scripted) := by
  simp only [simXfer, bitAt, hb, if_true]

theorem simXfer_read (regs : Memory) (scripted : List (List Byte)) {b : Byte} (v : Byte) (hb : b.getLsbD 7 = false) :
    simXfer regs scripted [b, v] = ([0x00, Memory.read regs (b.extractLsb' 0 7).toNat], .sim regs scripted) := by
  simp only [simXfer, bitAt, hb, Bool.false_eq_true, if_false]

theorem simXfer_unscripted (regs : Memory) {tx : List Byte} (htx : tx.length ≠ 2) :
    simXfer regs [] tx = (List.replicate tx.length 0x00, .sim regs []) := by
  unfold simXfer
  split
  · exact absurd rfl htx
  · rfl

theorem simXfer_scripted (regs : Memory) {l : List Byte} (rest : List (List Byte)) {tx : List Byte}
    (htx : tx.length ≠ 2) (hl : l.length = tx.length) : simXfer regs (l :: rest) tx = (l, .sim regs rest) := by
  unfold simXfer
  split
  · exact absurd rfl htx
  · simp only [fitLength_of_length hl]

/-- Under SIM_SENSOR an exchange is SimXfer, and never BUS_FAIL. -/
theorem Env.exchange_sim {e : Env} {regs : Memory} {scripted : List (List Byte)} (he : e.oracle = .sim regs scripted)
    (tx : List Byte) :
    e.exchange tx = (some (simXfer regs scripted tx).1, { e with oracle := (simXfer regs scripted tx).2 }) := by
  simp only [Env.exchange, he]

/-- An oracle that is not changed leaves the environment as it is. -/
theorem Env.setOracle_self {e : Env} {o : Oracle} (he : e.oracle = o) : { e with oracle := o } = e := by
  subst he
  rfl

/-- Settles O11: SIM_SENSOR's exchange is SimXfer, whose equation is taken frame by frame. -/
theorem simulatedSensorAnswers : Obligations.SimulatedSensorAnswers := by
  intro e regs scripted he
  refine ⟨fun b v hb => ⟨Memory.write regs (b.extractLsb' 0 7).toNat v, ?_, fun x => Memory.read_write ..⟩,
    fun b v hb => ?_, fun tx htx => ⟨?_, ?_⟩⟩
  · rw [Env.exchange_sim he, simXfer_write regs scripted v hb]
  · rw [Env.exchange_sim he, simXfer_read regs scripted v hb, Env.setOracle_self he]
  · rintro rfl
    rw [Env.exchange_sim he, simXfer_unscripted regs htx, Env.setOracle_self he]
  · rintro l rest rfl hl
    rw [Env.exchange_sim he, simXfer_scripted regs rest htx hl]

/-! ### The steps of the host -/

/-- A host read fills `hostData` and does nothing else. -/
theorem step_read {s : State} {addr : BitVec 12} {n : Nat} {rest : List Input} (hp : s.point ≠ .boot)
    (hi : s.inputs = .read addr n :: rest) :
    step s = .next { s with inputs := rest, hostData := hostRead addr n s } := by
  unfold step
  split
  · contradiction
  · simp only [hi]
    rfl

theorem step_write {s : State} {addr : BitVec 12} {n : Nat} {v : Word} {rest : List Input} (hp : s.point ≠ .boot)
    (hi : s.inputs = .write addr n v :: rest) : step s = .next (hostWrite addr n v (s.setInputs rest)) := by
  unfold step
  split
  · contradiction
  · simp only [hi]

theorem hostWrite_ignored {addr : BitVec 12} {n : Nat} (h : ¬(addr = 0 ∧ n = 4)) (v : Word) (s : State) :
    hostWrite addr n v s = s := by
  have h' : ¬(addr.toNat = 0 ∧ n = 4) := fun ⟨ha, hn⟩ => h ⟨BitVec.eq_of_toNat_eq ha, hn⟩
  exact if_neg h'

/-! ### The bytes of the buffers -/

theorem inBuffers_iff (a : Nat) : inBuffers a = true ↔ 0x100 ≤ a ∧ a < 0x200 ∨ 0x800 ≤ a ∧ a < 0xCC9 := by
  simp [inBuffers, respBase, pixelBase, Config.respBufBytes, Config.framePixels]

theorem bufferByte_outside {a : Nat} (h : a < 0x100 ∨ 0x200 ≤ a ∧ a < 0x800 ∨ 0xCC9 ≤ a) (s : State) :
    bufferByte s a = 0 := by
  have ha : ¬inBuffers a = true := by
    rw [inBuffers_iff]
    omega
  exact if_neg ha

theorem bufferByte_resp {i : Nat} (hi : i < 256) (s : State) : bufferByte s (0x100 + i) = s.respByte i :=
  if_pos (inBuffers_resp hi)

/-- R63: a byte past the last pixel reads 0x00. -/
theorem bufferByte_pixel (i : Nat) (s : State) : bufferByte s (0x800 + i) = if i < 1225 then s.pixelByte i else 0 := by
  split
  · exact if_pos (inBuffers_pixel ‹_›)
  · exact bufferByte_outside (by omega) s

/-- RESP_BUF's length is a multiple of four, so an aligned word lies whole in it. -/
theorem bufferWord_resp {i : Nat} (h4 : i % 4 = 0) (hi : i < 256) (s : State) :
    bufferWord s (0x100 + i) = s.respByte (i + 3) ++ s.respByte (i + 2) ++ s.respByte (i + 1) ++ s.respByte i := by
  simp only [bufferWord, Nat.add_assoc]
  rw [bufferByte_resp (by omega), bufferByte_resp (by omega), bufferByte_resp (by omega), bufferByte_resp hi]

theorem bufferWord_pixel {i : Nat} (hi : i < 1225) (s : State) :
    bufferWord s (0x800 + i)
      = (if i + 3 < 1225 then s.pixelByte (i + 3) else 0) ++ (if i + 2 < 1225 then s.pixelByte (i + 2) else 0)
        ++ (if i + 1 < 1225 then s.pixelByte (i + 1) else 0) ++ s.pixelByte i := by
  simp only [bufferWord, Nat.add_assoc, bufferByte_pixel, if_pos hi]

/-! ### What a host read returns -/

/-- R21: ORIENT, at 0x034, is the last register. -/
theorem regWord_pastRegisters {a : Nat} (h : 0x038 ≤ a) (s : State) : regWord s a = none := by
  simp (disch := omega) only [regWord, if_neg]

theorem hostRead_byte (addr : BitVec 12) (s : State) : hostRead addr 1 s = (bufferByte s addr.toNat).setWidth 32 := by
  rfl

theorem hostRead_byte_toNat (addr : BitVec 12) (s : State) :
    (hostRead addr 1 s).toNat = (bufferByte s addr.toNat).toNat := by
  rw [hostRead_byte, BitVec.toNat_setWidth_of_le (by decide)]

theorem hostRead_byte_outside {addr : BitVec 12}
    (h : addr.toNat < 0x100 ∨ 0x200 ≤ addr.toNat ∧ addr.toNat < 0x800 ∨ 0xCC9 ≤ addr.toNat) (s : State) :
    hostRead addr 1 s = 0 := by
  rw [hostRead_byte, bufferByte_outside h]
  rfl

/-- R62: an access that is neither of one byte nor an aligned one of four is refused. -/
theorem hostRead_refused {addr : BitVec 12} {n : Nat} (h1 : n ≠ 1) (h4 : ¬(n = 4 ∧ addr.toNat % 4 = 0)) (s : State) :
    hostRead addr n s = 0 := by
  simp only [hostRead, if_neg h4, if_neg h1]

theorem hostRead_word {addr : BitVec 12} (h4 : addr.toNat % 4 = 0) (h : 0x038 ≤ addr.toNat) (s : State) :
    hostRead addr 4 s = if inBuffers addr.toNat then bufferWord s addr.toNat else 0 := by
  simp only [hostRead, h4, regWord_pastRegisters h, and_self, if_true]

theorem hostRead_bufferWord {addr : BitVec 12} (h4 : addr.toNat % 4 = 0) (hb : inBuffers addr.toNat = true) (s : State) :
    hostRead addr 4 s = bufferWord s addr.toNat := by
  have h := (inBuffers_iff addr.toNat).1 hb
  rw [hostRead_word h4 (by omega), if_pos hb]

/-- An offset of no register and no buffer reads 0, by every width. -/
theorem hostRead_unmapped {addr : BitVec 12}
    (h : 0x038 ≤ addr.toNat ∧ addr.toNat < 0x100 ∨ 0x200 ≤ addr.toNat ∧ addr.toNat < 0x800 ∨ 0xCC9 ≤ addr.toNat)
    (n : Nat) (s : State) : hostRead addr n s = 0 := by
  by_cases h1 : n = 1
  · subst h1
    exact hostRead_byte_outside (by omega) s
  by_cases h4 : n = 4 ∧ addr.toNat % 4 = 0
  · obtain ⟨rfl, hm⟩ := h4
    have hb : ¬inBuffers addr.toNat = true := by
      rw [inBuffers_iff]
      omega
    rw [hostRead_word hm (by omega), if_neg hb]
  · exact hostRead_refused h1 h4 s

/-- Settles O19: a host read puts `hostRead` of the state into the host's data, so each clause is a fact about
`hostRead`; a write not to CMD leaves the state. -/
theorem hostBufferAccessesAndRefusals : Obligations.HostBufferAccessesAndRefusals := by
  intro s addr n rest hp
  refine ⟨fun hi => ⟨_, step_read hp hi, rfl, ?respByte, ?pixelByte, ?respWord, ?pixelWord, ?width, ?misaligned,
    ?registerByte, fun h => hostRead_unmapped h n s⟩, fun v hi hw => ?write⟩
  case respByte =>
    rintro i rfl hlt ha
    rw [hostRead_byte_toNat, ha, bufferByte_resp hlt]
  case pixelByte =>
    rintro i rfl hlt ha
    rw [hostRead_byte_toNat, ha, bufferByte_pixel, if_pos hlt]
  case respWord =>
    rintro i rfl h4 hlt ha
    have hb : inBuffers addr.toNat = true := ha ▸ inBuffers_resp hlt
    rw [hostRead_bufferWord (by omega) hb, ha, bufferWord_resp h4 hlt]
  case pixelWord =>
    rintro i rfl h4 hlt ha
    have hb : inBuffers addr.toNat = true := ha ▸ inBuffers_pixel hlt
    rw [hostRead_bufferWord (by omega) hb, ha, bufferWord_pixel hlt]
  case width => exact fun h1 h4 => hostRead_refused h1 (fun h => h4 h.1) s
  case misaligned =>
    rintro rfl hm
    exact hostRead_refused (by decide) (fun h => hm h.2) s
  case registerByte =>
    rintro rfl hr
    exact hostRead_byte_outside (.inl hr) s
  case write =>
    rw [step_write hp hi, hostWrite_ignored hw]
    rfl

end Sys2Proof.Machine
end

section
/-! PROOFS. The command words: layouts, match and mask rows, illegal words (R91-R93), the argument checks (R95) and the
pseudo-instructions (R112). -/

namespace Sys2Proof

/-! ### The table of R92 as a list: `decodeCommand` is the first row that hits -/

/-- R91, R92: each row with the command of a word that it matches. -/
def commandTable : List (CommandRow × (Word → Instr)) :=
  [(rowWriteReg, fun w => .writeReg (w.extractLsb' 8 7) (w.extractLsb' 0 8)),
    (rowReadReg, fun w => .readReg (w.extractLsb' 8 7)),
    (rowReadRegs, fun w => .readRegs (w.extractLsb' 8 7) (w.extractLsb' 0 8)),
    (rowBurstXfer, fun w => .burstXfer (w.extractLsb' 8 8) (w.extractLsb' 0 8)),
    (rowPlaySeq, fun w => .playSeq (w.extractLsb' 0 4)),
    (rowBringUp, fun w => .bringUp (Variant.ofBit (w.extractLsb' 0 1))),
    (rowBurstRead, fun w => .burstRead (w.extractLsb' 0 24)),
    (rowSlowRead, fun w => .slowRead (w.extractLsb' 0 24)),
    (rowFrameCapture, fun w => .frameCapture (w.extractLsb' 0 24)),
    (rowSetOrientation, fun w =>
      .setOrientation (flagOfBit (w.extractLsb' 7 1)) (flagOfBit (w.extractLsb' 6 1)) (flagOfBit (w.extractLsb' 5 1))),
    (rowSetRotation, fun w => .setRotation (w.extractLsb' 0 9))]

/-- R91: OP, the top four bits of a word. -/
def opcode (w : Word) : BitVec 4 := w.extractLsb' 28 4

/-- The bits below OP. -/
def belowOpcode (w : Word) : BitVec 28 := w.extractLsb' 0 28

/-- R93: why a word that matches no row is refused. -/
def refusal (w : Word) : DecodeError :=
  if 1 ≤ (opcode w).toNat ∧ (opcode w).toNat ≤ 0xB then .reservedBits else .reservedOpcode

/-- The first row of a table that matches a word decodes it. -/
def decodeBy (w : Word) : List (CommandRow × (Word → Instr)) → Except DecodeError Instr
  | [] => .error (refusal w)
  | e :: rest => if e.1.hits w then .ok (e.2 w) else decodeBy w rest

theorem error_refusal (w : Word) :
    (.error (refusal w) : Except DecodeError Instr)
      = if 1 ≤ (w.extractLsb' 28 4).toNat ∧ (w.extractLsb' 28 4).toNat ≤ 0xB then .error .reservedBits
        else .error .reservedOpcode :=
  apply_ite Except.error _ _ _

theorem decodeCommand_eq_decodeBy (w : Word) : decodeCommand w = decodeBy w commandTable := by
  simp only [decodeCommand, commandTable, decodeBy, error_refusal]

theorem commandTable_rows : commandTable.map Prod.fst = commandRows := rfl

theorem row_mem_commandRows {e : CommandRow × (Word → Instr)} (he : e ∈ commandTable) : e.1 ∈ commandRows :=
  commandTable_rows ▸ List.mem_map_of_mem he

theorem decodeBy_cases (w : Word) (table : List (CommandRow × (Word → Instr))) :
    (∃ e ∈ table, e.1.hits w = true ∧ decodeBy w table = .ok (e.2 w))
      ∨ (∀ e ∈ table, ¬e.1.hits w = true) ∧ decodeBy w table = .error (refusal w) := by
  induction table with
  | nil => exact .inr ⟨by simp, rfl⟩
  | cons e rest ih =>
    by_cases he : e.1.hits w = true
    · exact .inl ⟨e, List.mem_cons_self, he, if_pos he⟩
    · rw [show decodeBy w (e :: rest) = decodeBy w rest from if_neg he]
      rcases ih with ⟨e', hmem, hhit, hdec⟩ | ⟨hno, hdec⟩
      · exact .inl ⟨e', List.mem_cons_of_mem e hmem, hhit, hdec⟩
      · exact .inr ⟨List.forall_mem_cons.2 ⟨he, hno⟩, hdec⟩

/-- A word is decoded by a row that matches it, or it matches no row and is refused. -/
theorem decodeCommand_cases (w : Word) :
    (∃ e ∈ commandTable, e.1.hits w = true ∧ decodeCommand w = .ok (e.2 w))
      ∨ (∀ r ∈ commandRows, ¬r.hits w = true) ∧ decodeCommand w = .error (refusal w) := by
  rw [← commandTable_rows, List.forall_mem_map, decodeCommand_eq_decodeBy]
  exact decodeBy_cases w commandTable

/-! ### A row matches by its opcode and by its zero bits -/

theorem word_eq_iff (x y : Word) : x = y ↔ opcode x = opcode y ∧ belowOpcode x = belowOpcode y := by
  have hx := x.isLt
  have hy := y.isLt
  simp only [← BitVec.toNat_inj, opcode, belowOpcode, field_toNat]
  omega

theorem opcode_and (x y : Word) : opcode (x &&& y) = opcode x &&& opcode y := BitVec.extractLsb'_and ..

theorem belowOpcode_and (x y : Word) : belowOpcode (x &&& y) = belowOpcode x &&& belowOpcode y := BitVec.extractLsb'_and ..

/-- R91, R92: every row fixes the whole of OP, and below OP every bit that it fixes is 0. -/
theorem commandRows_masks : ∀ r ∈ commandRows, opcode r.mask = BitVec.allOnes 4 ∧ belowOpcode r.bits = 0 := by decide

theorem hits_iff_opcode {r : CommandRow} (hr : r ∈ commandRows) (w : Word) :
    r.hits w = true ↔ opcode w = opcode r.bits ∧ belowOpcode w &&& belowOpcode r.mask = 0 := by
  obtain ⟨hop, hbelow⟩ := commandRows_masks r hr
  rw [CommandRow.hits, beq_iff_eq, word_eq_iff, opcode_and, belowOpcode_and, hop, hbelow, BitVec.and_allOnes]

/-- R92: "No two rows match one word, because the OP nibbles differ". -/
theorem commandTable_opcodes_nodup : (commandTable.map (fun e => opcode e.1.bits)).Nodup := by decide

theorem commandTable_eq_of_hits {w : Word} {e e' : CommandRow × (Word → Instr)} (he : e ∈ commandTable)
    (he' : e' ∈ commandTable) (h : e.1.hits w = true) (h' : e'.1.hits w = true) : e = e' := by
  have hop := ((hits_iff_opcode (row_mem_commandRows he) w).1 h).1
  have hop' := ((hits_iff_opcode (row_mem_commandRows he') w).1 h').1
  exact List.inj_on_of_nodup_map commandTable_opcodes_nodup he he' (hop.symm.trans hop')

theorem decodeCommand_of_hits {w : Word} {e : CommandRow × (Word → Instr)} (he : e ∈ commandTable)
    (h : e.1.hits w = true) : decodeCommand w = .ok (e.2 w) := by
  rcases decodeCommand_cases w with ⟨e', he', h', hdec⟩ | ⟨hno, -⟩
  · rw [hdec, commandTable_eq_of_hits he' he h' h]
  · exact absurd h (hno e.1 (row_mem_commandRows he))

theorem decodeCommand_ok_iff_row (w : Word) (i : Instr) :
    decodeCommand w = .ok i ↔ ∃ e ∈ commandTable, e.1.hits w = true ∧ e.2 w = i := by
  constructor
  · intro h
    rcases decodeCommand_cases w with ⟨e, he, hhit, hdec⟩ | ⟨-, hdec⟩
    · exact ⟨e, he, hhit, Except.ok.inj (hdec.symm.trans h)⟩
    · cases hdec.symm.trans h
  · rintro ⟨e, he, hhit, rfl⟩
    exact decodeCommand_of_hits he hhit

theorem Variant.ofBit_eq_iff (b : BitVec 1) (v : Variant) : Variant.ofBit b = v ↔ b = v.bit := by
  cases v <;> decide +revert

theorem flagOfBit_eq_iff (b : BitVec 1) (f : Bool) : flagOfBit b = f ↔ b = bitOfFlag f := by decide +revert

/-- R91, R94: a word decodes to the command whose encoding it is, and to no other. For each command one row is left, and
as numbers its fixed fields and the operand fields are right exactly when the word is their concatenation. -/
theorem decodeCommand_ok_iff_encode (w : Word) (i : Instr) : decodeCommand w = .ok i ↔ encode i = .command w := by
  have hw := w.isLt
  rw [decodeCommand_ok_iff_row]
  simp only [commandTable, List.mem_cons, List.not_mem_nil, or_false, exists_eq_or_imp, exists_eq_left, rowWriteReg_hits,
    rowReadReg_hits, rowReadRegs_hits, rowBurstXfer_hits, rowPlaySeq_hits, rowBringUp_hits, rowBurstRead_hits,
    rowSlowRead_hits, rowFrameCapture_hits, rowSetOrientation_hits, rowSetRotation_hits]
  cases i <;>
    simp only [encode, reduceCtorEq, and_false, false_or, or_false, Instr.writeReg.injEq, Instr.readReg.injEq,
      Instr.readRegs.injEq, Instr.burstXfer.injEq, Instr.playSeq.injEq, Instr.bringUp.injEq, Instr.burstRead.injEq,
      Instr.slowRead.injEq, Instr.frameCapture.injEq, Instr.setOrientation.injEq, Instr.setRotation.injEq,
      Code.command.injEq, Variant.ofBit_eq_iff, flagOfBit_eq_iff, ← BitVec.toNat_inj, append_toNat, field_toNat,
      BitVec.toNat_ofNat] <;>
    omega

theorem bitOfFlag_eq_ofBool (f : Bool) : bitOfFlag f = BitVec.ofBool f := by cases f <;> rfl

/-- Settles O4: a word decodes to a command exactly when it is the command's encoding, which is the layout. -/
theorem commandLayouts : Obligations.CommandLayouts := by
  intro w
  have layout {i : Instr} {x : Word} (hx : encode i = .command x) : decodeCommand w = .ok i ↔ w = x := by
    rw [decodeCommand_ok_iff_encode, hx, Code.command.injEq, eq_comm]
  refine ⟨fun a v => layout rfl, fun a => layout rfl, fun a n => layout rfl, fun c l => layout rfl, fun seg => layout rfl,
    layout rfl, layout rfl, fun t => layout rfl, fun t => layout rfl, fun t => layout rfl, fun swap invY invX => layout ?_,
    fun d => layout rfl⟩
  simp only [encode, bitOfFlag_eq_ofBool]

/-! ### The rows (R92) -/

theorem commandTable_mnemonic (w : Word) : ∀ e ∈ commandTable, (e.2 w).mnemonic = e.1.mnemonic := by
  simp only [commandTable, List.forall_mem_cons, Instr.mnemonic, rowWriteReg, rowReadReg, rowReadRegs, rowBurstXfer,
    rowPlaySeq, rowBringUp, rowBurstRead, rowSlowRead, rowFrameCapture, rowSetOrientation, rowSetRotation, true_and]
  exact List.forall_mem_nil _

theorem commandRows_mnemonics_nodup : (commandRows.map CommandRow.mnemonic).Nodup := by decide

/-- R92: a row matches exactly the words of its mnemonic. -/
theorem hits_iff_mnemonic {r : CommandRow} (hr : r ∈ commandRows) (w : Word) :
    r.hits w = true ↔ ∃ i, decodeCommand w = .ok i ∧ i.mnemonic = r.mnemonic := by
  constructor
  · intro h
    obtain ⟨e, he, rfl⟩ := List.mem_map.1 (commandTable_rows ▸ hr)
    exact ⟨e.2 w, decodeCommand_of_hits he h, commandTable_mnemonic w e he⟩
  · rintro ⟨i, hi, hm⟩
    obtain ⟨e, he, hhit, rfl⟩ := (decodeCommand_ok_iff_row w i).1 hi
    rw [commandTable_mnemonic w e he] at hm
    rwa [← List.inj_on_of_nodup_map commandRows_mnemonics_nodup (row_mem_commandRows he) hr hm]

/-- Settles O5: the statement's rows are those of the model, and two rows have different opcodes. -/
theorem matchAndMaskRows : Obligations.MatchAndMaskRows := by
  unfold Obligations.MatchAndMaskRows
  intro rows
  have row_mem : ∀ r ∈ rows, (CommandRow.mk r.1 r.2.1 r.2.2) ∈ commandRows := by decide
  have opcodes_nodup : (rows.map (fun r => opcode r.2.1)).Nodup := by decide
  have hits {w : Word} {r : String × Word × Word} :
      w &&& r.2.2 = r.2.1 ↔ (CommandRow.mk r.1 r.2.1 r.2.2).hits w = true := beq_iff_eq.symm
  refine ⟨fun w r hr => ?_, fun w r hr r' hr' h h' => ?_⟩
  · rw [hits]
    exact hits_iff_mnemonic (row_mem r hr) w
  · have hop := ((hits_iff_opcode (row_mem r hr) w).1 (hits.1 h)).1
    have hop' := ((hits_iff_opcode (row_mem r' hr') w).1 (hits.1 h')).1
    exact List.inj_on_of_nodup_map opcodes_nodup hr hr' (hop.symm.trans hop')

/-! ### The words that are no command (R93) -/

/-- R91, R93: OP and the bits that the layout of its command leaves to no field. -/
def reservedMasks : List (Nat × Word) :=
  [(0x1, 0x0FFF8000), (0x2, 0x0FFF80FF), (0x3, 0x0FFF8000), (0x4, 0x0FFF0000), (0x5, 0x0FFFFFF0), (0x6, 0x0FFFFFFE),
    (0x7, 0x0F000000), (0x8, 0x0F000000), (0x9, 0x0F000000), (0xA, 0x0FFFFF1F), (0xB, 0x0FFFFE00)]

theorem refusal_reservedOpcode {w : Word} (h : opcode w = 0x0 ∨ 0xC ≤ (opcode w).toNat) : refusal w = .reservedOpcode := by
  refine if_neg fun ⟨hlo, hhi⟩ => ?_
  rcases h with h | h
  · rw [h] at hlo
    cases hlo
  · omega

theorem refusal_reservedBits {w : Word} {q : Nat × Word} (hq : q ∈ reservedMasks) (hop : (opcode w).toNat = q.1) :
    refusal w = .reservedBits := by
  have defined : ∀ q ∈ reservedMasks, 1 ≤ q.1 ∧ q.1 ≤ 0xB := by decide
  exact if_pos (hop ▸ defined q hq)

theorem commandRows_opcode_defined : ∀ r ∈ commandRows, opcode r.bits ≠ 0x0 ∧ (opcode r.bits).toNat < 0xC := by decide

theorem not_hits_of_reservedOpcode {w : Word} (h : opcode w = 0x0 ∨ 0xC ≤ (opcode w).toNat) :
    ∀ r ∈ commandRows, ¬r.hits w = true := by
  intro r hr hhit
  obtain ⟨hne, hlt⟩ := commandRows_opcode_defined r hr
  rw [((hits_iff_opcode hr w).1 hhit).1] at h
  exact h.elim hne (Nat.not_le.2 hlt)

theorem reservedMasks_row : ∀ q ∈ reservedMasks, ∃ r ∈ commandRows, (opcode r.bits).toNat = q.1 := by decide

/-- Below OP, a row's mask is the reserved bits of its opcode. -/
theorem reservedMasks_below : ∀ q ∈ reservedMasks, opcode q.2 = 0
    ∧ ∀ r ∈ commandRows, (opcode r.bits).toNat = q.1 → belowOpcode r.mask = belowOpcode q.2 := by decide

/-- With a defined opcode, a word matches a row exactly when its reserved bits are 0. -/
theorem hits_iff_reserved {w : Word} {q : Nat × Word} (hq : q ∈ reservedMasks) (hop : (opcode w).toNat = q.1) :
    (∃ r ∈ commandRows, r.hits w = true) ↔ w &&& q.2 = 0 := by
  obtain ⟨htop, hbelow⟩ := reservedMasks_below q hq
  have hzero : w &&& q.2 = 0 ↔ belowOpcode w &&& belowOpcode q.2 = 0 := by
    rw [word_eq_iff, opcode_and, belowOpcode_and, htop]
    exact and_iff_right BitVec.and_zero
  rw [hzero]
  constructor
  · rintro ⟨r, hr, hhit⟩
    obtain ⟨hopr, hlow⟩ := (hits_iff_opcode hr w).1 hhit
    rwa [← hbelow r hr (hopr ▸ hop)]
  · intro hlow
    obtain ⟨r, hr, hopr⟩ := reservedMasks_row q hq
    refine ⟨r, hr, (hits_iff_opcode hr w).2 ⟨BitVec.eq_of_toNat_eq (hop.trans hopr.symm), ?_⟩⟩
    rwa [hbelow r hr hopr]

theorem decodeCommand_of_row {w : Word} (h : ∃ r ∈ commandRows, r.hits w = true) : ∃ i, decodeCommand w = .ok i := by
  obtain ⟨r, hr, hhit⟩ := h
  rcases decodeCommand_cases w with ⟨e, -, -, hdec⟩ | ⟨hno, -⟩
  · exact ⟨_, hdec⟩
  · exact absurd hhit (hno r hr)

theorem decodeCommand_of_no_row {w : Word} (h : ∀ r ∈ commandRows, ¬r.hits w = true) :
    decodeCommand w = .error (refusal w) := by
  rcases decodeCommand_cases w with ⟨e, he, hhit, -⟩ | ⟨-, hdec⟩
  · exact absurd hhit (h e.1 (row_mem_commandRows he))
  · exact hdec

end Sys2Proof

namespace Sys2Proof.Machine

open Sys2Proof.Safety

/-- R272, R275: an error end is one END event, and changes no register but STATUS, ERRCODE and ERRINFO. -/
theorem State.raise_spec (code : ErrCode) (info : Word) (s : State) :
    EndedWith code info s (s.raise code info) ∧ OnlyEnd s (s.raise code info) :=
  ⟨⟨rfl, rfl, rfl, rfl, rfl⟩, rfl⟩

/-- R93, R96: an accepted word that is no command ends in the next step. -/
theorem step_illegal {w : Word} {s : State} (ha : Accepted w s) (hw : ∀ i, decodeCommand w ≠ .ok i) :
    step s = .next (s.raise .illegalCommand w) := by
  obtain ⟨hpoint, rfl, hinputs, htx⟩ := ha
  have hnext : nextStep s = .illegal := by
    cases hdec : decodeCommand s.curCmd with
    | ok i => exact absurd hdec (hw i)
    | error e => simp only [nextStep, hpoint, State.busBusy, htx, hdec, Bool.false_eq_true, if_false]
  simp only [step, hpoint, hinputs, control, hnext, illegalEnd]

/-- Settles O6: which words match a row is decided by the opcode and the reserved bits; an accepted word that matches none
takes the error end. -/
theorem illegalWordsEndWithoutBusEvent : Obligations.IllegalWordsEndWithoutBusEvent := by
  intro w
  refine ⟨fun hop => ?_, fun q hq hop hset => ?_, fun q hq hop hclear => ?_, fun s ha hw => ?_⟩
  · rw [decodeCommand_of_no_row (not_hits_of_reservedOpcode hop), refusal_reservedOpcode hop]
  · have hno : ∀ r ∈ commandRows, ¬r.hits w = true :=
      fun r hr hhit => hset ((hits_iff_reserved hq hop).1 ⟨r, hr, hhit⟩)
    rw [decodeCommand_of_no_row hno, refusal_reservedBits hq hop]
  · exact decodeCommand_of_row ((hits_iff_reserved hq hop).2 hclear)
  · exact ⟨_, step_illegal ha hw, State.raise_spec .illegalCommand w s⟩

/-! ### The checks before a command's rule (R95, R96) -/

/-- No error is recorded from s to t. -/
def ErrKept (s t : State) : Prop := t.errCode = s.errCode ∧ t.errInfo = s.errInfo ∧ t.status.err = s.status.err

theorem State.gate_argError {i : Instr} {s : State} (hp : permitted i s.dev.state = true) (ha : ¬argsValid i = true)
    (k : State → Result) : s.gate i k = .next (s.raise .invalidArgument s.curCmd) := by
  rw [State.gate, if_pos hp, if_neg ha]

theorem State.gate_pass {i : Instr} {s : State} (hp : permitted i s.dev.state = true) (ha : argsValid i = true)
    (k : State → Result) : s.gate i k = k s := by
  rw [State.gate, if_pos hp, if_pos ha]

theorem StepRun.errKept {s t : State} (h : StepRun s t) : ErrKept s t := by
  rcases h with ⟨f, g, -, rfl⟩ | ⟨g, -, rfl⟩ <;> simp [ErrKept]

/-- In an admitted configuration a Play that begins runs a word, or is over and goes on. -/
theorem State.play_errKept {s : State} (hc : s.cfg.wf = true) (seg : BitVec 4) {done : State → Result}
    (hdone : ∀ u, ErrKept s u → ∃ t, done u = .next t ∧ ErrKept s t) : ∃ t, s.play seg done = .next t ∧ ErrKept s t := by
  cases hw : (s.setSeq seg 0).stepWord with
  | none =>
    rw [State.play, State.playNext_none hw]
    exact hdone _ ⟨rfl, rfl, rfl⟩
  | some w =>
    obtain ⟨t, ht, hrun⟩ := State.playNext_some (s := s.setSeq seg 0) hc hw done
    exact ⟨t, ht, hrun.errKept⟩

/-- R96: at its start a command is its checks, then a rule whose first step records no error. -/
theorem exec_start_gate {i : Instr} {s : State} (hi : i.isCommand = true) (hs : s.point = .start) (hc : s.cfg.wf = true) :
    ∃ k, exec i s = s.gate i k ∧ ∃ t, k s = .next t ∧ ErrKept s t := by
  cases i with
  | writeReg a v =>
    refine ⟨_, by simp only [exec, execWriteReg, hs]; rfl, ?_⟩
    exact ⟨_, rfl, by simp [ErrKept]⟩
  | readReg a =>
    refine ⟨_, by simp only [exec, execReadReg, hs]; rfl, ?_⟩
    exact ⟨_, rfl, by simp [ErrKept]⟩
  | readRegs a n =>
    refine ⟨_, by simp only [exec, execReadRegs, hs]; rfl, ?_⟩
    by_cases hn : n.toNat = 0
    · exact ⟨_, if_pos hn, by simp [ErrKept, Status.succeeded]⟩
    · exact ⟨_, if_neg hn, by simp [ErrKept]⟩
  | burstXfer c l =>
    refine ⟨_, by simp only [exec, execBurstXfer, hs]; rfl, ?_⟩
    exact ⟨_, rfl, by simp [ErrKept]⟩
  | playSeq seg =>
    refine ⟨_, by simp only [exec, execPlaySeq, hs]; rfl, ?_⟩
    exact State.play_errKept hc seg fun u hu => ⟨_, rfl, hu⟩
  | bringUp v =>
    refine ⟨_, by simp only [exec, execBringUp, hs]; rfl, ?_⟩
    exact ⟨_, rfl, by simp [ErrKept, bringUpBegin, State.setPhase]⟩
  | burstRead t =>
    refine ⟨_, by simp only [exec, execBurstRead, hs]; rfl, ?_⟩
    exact ⟨_, rfl, by simp [ErrKept, State.loopBegin]⟩
  | slowRead t =>
    refine ⟨_, by simp only [exec, execSlowRead, hs]; rfl, ?_⟩
    exact ⟨_, rfl, by simp [ErrKept, State.loopBegin]⟩
  | frameCapture t =>
    refine ⟨_, by simp only [exec, execFrameCapture, hs]; rfl, ?_⟩
    exact State.play_errKept (s := s.setFc FcStatus.configured) hc precaptureSegment fun u hu => ⟨_, rfl, hu⟩
  | setOrientation x y z =>
    refine ⟨_, by simp only [exec, execSetOrientation, hs]; rfl, ?_⟩
    exact ⟨_, rfl, by simp [ErrKept]⟩
  | setRotation d =>
    refine ⟨_, by simp only [exec, execSetRotation, hs]; rfl, ?_⟩
    exact ⟨_, rfl, by simp [ErrKept]⟩
  | _ => cases hi

/-- R95: the operands out of their range. -/
theorem not_argsValid_iff (i : Instr) :
    ¬argsValid i = true ↔ (∃ a n, i = .readRegs a n ∧ 1 ≤ n.toNat ∧ a.toNat + n.toNat - 1 > 0x7F)
      ∨ (∃ seg, i = .playSeq seg ∧ seg.toNat > 10)
      ∨ ∃ d, i = .setRotation d ∧ d.toNat ≠ 0 ∧ d.toNat ≠ 90 ∧ d.toNat ≠ 180 ∧ d.toNat ≠ 270 := by
  cases i with
  | readRegs a n => simp [argsValid, Nat.one_le_iff_ne_zero, Nat.lt_sub_iff_add_lt]
  | playSeq seg => simp [argsValid]
  | setRotation d => simp [argsValid, and_assoc]
  | _ => simp [argsValid]

/-- Settles O16: at its start a permitted command is decided by its argument check alone. -/
theorem argumentChecks : Obligations.ArgumentChecks := by
  intro i s hi hs hp hc
  rw [← not_argsValid_iff]
  obtain ⟨k, hexec, t, hk, hkept⟩ := exec_start_gate hi hs hc
  rw [hexec]
  refine ⟨fun ha => ?_, fun ha => ?_⟩
  · exact ⟨_, State.gate_argError hp ha k, State.raise_spec .invalidArgument s.curCmd s⟩
  · exact ⟨t, (State.gate_pass hp (not_not.1 ha) k).trans hk, hkept⟩

end Sys2Proof.Machine

namespace Sys2Proof

/-! ### The pseudo-instructions (R112) -/

/-- Settles O7: the assembler is run on each of the fourteen lines. -/
theorem pseudoInstructionsExpand : Obligations.PseudoInstructionsExpand := by
  unfold Obligations.PseudoInstructionsExpand
  decide

end Sys2Proof
end

section
/-! PROOFS. The transaction without a software select (R132). -/

namespace Sys2Proof.Machine

/-- A transaction that is asked for has its first event next. -/
theorem State.busEvent_requested {s : State} (h : s.tx.phase = .requested) (f : Frame) : s.busEvent f = s.txFirst f := by
  simp only [State.busEvent, h]

/-- R132: without a software select the first event is the exchange, and it ends the transaction. -/
theorem State.txFirst_native {s : State} (h : s.cfg.swCs = false) (f : Frame) :
    s.txFirst f = { s with
      env := (s.env.exchange f.bytes).2
      tx := { frame := f, phase := .ended (txResult (s.env.exchange f.bytes).1 true) }
      trace := s.trace ++ [.xfer f.bytes (s.env.exchange f.bytes).1] } := by
  simp only [State.txFirst, h, Bool.false_eq_true, if_false]
  rfl

/-- Settles O13: the one event of the frame is its exchange, whose answer, BUS_FAIL or bytes, is the transaction's end. -/
theorem nativeSelectIsTheExchangeAlone : Obligations.NativeSelectIsTheExchangeAlone := by
  intro f s hsw _ hphase
  refine ⟨_, frame_exec f s, ?_⟩
  rw [State.busEvent_requested hphase, State.txFirst_native hsw]
  cases (s.env.exchange f.bytes).1 with
  | none => rfl
  | some rx => rfl

end Sys2Proof.Machine
end

section
/-! PROOFS. The calibration arithmetic (R185, R192), and the lifecycle with its permissions (R180). -/

namespace Sys2Proof.Machine

open Sys2Proof.Safety

/-! ### The calibration arithmetic (R184, R185, R192) -/

/-- R184: an input at the limit or below that stays there after the first addition gets no second one. -/
theorem c1Stepped_sequential_once {c : Nat} (h : c ≤ 14) : c1Stepped .sequential c = c + 14 := by
  have hlimit : c ≤ 28 := by omega
  have hstays : ¬c + 14 > 28 := by omega
  simp only [c1Stepped, if_pos hlimit, if_neg hstays]

/-- R184: an input at the limit or below that the first addition takes past it gets both. -/
theorem c1Stepped_sequential_both {c : Nat} (hlo : 15 ≤ c) (hhi : c ≤ 28) : c1Stepped .sequential c = c + 25 := by
  have hpast : c + 14 > 28 := by omega
  simp only [c1Stepped, if_pos hhi, if_pos hpast]
  rfl

/-- R184: in both modes an input past the limit gets the second addition alone. -/
theorem c1Stepped_pastLimit {c : Nat} (mode : C1Mode) (h : 29 ≤ c) : c1Stepped mode c = c + 11 := by
  have hpast : ¬c ≤ 28 := by omega
  cases mode with
  | sequential => simp only [c1Stepped, if_neg hpast, if_pos (not_le.1 hpast)]
  | exclusive => simp only [c1Stepped, if_neg hpast]

theorem c1Stepped_exclusive_low {c : Nat} (h : c ≤ 28) : c1Stepped .exclusive c = c + 14 := if_pos h

theorem adjC1_of_stepped {mode : C1Mode} {c t : Nat} (h : c1Stepped mode c = t) (ht : t ≤ 63) : adjC1 mode c = t := by
  rw [adjC1, h, min_eq_left ht]

theorem adjC1_clamped {c : Nat} (mode : C1Mode) (h : 53 ≤ c) : adjC1 mode c = 63 := by
  have hstep : c1Stepped mode c = c + 11 := c1Stepped_pastLimit mode (by omega)
  have hmax : 63 ≤ c + 11 := by omega
  rw [adjC1, hstep, min_eq_right hmax]

/-- Settles O46: on each range the additions that apply are known, and the clamp is reached from 53 on. -/
theorem calibrationArithmetic : Obligations.CalibrationArithmetic := by
  intro c
  have hc : c.toNat < 256 := c.isLt
  refine ⟨fun h => ?_, fun ⟨hlo, hhi⟩ => ?_, fun ⟨hlo, hhi⟩ => ?_, adjC1_clamped .sequential, fun h => ?_,
    fun ⟨hlo, hhi⟩ => ?_, adjC1_clamped .exclusive, rfl, ?_⟩
  · exact adjC1_of_stepped (c1Stepped_sequential_once h) (by omega)
  · exact adjC1_of_stepped (c1Stepped_sequential_both hlo hhi) (by omega)
  · exact adjC1_of_stepped (c1Stepped_pastLimit .sequential hlo) (by omega)
  · exact adjC1_of_stepped (c1Stepped_exclusive_low h) (by omega)
  · exact adjC1_of_stepped (c1Stepped_pastLimit .exclusive hlo) (by omega)
  · show c.toNat * 45 / 100 ≤ 114
    omega

/-! ### END events -/

theorem emits_unique {e e' : Event} {s t : State} (h : Emits e s t) (h' : Emits e' s t) : e = e' := by
  simpa using h.symm.trans h'

theorem not_emits_of_trace_eq {s t : State} (h : t.trace = s.trace) (e : Event) : ¬Emits e s t := by
  simp [Emits, h]

theorem firstEvent_ne_ended (f : Frame) (s : State) (code : ErrCode) : firstEvent f s ≠ .ended code := by
  unfold firstEvent
  split <;> simp

theorem State.busEvent_not_ended (f : Frame) (s : State) (code : ErrCode) : ¬Emits (.ended code) s (s.busEvent f) := by
  unfold State.busEvent
  split <;> simp [Emits, firstEvent_ne_ended]

/-- The code of the END event of an act, where the act is a command's end. -/
def Act.endCode : Act → Option ErrCode
  | .raise code _ => some code
  | .succeed => some .none
  | .begin _ _ | .now _ | .sleep _ _ => none

theorem Act.apply_emits_ended (a : Act) {s u : State} (hu : u.trace = s.trace) (code : ErrCode) :
    Emits (.ended code) s (a.apply u) ↔ a.endCode = some code := by
  cases a <;> simp [Act.apply, Act.endCode, Emits, hu, firstEvent_ne_ended]

theorem Act.apply_dev (a : Act) (u : State) : (a.apply u).dev = u.dev := by
  cases a <;> simp [Act.apply]

/-! ### DEVSTATE and the end in a turn -/

/-- DEVSTATE is left alone, and the act is no command's end. -/
def GoesOn (s u : State) (a : Act) : Prop := u.dev = s.dev ∧ a.endCode = none

theorem Word1.goesOn {s u : State} {a : Act} (h : Word1 s u a) : GoesOn s u a := by cases h <;> exact ⟨rfl, rfl⟩

theorem Resumed.dev {s s' : State} (h : Resumed s s') : s'.dev = s.dev := by cases h <;> rfl

theorem Trailer.goesOn {v : Variant} {s u : State} {a : Act} (h : Trailer v s u a) : GoesOn s u a := by
  cases h with
  | word _ _ h => exact h.goesOn
  | empty _ => exact ⟨rfl, rfl⟩

theorem After.goesOn {v : Variant} {p : BuPhase} {s u : State} {a : Act} (h : After v s p u a) : GoesOn s u a := by
  cases h with
  | tail _ _ h => exact h.goesOn
  | _ => exact ⟨rfl, rfl⟩

theorem Enter.goesOn {v : Variant} {p : BuPhase} {s u : State} {a : Act} (h : Enter v p s u a) : GoesOn s u a := by
  cases h with
  | word h => exact h.goesOn
  | empty _ h => exact h.goesOn

theorem fragmentRegs_dev (f : Byte) (s : State) : (fragmentRegs f s).dev = s.dev := by
  rcases fragmentRegs_cases f s with h | h | h <;> rw [h] <;> simp

/-- R180: only a BRING_UP writes DEVSTATE. -/
theorem Turn.dev_of_not_bringUp {s u : State} {i : Instr} {a : Act} (h : Turn s i u a) (hi : ∀ v, i ≠ .bringUp v) :
    u.dev = s.dev := by
  cases h
  case playSeqBegin hw | captureBegin hw => exact hw.goesOn.1
  case playSeqMore h hw | captureMore h hw => exact hw.goesOn.1.trans h.dev
  case playSeqEnd h _ | captureSettle h _ => exact h.dev
  case captureComplete hu _ | captureGoesOn hu _ => subst hu; exact fragmentRegs_dev _ _
  case slowReadReady hu _ | slowReadNotReady hu _ => subst hu; simp
  all_goals simp_all [State.nextRead]

theorem transactionPoint_ne_start {p : Point} (h : transactionPoint p = true) : p ≠ .start := by
  rintro rfl
  cases h

/-- R180, R181: a BRING_UP past its checks goes on in its lifecycle state, or ends READY with success, or ends FAILED with
TRANSPORT or IDENTITY_MISMATCH. -/
theorem Turn.bringUp_cases {s u : State} {v : Variant} {a : Act} (h : Turn s (.bringUp v) u a) :
    (u.dev.state = s.dev.state ∧ (s.point = .start ∨ a.endCode = none))
      ∨ (s.point ≠ .start ∧ u.dev.state = .ready ∧ a.endCode = some .none)
      ∨ (s.point ≠ .start ∧ u.dev.state = .failed
        ∧ (a.endCode = some .identityMismatch ∨ a.endCode = some .transport)) := by
  have goesOn : ∀ {s' : State}, GoesOn s' u a → s'.dev.state = s.dev.state →
      u.dev.state = s.dev.state ∧ (s.point = .start ∨ a.endCode = none) :=
    fun h hs => ⟨(congrArg DevState.state h.1).trans hs, .inr h.2⟩
  cases h
  case stateError hp _ => exact .inl ⟨rfl, .inl hp⟩
  case argError hp _ _ => exact .inl ⟨rfl, .inl hp⟩
  case plainFailed hp => cases hp
  case bringUpFailed hp _ _ => exact .inr (.inr ⟨transactionPoint_ne_start hp, rfl, .inr rfl⟩)
  case idMatch hp _ _ _ _ _ => exact .inr (.inl ⟨by simp [hp], rfl, rfl⟩)
  case idMismatch hp _ _ _ _ _ => exact .inr (.inr ⟨by simp [hp], rfl, .inl rfl⟩)
  case flushEnd h | cfgWritten h | statNotTaken h | c2Read h | c2Written h => exact .inl (goesOn h.goesOn rfl)
  case segmentMore h hw | segmentEnd h _ hw => exact .inl (goesOn hw.goesOn (congrArg DevState.state h.dev))
  all_goals exact .inl ⟨rfl, .inr rfl⟩

/-- R180: only a command that is not permitted ends with STATE. -/
theorem Turn.not_permitted_of_endCode {s u : State} {i : Instr} {a : Act} (h : Turn s i u a)
    (ha : a.endCode = some .state) : permitted i s.dev.state = false := by
  cases h
  case stateError h => exact h
  case playSeqBegin h | playSeqMore h | captureBegin h | captureMore h | segmentMore h =>
    cases h.goesOn.2.symm.trans ha
  case flushEnd h | segmentEnd h | cfgWritten h | statNotTaken h | c2Read h | c2Written h =>
    cases h.goesOn.2.symm.trans ha
  all_goals cases ha

/-! ### The Permitted table at a command's start (R96, R180) -/

theorem State.gate_stateError {i : Instr} {s : State} (hp : permitted i s.dev.state = false) (k : State → Result) :
    s.gate i k = .next (s.raise .state s.curCmd) := by
  rw [State.gate, hp]
  rfl

/-- R96: at a command's start the permission is the first check, whatever the configuration. -/
theorem exec_not_permitted {i : Instr} {s : State} (hi : i.isCommand = true) (hs : s.point = .start)
    (hp : permitted i s.dev.state = false) : exec i s = .next (s.raise .state s.curCmd) := by
  cases i with
  | writeFrame _ _ | readFrame _ | burstFrame _ _ | motionBurstFrame | seqWrite _ _ | seqWait _ | fragUpper _ | fragLower _
  | fragNone00 _ | fragNone11 _ => cases hi
  | _ =>
    simp only [exec, execWriteReg, execReadReg, execReadRegs, execBurstXfer, execPlaySeq, execBringUp, execBurstRead,
      execSlowRead, execFrameCapture, execSetOrientation, execSetRotation, hs, State.gate_stateError hp]

/-- R180: a permitted command has a first step, and it is no END with STATE. -/
theorem exec_permitted {i : Instr} {s : State} (hi : i.isCommand = true) (hs : s.point = .start)
    (hc : s.cfg.wf = true) (hp : permitted i s.dev.state = true) :
    ∃ t, exec i s = .next t ∧ ¬Emits (.ended .state) s t := by
  obtain ⟨t, ht⟩ : ∃ t, exec i s = .next t := by
    obtain ⟨k, hk, t, ht, -⟩ := exec_start_gate hi hs hc
    by_cases ha : argsValid i = true
    · exact ⟨t, by rw [hk, State.gate_pass hp ha, ht]⟩
    · exact ⟨_, by rw [hk, State.gate_argError hp ha]⟩
  obtain ⟨u, a, hturn, rfl⟩ := exec_turn hi ht
  refine ⟨_, ht, fun hend => ?_⟩
  have hcode := (a.apply_emits_ended hturn.kept.trace .state).1 hend
  rw [hturn.not_permitted_of_endCode hcode] at hp
  cases hp

/-! ### The lifecycle in a step of the machine (R180) -/

theorem resetStep_uninit {s t : State} (h : ResetStep s) (ht : step s = .next t) : t.dev.state = .uninit := by
  obtain ⟨hp, rest, hi⟩ := h
  have hstep : step s = .next (s.setInputs rest).afterReset := by
    unfold step
    split
    · contradiction
    · simp only [hi]
  cases hstep.symm.trans ht
  rfl

theorem hostWrite_cases (addr : BitVec 12) (n : Nat) (v : Word) (s : State) :
    hostWrite addr n v s = s ∨ hostWrite addr n v s = s.dropCommand ∨ hostWrite addr n v s = s.accept v := by
  unfold hostWrite
  split
  · split
    · exact .inr (.inl rfl)
    · exact .inr (.inr rfl)
  · exact .inl rfl

theorem running_eq_some_iff {s : State} {i : Instr} :
    running s = some i ↔ runningPoint s.point = true ∧ s.point ≠ .start ∧ decodeCommand s.curCmd = .ok i := by
  unfold running
  cases decodeCommand s.curCmd <;> simp [Except.toOption, and_assoc]

/-- R180: what a step that is no reset does to DEVSTATE.STATE, and with which END. -/
inductive Moved (s t : State) : Prop
  | kept (hd : t.dev.state = s.dev.state)
    (he : ∀ v, running s = some (.bringUp v) → ∀ code, ¬Emits (.ended code) s t)
  | ready (v : Variant) (hr : running s = some (.bringUp v)) (hd : t.dev.state = .ready) (he : Emits (.ended .none) s t)
  | failed (v : Variant) (hr : running s = some (.bringUp v)) (hd : t.dev.state = .failed)
    (he : Emits (.ended .identityMismatch) s t ∨ Emits (.ended .transport) s t)

/-- The state a controller's turn is taken from differs in its inputs alone. -/
theorem controllerTurn_eq_setInputs {s s' : State} (h : ControllerTurn s s') : ∃ l, s' = s.setInputs l := by
  rcases h with ⟨-, rfl⟩ | ⟨rest, -, rfl⟩
  · exact ⟨s'.inputs, rfl⟩
  · exact ⟨rest, rfl⟩

theorem Turn.moved {s u : State} {i : Instr} {a : Act} {l : List Input} (hp : runningPoint s.point = true)
    (hd : decodeCommand s.curCmd = .ok i) (h : Turn (s.setInputs l) i u a) : Moved s (a.apply u) := by
  have hend : ∀ code, Emits (.ended code) s (a.apply u) ↔ a.endCode = some code := a.apply_emits_ended h.kept.trace
  have hdev : (a.apply u).dev.state = u.dev.state := congrArg DevState.state (a.apply_dev u)
  by_cases hi : ∃ v, i = .bringUp v
  · obtain ⟨v, rfl⟩ := hi
    rcases h.bringUp_cases with ⟨hu, hgo⟩ | ⟨hs, hu, he⟩ | ⟨hs, hu, he⟩
    · refine .kept (hdev.trans hu) fun _ hr code he => ?_
      rcases hgo with hs | hgo
      · exact (running_eq_some_iff.1 hr).2.1 hs
      · cases hgo.symm.trans ((hend code).1 he)
    · exact .ready v (running_eq_some_iff.2 ⟨hp, hs, hd⟩) (hdev.trans hu) ((hend _).2 he)
    · exact .failed v (running_eq_some_iff.2 ⟨hp, hs, hd⟩) (hdev.trans hu) (he.imp (hend _).2 (hend _).2)
  · refine .kept (hdev.trans (congrArg DevState.state (h.dev_of_not_bringUp fun v hv => hi ⟨v, hv⟩))) fun v hr => ?_
    have hv := hd.symm.trans (running_eq_some_iff.1 hr).2.2
    exact absurd ⟨v, Except.ok.inj hv⟩ hi

theorem step_moved {s t : State} (h : step s = .next t) (hreset : ¬ResetStep s) : Moved s t := by
  cases step_next h with
  | boot hp ht =>
    subst ht
    refine .kept (by simp [bootStep]) fun v hr => ?_
    simp [running, runningPoint, hp] at hr
  | read hp addr n rest hi ht => subst ht; exact .kept rfl fun _ _ code => not_emits_of_trace_eq rfl _
  | write hp addr n v rest hi ht =>
    subst ht
    rcases hostWrite_cases addr n v (s.setInputs rest) with h | h | h <;> rw [h]
    · exact .kept rfl fun _ _ code => not_emits_of_trace_eq rfl _
    · exact .kept rfl fun _ _ code => not_emits_of_trace_eq rfl _
    · exact .kept rfl fun _ _ code => by simp [Emits]
  | reset hp rest hi ht => exact absurd ⟨hp, rest, hi⟩ hreset
  | wait hp hc =>
    obtain ⟨l, rfl⟩ := controllerTurn_eq_setInputs hc
    exact .kept rfl fun _ _ code => not_emits_of_trace_eq rfl _
  | frame s' hp hc hb ht =>
    obtain ⟨l, rfl⟩ := controllerTurn_eq_setInputs hc
    subst ht
    exact .kept (by simp) fun _ _ code => State.busEvent_not_ended _ (s.setInputs l) code
  | illegal s' hp hc hb hd ht =>
    obtain ⟨l, rfl⟩ := controllerTurn_eq_setInputs hc
    subst ht
    exact .kept rfl fun v hr => absurd (running_eq_some_iff.1 hr).2.2 (hd _)
  | turn s' u i a hp hc hb hd hturn ht =>
    obtain ⟨l, rfl⟩ := controllerTurn_eq_setInputs hc
    subst ht
    exact hturn.moved hp hd

theorem lifecycleOk_uninit_of_bringUp {s : State} (h : LifecycleOk s) {v : Variant}
    (hr : running s = some (.bringUp v)) : s.dev.state = .uninit := by
  rw [LifecycleOk, hr] at h
  exact h.1

/-- R180: during a BRING_UP from UNINIT, READY is reached exactly with the success end and FAILED exactly with the two error
ends. -/
theorem Moved.bringUp_iff {s t : State} (h : Moved s t) {v : Variant} (hr : running s = some (.bringUp v))
    (hs : s.dev.state = .uninit) :
    (Emits (.ended .none) s t ↔ t.dev.state = .ready)
      ∧ (Emits (.ended .identityMismatch) s t ∨ Emits (.ended .transport) s t ↔ t.dev.state = .failed) := by
  cases h with
  | kept hd he =>
    rw [hs] at hd
    simp [hd, he v hr]
  | ready _ _ hd he =>
    have hne : ∀ code, code ≠ .none → ¬Emits (.ended code) s t :=
      fun code hcode he' => hcode (Event.ended.inj (emits_unique he' he))
    simp [hd, he, hne]
  | failed _ _ hd he =>
    have hne : ¬Emits (.ended .none) s t := fun he' => by
      rcases he with he | he <;> cases emits_unique he he'
    simp [hd, he, hne]

/-- Settles O17: the tables are the first check of a command's start; in a step STATE moves only with a BRING_UP's end, and
by the invariant a BRING_UP runs only from UNINIT. -/
theorem lifecycleAndPermissions : Obligations.LifecycleAndPermissions := by
  refine ⟨fun i s hs hi => ?_, fun i s hs hc hi => ?_,
    fun s t hinv hstep => ⟨fun hreset => resetStep_uninit hreset hstep, ?_⟩⟩
  · have hnot : i.isCommand = true ∧ permitted i s.dev.state = false := by
      cases i <;> simp_all [Instr.isCommand, permitted]
    exact ⟨_, exec_not_permitted hnot.1 hs hnot.2, State.raise_spec .state s.curCmd s⟩
  · have hyes : i.isCommand = true ∧ permitted i s.dev.state = true := by
      cases i <;> simp_all [Instr.isCommand, permitted]
    exact exec_permitted hyes.1 hs hc hyes.2
  · refine ⟨fun hreset hne => ?_, fun hreset hs v hr => (step_moved hstep hreset).bringUp_iff hr hs,
      fun hreset hs hnone => ?_⟩
    · cases step_moved hstep hreset with
      | kept hd _ => exact hd
      | ready v hr _ _ => exact absurd (lifecycleOk_uninit_of_bringUp hinv.lifecycle hr) hne
      | failed v hr _ _ => exact absurd (lifecycleOk_uninit_of_bringUp hinv.lifecycle hr) hne
    · cases step_moved hstep hreset with
      | kept hd _ => exact hd.trans hs
      | ready v hr _ _ => exact absurd hr (hnone v)
      | failed v hr _ _ => exact absurd hr (hnone v)

end Sys2Proof.Machine
end

section
/-! PROOFS. The sample of a motion burst and its validity (R210, R211). -/

namespace Sys2Proof.Machine

/-- R211 reads neither VALID nor PRESENT, so the mark ParseBurst sets agrees with the predicate on the finished sample. -/
theorem parseBurst_valid (layout : BurstLayout) (r : List Byte) :
    (parseBurst layout r).valid = sampleValid (parseBurst layout r) := rfl

@[simp] theorem parseBurst_present (layout : BurstLayout) (r : List Byte) : (parseBurst layout r).present = true := rfl

/-- R211, with its two thresholds written out. -/
theorem sampleValid_iff (x : Sample) :
    sampleValid x = true ↔ x.dataReady = true ∧ ¬(x.quality.toNat < 0x19 ∧ x.shutterUpper = 0x1F) := by
  have hmin : Config.qualityMin.toNat = 0x19 := rfl
  simp only [sampleValid, hmin, Bool.and_eq_true, Bool.not_eq_true', ← Bool.not_eq_true, decide_eq_true_eq, beq_iff_eq]

/-- Settles O47: the eleven fields of a layout are read off its table; VALID and PRESENT are `parseBurst`'s own marks. -/
theorem burstSampleFieldsAndValidity : Obligations.BurstSampleFieldsAndValidity := by
  refine ⟨fun r0 r1 r2 r3 r4 r5 r6 r7 r8 r9 r10 r11 r12 => ⟨?doc, ?shifted⟩, sampleValid_iff⟩
  case doc =>
    rintro x rfl
    exact ⟨rfl, rfl, rfl, rfl, rfl, rfl, rfl, rfl, rfl, rfl, rfl, parseBurst_present .doc _, parseBurst_valid .doc _⟩
  case shifted =>
    rintro x rfl
    exact ⟨rfl, rfl, rfl, rfl, rfl, rfl, rfl, rfl, rfl, rfl, rfl, parseBurst_present .shifted _,
      parseBurst_valid .shifted _⟩

end Sys2Proof.Machine
end

section
/-! PROOFS. The fragments of a grabbed byte and the pixels they build (R243-R247). -/

namespace Sys2Proof.Machine

open Sys2Proof.Safety

/-! ### The fragment of a byte, by its tag (R106) -/

theorem fragmentTag_cases (tag : BitVec 2) : tag = 0b01 ∨ tag = 0b10 ∨ tag = 0b00 ∨ tag = 0b11 := by decide +revert

theorem decodeFragment_upper {f : Byte} (h : f.extractLsb' 6 2 = 0b01) :
    decodeFragment f = .fragUpper (f.extractLsb' 0 6) := by
  simp [decodeFragment, h]

theorem decodeFragment_lower {f : Byte} (h : f.extractLsb' 6 2 = 0b10) :
    decodeFragment f = .fragLower (f.extractLsb' 0 6) := by
  simp [decodeFragment, h]

theorem decodeFragment_none00 {f : Byte} (h : f.extractLsb' 6 2 = 0b00) :
    decodeFragment f = .fragNone00 (f.extractLsb' 0 6) := by
  simp [decodeFragment, h]

theorem decodeFragment_none11 {f : Byte} (h : f.extractLsb' 6 2 = 0b11) :
    decodeFragment f = .fragNone11 (f.extractLsb' 0 6) := by
  simp [decodeFragment, h]

/-! ### A pixel stored with FC_STATUS -/

/-- What a fragment with a payload does (R243): the pixel under assembly becomes v, and FC_STATUS becomes x. -/
def State.storePixel (v : Byte) (x : FcStatus) (s : State) : State := (s.putPixel s.fc.pixelCount v).setFc x

@[simp] theorem State.storePixel_fc (v : Byte) (x : FcStatus) (s : State) : (s.storePixel v x).fc = x := rfl

@[simp] theorem State.storePixel_cfg (v : Byte) (x : FcStatus) (s : State) : (s.storePixel v x).cfg = s.cfg := by
  simp [State.storePixel]

theorem State.storePixel_frame (v : Byte) (x : FcStatus) (s : State) :
    s.storePixel v x = { s with fc := x, mem := (s.storePixel v x).mem } := by
  unfold State.storePixel State.putPixel
  split <;> rfl

theorem State.storePixel_pixelByte {s : State} (h : s.fc.pixelCount < Config.framePixels) (v : Byte) (x : FcStatus) :
    (s.storePixel v x).pixelByte s.fc.pixelCount = v := by
  simp only [State.pixelByte, State.storePixel, State.setFc_mem, State.read_putPixel]
  exact if_pos (by simp [h])

theorem State.storePixel_memSameOutside (v : Byte) (x : FcStatus) (s : State) :
    MemSameOutside (0x800 + s.fc.pixelCount) 1 s (s.storePixel v x) := by
  intro a ha
  simp only [State.storePixel, State.setFc_mem, State.read_putPixel]
  exact if_neg fun ⟨h, _⟩ => ha (by rw [h]; exact ⟨Nat.le_refl _, Nat.lt_succ_self _⟩)

/-! ### What each fragment does (R243, R247) -/

theorem exec_fragUpper (u : BitVec 6) (s : State) :
    exec (.fragUpper u) s = .next (s.storePixel (upperPixel u) s.fc.upper) := rfl

theorem exec_fragLower (low : BitVec 6) (s : State) :
    exec (.fragLower low) s
      = .next (s.storePixel (lowerPixel (s.pixelByte s.fc.pixelCount) (lowerPayload s.cfg.lowerSrc low)) s.fc.lower) := rfl

theorem exec_decodeFragment (f : Byte) (s : State) : exec (decodeFragment f) s = .next (fragmentRegs f s) := by
  unfold fragmentRegs
  rcases fragmentTag_cases (f.extractLsb' 6 2) with h | h | h | h
  · rw [decodeFragment_upper h]; rfl
  · rw [decodeFragment_lower h]; rfl
  · rw [decodeFragment_none00 h]; rfl
  · rw [decodeFragment_none11 h]; rfl

theorem fragmentRegs_upper {f : Byte} (h : f.extractLsb' 6 2 = 0b01) (s : State) :
    fragmentRegs f s = s.storePixel (upperPixel (f.extractLsb' 0 6)) s.fc.upper := by
  rw [fragmentRegs, decodeFragment_upper h]; rfl

theorem fragmentRegs_lower {f : Byte} (h : f.extractLsb' 6 2 = 0b10) (s : State) :
    fragmentRegs f s
      = s.storePixel (lowerPixel (s.pixelByte s.fc.pixelCount) (lowerPayload s.cfg.lowerSrc (f.extractLsb' 0 6)))
          s.fc.lower := by
  rw [fragmentRegs, decodeFragment_lower h]; rfl

theorem fragmentRegs_none {f : Byte} (h : f.extractLsb' 6 2 = 0b00 ∨ f.extractLsb' 6 2 = 0b11) (s : State) :
    fragmentRegs f s = s := by
  unfold fragmentRegs
  rcases h with h | h
  · rw [decodeFragment_none00 h]
  · rw [decodeFragment_none11 h]

/-! ### A grabbed byte accumulated (R243) -/

theorem lowerPayload_bits32_of_byte (f : Byte) : lowerPayload .bits32 (f.extractLsb' 0 6) = f.extractLsb' 2 2 :=
  BitVec.extractLsb'_extractLsb'_of_le (by decide)

theorem lowerPayload_bits10_of_byte (f : Byte) : lowerPayload .bits10 (f.extractLsb' 0 6) = f.extractLsb' 0 2 :=
  BitVec.extractLsb'_extractLsb'_of_le (by decide)

theorem fragmentRegs_frame (f : Byte) (s : State) :
    fragmentRegs f s = { s with fc := (fragmentRegs f s).fc, mem := (fragmentRegs f s).mem } := by
  rcases fragmentTag_cases (f.extractLsb' 6 2) with h | h | h
  · rw [fragmentRegs_upper h]; exact State.storePixel_frame ..
  · rw [fragmentRegs_lower h]; exact State.storePixel_frame ..
  · rw [fragmentRegs_none h]

theorem fragmentRegs_accumulated {s : State} (hc : s.fc.pixelCount < Config.framePixels) (f : Byte) :
    Accumulated f s (fragmentRegs f s) := by
  unfold Accumulated
  rcases fragmentTag_cases (f.extractLsb' 6 2) with h | h | h
  · rw [fragmentRegs_upper h, h]
    exact ⟨fun _ => ⟨State.storePixel_pixelByte hc .., rfl⟩, fun h' => absurd h' (by decide),
      fun h' => absurd h' (by decide), State.storePixel_memSameOutside _ _ s⟩
  · rw [fragmentRegs_lower h, h]
    refine ⟨fun h' => absurd h' (by decide), fun _ => ⟨?_, rfl⟩, fun h' => absurd h' (by decide),
      State.storePixel_memSameOutside _ _ s⟩
    rw [State.storePixel_pixelByte hc, lowerPixel]
    cases s.cfg.lowerSrc with
    | bits32 => rw [lowerPayload_bits32_of_byte]
    | bits10 => rw [lowerPayload_bits10_of_byte]
  · rw [fragmentRegs_none h]
    refine ⟨fun h' => ?_, fun h' => ?_, fun _ => ⟨fun _ => rfl, rfl⟩, fun _ _ => rfl⟩ <;>
      exact absurd h (by rw [h']; decide)

/-- Settles O54: the instruction is the byte's fragment, whose state is that of the accumulator. -/
theorem fragmentsBuildPixels : Obligations.FragmentsBuildPixels := by
  intro i f s hi hc
  obtain rfl : decodeFragment f = i := Except.ok.inj hi
  exact ⟨_, exec_decodeFragment f s, fragmentRegs_accumulated hc f, fragmentRegs_frame f s⟩

/-! ### A pixel from its two fragments (R244) -/

/-- The lower fragment's bits take the place of the two zeros that the upper fragment has left. -/
theorem lowerPixel_upperPixel (u : BitVec 6) (p : BitVec 2) : lowerPixel (upperPixel u) p = u ++ p := by
  have h : (upperPixel u).extractLsb' 2 6 = u := BitVec.extractLsb'_append_eq_left
  rw [lowerPixel, h]

theorem lowerPixel_upperPixel_toNat (u : BitVec 6) (p : BitVec 2) :
    (lowerPixel (upperPixel u) p).toNat = 4 * u.toNat + p.toNat := by
  rw [lowerPixel_upperPixel, append_toNat]
  omega

theorem lowerPayload_bits32_toNat (low : BitVec 6) : (lowerPayload .bits32 low).toNat = low.toNat / 4 % 4 :=
  field_toNat low 2 2

theorem lowerPayload_bits10_toNat (low : BitVec 6) : (lowerPayload .bits10 low).toNat = low.toNat % 4 := by
  simp [lowerPayload]

/-- With no upper fragment pending, the pair sets no ORDER_ERR and counts one pixel (R243, R245). -/
theorem FcStatus.upper_lower {x : FcStatus} (h : x.haveUpper = false) :
    x.upper.lower = { x with pixelCount := x.pixelCount + 1 } := by
  simp [FcStatus.upper, FcStatus.lower, h]

/-- R244: the state after an upper and a lower fragment. -/
def State.fragmentPair (u low : BitVec 6) (s : State) : State :=
  let s1 := s.storePixel (upperPixel u) s.fc.upper
  s1.storePixel (lowerPixel (s1.pixelByte s1.fc.pixelCount) (lowerPayload s1.cfg.lowerSrc low)) s1.fc.lower

theorem State.fragmentPair_fc (u low : BitVec 6) (s : State) : (s.fragmentPair u low).fc = s.fc.upper.lower := rfl

theorem State.fragmentPair_pixelByte {s : State} (hc : s.fc.pixelCount < Config.framePixels) (u low : BitVec 6) :
    (s.fragmentPair u low).pixelByte s.fc.pixelCount = lowerPixel (upperPixel u) (lowerPayload s.cfg.lowerSrc low) := by
  have hu : (s.storePixel (upperPixel u) s.fc.upper).pixelByte s.fc.pixelCount = upperPixel u :=
    State.storePixel_pixelByte hc ..
  calc (s.fragmentPair u low).pixelByte s.fc.pixelCount
      = lowerPixel ((s.storePixel (upperPixel u) s.fc.upper).pixelByte s.fc.pixelCount)
          (lowerPayload (s.storePixel (upperPixel u) s.fc.upper).cfg.lowerSrc low) :=
        State.storePixel_pixelByte (s := s.storePixel (upperPixel u) s.fc.upper) hc ..
    _ = lowerPixel (upperPixel u) (lowerPayload s.cfg.lowerSrc low) := by rw [hu, State.storePixel_cfg]

/-- Settles O55: the pixel is the upper fragment's bits followed by the two selected bits of the lower one. -/
theorem fragmentPairsMakeThePixelValue : Obligations.FragmentPairsMakeThePixelValue := by
  intro u low s hc hup
  have hfc : (s.fragmentPair u low).fc = { s.fc with pixelCount := s.fc.pixelCount + 1 } :=
    (s.fragmentPair_fc u low).trans (FcStatus.upper_lower hup)
  refine ⟨_, s.fragmentPair u low, exec_fragUpper u s, exec_fragLower low _, ?_, ?_, ?_, fun hsrc => ?_, fun hsrc => ?_⟩
  · rw [hfc]
  · rw [hfc]; exact hup
  · rw [hfc]
  · rw [State.fragmentPair_pixelByte hc, lowerPixel_upperPixel_toNat, hsrc, lowerPayload_bits32_toNat]
  · rw [State.fragmentPair_pixelByte hc, lowerPixel_upperPixel_toNat, hsrc, lowerPayload_bits10_toNat]

end Sys2Proof.Machine
end

section
/-! PROOFS. The encodings of every format: decoding and encoding are inverse (R97-R100, R106), the frames' bytes, and the
flat lists of the source (R101, R102). -/

namespace Sys2Proof

/-! ### Frames (R97-R99) -/

/-- R113: the procedure that issues a frame. -/
def Frame.kind : Frame → FrameKind
  | .write _ _ => .write
  | .read _ => .read
  | .burst _ _ | .motionBurst => .burst

theorem encode_frame (f : Frame) : encode f.instr = .frame f.kind f.bytes := by cases f <;> rfl

theorem Frame.ofBurst_kind (c len : Byte) : (Frame.ofBurst c len).kind = .burst := by
  unfold Frame.ofBurst
  split <;> rfl

theorem Frame.ofBurst_bytes (c len : Byte) : (Frame.ofBurst c len).bytes = c :: List.replicate len.toNat 0x00 := by
  unfold Frame.ofBurst
  split
  · rename_i h
    rw [h.1, h.2, Frame.bytes]
  · rfl

theorem burstFrame_wf_iff {c len : Byte} :
    (Instr.burstFrame c len).wf = true ↔ ¬(c = Config.motionBurstCmd ∧ len.toNat = Config.burstPayload) := by
  simp only [Instr.wf, Bool.not_eq_true', ← Bool.not_eq_true, Bool.and_eq_true, beq_iff_eq]

theorem Frame.ofBurst_wf (c len : Byte) : (Frame.ofBurst c len).instr.wf = true := by
  unfold Frame.ofBurst
  split
  · rfl
  · rename_i h
    exact burstFrame_wf_iff.2 h

theorem Frame.ofBurst_of_wf {c len : Byte} (h : (Instr.burstFrame c len).wf = true) :
    Frame.ofBurst c len = .burst c len :=
  if_neg (burstFrame_wf_iff.1 h)

theorem decodeFrame_write (a : Addr7) (v : Byte) : decodeFrame .write [1#1 ++ a, v] = .ok (.writeFrame a v) := by
  have htag : (1#1 ++ a : Byte).extractLsb' 7 1 = 1 := BitVec.extractLsb'_append_eq_left
  have haddr : (1#1 ++ a : Byte).extractLsb' 0 7 = a := BitVec.extractLsb'_append_eq_right
  rw [decodeFrame, if_pos htag, haddr]

theorem decodeFrame_read (a : Addr7) : decodeFrame .read [0#1 ++ a, 0] = .ok (.readFrame a) := by
  have htag : (0#1 ++ a : Byte).extractLsb' 7 1 = 0 := BitVec.extractLsb'_append_eq_left
  have haddr : (0#1 ++ a : Byte).extractLsb' 0 7 = a := BitVec.extractLsb'_append_eq_right
  rw [decodeFrame, if_pos ⟨htag, rfl⟩, haddr]

theorem decodeFrame_burst (c len : Byte) :
    decodeFrame .burst (c :: List.replicate len.toNat 0x00) = .ok (Frame.ofBurst c len).instr := by
  have hlen : len.toNat ≤ 255 := Nat.le_of_lt_succ len.isLt
  rw [decodeFrame, List.length_replicate, if_pos ⟨hlen, rfl⟩, BitVec.ofNat_toNat, BitVec.setWidth_eq]

theorem bit7_append (b : Byte) : (b.extractLsb' 7 1 ++ b.extractLsb' 0 7 : Byte) = b :=
  BitVec.extractLsb'_append_extractLsb'

theorem decodeFrame_encodes {kind : FrameKind} {bytes : List Byte} {i : Instr} (h : decodeFrame kind bytes = .ok i) :
    encode i = .frame kind bytes ∧ i.wf = true := by
  unfold decodeFrame at h
  split at h
  · rename_i b v
    split at h <;> cases h
    rename_i htag
    have hb := bit7_append b
    rw [htag] at hb
    exact ⟨by rw [encode, Frame.bytes]; exact congrArg (fun x => Code.frame _ [x, _]) hb, rfl⟩
  · cases h
  · rename_i b v
    split at h <;> cases h
    rename_i h
    obtain ⟨htag, rfl⟩ := h
    have hb := bit7_append b
    rw [htag] at hb
    exact ⟨by rw [encode, Frame.bytes]; exact congrArg (fun x => Code.frame _ [x, _]) hb, rfl⟩
  · cases h
  · rename_i c payload
    split at h <;> cases h
    rename_i hp
    obtain ⟨hlen, hzero⟩ := hp
    have hnat : (BitVec.ofNat 8 payload.length).toNat = payload.length :=
      Nat.mod_eq_of_lt (by omega)
    exact ⟨by rw [encode_frame, Frame.ofBurst_kind, Frame.ofBurst_bytes, hnat, ← hzero], Frame.ofBurst_wf ..⟩
  · cases h

/-! ### Step words and fragments (R100, R106) -/

theorem decodeStep_encodes {w : BitVec 16} {i : Instr} (h : decodeStep w = .ok i) : encode i = .step w ∧ i.wf = true := by
  unfold decodeStep at h
  split at h
  · rename_i hf
    cases h
    have hw := Machine.stepWord_bytes w
    rw [hf] at hw
    exact ⟨congrArg Code.step hw.symm, rfl⟩
  · split at h <;> cases h
    rename_i htop
    have hw := Machine.stepWord_fields w
    rw [htop] at hw
    exact ⟨congrArg Code.step hw.symm, rfl⟩

theorem fragment_tag (tag : BitVec 2) (low : BitVec 6) : (tag ++ low : Byte).extractLsb' 6 2 = tag :=
  BitVec.extractLsb'_append_eq_left

theorem fragment_low (tag : BitVec 2) (low : BitVec 6) : (tag ++ low : Byte).extractLsb' 0 6 = low :=
  BitVec.extractLsb'_append_eq_right

theorem encode_decodeFragment (f : Byte) : encode (decodeFragment f) = .fragment f ∧ (decodeFragment f).wf = true := by
  have hf : (f.extractLsb' 6 2 ++ f.extractLsb' 0 6 : Byte) = f := BitVec.extractLsb'_append_extractLsb'
  rcases Machine.fragmentTag_cases (f.extractLsb' 6 2) with h | h | h | h <;> rw [h] at hf
  · rw [Machine.decodeFragment_upper h]; exact ⟨congrArg Code.fragment hf, rfl⟩
  · rw [Machine.decodeFragment_lower h]; exact ⟨congrArg Code.fragment hf, rfl⟩
  · rw [Machine.decodeFragment_none00 h]; exact ⟨congrArg Code.fragment hf, rfl⟩
  · rw [Machine.decodeFragment_none11 h]; exact ⟨congrArg Code.fragment hf, rfl⟩

/-! ### Both directions -/

/-- Settles O2: a command by its layout's equivalence, and each other format by decoding its concatenation. -/
theorem decodeInvertsEncode : Obligations.DecodeInvertsEncode := by
  intro i hwf
  cases i with
  | writeFrame a v => exact decodeFrame_write a v
  | readFrame a => exact decodeFrame_read a
  | burstFrame c len => exact (decodeFrame_burst c len).trans (by rw [Frame.ofBurst_of_wf hwf]; rfl)
  | motionBurstFrame => exact decodeFrame_burst Config.motionBurstCmd 12
  | seqWrite f g => exact Machine.decodeStep_write f g
  | seqWait g => exact Machine.decodeStep_wait g
  | fragUpper u =>
    exact congrArg Except.ok ((Machine.decodeFragment_upper (fragment_tag ..)).trans (by rw [fragment_low]))
  | fragLower b =>
    exact congrArg Except.ok ((Machine.decodeFragment_lower (fragment_tag ..)).trans (by rw [fragment_low]))
  | fragNone00 b =>
    exact congrArg Except.ok ((Machine.decodeFragment_none00 (fragment_tag ..)).trans (by rw [fragment_low]))
  | fragNone11 b =>
    exact congrArg Except.ok ((Machine.decodeFragment_none11 (fragment_tag ..)).trans (by rw [fragment_low]))
  | _ => exact (decodeCommand_ok_iff_encode _ _).2 rfl

theorem wf_of_isCommand {i : Instr} (h : i.isCommand = true) : i.wf = true := by
  cases i with
  | burstFrame _ _ => cases h
  | _ => rfl

/-- Settles O3: format by format, what is decoded has the code it was decoded from. -/
theorem encodeInvertsDecode : Obligations.EncodeInvertsDecode := by
  intro c i h
  cases c with
  | command w => exact ⟨(decodeCommand_ok_iff_encode w i).1 h, wf_of_isCommand (Machine.decodeCommand_isCommand h)⟩
  | frame kind bytes => exact decodeFrame_encodes h
  | step w => exact decodeStep_encodes h
  | fragment f =>
    obtain rfl : decodeFragment f = i := Except.ok.inj h
    exact encode_decodeFragment f

/-- Settles O1: the decoder is run on each of the twenty-one words. -/
theorem writtenWordsDecode : Obligations.WrittenWordsDecode := by
  unfold Obligations.WrittenWordsDecode
  decide

/-! ### The frames' bytes -/

theorem writeByte0_eq (a : Addr7) : (1#1 ++ a : Byte) = a.setWidth 8 ||| 0x80 := by decide +revert

theorem readByte0_eq (a : Addr7) : (0#1 ++ a : Byte) = a.setWidth 8 := by decide +revert

theorem directionBit (d : BitVec 1) (a : Addr7) : (d ++ a : Byte).getLsbD 7 = d.getLsbD 0 := by decide +revert

/-- Settles O9: byte 0 is the address under its direction bit; a burst's bytes are the same in either frame. -/
theorem frameBytes : Obligations.FrameBytes := by
  refine ⟨fun a v => ⟨?_, ?_⟩, fun a => ⟨?_, ?_⟩, fun c len => ⟨Frame.ofBurst_bytes c len, rfl⟩, rfl⟩
  · rw [Frame.bytes, writeByte0_eq]
  · exact directionBit 1 a
  · rw [Frame.bytes, readByte0_eq]
  · exact directionBit 0 a

/-! ### Step words by F, and flat lists (R100-R102) -/

theorem decodeStep_reserved {f : Byte} (g : Byte) (hlo : 0x80 ≤ f.toNat) (hhi : f.toNat ≤ 0xFE) :
    decodeStep (f ++ g) = .error .reservedStep := by
  have hf : (f ++ g : BitVec 16).extractLsb' 8 8 = f := BitVec.extractLsb'_append_eq_left
  have hwait : ¬(f ++ g : BitVec 16).extractLsb' 8 8 = 0xFF := by
    rw [hf]
    rintro rfl
    exact absurd hhi (by decide)
  have htop : ¬(f ++ g : BitVec 16).extractLsb' 15 1 = 0 := by
    intro h
    have h := congrArg BitVec.toNat h
    rw [field_toNat, append_toNat] at h
    have := g.isLt
    simp at h
    omega
  rw [decodeStep, if_neg hwait, if_neg htop]

/-- R100: an address below 0x80 is the byte F of its write step. -/
theorem address_byte {f : Byte} (h : f.toNat ≤ 0x7F) : (0#1 ++ f.extractLsb' 0 7 : Byte) = f := by
  apply BitVec.eq_of_toNat_eq
  rw [append_toNat, field_toNat]
  simp
  omega

theorem decodeStep_address {f : Byte} (g : Byte) (h : f.toNat ≤ 0x7F) :
    decodeStep (f ++ g) = .ok (.seqWrite (f.extractLsb' 0 7) g) := by
  have hstep := Machine.decodeStep_write (f.extractLsb' 0 7) g
  rwa [address_byte h] at hstep

/-- R102: the ranges of one pair of a flat list. -/
def pairInRange (p q : Int) : Prop := (p = -1 ∨ 0 ≤ p ∧ p ≤ 0x7F) ∧ 0 ≤ q ∧ q ≤ 255

/-- R101: the step word of a pair. -/
def pairWord (p q : Int) : BitVec 16 :=
  if p = -1 then 0xFF00 ||| BitVec.ofInt 16 q else (BitVec.ofInt 16 p <<< 8) ||| BitVec.ofInt 16 q

/-- The two bytes of a pair, as a number's bytes in a word. -/
theorem bytes_eq_shifted {p q : Int} (hp : 0 ≤ p ∧ p ≤ 255) (hq : 0 ≤ q ∧ q ≤ 255) :
    (BitVec.ofInt 8 p ++ BitVec.ofInt 8 q : BitVec 16) = (BitVec.ofInt 16 p <<< 8) ||| BitVec.ofInt 16 q := by
  apply BitVec.eq_of_toNat_eq
  have hq' : (BitVec.ofInt 16 q).toNat < 2 ^ 8 := by rw [BitVec.toNat_ofInt]; omega
  rw [append_toNat, BitVec.toNat_or, BitVec.toNat_shiftLeft, BitVec.toNat_ofInt, BitVec.toNat_ofInt, BitVec.toNat_ofInt,
    Nat.mod_eq_of_lt (by rw [Nat.shiftLeft_eq]; omega), ← Nat.shiftLeft_add_eq_or_of_lt hq', Nat.shiftLeft_eq,
    BitVec.toNat_ofInt]
  omega

theorem packPair_inRange {p q : Int} (h : pairInRange p q) : packPair p q = some (pairWord p q) := by
  obtain ⟨hp, hq⟩ := h
  unfold packPair pairWord
  rw [if_pos hq]
  split
  · exact congrArg some (bytes_eq_shifted (p := 255) (by decide) hq)
  · rename_i hne
    have hp' := hp.resolve_left hne
    rw [if_pos hp', bytes_eq_shifted (by omega) hq]

theorem packPair_outOfRange {p q : Int} (h : ¬pairInRange p q) : packPair p q = none := by
  unfold packPair
  split
  · rename_i hq
    rw [if_neg fun hp => h ⟨.inl hp, hq⟩, if_neg fun hp => h ⟨.inr hp, hq⟩]
  · rfl

/-- The flat list of pairs. -/
def flatPairs (ps : List (Int × Int)) : List Int := ps.flatMap (fun p => [p.1, p.2])

theorem packFlat_inRange {ps : List (Int × Int)} (h : ∀ p ∈ ps, pairInRange p.1 p.2) :
    packFlat (flatPairs ps) = some (ps.map (fun p => pairWord p.1 p.2)) := by
  induction ps with
  | nil => rfl
  | cons p ps ih =>
    obtain ⟨hp, hps⟩ := List.forall_mem_cons.1 h
    show (packPair p.1 p.2).bind (fun w => (packFlat (flatPairs ps)).map (fun ws => w :: ws)) = _
    rw [packPair_inRange hp, ih hps]
    rfl

theorem packFlat_odd : ∀ {l : List Int}, l.length % 2 = 1 → packFlat l = none
  | [], h => by cases h
  | [_], _ => rfl
  | p :: q :: rest, h => by
    have ih : packFlat rest = none := packFlat_odd (by simpa [List.length_cons, Nat.add_assoc] using h)
    rw [packFlat, ih]
    cases packPair p q <;> rfl

theorem packFlat_outOfRange (before : List (Int × Int)) {p q : Int} (after : List Int) (h : ¬pairInRange p q) :
    packFlat (flatPairs before ++ p :: q :: after) = none := by
  induction before with
  | nil =>
    show (packPair p q).bind _ = none
    rw [packPair_outOfRange h]
    rfl
  | cons x before ih =>
    show (packPair x.1 x.2).bind (fun w => (packFlat (flatPairs before ++ p :: q :: after)).map _) = none
    rw [ih]
    cases packPair x.1 x.2 <;> rfl

/-- Settles O8: a step word by the range of F, a flat list by induction on its pairs. -/
theorem stepWordsAndFlatLists : Obligations.StepWordsAndFlatLists := by
  refine ⟨fun f g => ⟨?_, decodeStep_address g, fun h => decodeStep_reserved g h.1 h.2⟩, fun ps h => packFlat_inRange h,
    fun l h => packFlat_odd h, fun before p q after h => packFlat_outOfRange before after h⟩
  rintro rfl
  exact Machine.decodeStep_wait g

end Sys2Proof
end

section
/-! PROOFS. The environment's draws (R66, R285), and what the act that ends a step leaves of the registers. -/

namespace Sys2Proof.Machine

open Sys2Proof.Safety

/-! ### Draws -/

theorem freeAnswer_length {n len : Nat} {rx : List Byte} (h : freeAnswer n len = some rx) : rx.length = len := by
  unfold freeAnswer at h
  split at h <;> cases h
  simp

theorem simXfer_length (regs : Memory) (scripted : List (List Byte)) (tx : List Byte) :
    (simXfer regs scripted tx).1.length = tx.length := by
  unfold simXfer
  split
  · split <;> rfl
  · split
    · exact List.length_replicate
    · exact fitLength_length ..

/-- R66: an answer has the length of its frame. -/
theorem Env.exchange_length {e : Env} {tx rx : List Byte} (h : (e.exchange tx).1 = some rx) : rx.length = tx.length := by
  unfold Env.exchange at h
  split at h
  · cases h; exact simXfer_length ..
  · cases h
  · cases h; exact fitLength_length ..
  · exact freeAnswer_length h

/-- Settles O10: each kind of oracle answers by the frame's length, and a script answers what it holds. -/
theorem answersHaveFrameLength : Obligations.AnswersHaveFrameLength :=
  fun _ => ⟨fun _ _ h => Env.exchange_length h, fun _ => rfl, fun _ _ h => congrArg some (fitLength_of_length h)⟩

@[simp] theorem Env.exchange_clock (e : Env) (tx : List Byte) : (e.exchange tx).2.clock = e.clock := by
  unfold Env.exchange
  split <;> rfl

@[simp] theorem Env.csAnswer_clock (e : Env) : e.csAnswer.2.clock = e.clock := by
  unfold Env.csAnswer
  split <;> rfl

@[simp] theorem Env.nativeAnswer_clock (e : Env) : e.nativeAnswer.2.clock = e.clock := by
  unfold Env.nativeAnswer
  split <;> rfl

theorem State.busEvent_clock (f : Frame) (s : State) : (s.busEvent f).env.clock = s.env.clock := by
  unfold State.busEvent
  split
  iterate 3
    unfold State.txFirst
    split <;> simp
  all_goals simp

@[simp] theorem State.transact_clock (f : Frame) (k : Point) (s : State) : (s.transact f k).env.clock = s.env.clock :=
  State.busEvent_clock _ _

/-! ### An act -/

/-- Where the controller stands after an act. -/
def Act.target : Act → Point
  | .begin _ k | .now k | .sleep _ k => k
  | .raise _ _ | .succeed => .idle

@[simp] theorem Act.apply_point (a : Act) (u : State) : (a.apply u).point = a.target := by cases a <;> simp [Act.apply, target]
@[simp] theorem Act.apply_cfg (a : Act) (u : State) : (a.apply u).cfg = u.cfg := by cases a <;> simp [Act.apply]
@[simp] theorem Act.apply_result (a : Act) (u : State) : (a.apply u).result = u.result := by cases a <;> simp [Act.apply]
@[simp] theorem Act.apply_respLen (a : Act) (u : State) : (a.apply u).respLen = u.respLen := by cases a <;> simp [Act.apply]
@[simp] theorem Act.apply_sample (a : Act) (u : State) : (a.apply u).sample = u.sample := by cases a <;> simp [Act.apply]
@[simp] theorem Act.apply_cal (a : Act) (u : State) : (a.apply u).cal = u.cal := by cases a <;> simp [Act.apply]
@[simp] theorem Act.apply_calVals (a : Act) (u : State) : (a.apply u).calVals = u.calVals := by cases a <;> simp [Act.apply]
@[simp] theorem Act.apply_fc (a : Act) (u : State) : (a.apply u).fc = u.fc := by cases a <;> simp [Act.apply]
@[simp] theorem Act.apply_orient (a : Act) (u : State) : (a.apply u).orient = u.orient := by cases a <;> simp [Act.apply]
@[simp] theorem Act.apply_mem (a : Act) (u : State) : (a.apply u).mem = u.mem := by cases a <;> simp [Act.apply]
@[simp] theorem Act.apply_curCmd (a : Act) (u : State) : (a.apply u).curCmd = u.curCmd := by cases a <;> simp [Act.apply]
@[simp] theorem Act.apply_seqSeg (a : Act) (u : State) : (a.apply u).seqSeg = u.seqSeg := by cases a <;> simp [Act.apply]
@[simp] theorem Act.apply_seqPc (a : Act) (u : State) : (a.apply u).seqPc = u.seqPc := by cases a <;> simp [Act.apply]
@[simp] theorem Act.apply_rrIndex (a : Act) (u : State) : (a.apply u).rrIndex = u.rrIndex := by cases a <;> simp [Act.apply]
@[simp] theorem Act.apply_rrOut (a : Act) (u : State) : (a.apply u).rrOut = u.rrOut := by cases a <;> simp [Act.apply]
@[simp] theorem Act.apply_t0 (a : Act) (u : State) : (a.apply u).t0 = u.t0 := by cases a <;> simp [Act.apply]
@[simp] theorem Act.apply_csLevel (a : Act) (u : State) : (a.apply u).csLevel = u.csLevel := by cases a <;> simp [Act.apply]

@[simp] theorem Act.apply_respByte (a : Act) (u : State) (k : Nat) : (a.apply u).respByte k = u.respByte k := by
  simp [State.respByte]

@[simp] theorem Act.apply_pixelByte (a : Act) (u : State) (k : Nat) : (a.apply u).pixelByte k = u.pixelByte k := by
  simp [State.pixelByte]

/-- R285: no act sets the clock back. -/
theorem Act.clock_le_apply (a : Act) (u : State) : u.env.clock ≤ (a.apply u).env.clock := by
  cases a with
  | begin f k => simp [Act.apply]
  | now k => simpa [Act.apply, u.env.now_spec.2] using u.env.now_spec.1
  | sleep ms k => exact (u.env.sleep_spec ms).2.2.2
  | raise code info => simp [Act.apply]
  | succeed => simp [Act.apply]

/-- A point inside a command's rule is one at which a command runs, past its checks. -/
theorem ownPoint_running {i : Instr} {p : Point} (h : ownPoint i p = true) :
    runningPoint p = true ∧ p ≠ .start ∧ p ≠ .boot := by
  cases p with
  | boot | idle | start => cases i <;> cases h
  | _ => exact ⟨rfl, by decide, by decide⟩

/-- An act that goes on does so at a point of its command's rule, which knows whether a transaction is under way; an act
that ends the command gives an error its code. -/
def Act.Fits (i : Instr) : Act → Prop
  | .begin _ k => ownPoint i k = true ∧ transactionPoint k = true
  | .now k | .sleep _ k => ownPoint i k = true ∧ transactionPoint k = false
  | .raise code _ => code ≠ .none
  | .succeed => True

theorem Act.Fits.own {i : Instr} {a : Act} (h : a.Fits i) (hgo : a.endCode = none) : ownPoint i a.target = true := by
  cases a with
  | begin _ _ | now _ | sleep _ _ => exact h.1
  | raise _ _ | succeed => cases hgo

theorem Act.target_idle {a : Act} (h : a.endCode ≠ none) : a.target = .idle := by
  cases a with
  | begin _ _ | now _ | sleep _ _ => exact absurd rfl h
  | raise _ _ | succeed => rfl

/-! ### The player's steps -/

/-- What a step of the player in a bring-up leaves alone. -/
def Played (s u : State) : Prop :=
  u = { s with
    cal := { s.cal with phase := u.cal.phase }, seqSeg := u.seqSeg, seqPc := u.seqPc, rrIndex := u.rrIndex,
    rrOut := u.rrOut }

theorem Word1.eq {s u : State} {a : Act} (h : Word1 s u a) : u = s := by cases h <;> rfl

theorem Trailer.played {v : Variant} {s u : State} {a : Act} (h : Trailer v s u a) : Played s u := by
  cases h with
  | word _ _ h => rw [h.eq]; rfl
  | empty _ => rfl

theorem After.played {v : Variant} {p : BuPhase} {s u : State} {a : Act} (h : After v s p u a) : Played s u := by
  cases h with
  | tail _ _ h => exact h.played
  | _ => rfl

theorem Played.trans {s u w : State} (h : Played s u) (h' : Played u w) : Played s w := by
  unfold Played at *
  rw [h', h]

theorem Enter.played {v : Variant} {p : BuPhase} {s u : State} {a : Act} (h : Enter v p s u a) : Played s u := by
  cases h with
  | word h => rw [h.eq]; rfl
  | empty _ h => exact Played.trans (u := atPart v p s) rfl h.played

/-- What the player changes when it goes on from a word's end. -/
theorem Resumed.frame {s s' : State} (h : Resumed s s') :
    s' = { s with seqPc := s.seqPc + 1, tx := s'.tx, csLevel := s'.csLevel } := by cases h <;> rfl

/-- R186: the phases whose segment is played. -/
def segmentPhase (p : BuPhase) : Bool := [BuPhase.prologue, .mid, .sub, .tail, .trailer].contains p

/-- Where a step that enters or plays a segment of a bring-up lands: at a word of a segment, or at what follows one. -/
inductive Lands (v : Variant) (u : State) : Act → Prop
  | word {a : Act} (hp : segmentPhase u.cal.phase = true) (h : Word1 u u a) : Lands v u a
  | diag (hp : u.cal.phase = .branchA) : Lands v u (.begin (.read (u.cfg.regs v).diag) .diagRead)
  | stat (hp : u.cal.phase = .branchB) : Lands v u (.begin (.read (u.cfg.regs v).stat) .statRead)
  | writeback (hp : u.cal.phase = .writeback) :
    Lands v u (.begin (.write (u.cfg.regs v).c1Dst u.calVals.c1Adj) .c1Written)
  | identity (hp : u.cal.phase = .idCheck) (hi : u.rrIndex = 0) (ho : u.rrOut = []) :
    Lands v u (.begin (.read (Config.idReg + BitVec.ofNat 7 0)) .idRead)

theorem Word1.lands {s u : State} {a : Act} (h : Word1 s u a) (v : Variant) (hp : segmentPhase s.cal.phase = true) :
    Lands v u a := by
  obtain rfl := h.eq
  exact .word hp h

theorem Trailer.lands {v : Variant} {s u : State} {a : Act} (h : Trailer v s u a) : Lands v u a := by
  cases h with
  | word _ _ h => exact h.lands v rfl
  | empty _ => exact .identity rfl rfl rfl

theorem After.lands {v : Variant} {p : BuPhase} {s u : State} {a : Act} (h : After v s p u a) : Lands v u a := by
  cases h with
  | prologue => exact .diag rfl
  | mid => exact .stat rfl
  | sub => exact .writeback rfl
  | tail _ _ h => exact h.lands
  | trailer => exact .identity rfl rfl rfl

theorem Enter.lands {v : Variant} {p : BuPhase} {s u : State} {a : Act} (h : Enter v p s u a)
    (hp : segmentPhase p = true) : Lands v u a := by
  cases h with
  | word h => exact h.lands v hp
  | empty _ h => exact h.lands

/-! ### Every turn fits its command -/

theorem Word1.fits {i : Instr} {s u : State} {a : Act} (h : Word1 s u a) (hwait : ownPoint i .stepWaited = true)
    (hwrite : ownPoint i .stepWritten = true) : a.Fits i := by
  cases h with
  | write f g h => exact ⟨hwrite, rfl⟩
  | wait g h => exact ⟨hwait, rfl⟩

theorem Lands.fits {v : Variant} {u : State} {a : Act} (h : Lands v u a) : a.Fits (.bringUp v) := by
  cases h with
  | word _ h => exact h.fits rfl rfl
  | _ => exact ⟨rfl, rfl⟩

theorem After.fits {v : Variant} {p : BuPhase} {s u : State} {a : Act} (h : After v s p u a) : a.Fits (.bringUp v) :=
  h.lands.fits

theorem Turn.fits {s u : State} {i : Instr} {a : Act} (h : Turn s i u a) : a.Fits i := by
  cases h
  case playSeqBegin hw | playSeqMore hw | segmentMore hw | captureBegin hw | captureMore hw => exact hw.fits rfl rfl
  case flushEnd h | cfgWritten h | statNotTaken h | c2Read h | c2Written h => exact (h.lands rfl).fits
  case segmentEnd h => exact h.fits
  all_goals simp [Act.Fits, ownPoint, transactionPoint]

/-! ### The transaction in a turn: where a result is due, it is taken -/

/-- The transaction a turn leaves before its act: where a result is due, it has been taken. -/
def State.txDue (s : State) : Tx := if transactionPoint s.point then s.taken.tx else s.tx

theorem State.txDue_of_not {s : State} (h : transactionPoint s.point = false) : s.txDue = s.tx := by
  rw [State.txDue, h]; rfl

theorem State.txDue_of {s : State} (h : transactionPoint s.point = true) : s.txDue = s.taken.tx := if_pos h

theorem Played.tx {s u : State} (h : Played s u) : u.tx = s.tx := by rw [h]

theorem Resumed.tx {s s' : State} (h : Resumed s s') : s'.tx = s.txDue := by
  cases h with
  | waited h => rw [State.txDue_of_not (by rw [h]; rfl)]; rfl
  | written rx h ha => rw [State.txDue_of (by rw [h]; rfl)]; rfl

theorem fragmentRegs_tx (f : Byte) (s : State) : (fragmentRegs f s).tx = s.tx := by rw [fragmentRegs_frame]

theorem Turn.tx {s u : State} {i : Instr} {a : Act} (h : Turn s i u a) : u.tx = s.txDue := by
  have start : s.point = .start → s.txDue = s.tx := fun h => State.txDue_of_not (by rw [h]; rfl)
  cases h
  case plainFailed hp => rw [State.txDue_of (plainPoint_transaction hp)]
  case bringUpFailed hp _ _ | captureFailed hp _ _ => rw [State.txDue_of hp]; rfl
  case playSeqBegin hc hw | captureBegin hc hw => rw [start hc.1, hw.eq]; rfl
  case playSeqMore h hw | segmentMore h hw | captureMore h hw => rw [hw.eq, h.tx]
  case playSeqEnd h _ | captureSettle h _ => exact h.tx
  case segmentEnd h _ ha => rw [ha.played.tx, h.tx]
  case captureComplete hp _ hu _ | captureGoesOn hp _ hu _ =>
    subst hu; rw [State.txDue_of (by rw [hp]; rfl)]; exact fragmentRegs_tx _ _
  case slowReadReady hp _ _ hu _ | slowReadNotReady hp _ _ hu _ =>
    subst hu; rw [State.txDue_of (by rw [hp]; rfl)]; simp
  case flushEnd hp _ _ h | cfgWritten hp _ h | statNotTaken hp _ _ h | c2Read hp _ h | c2Written hp _ h =>
    rw [State.txDue_of (by rw [hp]; rfl)]; exact h.played.tx
  all_goals simp_all [State.txDue, transactionPoint, State.nextRead, Checked, bringUpRegs]

end Sys2Proof.Machine
end

section
/-! PROOFS. What the registers of a turn leave alone, family by family of commands (R38). -/

namespace Sys2Proof.Machine

open Sys2Proof.Safety

/-! ### The buffer operations change the buffers alone -/

theorem State.putResp_frame (i : Nat) (v : Byte) (s : State) : s.putResp i v = { s with mem := (s.putResp i v).mem } := by
  unfold State.putResp
  split <;> rfl

theorem State.putRespFrom_frame (i : Nat) (l : List Byte) (s : State) :
    s.putRespFrom i l = { s with mem := (s.putRespFrom i l).mem } := by
  induction l generalizing i s with
  | nil => rfl
  | cons b bs ih =>
    rw [State.putRespFrom, ih, State.putResp_frame]

theorem State.fillResp_frame (n : Nat) (rx : List Byte) (s : State) :
    s.fillResp n rx = { s with respLen := n, mem := (s.fillResp n rx).mem } := by
  rw [State.fillResp, State.putRespFrom_frame]; rfl

theorem State.storeRead_frame (b : Byte) (s : State) :
    s.storeRead b = { s with respLen := s.rrIndex.toNat + 1, mem := (s.storeRead b).mem } := by
  rw [State.storeRead, State.putResp_frame]; rfl

/-! ### RESP_BUF and PIXEL_BUF do not meet -/

theorem State.respByte_of_mem {s t : State} (h : t.mem = s.mem) (k : Nat) : t.respByte k = s.respByte k := by
  rw [State.respByte, h, State.respByte]

theorem State.pixelByte_of_mem {s t : State} (h : t.mem = s.mem) (k : Nat) : t.pixelByte k = s.pixelByte k := by
  rw [State.pixelByte, h, State.pixelByte]

theorem State.respByte_clearResp {k : Nat} (hk : k < 256) (s : State) : s.clearResp.respByte k = 0 := by
  simp [State.respByte, Memory.read_clear, hk]

theorem State.pixelByte_clearResp (k : Nat) (s : State) : s.clearResp.pixelByte k = s.pixelByte k := by
  simp only [State.pixelByte, State.clearResp_mem, Memory.read_clear, respBase, pixelBase, Config.respBufBytes]
  exact if_neg (by omega)

theorem State.respByte_putResp {i : Nat} (hi : i < 256) (v : Byte) (k : Nat) (s : State) :
    (s.putResp i v).respByte k = if k = i then v else s.respByte k := by
  simp [State.respByte, State.read_putResp, hi]

theorem State.pixelByte_putResp (i : Nat) (v : Byte) (k : Nat) (s : State) :
    (s.putResp i v).pixelByte k = s.pixelByte k := by
  simp only [State.pixelByte, State.read_putResp, respBase, pixelBase, Config.respBufBytes]
  exact if_neg (by omega)

theorem State.respByte_storeRead (b : Byte) (k : Nat) (s : State) :
    (s.storeRead b).respByte k = if k = s.rrIndex.toNat then b else s.respByte k :=
  State.respByte_putResp s.rrIndex.isLt b k s

theorem State.pixelByte_storeRead (b : Byte) (k : Nat) (s : State) : (s.storeRead b).pixelByte k = s.pixelByte k :=
  State.pixelByte_putResp ..

theorem State.respByte_fillResp {n : Nat} (hn : n ≤ 256) (rx : List Byte) (k : Nat) (s : State) :
    (s.fillResp n rx).respByte k = if k < n then (fitLength n rx).getD k 0 else s.respByte k := by
  rw [State.respByte, State.read_fillResp _ _ _ _ hn]
  simp [State.respByte, respBase]

theorem State.pixelByte_fillResp {n : Nat} (hn : n ≤ 256) (rx : List Byte) (k : Nat) (s : State) :
    (s.fillResp n rx).pixelByte k = s.pixelByte k := by
  rw [State.pixelByte, State.read_fillResp _ _ _ _ hn]
  exact if_neg (by simp only [respBase, pixelBase]; omega)

theorem State.respByte_putPixel (i : Nat) (v : Byte) {k : Nat} (hk : k < 256) (s : State) :
    (s.putPixel i v).respByte k = s.respByte k := by
  simp only [State.respByte, State.read_putPixel, respBase, pixelBase, Config.framePixels]
  exact if_neg (by omega)

theorem State.respByte_clearPixels {k : Nat} (hk : k < 256) (s : State) : s.clearPixels.respByte k = s.respByte k := by
  simp only [State.respByte, State.clearPixels_mem, Memory.read_clear, respBase, pixelBase]
  exact if_neg (by omega)

theorem fragmentRegs_respByte (f : Byte) {k : Nat} (hk : k < 256) (s : State) :
    (fragmentRegs f s).respByte k = s.respByte k := by
  rcases fragmentRegs_cases f s with h | h | h <;> rw [h]
  · exact State.respByte_putPixel _ _ hk s
  · exact State.respByte_putPixel _ _ hk s

/-! ### The families -/

/-- PLAY_SEQ writes no register of the host. -/
theorem Turn.playSeq_frame {s u : State} {seg : BitVec 4} {a : Act} (h : Turn s (.playSeq seg) u a) :
    u = { s with seqSeg := u.seqSeg, seqPc := u.seqPc, tx := u.tx, csLevel := u.csLevel } := by
  cases h
  case playSeqBegin hw => rw [hw.eq]; rfl
  case playSeqMore h hw => rw [hw.eq, h.frame]
  case playSeqEnd h _ => rw [h.frame]
  all_goals rfl

/-- What BRING_UP can write. -/
theorem Turn.bringUp_frame {s u : State} {v : Variant} {a : Act} (h : Turn s (.bringUp v) u a) :
    u = { s with
      dev := u.dev, cal := u.cal, calVals := u.calVals, seqSeg := u.seqSeg, seqPc := u.seqPc, rrIndex := u.rrIndex,
      rrOut := u.rrOut, tx := u.tx, csLevel := u.csLevel, c1Work := u.c1Work, c2Work := u.c2Work } := by
  cases h
  case flushEnd h | cfgWritten h | statNotTaken h | c2Read h | c2Written h => rw [h.played]; rfl
  case segmentMore h hw => rw [hw.eq, h.frame]
  case segmentEnd h _ ha => rw [ha.played, h.frame]
  all_goals rfl

/-- What FRAME_CAPTURE can write. -/
theorem Turn.capture_frame {s u : State} {T : BitVec 24} {a : Act} (h : Turn s (.frameCapture T) u a) :
    u = { s with
      fc := u.fc, mem := u.mem, seqSeg := u.seqSeg, seqPc := u.seqPc, t0 := u.t0, loopId := u.loopId, tx := u.tx,
      csLevel := u.csLevel } := by
  cases h
  case captureBegin hw => rw [hw.eq]; rfl
  case captureMore h hw => rw [hw.eq, h.frame]
  case captureSettle h _ => rw [h.frame]
  case captureComplete hu _ => rw [hu, fragmentRegs_frame]; rfl
  case captureGoesOn hu _ => rw [hu, fragmentRegs_frame]; rfl
  all_goals rfl

/-- The commands that play no segment: those of the transport family but PLAY_SEQ, and those of the motion family. -/
def simpleCommand : Instr → Bool
  | .writeReg _ _ | .readReg _ | .readRegs _ _ | .burstXfer _ _ | .burstRead _ | .slowRead _ | .setOrientation _ _ _
  | .setRotation _ => true
  | _ => false

/-- What a command that plays no segment can write. -/
theorem Turn.simple_frame {s u : State} {i : Instr} {a : Act} (hi : simpleCommand i = true) (h : Turn s i u a) :
    u = { s with
      result := u.result, respLen := u.respLen, sample := u.sample, orient := u.orient, mem := u.mem,
      rrIndex := u.rrIndex, rrOut := u.rrOut, t0 := u.t0, loopId := u.loopId, tx := u.tx, csLevel := u.csLevel } := by
  cases h
  case readRegEnd => rw [State.putResp_frame]; rfl
  case readRegsMore | slowReadMore => rw [State.nextRead, State.storeRead_frame]; rfl
  case readRegsEnd => rw [State.storeRead_frame]; rfl
  case slowReadReady hu _ | slowReadNotReady hu _ => rw [hu, State.storeRead_frame]; rfl
  case burstXferEnd | burstReadValid | burstReadInvalid => rw [State.fillResp_frame]; rfl
  case stateError | argError | plainFailed => rfl
  all_goals simp only [simpleCommand, Bool.false_eq_true] at hi
  all_goals rfl

/-- Only a capture writes PIXEL_BUF. -/
theorem Turn.pixelByte_of_not_capture {s u : State} {i : Instr} {a : Act} (h : Turn s i u a)
    (hi : ∀ T, i ≠ .frameCapture T) (k : Nat) : u.pixelByte k = s.pixelByte k := by
  cases h
  case writeRegBegin | readRegBegin | readRegsNone | readRegsBegin | burstXferBegin | burstReadTry | slowReadTry =>
    exact State.pixelByte_clearResp k s
  case readRegEnd => exact State.pixelByte_putResp ..
  case readRegsMore | readRegsEnd | slowReadMore => exact State.pixelByte_storeRead _ k s.taken
  case slowReadReady hu _ | slowReadNotReady hu _ => subst hu; exact State.pixelByte_storeRead _ k s.taken
  case burstXferEnd l _ _ _ => exact State.pixelByte_fillResp l.isLt _ k s.taken
  case burstReadValid | burstReadInvalid => exact State.pixelByte_fillResp (n := 13) (by decide) _ k s.taken
  case playSeqBegin hw => rw [hw.eq]; rfl
  case playSeqMore h hw | segmentMore h hw => rw [hw.eq, h.frame]; rfl
  case playSeqEnd h _ => rw [h.frame]; rfl
  case segmentEnd h _ ha => rw [ha.played, h.frame]; rfl
  case flushEnd h | cfgWritten h | statNotTaken h | c2Read h | c2Written h => rw [h.played]; rfl
  case stateError | argError | plainFailed => rfl
  all_goals simp only [ne_eq, reduceCtorEq, not_false_eq_true, implies_true, Instr.frameCapture.injEq, forall_eq'] at hi
  all_goals rfl

/-- A capture leaves RESP_BUF alone. -/
theorem Turn.respByte_of_capture {s u : State} {T : BitVec 24} {a : Act} (h : Turn s (.frameCapture T) u a) {k : Nat}
    (hk : k < 256) : u.respByte k = s.respByte k := by
  cases h
  case captureBegin hw => rw [hw.eq]; rfl
  case captureMore h hw => rw [hw.eq, h.frame]; rfl
  case captureSettle h _ => rw [h.frame]; rfl
  case captureComplete hu _ | captureGoesOn hu _ => subst hu; exact fragmentRegs_respByte _ hk s.taken
  case triggerWritten => exact State.respByte_clearPixels hk (s.taken.setFcState .streaming)
  all_goals rfl

end Sys2Proof.Machine
end

section
/-! PROOFS. Every turn of a command keeps the invariant, part by part. -/

namespace Sys2Proof.Machine

open Sys2Proof.Safety

/-! ### STATUS, the bus and the control point after an act -/

/-- What the invariant says of STATUS, ERRCODE and ERRINFO while a command runs. -/
theorem statusOk_running {s : State} (h : StatusOk s) (hp : runningPoint s.point = true) :
    s.status.busy = true ∧ s.status.done = false ∧ s.status.err = false ∧ s.errCode = .none ∧ s.errInfo = 0 := by
  obtain ⟨hbusy, hrun, -, hcode, hinfo⟩ := h
  rw [hp] at hbusy
  obtain ⟨hdone, herr⟩ := hrun hbusy
  exact ⟨hbusy, hdone, herr, hcode.2 herr, hinfo herr⟩

theorem Act.statusOk {i : Instr} {a : Act} {s u : State} (hs : StatusOk s) (hp : runningPoint s.point = true)
    (hst : u.status = s.status) (hc : u.errCode = s.errCode) (hi : u.errInfo = s.errInfo) (ha : a.Fits i) :
    StatusOk (a.apply u) := by
  obtain ⟨hbusy, hdone, herr, hcode, hinfo⟩ := statusOk_running hs hp
  rw [hcode] at hc
  rw [hinfo] at hi
  rw [← hst] at hbusy hdone herr
  cases a with
  | begin f k | now k | sleep ms k =>
    obtain ⟨hrun, -, -⟩ := ownPoint_running ha.1
    simp [StatusOk, Act.apply, hbusy, hdone, herr, hc, hi, hrun]
  | raise code info =>
    have hcode : code ≠ .none := ha
    simp [StatusOk, Act.apply, Status.erred, runningPoint, hcode]
  | succeed => simp [StatusOk, Act.apply, Status.succeeded, runningPoint, herr, hc, hi]

/-- At a controller's turn with no bus event due, the result that is due has been taken, and the select is released. -/
theorem busOk_due {s : State} (h : BusOk s) (hb : s.busBusy = false) :
    s.txDue.phase = .idle ∧ s.levelDue = .deasserted := by
  obtain ⟨hpoint, hlevel, hnative, -, -⟩ := h
  by_cases ht : transactionPoint s.point = true
  · rw [State.txDue_of ht, State.levelDue_of ht]
    refine ⟨rfl, ?_⟩
    have hidle : s.tx.phase ≠ .idle := fun hidle => by rw [hpoint.1 hidle] at ht; cases ht
    cases hsw : s.cfg.swCs with
    | true => simp [hsw]
    | false =>
      rw [hsw] at hlevel
      have hnot : ¬levelAsserted false s.tx.phase = true := by
        unfold State.busBusy at hb
        cases hph : s.tx.phase <;> simp_all [levelAsserted]
      have hne := fun hc => hnot (hlevel.1 hc)
      simp only [State.taken_csLevel, hsw, Bool.false_eq_true, if_false]
      cases hc : s.csLevel with
      | asserted => exact absurd hc hne
      | deasserted => rfl
  · have ht := eq_false_of_ne_true ht
    rw [State.txDue_of_not ht, State.levelDue_of_not ht]
    have hidle := hpoint.2 ht
    refine ⟨hidle, ?_⟩
    rw [hidle] at hlevel
    cases hc : s.csLevel with
    | asserted => cases hlevel.1 hc
    | deasserted => rfl

/-- R131: the phase a transaction stands in after its first event, which leaves CS_LEVEL as it is. -/
theorem State.transact_phase (f : Frame) (k : Point) (s : State) :
    (s.transact f k).tx.frame = f ∧ (s.transact f k).tx.phase ≠ .idle
      ∧ levelAsserted s.cfg.swCs (s.transact f k).tx.phase = false
      ∧ (s.cfg.swCs = false → selectHeld (s.transact f k).tx.phase = false)
      ∧ responseFits f (s.transact f k).tx.phase := by
  obtain ⟨-, hframe, hsw, hnative⟩ := (s.transact_spec f k).1
  refine ⟨hframe, ?_⟩
  cases hcfg : s.cfg.swCs with
  | true =>
    rw [(hsw hcfg).2]
    split <;> simp [levelAsserted, responseFits]
  | false =>
    rw [(hnative hcfg).2]
    cases hx : (s.env.exchange f.bytes).1 with
    | none => simp [outcomeOf, levelAsserted, selectHeld, responseFits]
    | some rx => simp [outcomeOf, levelAsserted, selectHeld, responseFits, Env.exchange_length hx]

theorem Act.busOk {i : Instr} {a : Act} {u : State} (hu : u.tx.phase = .idle) (hl : u.csLevel = .deasserted)
    (ha : a.Fits i) : BusOk (a.apply u) := by
  cases a with
  | begin f k =>
    obtain ⟨hown, htx⟩ := ha
    obtain ⟨-, -, hboot⟩ := ownPoint_running hown
    obtain ⟨hframe, hne, hlevel, hnative, hfits⟩ := u.transact_phase f k
    simp [BusOk, Act.apply, hframe, hne, hlevel, hl, htx, hboot, hfits]
    exact hnative
  | now k | sleep ms k =>
    obtain ⟨hown, htx⟩ := ha
    obtain ⟨-, -, hboot⟩ := ownPoint_running hown
    simp [BusOk, Act.apply, hu, hl, htx, hboot, levelAsserted, selectHeld, responseFits]
  | raise code info => simp [BusOk, Act.apply, hu, hl, transactionPoint, levelAsserted, selectHeld, responseFits]
  | succeed => simp [BusOk, Act.apply, hu, hl, transactionPoint, levelAsserted, selectHeld, responseFits]

/-- After an act its command runs on, or no command runs. -/
theorem Act.running_apply {i : Instr} {a : Act} {u : State} (ha : a.Fits i) (hd : decodeCommand u.curCmd = .ok i) :
    running (a.apply u) = if a.endCode = none then some i else none := by
  split
  · rename_i hgo
    obtain ⟨hrun, hstart, -⟩ := ownPoint_running (ha.own hgo)
    rw [running_eq_some_iff]
    simp [hrun, hstart, hd]
  · rename_i hend
    simp [running, Act.target_idle hend, runningPoint]

theorem Turn.checked_of_goesOn {s u : State} {i : Instr} {a : Act} (h : Turn s i u a) (hp : s.point = .start)
    (hgo : a.endCode = none) : Checked i s := by
  have resumed : ∀ {s' : State}, Resumed s s' → Checked i s := by
    rintro s' (h | ⟨rx, h, -⟩) <;> cases hp.symm.trans h
  cases h
  case playSeqMore h _ | segmentMore h _ | segmentEnd h _ _ | captureMore h _ | captureSettle h _ => exact resumed h
  case playSeqBegin h _ | captureBegin h _ | captureEmpty h _ => exact h
  all_goals simp_all [Act.endCode]

theorem Turn.controlOk {s u : State} {i : Instr} {a : Act} (hs : ControlOk s) (hrun : runningPoint s.point = true)
    (hd : decodeCommand s.curCmd = .ok i) (h : Turn s i u a) : ControlOk (a.apply u) := by
  intro hp hstart
  have hgo : a.endCode = none := by
    by_contra hend
    rw [Act.apply_point, Act.target_idle hend] at hp
    cases hp
  have hchecks : permitted i s.dev.state = true ∧ argsValid i = true := by
    by_cases hst : s.point = .start
    · exact (h.checked_of_goesOn hst hgo).2
    · obtain ⟨j, hj, -, hperm, hargs⟩ := hs hrun hst
      obtain rfl : j = i := Except.ok.inj (hj.symm.trans hd)
      exact ⟨hperm, hargs⟩
  have hdev : u.dev.state = s.dev.state := by
    by_cases hi : ∃ v, i = .bringUp v
    · obtain ⟨v, rfl⟩ := hi
      rcases h.bringUp_cases with ⟨hu, -⟩ | ⟨-, -, he⟩ | ⟨-, -, he | he⟩
      · exact hu
      all_goals cases hgo.symm.trans he
    · exact congrArg DevState.state (h.dev_of_not_bringUp fun v hv => hi ⟨v, hv⟩)
  refine ⟨i, ?_, ?_, ?_, hchecks.2⟩
  · rw [Act.apply_curCmd, h.kept.curCmd, hd]
  · rw [Act.apply_point]; exact h.fits.own hgo
  · rw [Act.apply_dev, hdev]; exact hchecks.1

/-! ### The buffers and the response -/

theorem memoryOk_fragmentRegs {s : State} (f : Byte) (hs : MemoryOk s.mem) : MemoryOk (fragmentRegs f s).mem := by
  rcases fragmentRegs_cases f s with h | h | h <;> rw [h]
  · exact hs
  · exact memoryOk_putPixel _ _ hs
  · exact memoryOk_putPixel _ _ hs

theorem Turn.memoryOk {s u : State} {i : Instr} {a : Act} (hs : MemoryOk s.mem) (h : Turn s i u a) : MemoryOk u.mem := by
  cases h
  case writeRegBegin | readRegBegin | readRegsNone | readRegsBegin | burstXferBegin | burstReadTry | slowReadTry =>
    exact memoryOk_clear _ _ hs
  case readRegEnd => exact memoryOk_putResp _ _ hs
  case readRegsMore | readRegsEnd | slowReadMore => exact memoryOk_putResp _ _ hs
  case slowReadReady hu _ | slowReadNotReady hu _ => subst hu; exact memoryOk_putResp _ _ hs
  case burstXferEnd | burstReadValid | burstReadInvalid => exact memoryOk_fillResp _ _ hs
  case playSeqBegin hw | captureBegin hw => rw [hw.eq]; exact hs
  case playSeqMore h hw | segmentMore h hw | captureMore h hw => rw [hw.eq, h.frame]; exact hs
  case playSeqEnd h _ | captureSettle h _ => rw [h.frame]; exact hs
  case segmentEnd h _ ha => rw [ha.played, h.frame]; exact hs
  case flushEnd h | cfgWritten h | statNotTaken h | c2Read h | c2Written h => rw [h.played]; exact hs
  case triggerWritten => exact memoryOk_clear _ _ hs
  case captureComplete hu _ | captureGoesOn hu _ =>
    subst hu; exact memoryOk_fragmentRegs (s := s.taken) _ hs
  all_goals exact hs

theorem respOk_clearResp (s : State) : RespOk s.clearResp :=
  ⟨Nat.zero_le _, fun _ _ hk => State.respByte_clearResp hk s⟩

theorem respOk_of_eq {s u : State} (h : RespOk s) (hlen : u.respLen = s.respLen)
    (hb : ∀ k, k < 256 → u.respByte k = s.respByte k) : RespOk u := by
  unfold RespOk
  rw [hlen]
  exact ⟨h.1, fun k hk hlt => (hb k hlt).trans (h.2 k hk hlt)⟩

/-- A byte stored at RESP_LEN leaves the bytes past it clear. -/
theorem respOk_storeRead {s : State} (h : RespOk s) (hi : s.respLen = s.rrIndex.toNat) (b : Byte) :
    RespOk (s.storeRead b) := by
  have hlt := s.rrIndex.isLt
  refine ⟨by rw [State.storeRead_respLen]; exact hlt, fun k hk hlt => ?_⟩
  rw [State.storeRead_respLen] at hk
  rw [State.respByte_storeRead, if_neg (by omega)]
  exact h.2 k (by omega) hlt

theorem respOk_fillResp {s : State} (h : RespOk s) (h0 : s.respLen = 0) {n : Nat} (hn : n ≤ 256) (rx : List Byte) :
    RespOk (s.fillResp n rx) := by
  refine ⟨by rw [State.fillResp_respLen]; exact hn, fun k hk hlt => ?_⟩
  rw [State.fillResp_respLen] at hk
  rw [State.respByte_fillResp hn, if_neg (by omega)]
  exact h.2 k (by omega) hlt

theorem respOk_readReg {s : State} (h : RespOk s) (h0 : s.respLen = 0) (b : Byte) :
    RespOk (((s.setResult (b.setWidth 32)).putResp 0 b).setRespLen 1) := by
  refine ⟨by simp, fun k hk hlt => ?_⟩
  have hk : 1 ≤ k := hk
  have h1 : k ≠ 0 := by omega
  show ((s.setResult (b.setWidth 32)).putResp 0 b).respByte k = 0
  rw [State.respByte_putResp (by decide), if_neg h1]
  exact h.2 k (by omega) hlt

theorem Turn.respOk {s u : State} {i : Instr} {a : Act} (hs : RespOk s) (hr : ReadsOk s)
    (hrun : runningPoint s.point = true) (hd : decodeCommand s.curCmd = .ok i) (h : Turn s i u a) : RespOk u := by
  obtain ⟨hregs, -, hburst, hclear⟩ := hr
  have cleared : s.point = .regDone → clearsResp i = true → s.respLen = 0 :=
    fun hp hi => hclear i (running_eq_some_iff.2 ⟨hrun, by simp [hp], hd⟩) hi
  have same : ∀ {w : State}, w.respLen = s.respLen → w.mem = s.mem → RespOk w :=
    fun hl hm => respOk_of_eq hs hl fun k _ => State.respByte_of_mem hm k
  cases h
  case writeRegBegin | readRegBegin | readRegsNone | readRegsBegin | burstXferBegin | burstReadTry | slowReadTry =>
    exact respOk_clearResp s
  case readRegEnd hp _ => exact respOk_readReg (s := s.taken) hs (cleared hp rfl) _
  case readRegsMore hp _ _ | readRegsEnd hp _ _ | slowReadMore hp _ _ =>
    exact respOk_storeRead (s := s.taken) hs (hregs hp) _
  case slowReadReady hp _ _ hu _ | slowReadNotReady hp _ _ hu _ =>
    subst hu; exact respOk_storeRead (s := s.taken) hs (hregs hp) _
  case burstXferEnd l _ hp _ => exact respOk_fillResp (s := s.taken) hs (cleared hp rfl) l.isLt _
  case burstReadValid hp _ _ _ | burstReadInvalid hp _ _ _ =>
    exact respOk_fillResp (s := s.taken) (n := 13) hs (hburst hp) (by decide) _
  case playSeqBegin hw => rw [hw.eq]; exact hs
  case playSeqMore h hw | segmentMore h hw => rw [hw.eq, h.frame]; exact hs
  case playSeqEnd h _ => rw [h.frame]; exact hs
  case segmentEnd h _ ha => rw [ha.played, h.frame]; exact hs
  case flushEnd h | cfgWritten h | statNotTaken h | c2Read h | c2Written h => rw [h.played]; exact hs
  case captureBegin h hw =>
    exact respOk_of_eq hs (by rw [hw.eq]; rfl) fun k hk => (Turn.captureBegin _ u a h hw).respByte_of_capture hk
  case captureMore h hw =>
    exact respOk_of_eq hs (by rw [hw.eq, h.frame]) fun k hk => (Turn.captureMore 0 _ u a h hw).respByte_of_capture hk
  case captureSettle h _ => rw [h.frame]; exact hs
  case captureComplete hu _ =>
    subst hu; exact respOk_of_eq hs (by rw [fragmentRegs_frame]; rfl) fun k hk => fragmentRegs_respByte _ hk s.taken
  case captureGoesOn hu _ =>
    subst hu; exact respOk_of_eq hs (by rw [fragmentRegs_frame]; rfl) fun k hk => fragmentRegs_respByte _ hk s.taken
  case triggerWritten => exact respOk_of_eq hs rfl fun k hk => State.respByte_clearPixels hk (s.taken.setFcState .streaming)
  all_goals exact hs

end Sys2Proof.Machine
end

section
/-! PROOFS. Every turn keeps the parts of the invariant that speak of the command's own registers. -/

namespace Sys2Proof.Machine

open Sys2Proof.Safety

/-! ### SEQ_PC -/

@[simp] theorem Act.apply_stepWord (a : Act) (u : State) : (a.apply u).stepWord = u.stepWord := by simp [State.stepWord]

/-- R161: the player runs only words of its segment. -/
theorem Word1.inSegment {s u : State} {a : Act} (h : Word1 s u a) :
    u.seqPc < (u.cfg.segment u.seqSeg.toNat).length := by
  cases h with
  | write f g h => exact (List.getElem?_eq_some_iff.1 h).1
  | wait g h => exact (List.getElem?_eq_some_iff.1 h).1

theorem Word1.seqOk {s u : State} {a : Act} (h : Word1 s u a) : SeqOk (a.apply u) := by
  intro _
  simpa using h.inSegment

theorem Lands.seqOk {v : Variant} {u : State} {a : Act} (h : Lands v u a) : SeqOk (a.apply u) := by
  cases h with
  | word _ h => exact h.seqOk
  | _ => simp [SeqOk, Act.target]

theorem Turn.seqOk {s u : State} {i : Instr} {a : Act} (h : Turn s i u a) : SeqOk (a.apply u) := by
  cases h
  case playSeqBegin hw | playSeqMore hw | segmentMore hw | captureBegin hw | captureMore hw => exact hw.seqOk
  case flushEnd h | cfgWritten h | statNotTaken h | c2Read h | c2Written h => exact (h.lands rfl).seqOk
  case segmentEnd h => exact h.lands.seqOk
  all_goals simp [SeqOk, Act.target]

/-! ### ReadRegisters -/

theorem nextIndex_toNat {x : Byte} {n : Nat} (h : x.toNat + 1 < n) (hn : n ≤ 256) :
    (BitVec.ofNat 8 (x.toNat + 1)).toNat = x.toNat + 1 := Nat.mod_eq_of_lt (by omega)

/-- What the invariant says of RR_INDEX, RESP_LEN and the read bytes, where the controller stands at p. -/
def ReadsAt (p : Point) (u : State) : Prop :=
  (p = .regsRead → u.respLen = u.rrIndex.toNat) ∧ (p = .idRead → u.rrOut.length = u.rrIndex.toNat)
    ∧ (p = .burstRead → u.respLen = 0)

theorem Lands.readsAt {v : Variant} {u : State} {a : Act} (h : Lands v u a) : ReadsAt a.target u := by
  cases h with
  | word _ h => cases h <;> simp [ReadsAt, Act.target]
  | identity _ hi ho => simp [ReadsAt, Act.target, hi, ho]
  | _ => simp [ReadsAt, Act.target]

theorem Turn.readsAt {s u : State} {i : Instr} {a : Act} (hs : ReadsOk s) (h : Turn s i u a) : ReadsAt a.target u := by
  have word : ∀ {w u : State} {a : Act}, Word1 w u a → ReadsAt a.target u := by
    rintro w u a (⟨f, g, -⟩ | ⟨g, -⟩) <;> simp [ReadsAt, Act.target]
  cases h
  case playSeqBegin hw | playSeqMore hw | segmentMore hw | captureBegin hw | captureMore hw => exact word hw
  case flushEnd h | cfgWritten h | statNotTaken h | c2Read h | c2Written h => exact (h.lands rfl).readsAt
  case segmentEnd h => exact h.lands.readsAt
  case readRegsMore n _ _ _ hn =>
    simp [ReadsAt, Act.target, State.nextRead, nextIndex_toNat hn (Nat.le_of_lt n.isLt)]
  case slowReadMore hn => simp [ReadsAt, Act.target, State.nextRead, nextIndex_toNat hn (by decide)]
  case idMore hp _ hn =>
    simp [ReadsAt, Act.target, State.nextRead, nextIndex_toNat hn (by decide), hs.2.1 hp]
  all_goals simp [ReadsAt, Act.target]

theorem Turn.respLen_of_clears {s u : State} {i : Instr} {a : Act} (h : Turn s i u a) (hi : clearsResp i = true)
    (hgo : a.endCode = none) : u.respLen = 0 := by
  cases h
  case writeRegBegin | readRegBegin | burstXferBegin => rfl
  case stateError | argError | plainFailed | writeRegEnd | readRegEnd | burstXferEnd => cases hgo
  all_goals cases hi

theorem Turn.readsOk {s u : State} {i : Instr} {a : Act} (hs : ReadsOk s) (hd : decodeCommand s.curCmd = .ok i)
    (h : Turn s i u a) : ReadsOk (a.apply u) := by
  obtain ⟨h1, h2, h3⟩ := h.readsAt hs
  refine ⟨by simpa using h1, by simpa using h2, by simpa using h3, fun j hj hc => ?_⟩
  rw [Act.running_apply h.fits (by rw [h.kept.curCmd, hd])] at hj
  split at hj <;> cases hj
  rename_i hgo
  rw [Act.apply_respLen, h.respLen_of_clears hc hgo]

/-! ### The lifecycle -/

/-- R180, R191: STATE and BU_PHASE where no bring-up is under way. -/
def Settled (d : Lifecycle) (p : BuPhase) : Prop :=
  (d = .uninit ∧ p = .idle) ∨ (d = .ready ∧ p = .done) ∨ (d = .failed ∧ p = .failed)

theorem lifecycleOk_bringUp {s : State} {v : Variant} (hr : running s = some (.bringUp v)) :
    LifecycleOk s ↔ s.dev.state = .uninit ∧ s.dev.variant = v ∧ phaseAt s.point s.cal.phase = true := by
  rw [LifecycleOk, hr]

theorem lifecycleOk_settled {s : State} (hr : ∀ v, running s ≠ some (.bringUp v)) :
    LifecycleOk s ↔ Settled s.dev.state s.cal.phase := by
  unfold LifecycleOk Settled
  split
  · exact absurd ‹_› (hr _)
  · rfl

theorem Word1.phaseAt {s u : State} {a : Act} (h : Word1 s u a) (hp : segmentPhase u.cal.phase = true) :
    phaseAt a.target u.cal.phase = true := by cases h <;> exact hp

theorem Lands.phaseAt {v : Variant} {u : State} {a : Act} (h : Lands v u a) : phaseAt a.target u.cal.phase = true := by
  cases h with
  | word hp h => exact h.phaseAt hp
  | diag hp | stat hp | writeback hp => rw [hp]; rfl
  | identity hp _ _ => rw [hp]; rfl

theorem Resumed.segmentPhase {s s' : State} (h : Resumed s s') (hs : phaseAt s.point s.cal.phase = true) :
    segmentPhase s'.cal.phase = true := by
  rw [resumed_phase h]
  cases h with
  | waited hp => rwa [hp] at hs
  | written rx hp _ => rwa [hp] at hs

theorem Act.endCode_ne_none_iff_target {i : Instr} {a : Act} (h : a.Fits i) : a.endCode = none ↔ a.target ≠ .idle := by
  constructor
  · intro hgo hidle
    have hown := h.own hgo
    rw [hidle] at hown
    cases (ownPoint_running hown).1
  · intro hne
    by_contra hend
    exact hne (Act.target_idle hend)

/-- A bring-up that has begun stays UNINIT, of its variant and in the phase of its point until its end, READY or FAILED. -/
theorem Turn.bringUp_lifecycle {s u : State} {v : Variant} {a : Act} (hstart : s.point = .start → Settled s.dev.state s.cal.phase)
    (hrun : s.point ≠ .start → s.dev.state = .uninit ∧ s.dev.variant = v ∧ phaseAt s.point s.cal.phase = true)
    (h : Turn s (.bringUp v) u a) :
    (a.endCode = none → u.dev.state = .uninit ∧ u.dev.variant = v ∧ phaseAt a.target u.cal.phase = true)
      ∧ (a.endCode ≠ none → Settled u.dev.state u.cal.phase) := by
  have lands : s.point ≠ .start → u.dev = s.dev → Lands v u a →
      (a.endCode = none → u.dev.state = .uninit ∧ u.dev.variant = v ∧ phaseAt a.target u.cal.phase = true)
        ∧ (a.endCode ≠ none → Settled u.dev.state u.cal.phase) := by
    intro hp hdev hl
    obtain ⟨hst, hv, -⟩ := hrun hp
    refine ⟨fun _ => ⟨by rw [hdev, hst], by rw [hdev, hv], hl.phaseAt⟩, fun hend => ?_⟩
    cases hl with
    | word _ h => cases h <;> exact absurd rfl hend
    | _ => exact absurd rfl hend
  cases h
  case stateError hp _ | argError hp _ _ => exact ⟨nofun, fun _ => hstart hp⟩
  case plainFailed hp => cases hp
  case bringUpFailed | idMismatch => exact ⟨nofun, fun _ => .inr (.inr ⟨rfl, rfl⟩)⟩
  case idMatch => exact ⟨nofun, fun _ => .inr (.inl ⟨rfl, rfl⟩)⟩
  case bringUpBegin hc =>
    obtain ⟨-, hperm, -⟩ := hc
    exact ⟨fun _ => ⟨by simpa [permitted, bringUpRegs] using hperm, rfl, rfl⟩, fun h => absurd rfl h⟩
  case flushEnd hp _ _ h | cfgWritten hp _ h | statNotTaken hp _ _ h | c2Read hp _ h | c2Written hp _ h =>
    exact lands (by simp [hp]) (by rw [h.played]; rfl) (h.lands rfl)
  case segmentMore h hw =>
    have hp : s.point ≠ .start := by cases h <;> simp_all
    exact lands hp (by rw [hw.eq, h.frame]) (hw.lands v (h.segmentPhase (hrun hp).2.2))
  case segmentEnd h _ ha =>
    have hp : s.point ≠ .start := by cases h <;> simp_all
    exact lands hp (by rw [ha.played, h.frame]) ha.lands
  all_goals simp_all [Act.endCode, Act.target, phaseAt, State.nextRead]

theorem Turn.cal_of_not_bringUp {s u : State} {i : Instr} {a : Act} (h : Turn s i u a) (hc : i.isCommand = true)
    (hi : ∀ v, i ≠ .bringUp v) : u.cal = s.cal ∧ u.calVals = s.calVals := by
  cases i with
  | playSeq seg => rw [h.playSeq_frame]; exact ⟨rfl, rfl⟩
  | frameCapture T => rw [h.capture_frame]; exact ⟨rfl, rfl⟩
  | bringUp v => exact absurd rfl (hi v)
  | writeReg _ _ | readReg _ | readRegs _ _ | burstXfer _ _ | burstRead _ | slowRead _ | setOrientation _ _ _
  | setRotation _ => rw [h.simple_frame rfl]; exact ⟨rfl, rfl⟩
  | _ => cases hc

theorem Turn.lifecycleOk {s u : State} {i : Instr} {a : Act} (hs : LifecycleOk s) (hrun : runningPoint s.point = true)
    (hd : decodeCommand s.curCmd = .ok i) (h : Turn s i u a) : LifecycleOk (a.apply u) := by
  have hr' := Act.running_apply h.fits (by rw [h.kept.curCmd, hd])
  by_cases hi : ∃ v, i = .bringUp v
  · obtain ⟨v, rfl⟩ := hi
    have hstart : s.point = .start → Settled s.dev.state s.cal.phase :=
      fun hp => (lifecycleOk_settled fun v hv => (running_eq_some_iff.1 hv).2.1 hp).1 hs
    have hgo : s.point ≠ .start → _ := fun hp => (lifecycleOk_bringUp (running_eq_some_iff.2 ⟨hrun, hp, hd⟩)).1 hs
    obtain ⟨hon, hend⟩ := h.bringUp_lifecycle hstart hgo
    by_cases ha : a.endCode = none
    · rw [if_pos ha] at hr'
      rw [lifecycleOk_bringUp hr']
      simpa [a.apply_dev] using hon ha
    · rw [if_neg ha] at hr'
      rw [lifecycleOk_settled (by simp [hr'])]
      simpa [a.apply_dev] using hend ha
  · have hne : ∀ v, i ≠ .bringUp v := fun v hv => hi ⟨v, hv⟩
    have hs' := (lifecycleOk_settled fun v hv =>
      hne v (Except.ok.inj (hd.symm.trans (running_eq_some_iff.1 hv).2.2))).1 hs
    rw [lifecycleOk_settled (fun v hv => by
      rw [hr'] at hv
      split at hv <;> cases hv
      exact hne v rfl)]
    rwa [a.apply_dev, Act.apply_cal, h.dev_of_not_bringUp hne,
      (h.cal_of_not_bringUp (decodeCommand_isCommand hd) hne).1]

/-! ### Branch B -/

/-- R186-R188: the phase after the segment of a phase. -/
theorem After.phase_cases {v : Variant} {p : BuPhase} {s u : State} {a : Act} (h : After v s p u a) :
    (p = .prologue ∧ u.cal.phase = .branchA) ∨ (p = .mid ∧ u.cal.phase = .branchB)
      ∨ (p = .sub ∧ u.cal.phase = .writeback) ∨ (p = .tail ∧ (u.cal.phase = .trailer ∨ u.cal.phase = .idCheck))
      ∨ (p = .trailer ∧ u.cal.phase = .idCheck) := by
  cases h with
  | prologue => exact .inl ⟨rfl, rfl⟩
  | mid => exact .inr (.inl ⟨rfl, rfl⟩)
  | sub => exact .inr (.inr (.inl ⟨rfl, rfl⟩))
  | tail _ _ h =>
    refine .inr (.inr (.inr (.inl ⟨rfl, ?_⟩)))
    cases h with
    | word _ _ h => rw [h.eq]; exact .inl rfl
    | empty _ => exact .inr rfl
  | trailer => exact .inr (.inr (.inr (.inr ⟨rfl, rfl⟩)))

/-- R188: the phases of a branch B that is taken, after its c2 read. -/
def branchPhase (p : BuPhase) : Bool := p == .sub || p == .writeback

theorem After.branch {v : Variant} {p : BuPhase} {s u : State} {a : Act} (h : After v s p u a) :
    branchPhase u.cal.phase = true → p = .sub := by
  rcases h.phase_cases with ⟨-, h⟩ | ⟨-, h⟩ | ⟨h, -⟩ | ⟨-, h | h⟩ | ⟨-, h⟩
  case inr.inr.inl => exact fun _ => h
  all_goals rw [h]; exact nofun

theorem Enter.branch {v : Variant} {p : BuPhase} {s u : State} {a : Act} (h : Enter v p s u a) (hp : p ≠ .writeback)
    (hu : branchPhase u.cal.phase = true) : p = .sub := by
  cases h with
  | word h =>
    rw [h.eq] at hu
    have hphase : (atPart v p s).cal.phase = p := rfl
    have hu : p = .sub ∨ p = .writeback := by simpa [branchPhase, hphase] using hu
    exact hu.resolve_right hp
  | empty _ h => exact h.branch hu

theorem Word1.target_ne {s u : State} {a : Act} (h : Word1 s u a) : a.target ≠ .c1Read ∧ a.target ≠ .c2Read := by
  cases h <;> exact ⟨nofun, nofun⟩

theorem Lands.target_ne {v : Variant} {u : State} {a : Act} (h : Lands v u a) :
    a.target ≠ .c1Read ∧ a.target ≠ .c2Read := by
  cases h with
  | word _ h => exact h.target_ne
  | _ => exact ⟨nofun, nofun⟩

theorem branchOk_of {a : Act} {u : State} (ht : a.target ≠ .c1Read ∧ a.target ≠ .c2Read)
    (hb : branchPhase u.cal.phase = true → u.cal.bTaken = true) : BranchOk (a.apply u) := by
  intro h
  simp only [Act.apply_point, Act.apply_cal, ht.1, ht.2, false_or] at h ⊢
  exact hb (by simpa [branchPhase] using h)

theorem Turn.bringUp_branchOk {s u : State} {v : Variant} {a : Act} (hs : BranchOk s) (h : Turn s (.bringUp v) u a) :
    BranchOk (a.apply u) := by
  have hphase : branchPhase s.cal.phase = true → s.cal.bTaken = true :=
    fun hu => hs (.inr (.inr (by simpa [branchPhase] using hu)))
  have enters : ∀ {p : BuPhase} {w : State}, Enter v p w u a → segmentPhase p = true → p ≠ .sub → p ≠ .writeback →
      BranchOk (a.apply u) :=
    fun h hp hsub hwb => branchOk_of (h.lands hp).target_ne fun hu => absurd (h.branch hwb hu) hsub
  cases h
  case flushEnd h | cfgWritten h | statNotTaken h | c2Written h => exact enters h rfl nofun nofun
  case segmentMore h hw => exact branchOk_of hw.target_ne (by rw [hw.eq, resumed_phase h]; exact hphase)
  case segmentEnd h _ ha =>
    refine branchOk_of ha.lands.target_ne fun hu => ?_
    have hcal : u.cal.bTaken = s.cal.bTaken := by rw [ha.played, h.frame]
    rw [hcal]
    exact hphase (by rw [ha.branch hu]; rfl)
  case statTaken => exact fun _ => by rw [Act.apply_cal]; rfl
  case c1Read hp _ => exact fun _ => by rw [Act.apply_cal]; exact hs (.inl hp)
  case c2Read hp _ h =>
    refine branchOk_of (h.lands rfl).target_ne fun _ => ?_
    have hcal : u.cal.bTaken = s.cal.bTaken := by rw [h.played]; rfl
    rw [hcal]
    exact hs (.inr (.inl hp))
  case stateError | argError | plainFailed | flushMore | diagRead | c1Written | idMore =>
    exact branchOk_of ⟨nofun, nofun⟩ hphase
  all_goals exact branchOk_of ⟨nofun, nofun⟩ nofun

/-- R188: only a branch B that is taken comes to its reads and its phases. -/
theorem Turn.branchOk {s u : State} {i : Instr} {a : Act} (hs : BranchOk s) (hc : i.isCommand = true)
    (h : Turn s i u a) : BranchOk (a.apply u) := by
  by_cases hi : ∃ v, i = .bringUp v
  · obtain ⟨v, rfl⟩ := hi
    exact h.bringUp_branchOk hs
  · have hne : ∀ v, i ≠ .bringUp v := fun v hv => hi ⟨v, hv⟩
    refine branchOk_of ?_ fun hu => ?_
    · by_cases hgo : a.endCode = none
      · have hown := h.fits.own hgo
        constructor <;> intro ht <;> rw [ht] at hown <;> cases i <;> cases hown <;> exact hne _ rfl
      · rw [Act.target_idle hgo]; exact ⟨nofun, nofun⟩
    · rw [(h.cal_of_not_bringUp hc hne).1] at hu ⊢
      exact hs (.inr (.inr (by simpa [branchPhase] using hu)))

/-! ### The frame capture -/

theorem Turn.fc_of_not_capture {s u : State} {i : Instr} {a : Act} (h : Turn s i u a) (hc : i.isCommand = true)
    (hi : ∀ T, i ≠ .frameCapture T) : u.fc = s.fc := by
  cases i with
  | playSeq seg => rw [h.playSeq_frame]
  | frameCapture T => exact absurd rfl (hi T)
  | bringUp v => rw [h.bringUp_frame]
  | writeReg _ _ | readReg _ | readRegs _ _ | burstXfer _ _ | burstRead _ | slowRead _ | setOrientation _ _ _
  | setRotation _ => rw [h.simple_frame rfl]
  | _ => cases hc

/-- R240: the states in which no capture is under way. -/
def captureAtRest (x : FcState) : Prop := x ≠ .configuring ∧ x ≠ .waitingForGrabReady ∧ x ≠ .streaming

theorem captureStateOk_capture {s : State} {T : BitVec 24} (hr : running s = some (.frameCapture T)) :
    CaptureStateOk s ↔ captureAt s.point s.fc.state = true := by
  rw [CaptureStateOk, hr]

theorem captureStateOk_atRest {s : State} (hr : ∀ T, running s ≠ some (.frameCapture T)) :
    CaptureStateOk s ↔ captureAtRest s.fc.state := by
  unfold CaptureStateOk captureAtRest
  split
  · exact absurd ‹_› (hr _)
  · rfl

theorem fragmentRegs_fcState (f : Byte) (s : State) : (fragmentRegs f s).fc.state = s.fc.state := by
  rcases fragmentRegs_cases f s with h | h | h <;> rw [h] <;> rfl

/-- A capture that has begun is in the state of its point until its end, which leaves a state at rest. -/
theorem Turn.capture_state {s u : State} {T : BitVec 24} {a : Act} (hstart : s.point = .start → captureAtRest s.fc.state)
    (hrun : s.point ≠ .start → captureAt s.point s.fc.state = true) (h : Turn s (.frameCapture T) u a) :
    (a.endCode = none → captureAt a.target u.fc.state = true) ∧ (a.endCode ≠ none → captureAtRest u.fc.state) := by
  have at_point : ∀ {p : Point}, s.point = p → p ≠ .start → captureAt p s.fc.state = true := by
    rintro p rfl hp
    exact hrun hp
  have word : ∀ {w : State}, Word1 w u a → w.fc.state = .configuring →
      (a.endCode = none → captureAt a.target u.fc.state = true) ∧ (a.endCode ≠ none → captureAtRest u.fc.state) := by
    intro w hw hst
    rw [hw.eq, hst]
    cases hw <;> exact ⟨fun _ => rfl, fun h => absurd rfl h⟩
  have resumed : ∀ {w : State}, Resumed s w → w.fc.state = .configuring := by
    intro w h
    rw [h.frame]
    cases h with
    | waited hp => simpa [captureAt] using at_point hp nofun
    | written rx hp _ => simpa [captureAt] using at_point hp nofun
  cases h
  case stateError hp _ | argError hp _ _ => exact ⟨nofun, fun _ => hstart hp⟩
  case plainFailed hp => cases hp
  case captureBegin hw => exact word hw rfl
  case captureMore h hw => exact word hw (resumed h)
  case captureSettle h _ => exact ⟨fun _ => by rw [resumed h]; rfl, fun h => absurd rfl h⟩
  case captureFailed | captureComplete | initLate | streamLate => exact ⟨nofun, fun _ => ⟨nofun, nofun, nofun⟩⟩
  case captureGoesOn hp _ hu _ =>
    subst hu
    have hst := at_point hp nofun
    exact ⟨fun _ => by rw [fragmentRegs_fcState]; exact hst, fun h => absurd rfl h⟩
  case captureEmpty | captureWaited | triggerWritten => exact ⟨fun _ => rfl, fun h => absurd rfl h⟩
  case initT0 hp | pollGrab hp | grabReady hp _ _ | grabNotReady hp _ _ | initSleep hp _ _ | initAgain hp _ _
      | streamT0 hp | pollStream hp | streamSleep hp _ _ | streamAgain hp _ _ =>
    have hst := at_point hp nofun
    exact ⟨fun _ => hst, fun h => absurd rfl h⟩

theorem Turn.captureStateOk {s u : State} {i : Instr} {a : Act} (hs : CaptureStateOk s)
    (hrun : runningPoint s.point = true) (hd : decodeCommand s.curCmd = .ok i) (h : Turn s i u a) :
    CaptureStateOk (a.apply u) := by
  have hr' := Act.running_apply h.fits (by rw [h.kept.curCmd, hd])
  by_cases hi : ∃ T, i = .frameCapture T
  · obtain ⟨T, rfl⟩ := hi
    have hstart : s.point = .start → captureAtRest s.fc.state :=
      fun hp => (captureStateOk_atRest fun T hT => (running_eq_some_iff.1 hT).2.1 hp).1 hs
    have hgo : s.point ≠ .start → captureAt s.point s.fc.state = true :=
      fun hp => (captureStateOk_capture (running_eq_some_iff.2 ⟨hrun, hp, hd⟩)).1 hs
    obtain ⟨hon, hend⟩ := h.capture_state hstart hgo
    by_cases ha : a.endCode = none
    · rw [if_pos ha] at hr'
      rw [captureStateOk_capture hr']
      simpa using hon ha
    · rw [if_neg ha] at hr'
      rw [captureStateOk_atRest (by simp [hr'])]
      simpa using hend ha
  · have hne : ∀ T, i ≠ .frameCapture T := fun T hT => hi ⟨T, hT⟩
    have hs' := (captureStateOk_atRest fun T hT =>
      hne T (Except.ok.inj (hd.symm.trans (running_eq_some_iff.1 hT).2.2))).1 hs
    rw [captureStateOk_atRest (fun T hT => by
      rw [hr'] at hT
      split at hT <;> cases hT
      exact hne T rfl)]
    rwa [Act.apply_fc, h.fc_of_not_capture (decodeCommand_isCommand hd) hne]

theorem fragmentRegs_count (f : Byte) (s : State) :
    ((fragmentRegs f s).fc.pixelCount = s.fc.pixelCount ∨ (fragmentRegs f s).fc.pixelCount = s.fc.pixelCount + 1)
      ∧ (fragmentRegs f s).fc.initTimeout = s.fc.initTimeout
      ∧ (fragmentRegs f s).fc.lastGrabStatus = s.fc.lastGrabStatus := by
  rcases fragmentRegs_cases f s with h | h | h <;> rw [h]
  · exact ⟨.inl rfl, rfl, rfl⟩
  · exact ⟨.inl rfl, rfl, rfl⟩
  · exact ⟨.inr rfl, rfl, rfl⟩

theorem captureCountOk_configured : CaptureCountOk FcStatus.configured := by
  simp [CaptureCountOk, FcStatus.configured]

/-- R241: while a capture runs, INIT_TIMEOUT is clear. -/
theorem captureCountOk_initTimeout {x : FcStatus} (h : CaptureCountOk x) (hx : x.state ≠ .timedOut) :
    x.initTimeout = false := by
  obtain ⟨-, -, -, -, -, hflag, -⟩ := h
  cases hi : x.initTimeout with
  | false => rfl
  | true => exact absurd (hflag hi) hx

theorem Turn.capture_countOk {s u : State} {T : BitVec 24} {a : Act} (hs : CaptureCountOk s.fc) (ht : TriggerOk s)
    (hrun : s.point ≠ .start → captureAt s.point s.fc.state = true) (h : Turn s (.frameCapture T) u a) :
    CaptureCountOk u.fc := by
  have at_point : ∀ {p : Point}, s.point = p → p ≠ .start → captureAt p s.fc.state = true := by
    rintro p rfl hp
    exact hrun hp
  have hflag := captureCountOk_initTimeout hs
  obtain ⟨hle, hnone, hstream, -, -, -, hready⟩ := id hs
  cases h
  case captureBegin hw => rw [hw.eq]; exact captureCountOk_configured
  case captureEmpty => exact captureCountOk_configured
  case captureMore h hw => rw [hw.eq, h.frame]; exact hs
  case captureSettle h _ => rw [h.frame]; exact hs
  case captureFailed hp ho _ =>
    have hst : s.fc.state ≠ .timedOut := fun hst => by
      have hat := at_point rfl (transactionPoint_ne_start hp)
      rw [hst] at hat
      cases hpt : s.point <;> rw [hpt] at hat <;> cases hat
    simp [CaptureCountOk, hle, hflag hst]
  case captureWaited hp =>
    have hst : s.fc.state = .configuring := by simpa [captureAt] using at_point hp nofun
    have hflag := hflag (by rw [hst]; nofun)
    simp [CaptureCountOk, hflag, hnone (.inl hst)]
  case grabReady hp _ _ | grabNotReady hp _ _ =>
    have hst : s.fc.state = .waitingForGrabReady := by simpa [captureAt] using at_point hp nofun
    have hflag := hflag (by rw [hst]; nofun)
    simp [CaptureCountOk, hflag, hst, hnone (.inr hst)]
  case initLate => simp [CaptureCountOk, hle]
  case triggerWritten hp _ =>
    have hst : s.fc.state = .waitingForGrabReady := by simpa [captureAt] using at_point hp nofun
    have hflag := hflag (by rw [hst]; nofun)
    simp [CaptureCountOk, hflag, hnone (.inr hst), ht.1 hp]
  case captureComplete rx w hp _ hu hcount =>
    have hst : s.fc.state = .streaming := by simpa [captureAt] using at_point hp nofun
    obtain ⟨-, hi, hg⟩ := fragmentRegs_count (readResult rx) s.taken
    rw [← hu] at hi hg
    have hi : w.fc.initTimeout = false := hi.trans (hflag (by rw [hst]; nofun))
    have hg : Machine.grabReady w.fc.lastGrabStatus = true := (congrArg Machine.grabReady hg).trans (hready (.inl hst))
    simp [CaptureCountOk, hcount, hi, hg]
  case captureGoesOn rx hp _ hu hcount =>
    have hst : s.fc.state = .streaming := by simpa [captureAt] using at_point hp nofun
    obtain ⟨hn, hi, hg⟩ := fragmentRegs_count (readResult rx) s.taken
    have hw := fragmentRegs_fcState (readResult rx) s.taken
    rw [← hu] at hn hi hg hw
    have hw : u.fc.state = .streaming := hw.trans hst
    have hi : u.fc.initTimeout = false := hi.trans (hflag (by rw [hst]; nofun))
    have hg : Machine.grabReady u.fc.lastGrabStatus = true := (congrArg Machine.grabReady hg).trans (hready (.inl hst))
    have hn : u.fc.pixelCount = s.fc.pixelCount ∨ u.fc.pixelCount = s.fc.pixelCount + 1 := hn
    have hlt : u.fc.pixelCount < Config.framePixels := by
      have := hstream hst
      omega
    simp [CaptureCountOk, hw, hi, hg, hlt, Nat.le_of_lt hlt]
  case streamLate hp _ =>
    have hst : s.fc.state = .streaming := by simpa [captureAt] using at_point hp nofun
    have hflag := hflag (by rw [hst]; nofun)
    simp [CaptureCountOk, hle, hflag, hstream hst]
  all_goals exact hs

theorem Turn.captureCountOk {s u : State} {i : Instr} {a : Act} (hs : CaptureCountOk s.fc) (hcap : CaptureStateOk s)
    (ht : TriggerOk s) (hrun : runningPoint s.point = true) (hd : decodeCommand s.curCmd = .ok i) (h : Turn s i u a) :
    CaptureCountOk u.fc := by
  by_cases hi : ∃ T, i = .frameCapture T
  · obtain ⟨T, rfl⟩ := hi
    exact h.capture_countOk hs ht
      fun hp => (captureStateOk_capture (running_eq_some_iff.2 ⟨hrun, hp, hd⟩)).1 hcap
  · rwa [h.fc_of_not_capture (decodeCommand_isCommand hd) fun T hT => hi ⟨T, hT⟩]

theorem Word1.triggerOk {s u : State} {a : Act} (h : Word1 s u a) : TriggerOk (a.apply u) := by
  cases h <;> simp [TriggerOk, Act.target]

/-- R250: the trigger is written, or the init deadline looked at, only in the step that has taken the status byte. -/
theorem Turn.triggerOk {s u : State} {i : Instr} {a : Act} (h : Turn s i u a) : TriggerOk (a.apply u) := by
  have lands : ∀ {v : Variant}, Lands v u a → TriggerOk (a.apply u) := by
    rintro v (⟨_, h⟩ | _)
    · exact h.triggerOk
    all_goals simp [TriggerOk, Act.target]
  cases h
  case playSeqBegin hw | playSeqMore hw | segmentMore hw | captureBegin hw | captureMore hw => exact hw.triggerOk
  case flushEnd h | cfgWritten h | statNotTaken h | c2Read h | c2Written h => exact lands (h.lands rfl)
  case segmentEnd h => exact lands h.lands
  case grabReady hg | grabNotReady hg => simp [TriggerOk, Act.target, hg]
  all_goals simp [TriggerOk, Act.target]

/-! ### The frame on the bus -/

theorem Word1.busFrame {s u : State} {f : Frame} {k : Point} (h : Word1 s u (.begin f k)) (i : Instr) :
    busFrame i ((Act.begin f k).apply u) = some f := by
  cases h with
  | write f g h => simp [Safety.busFrame, Act.target, stepFrame, h, decodeStep_write]

theorem Lands.busFrame {v : Variant} {u : State} {f : Frame} {k : Point} (h : Lands v u (.begin f k)) :
    busFrame (.bringUp v) ((Act.begin f k).apply u) = some f := by
  cases h with
  | word _ h => exact h.busFrame _
  | identity _ hi _ => simp [Safety.busFrame, Act.target, hi]
  | _ => simp [Safety.busFrame, Act.target]

/-- R72: a transaction that a turn begins carries the frame of the rule at the point where the turn goes on. -/
theorem Turn.busFrame {s u : State} {i : Instr} {f : Frame} {k : Point} (h : Turn s i u (.begin f k)) :
    busFrame i ((Act.begin f k).apply u) = some f := by
  generalize ha : Act.begin f k = a at h
  cases h
  case playSeqBegin hw | playSeqMore hw | segmentMore hw | captureBegin hw | captureMore hw =>
    subst ha; exact hw.busFrame _
  case flushEnd h | cfgWritten h | statNotTaken h | c2Read h | c2Written h => subst ha; exact (h.lands rfl).busFrame
  case segmentEnd h => subst ha; exact h.lands.busFrame
  case readRegsMore n _ _ _ hn =>
    cases ha
    simp [Safety.busFrame, Act.target, State.nextRead, State.nextReadFrame, nextIndex_toNat hn (Nat.le_of_lt n.isLt)]
  case slowReadMore hn | flushMore hn | idMore hn =>
    cases ha
    simp [Safety.busFrame, Act.target, State.nextRead, State.nextReadFrame, nextIndex_toNat hn (by decide)]
  all_goals cases ha
  all_goals simp [Safety.busFrame, Act.target]

/-! ### T0 -/

/-- R213: T0 takes a reading at the points after a loop's first reading, and only there. -/
theorem Turn.t0_cases {s u : State} {i : Instr} {a : Act} (h : Turn s i u a) :
    u.t0 = s.t0 ∨ (s.point ∈ [Point.loopT0Read, .initT0Read, .streamT0Read] ∧ u.t0 = s.env.clock) := by
  cases h
  case burstReadT0 hp | slowReadT0 hp | initT0 hp | streamT0 hp => exact .inr ⟨by simp [hp], rfl⟩
  case playSeqBegin hw | captureBegin hw => rw [hw.eq]; exact .inl rfl
  case playSeqMore h hw | segmentMore h hw | captureMore h hw => rw [hw.eq, h.frame]; exact .inl rfl
  case playSeqEnd h _ | captureSettle h _ => rw [h.frame]; exact .inl rfl
  case segmentEnd h _ ha => rw [ha.played, h.frame]; exact .inl rfl
  case flushEnd h | cfgWritten h | statNotTaken h | c2Read h | c2Written h => rw [h.played]; exact .inl rfl
  case captureComplete hu _ | captureGoesOn hu _ => rw [hu, fragmentRegs_frame]; exact .inl rfl
  case slowReadReady hu _ | slowReadNotReady hu _ => rw [hu, State.storeRead_frame]; exact .inl rfl
  all_goals exact .inl (by simp [State.nextRead, bringUpRegs])

theorem Turn.clockOk {s u : State} {i : Instr} {a : Act} (hs : ClockOk s) (h : Turn s i u a) : ClockOk (a.apply u) := by
  unfold ClockOk at *
  have hclock := a.clock_le_apply u
  rw [h.kept.env] at hclock
  rw [Act.apply_t0]
  rcases h.t0_cases with h | ⟨-, h⟩ <;> omega

end Sys2Proof.Machine
end

section
/-! PROOFS. Every step keeps the invariant and the bracketing of the bus (R71, R131), and exchanges only the rule's frame
(R72). -/

namespace Sys2Proof.Machine

open Sys2Proof.Safety

/-! ### A turn -/

theorem Turn.inv {s u : State} {i : Instr} {a : Act} (hs : Inv s) (hrun : runningPoint s.point = true)
    (hb : s.busBusy = false) (hd : decodeCommand s.curCmd = .ok i) (h : Turn s i u a) : Inv (a.apply u) := by
  have hkept := h.kept
  have hd' : decodeCommand u.curCmd = .ok i := by rw [hkept.curCmd, hd]
  obtain ⟨hphase, hlevel⟩ := busOk_due hs.bus hb
  rw [← h.tx] at hphase
  rw [← h.level] at hlevel
  exact
    { config := by rw [Act.apply_cfg, hkept.cfg]; exact hs.config
      memory := by rw [Act.apply_mem]; exact h.memoryOk hs.memory
      resp := respOk_of_eq (h.respOk hs.resp hs.reads hrun hd) (by simp) (by simp)
      status := a.statusOk hs.status hrun hkept.status hkept.errCode hkept.errInfo h.fits
      bus := a.busOk hphase hlevel h.fits
      control := h.controlOk hs.control hrun hd
      seq := h.seqOk
      reads := h.readsOk hs.reads hd
      lifecycle := h.lifecycleOk hs.lifecycle hrun hd
      captureState := h.captureStateOk hs.captureState hrun hd
      captureCount := by rw [Act.apply_fc]; exact h.captureCountOk hs.captureCount hs.captureState hs.trigger hrun hd
      trigger := h.triggerOk
      branch := h.branchOk hs.branch (decodeCommand_isCommand hd)
      frame := by
        intro hne
        cases a with
        | begin f k =>
          refine ⟨i, by rw [Act.running_apply h.fits hd']; rfl, ?_⟩
          rw [h.busFrame]
          exact congrArg some (u.transact_phase f k).1.symm
        | now k | sleep ms k | raise code info | succeed => exact absurd (by simpa [Act.apply] using hphase) hne
      clock := h.clockOk hs.clock }

/-! ### The other steps -/

theorem csLevel_deasserted {s : State} (h : BusOk s) (hl : levelAsserted s.cfg.swCs s.tx.phase = false) :
    s.csLevel = .deasserted := by
  cases hc : s.csLevel with
  | asserted => rw [h.2.1.1 hc] at hl; cases hl
  | deasserted => rfl

/-- The invariant does not speak of the inputs to come, nor of the data of the last host read. -/
theorem inv_setInputs {s : State} (h : Inv s) (l : List Input) : Inv (s.setInputs l) :=
  ⟨h.config, h.memory, h.resp, h.status, h.bus, h.control, h.seq, h.reads, h.lifecycle, h.captureState, h.captureCount,
    h.trigger, h.branch, h.frame, h.clock⟩

theorem inv_setHostData {s : State} (h : Inv s) (w : Word) : Inv (s.setHostData w) :=
  ⟨h.config, h.memory, h.resp, h.status, h.bus, h.control, h.seq, h.reads, h.lifecycle, h.captureState, h.captureCount,
    h.trigger, h.branch, h.frame, h.clock⟩

theorem inv_dropCommand {s : State} (h : Inv s) : Inv s.dropCommand :=
  ⟨h.config, h.memory, h.resp, h.status, h.bus, h.control, h.seq, h.reads, h.lifecycle, h.captureState, h.captureCount,
    h.trigger, h.branch, h.frame, h.clock⟩

theorem running_eq_none {s : State} (h : s.point = .boot ∨ s.point = .idle ∨ s.point = .start) : running s = none := by
  rcases h with h | h | h <;> simp [running, runningPoint, h]

/-- The parts of the invariant that no command's rule is under way for. -/
structure AtRest (s : State) : Prop where
  config : s.cfg.wf = true
  memory : MemoryOk s.mem
  resp : RespOk s
  level : s.csLevel = .deasserted
  tx : s.tx.phase = .idle
  settled : Settled s.dev.state s.cal.phase
  capture : captureAtRest s.fc.state
  count : CaptureCountOk s.fc
  clock : ClockOk s

theorem inv_atRest {s : State} (h : Inv s) (hp : s.point = .boot ∨ s.point = .idle ∨ s.point = .start) : AtRest s := by
  have hrun := running_eq_none hp
  have hpt : transactionPoint s.point = false := by rcases hp with hp | hp | hp <;> rw [hp] <;> rfl
  have hidle := h.bus.1.2 hpt
  refine ⟨h.config, h.memory, h.resp, ?_, hidle, (lifecycleOk_settled (by simp [hrun])).1 h.lifecycle,
    (captureStateOk_atRest (by simp [hrun])).1 h.captureState, h.captureCount, h.clock⟩
  exact csLevel_deasserted h.bus (by rw [hidle]; rfl)

/-- No rule is under way at the end of reset, when no command runs, and before a command's checks. -/
theorem AtRest.inv {s : State} (h : AtRest s) (hst : StatusOk s)
    (hp : (s.point = .boot ∧ s.cfg.swCs = true) ∨ s.point = .idle ∨ s.point = .start) : Inv s := by
  have hp' : s.point = .boot ∨ s.point = .idle ∨ s.point = .start := hp.imp_left And.left
  have hrun := running_eq_none hp'
  have hphase : branchPhase s.cal.phase = false := by
    rcases h.settled with ⟨-, h⟩ | ⟨-, h⟩ | ⟨-, h⟩ <;> rw [h] <;> rfl
  have hpt : transactionPoint s.point = false := by rcases hp' with hp | hp | hp <;> rw [hp] <;> rfl
  exact
    { config := h.config
      memory := h.memory
      resp := h.resp
      status := hst
      bus := by
        refine ⟨by simp [h.tx, hpt], by simp [h.level, h.tx, levelAsserted], by simp [h.tx, selectHeld],
          by simp [h.tx, responseFits], fun hb => ?_⟩
        rcases hp with ⟨-, hp⟩ | hp | hp
        · exact hp
        all_goals cases hb.symm.trans hp
      control := by
        intro hr hne
        rcases hp' with hp | hp | hp
        · rw [hp] at hr; cases hr
        · rw [hp] at hr; cases hr
        · exact absurd hp hne
      seq := by
        intro hs
        rcases hp' with hp | hp | hp <;> rw [hp] at hs <;> simp at hs
      reads := by
        refine ⟨fun hr => ?_, fun hr => ?_, fun hr => ?_, by simp [hrun]⟩
        all_goals rcases hp' with hp | hp | hp <;> cases hr.symm.trans hp
      lifecycle := (lifecycleOk_settled (by simp [hrun])).2 h.settled
      captureState := (captureStateOk_atRest (by simp [hrun])).2 h.capture
      captureCount := h.count
      trigger := by
        refine ⟨fun hr => ?_, fun hr => ?_⟩
        all_goals rcases hp' with hp | hp | hp <;> cases hr.symm.trans hp
      branch := by
        rintro (hb | hb | hb)
        · rcases hp' with hp | hp | hp <;> cases hb.symm.trans hp
        · rcases hp' with hp | hp | hp <;> cases hb.symm.trans hp
        · rcases hb with hb | hb <;> rw [hb] at hphase <;> cases hphase
      frame := fun hne => absurd h.tx hne
      clock := h.clock }

theorem inv_accept {s : State} (h : Inv s) (hp : s.point ≠ .boot) (hb : s.status.busy = false) (w : Word) :
    Inv (s.accept w) := by
  have hidle : s.point = .idle := by
    have hbusy := h.status.1
    rw [hb] at hbusy
    simpa [runningPoint, hp] using hbusy.symm
  have hrest := inv_atRest h (.inr (.inl hidle))
  refine AtRest.inv ⟨hrest.config, hrest.memory, hrest.resp, hrest.level, hrest.tx, hrest.settled, hrest.capture,
    hrest.count, hrest.clock⟩ ?_ (.inr (.inr rfl))
  simp [StatusOk, Status.accepted, runningPoint]

theorem inv_afterReset {s : State} (h : s.cfg.wf = true) : Inv s.afterReset := by
  refine AtRest.inv ⟨h, memoryOk_nil, ⟨Nat.zero_le _, fun _ _ _ => rfl⟩, rfl, rfl, .inl ⟨rfl, rfl⟩,
    ⟨nofun, nofun, nofun⟩, ?_, Nat.zero_le _⟩ ?_ ?_
  · simp [CaptureCountOk, State.afterReset, State.blank]
  · cases hsw : s.cfg.swCs <;> simp [StatusOk, State.afterReset, State.blank, runningPoint, hsw]
  · cases hsw : s.cfg.swCs <;> simp [State.afterReset, State.blank, hsw]

theorem inv_bootStep {s : State} (h : Inv s) (hp : s.point = .boot) : Inv (bootStep s) := by
  have hrest := inv_atRest h (.inl hp)
  refine AtRest.inv ⟨hrest.config, hrest.memory, hrest.resp, hrest.level, hrest.tx, hrest.settled, hrest.capture,
    hrest.count, ?_⟩ ?_ (.inr (.inl rfl))
  · simpa [ClockOk, Machine.bootStep] using hrest.clock
  · simpa [StatusOk, Machine.bootStep, hp, runningPoint] using h.status

/-- R93: an accepted word that is no command has not got past its checks. -/
theorem start_of_illegal {s : State} (h : Inv s) (hrun : runningPoint s.point = true)
    (hd : ∀ i, decodeCommand s.curCmd ≠ .ok i) : s.point = .start := by
  by_contra hne
  obtain ⟨i, hi, -⟩ := h.control hrun hne
  exact hd i hi

theorem inv_illegalEnd {s : State} (h : Inv s) (hrun : runningPoint s.point = true)
    (hd : ∀ i, decodeCommand s.curCmd ≠ .ok i) : Inv (illegalEnd s) := by
  have hrest := inv_atRest h (.inr (.inr (start_of_illegal h hrun hd)))
  refine AtRest.inv ⟨hrest.config, hrest.memory, hrest.resp, hrest.level, hrest.tx, hrest.settled, hrest.capture,
    hrest.count, hrest.clock⟩ ?_ (.inr (.inl rfl))
  exact (Act.raise .illegalCommand s.curCmd).statusOk (i := .motionBurstFrame) h.status hrun rfl rfl rfl nofun

/-! ### An event of a transaction under way -/

theorem State.busEvent_frame (f : Frame) (s : State) :
    s.busEvent f = { s with
      csLevel := (s.busEvent f).csLevel, tx := (s.busEvent f).tx, env := (s.busEvent f).env,
      trace := (s.busEvent f).trace } := by
  apply State.ext <;> simp

theorem State.busEvent_selected {s : State} (h : s.tx.phase = .selected) (f : Frame) :
    s.busEvent f
      = ((s.setCsLevel .asserted).xferEvent f.bytes).setTx
          { frame := f, phase := .exchanged (s.env.exchange f.bytes).1 } := by
  simp only [State.busEvent, h]

theorem State.busEvent_abandoned {s : State} (h : s.tx.phase = .abandoned) (f : Frame) :
    s.busEvent f
      = (s.setCsLevel .asserted).deassertEvent.setTx { frame := f, phase := .ended (.failed true) } := by
  simp only [State.busEvent, h]

theorem State.busEvent_exchanged {s : State} {rx : Option (List Byte)} (h : s.tx.phase = .exchanged rx) (f : Frame) :
    s.busEvent f = s.deassertEvent.setTx { frame := f, phase := .ended (txResult rx s.env.csAnswer.1) } := by
  simp only [State.busEvent, h]

/-- A transaction that has been asked for and one that a step begins have the same first event. -/
theorem State.busEvent_eq_transact {s : State} (h : s.tx.phase = .requested) :
    s.busEvent s.tx.frame = s.transact s.tx.frame s.point := by
  unfold State.transact
  congr 1
  apply State.ext <;> simp
  rw [← h]

theorem swCs_of_selectHeld {s : State} (h : BusOk s) (hheld : selectHeld s.tx.phase = true) : s.cfg.swCs = true := by
  by_contra hsw
  rw [h.2.2.1 (eq_false_of_ne_true hsw)] at hheld
  cases hheld

theorem busOk_busEvent {s : State} (h : BusOk s) (htx : transactionPoint s.point = true) (hb : s.busBusy = true) :
    (s.busEvent s.tx.frame).tx.frame = s.tx.frame ∧ BusOk (s.busEvent s.tx.frame) := by
  have hboot : s.point ≠ .boot := fun hp => by rw [hp] at htx; cases htx
  cases hph : s.tx.phase with
  | idle | ended r => rw [State.busBusy, hph] at hb; cases hb
  | requested =>
    have hl : s.csLevel = .deasserted := csLevel_deasserted h (by rw [hph]; rfl)
    obtain ⟨hf, hne, hlev, hnat, hfit⟩ := s.transact_phase s.tx.frame s.point
    rw [State.busEvent_eq_transact hph]
    refine ⟨hf, ?_⟩
    simp [BusOk, hne, hlev, hl, htx, hf, hfit, hboot]
    exact hnat
  | selected =>
    have hsw := swCs_of_selectHeld h (by rw [hph]; rfl)
    rw [State.busEvent_selected hph]
    refine ⟨rfl, ?_⟩
    cases hx : (s.env.exchange s.tx.frame.bytes).1 with
    | none => simp [BusOk, hsw, htx, hboot, levelAsserted, responseFits]
    | some rx => simp [BusOk, hsw, htx, hboot, levelAsserted, responseFits, Env.exchange_length hx]
  | abandoned =>
    have hsw := swCs_of_selectHeld h (by rw [hph]; rfl)
    rw [State.busEvent_abandoned hph]
    refine ⟨rfl, ?_⟩
    simp [BusOk, hsw, htx, hboot, levelAsserted, responseFits]
  | exchanged rx =>
    have hsw := swCs_of_selectHeld h (by rw [hph]; rfl)
    obtain ⟨-, hlevel, -, hfits, -⟩ := h
    rw [hph] at hlevel hfits
    have hl : s.csLevel = .asserted := hlevel.2 rfl
    rw [State.busEvent_exchanged hph]
    refine ⟨rfl, ?_⟩
    cases rx with
    | none => simp [BusOk, hsw, htx, hboot, hl, levelAsserted, State.txResult, responseFits]
    | some rx =>
      have hlen : rx.length = s.tx.frame.bytes.length := hfits
      cases hd : s.env.csAnswer.1 <;>
        simp [BusOk, hsw, htx, hboot, hl, levelAsserted, State.txResult, responseFits, hlen]

theorem transactionPoint_of_busBusy {s : State} (h : BusOk s) (hb : s.busBusy = true) :
    s.tx.phase ≠ .idle ∧ transactionPoint s.point = true := by
  have hne : s.tx.phase ≠ .idle := fun hidle => by rw [State.busBusy, hidle] at hb; cases hb
  refine ⟨hne, ?_⟩
  by_contra ht
  exact hne (h.1.2 (eq_false_of_ne_true ht))

theorem inv_busEvent {s : State} (h : Inv s) (hb : s.busBusy = true) : Inv (s.busEvent s.tx.frame) := by
  obtain ⟨hne, htx⟩ := transactionPoint_of_busBusy h.bus hb
  obtain ⟨hframe, hbus⟩ := busOk_busEvent h.bus htx hb
  have heq := State.busEvent_frame s.tx.frame s
  have hclock := State.busEvent_clock s.tx.frame s
  generalize s.busEvent s.tx.frame = t at *
  have hfrule : FrameOk t := by
    intro _
    rw [hframe, heq]
    exact h.frame hne
  rw [heq] at hbus hfrule ⊢
  exact ⟨h.config, h.memory, h.resp, h.status, hbus, h.control, h.seq, h.reads, h.lifecycle, h.captureState,
    h.captureCount, h.trigger, h.branch, hfrule, by simpa [ClockOk, hclock] using h.clock⟩

/-! ### Every step -/

/-- Settles O24: the steps of the machine one by one; a command's own step is a turn. -/
theorem everyStepKeepsTheInvariant : Obligations.EveryStepKeepsTheInvariant := by
  intro s t hs hstep
  cases step_next hstep with
  | boot hp ht => subst ht; exact inv_bootStep hs hp
  | read hp addr n rest hi ht => subst ht; exact inv_setHostData (inv_setInputs hs rest) _
  | write hp addr n v rest hi ht =>
    subst ht
    have hs := inv_setInputs hs rest
    unfold hostWrite
    split
    · split
      · exact inv_dropCommand hs
      · exact inv_accept hs hp (eq_false_of_ne_true ‹_›) v
    · exact hs
  | reset hp rest hi ht => subst ht; exact inv_afterReset hs.config
  | wait hp hc => obtain ⟨l, rfl⟩ := controllerTurn_eq_setInputs hc; exact inv_setInputs hs l
  | frame s' hp hc hb ht =>
    obtain ⟨l, rfl⟩ := controllerTurn_eq_setInputs hc
    subst ht
    exact inv_busEvent (inv_setInputs hs l) hb
  | illegal s' hp hc hb hd ht =>
    obtain ⟨l, rfl⟩ := controllerTurn_eq_setInputs hc
    subst ht
    exact inv_illegalEnd (inv_setInputs hs l) hp hd
  | turn s' u i a hp hc hb hd hturn ht =>
    obtain ⟨l, rfl⟩ := controllerTurn_eq_setInputs hc
    subst ht
    exact hturn.inv (inv_setInputs hs l) hp hb hd

end Sys2Proof.Machine
end

section
/-! PROOFS. The invariant and the bracketing of the bus right after reset, and the event of each step: one at most (R70),
the bracket of an exchange (R71, R131), the rule's frame (R72) and the clock (R285). -/

namespace Sys2Proof.Machine

open Sys2Proof.Safety

/-! ### The machine right after reset -/

theorem seqRomWf_seqRomOrEmpty (rom : List (List (BitVec 16))) : seqRomWf (seqRomOrEmpty rom) = true := by
  unfold seqRomOrEmpty
  split
  · assumption
  · rfl

theorem rotationWf_orInjective (r : RotationMap) : r.orInjective.wf = true := by
  unfold RotationMap.orInjective
  split
  · assumption
  · rfl

theorem board_wf : Config.board.wf = true := by
  rw [Config.wf, Bool.and_eq_true]
  exact ⟨seqRomWf_seqRomOrEmpty _, rotationWf_orInjective _⟩

theorem bracketed_resetOf (cfg : Config) : Bracketed (State.resetOf cfg) :=
  ⟨fun _ => rfl, fun _ e he => by rw [List.mem_singleton.1 he]; rfl⟩

/-- Settles O23: no rule is under way right after reset, and RESET leaves the bus free. -/
theorem resetSatisfiesTheInvariant : Obligations.ResetSatisfiesTheInvariant := by
  have hinv : ∀ cfg : Config, cfg.wf = true → Inv (State.resetOf cfg) := fun cfg h => inv_afterReset h
  exact ⟨fun cfg h => ⟨hinv cfg h, bracketed_resetOf cfg⟩, hinv _ board_wf, bracketed_resetOf _⟩

/-! ### The event of a step -/

/-- The event of an act. -/
def Act.event (u : State) : Act → Event
  | .begin f _ => firstEvent f u
  | .now _ => .now u.env.now.1
  | .sleep ms _ => .sleep ms (u.env.sleep ms).1 (u.env.sleep ms).2.1
  | .raise code _ => .ended code
  | .succeed => .ended .none

theorem Act.apply_trace (a : Act) (u : State) : (a.apply u).trace = u.trace ++ [a.event u] := by
  cases a <;> simp [Act.apply, Act.event]

/-- The next event of the transaction under way. -/
def State.nextBusEvent (s : State) : Event :=
  match s.tx.phase with
  | .selected => .xfer s.tx.frame.bytes (s.env.exchange s.tx.frame.bytes).1
  | .abandoned | .exchanged _ => .cs .deasserted s.env.csAnswer.1
  | .idle | .requested | .ended _ => firstEvent s.tx.frame s

theorem State.busEvent_trace (s : State) : (s.busEvent s.tx.frame).trace = s.trace ++ [s.nextBusEvent] := by
  unfold State.busEvent State.nextBusEvent
  cases s.tx.phase <;> simp

/-- A step that leaves the transaction and the clock alone. -/
def Quiet (s t : State) : Prop := t.tx = s.tx ∧ t.env.clock = s.env.clock

/-- The event of a step, if it has one. -/
inductive StepEvent (s t : State) : Prop
  | silent (hq : Quiet s t) (ht : t.trace = s.trace)
  | native (hp : s.point = .boot) (hq : Quiet s t) (he : Emits (.nativeCsDisable s.env.nativeAnswer.1) s t)
  | accept (w : Word) (hp : s.point ≠ .boot) (hb : s.status.busy = false) (hq : Quiet s t)
    (ht : t.status.busy = true ∧ t.curCmd = w) (he : Emits (.accept w) s t)
  | reset (hc : t.env.clock = s.env.clock) (ht : t.tx.phase = .idle) (he : Emits .reset s t)
  | bus (hb : s.busBusy = true) (l : List Input) (ht : t = (s.setInputs l).busEvent s.tx.frame)
    (he : Emits s.nextBusEvent s t)
  | illegal (l : List Input) (hb : s.busBusy = false) (hp : runningPoint s.point = true)
    (hd : ∀ i, decodeCommand s.curCmd ≠ .ok i) (ht : t = illegalEnd (s.setInputs l)) (hq : Quiet s t)
    (he : Emits (.ended .illegalCommand) s t)
  | act (u : State) (i : Instr) (a : Act) (l : List Input) (hb : s.busBusy = false) (hp : runningPoint s.point = true)
    (hd : decodeCommand s.curCmd = .ok i) (hturn : Turn (s.setInputs l) i u a) (ht : t = a.apply u) (he : Emits (a.event u) s t)

theorem step_event {s t : State} (h : step s = .next t) : StepEvent s t := by
  cases step_next h with
  | boot hp ht => subst ht; exact .native hp ⟨rfl, by simp [bootStep]⟩ rfl
  | read hp addr n rest hi ht => subst ht; exact .silent ⟨rfl, rfl⟩ rfl
  | write hp addr n v rest hi ht =>
    subst ht
    unfold hostWrite
    split
    · split
      · exact .silent ⟨rfl, rfl⟩ rfl
      · exact .accept v hp (eq_false_of_ne_true ‹_›) ⟨rfl, rfl⟩ ⟨rfl, rfl⟩ rfl
    · exact .silent ⟨rfl, rfl⟩ rfl
  | reset hp rest hi ht => subst ht; exact .reset rfl rfl rfl
  | wait hp hc => obtain ⟨l, rfl⟩ := controllerTurn_eq_setInputs hc; exact .silent ⟨rfl, rfl⟩ rfl
  | frame s' hp hc hb ht =>
    obtain ⟨l, rfl⟩ := controllerTurn_eq_setInputs hc
    exact .bus hb l ht (by rw [ht]; exact State.busEvent_trace _)
  | illegal s' hp hc hb hd ht =>
    obtain ⟨l, rfl⟩ := controllerTurn_eq_setInputs hc
    subst ht
    exact .illegal l hb hp hd rfl ⟨rfl, rfl⟩ rfl
  | turn s' u i a hp hc hb hd hturn ht =>
    obtain ⟨l, rfl⟩ := controllerTurn_eq_setInputs hc
    exact .act u i a l hb hp hd hturn ht (by rw [ht, Emits, Act.apply_trace, hturn.kept.trace]; rfl)

theorem step_cfg {s t : State} (h : step s = .next t) : t.cfg = s.cfg := by
  cases step_next h with
  | boot hp ht => subst ht; simp [bootStep]
  | read hp addr n rest hi ht => subst ht; rfl
  | write hp addr n v rest hi ht =>
    subst ht
    rcases hostWrite_cases addr n v (s.setInputs rest) with h | h | h <;> rw [h] <;> rfl
  | reset hp rest hi ht => subst ht; rfl
  | wait hp hc => obtain ⟨l, rfl⟩ := controllerTurn_eq_setInputs hc; rfl
  | frame s' hp hc hb ht => obtain ⟨l, rfl⟩ := controllerTurn_eq_setInputs hc; subst ht; simp
  | illegal s' hp hc hb hd ht => obtain ⟨l, rfl⟩ := controllerTurn_eq_setInputs hc; subst ht; rfl
  | turn s' u i a hp hc hb hd hturn ht =>
    obtain ⟨l, rfl⟩ := controllerTurn_eq_setInputs hc
    subst ht
    rw [Act.apply_cfg, hturn.kept.cfg]
    rfl

/-- Settles O26: a step has one event or none. -/
theorem oneEventAtMostPerStep : Obligations.OneEventAtMostPerStep := by
  intro s t h
  refine ⟨step_cfg h, ?_⟩
  cases step_event h with
  | silent _ ht => exact ⟨[], Nat.zero_le 1, by rw [ht, List.append_nil]⟩
  | native _ _ he | accept _ _ _ _ _ he | reset _ _ he | bus _ _ _ he | illegal _ _ _ _ _ _ he | act _ _ _ _ _ _ _ _ _ he =>
    exact ⟨[_], Nat.le_refl 1, he⟩

/-! ### The clock (R285) -/

/-- An event that is no reading of the clock. -/
def isTimeless : Event → Bool
  | .now _ | .sleep _ _ _ => false
  | .cs _ _ | .xfer _ _ | .nativeCsDisable _ | .accept _ | .ended _ | .reset => true

theorem isTimeless_firstEvent (f : Frame) (s : State) : isTimeless (firstEvent f s) = true := by
  unfold firstEvent
  split <;> rfl

theorem isTimeless_nextBusEvent (s : State) : isTimeless s.nextBusEvent = true := by
  unfold State.nextBusEvent
  cases s.tx.phase with
  | selected | abandoned | exchanged _ => rfl
  | idle | requested | ended _ => exact isTimeless_firstEvent ..

/-- What a step does with the clock. -/
def ClockStep (s t : State) : Prop :=
  s.env.clock ≤ t.env.clock
    ∧ (∀ v, Emits (.now v) s t → s.env.clock ≤ v ∧ t.env.clock = v)
    ∧ ∀ ms before after, Emits (.sleep ms before after) s t →
        s.env.clock ≤ before ∧ before + ms * 1000 ≤ after ∧ t.env.clock = after

theorem clockStep_of_timeless {e : Event} {s t : State} (he : Emits e s t) (h : isTimeless e = true)
    (hc : t.env.clock = s.env.clock) : ClockStep s t := by
  refine ⟨hc.ge, fun v hv => ?_, fun ms before after hv => ?_⟩ <;> cases emits_unique he hv <;> cases h

/-- Settles O29: an act reads the clock or sleeps by the environment's own rules, and no other step touches it. -/
theorem clockNeverGoesBack : Obligations.ClockNeverGoesBack := by
  intro s t h
  cases step_event h with
  | silent hq ht =>
    exact ⟨hq.2.ge, fun v hv => absurd hv (not_emits_of_trace_eq ht _),
      fun ms b a hv => absurd hv (not_emits_of_trace_eq ht _)⟩
  | native _ hq he | accept _ _ _ hq _ he | illegal _ _ _ _ _ hq he => exact clockStep_of_timeless he rfl hq.2
  | reset hc _ he => exact clockStep_of_timeless he rfl hc
  | bus hb l ht he =>
    exact clockStep_of_timeless he (isTimeless_nextBusEvent s) (by rw [ht]; exact State.busEvent_clock _ _)
  | act u i a l hb hp hd hturn ht he =>
    have henv : u.env = s.env := hturn.kept.env
    cases a with
    | begin f k => exact clockStep_of_timeless he (isTimeless_firstEvent f u) (by simp [ht, henv, Act.apply])
    | raise code info => exact clockStep_of_timeless he rfl (by simp [ht, henv, Act.apply])
    | succeed => exact clockStep_of_timeless he rfl (by simp [ht, henv, Act.apply])
    | now k =>
      obtain ⟨hle, hnow⟩ := s.env.now_spec
      have hc : t.env.clock = s.env.now.1 := by simp [ht, henv, Act.apply, hnow]
      simp only [Act.event, henv] at he
      refine ⟨hc ▸ hle, fun v hv => ?_, fun ms b a hv => ?_⟩ <;> cases emits_unique he hv
      exact ⟨hle, hc⟩
    | sleep ms k =>
      obtain ⟨hle, hbound, hend, hle'⟩ := s.env.sleep_spec ms
      have hc : t.env.clock = (s.env.sleep ms).2.1 := by simp [ht, henv, Act.apply, hend]
      simp only [Act.event, henv] at he
      refine ⟨by omega, fun v hv => ?_, fun ms b a hv => ?_⟩ <;> cases emits_unique he hv
      exact ⟨hle, hbound, hc⟩

/-! ### The bracket of an exchange (R71, R131) -/

theorem Select.run_append (b : Select) (l l' : List Event) : b.run (l ++ l') = (b.run l).bind (fun b' => b'.run l') := by
  induction l generalizing b with
  | nil => rfl
  | cons e l ih =>
    simp only [List.cons_append, Select.run]
    cases b.next e with
    | none => rfl
    | some b' => exact ih b'

/-- A step keeps the bracketing when its event leads from the bracket of the old transaction's phase to that of the new. -/
theorem bracketed_of_emits {e : Event} {s t : State} (h : Bracketed s) (he : Emits e s t) (hcfg : t.cfg = s.cfg)
    (hsw : s.cfg.swCs = true → (Select.ofPhase s.tx.phase).next e = some (Select.ofPhase t.tx.phase))
    (hnat : s.cfg.swCs = false → isSelectEvent e = false) : Bracketed t := by
  refine ⟨fun hc => ?_, fun hc => ?_⟩
  · rw [hcfg] at hc
    rw [he, Select.run_append, h.1 hc]
    simp [Select.run, hsw hc]
  · rw [hcfg] at hc
    intro e' hmem
    rw [he] at hmem
    rcases List.mem_append.1 hmem with hmem | hmem
    · exact h.2 hc e' hmem
    · rw [List.mem_singleton.1 hmem]; exact hnat hc

theorem ofPhase_free_of_not_busy {s : State} (hb : s.busBusy = false) : Select.ofPhase s.tx.phase = .free := by
  cases hp : s.tx.phase with
  | idle | ended _ => rfl
  | requested | selected | abandoned | exchanged _ => rw [State.busBusy, hp] at hb; cases hb

theorem ofPhase_firstEvent (f : Frame) (k : Point) (s : State) (hsw : s.cfg.swCs = true) :
    Select.free.next (firstEvent f s) = some (Select.ofPhase (s.transact f k).tx.phase) := by
  obtain ⟨hbegun, -⟩ := s.transact_spec f k
  rw [(hbegun.2.2.1 hsw).2, firstEvent, if_pos hsw]
  cases s.env.csAnswer.1 <;> rfl

theorem isSelectEvent_firstEvent (f : Frame) {s : State} (hsw : s.cfg.swCs = false) :
    isSelectEvent (firstEvent f s) = false := by
  rw [firstEvent, hsw]; rfl

/-- The transaction under way in its bracket. -/
theorem bracket_busEvent {s : State} (hs : BusOk s) (hb : s.busBusy = true) :
    (s.cfg.swCs = true →
        (Select.ofPhase s.tx.phase).next s.nextBusEvent = some (Select.ofPhase (s.busEvent s.tx.frame).tx.phase))
      ∧ (s.cfg.swCs = false → isSelectEvent s.nextBusEvent = false) := by
  unfold State.nextBusEvent
  cases hp : s.tx.phase with
  | idle | ended _ => rw [State.busBusy, hp] at hb; cases hb
  | requested =>
    refine ⟨fun hsw => ?_, isSelectEvent_firstEvent _⟩
    rw [State.busEvent_eq_transact hp]
    exact ofPhase_firstEvent _ _ s hsw
  | selected => rw [State.busEvent_selected hp]; exact ⟨fun _ => rfl, fun _ => rfl⟩
  | abandoned =>
    rw [State.busEvent_abandoned hp]
    refine ⟨fun _ => rfl, fun hsw => ?_⟩
    cases hsw.symm.trans (swCs_of_selectHeld hs (by rw [hp]; rfl))
  | exchanged rx =>
    rw [State.busEvent_exchanged hp]
    refine ⟨fun _ => rfl, fun hsw => ?_⟩
    cases hsw.symm.trans (swCs_of_selectHeld hs (by rw [hp]; rfl))

/-- An act stands outside every bracket, or begins one. -/
theorem bracket_act {u : State} {a : Act} (hu : u.tx.phase = .idle) :
    (u.cfg.swCs = true → Select.free.next (a.event u) = some (Select.ofPhase (a.apply u).tx.phase))
      ∧ (u.cfg.swCs = false → isSelectEvent (a.event u) = false) := by
  cases a with
  | begin f k => exact ⟨ofPhase_firstEvent f k u, isSelectEvent_firstEvent f⟩
  | now k | sleep ms k | raise code info | succeed => simp [Act.apply, Act.event, hu, Select.next, Select.ofPhase, isSelectEvent]

/-- A turn's act comes after the transaction's result has been taken. -/
theorem Turn.tx_idle {s u : State} {i : Instr} {a : Act} (hs : BusOk s) (hb : s.busBusy = false) (h : Turn s i u a) :
    u.tx.phase = .idle := by
  rw [h.tx]
  exact (busOk_due hs hb).1

/-- Settles O27: the event of each step, in the bracket that the transaction's phase stands in. -/
theorem everyExchangeStaysBracketed : Obligations.EveryExchangeStaysBracketed := by
  intro s t hs hbr h
  have hcfg := step_cfg h
  have outside : ∀ {e : Event}, Emits e s t → Quiet s t → s.tx.phase = .idle →
      (s.cfg.swCs = true → Select.free.next e = some .free) → (s.cfg.swCs = false → isSelectEvent e = false) →
      Bracketed t := by
    intro e he hq hidle hfree hnat
    refine bracketed_of_emits hbr he hcfg (fun hsw => ?_) hnat
    rw [hq.1, hidle]
    exact hfree hsw
  cases step_event h with
  | silent hq ht => rw [Bracketed, ht, hq.1, hcfg]; exact hbr
  | native hp hq he =>
    refine outside he hq (inv_atRest hs (.inl hp)).tx (fun _ => rfl) fun hsw => ?_
    cases hsw.symm.trans (hs.bus.2.2.2.2 hp)
  | accept w hp hb hq _ he =>
    have hidle : s.point = .idle := by
      have hbusy := hs.status.1
      rw [hb] at hbusy
      simpa [runningPoint, hp] using hbusy.symm
    exact outside he hq (inv_atRest hs (.inr (.inl hidle))).tx (fun _ => rfl) fun _ => rfl
  | reset _ ht he =>
    refine bracketed_of_emits hbr he hcfg (fun _ => ?_) fun _ => rfl
    rw [ht]
    cases Select.ofPhase s.tx.phase <;> rfl
  | bus hb l ht he =>
    obtain ⟨hsw, hnat⟩ := bracket_busEvent (s := s.setInputs l) hs.bus hb
    exact bracketed_of_emits hbr he hcfg (by rw [ht]; exact hsw) hnat
  | illegal l hb hp hd ht hq he =>
    refine bracketed_of_emits hbr he hcfg (fun _ => ?_) fun _ => rfl
    rw [hq.1, ofPhase_free_of_not_busy hb]
    rfl
  | act u i a l hb hp hd hturn ht he =>
    have hu := hturn.tx_idle (s := s.setInputs l) hs.bus hb
    have hsame : u.cfg = s.cfg := hturn.kept.cfg
    obtain ⟨hsw, hnat⟩ := bracket_act (a := a) hu
    rw [hsame] at hsw hnat
    refine bracketed_of_emits hbr he hcfg ?_ hnat
    rw [ofPhase_free_of_not_busy hb, ht]
    exact hsw

/-! ### The frame of an exchange (R72) -/

theorem eq_of_firstEvent_xfer {f : Frame} {s : State} {tx : List Byte} {rx : Option (List Byte)}
    (h : firstEvent f s = .xfer tx rx) : tx = f.bytes ∧ rx = (s.env.exchange f.bytes).1 := by
  unfold firstEvent at h
  split at h <;> cases h
  exact ⟨rfl, rfl⟩

theorem eq_of_nextBusEvent_xfer {s : State} {tx : List Byte} {rx : Option (List Byte)}
    (h : s.nextBusEvent = .xfer tx rx) : tx = s.tx.frame.bytes ∧ rx = (s.env.exchange s.tx.frame.bytes).1 := by
  unfold State.nextBusEvent at h
  split at h
  · cases h; exact ⟨rfl, rfl⟩
  · cases h
  · cases h
  all_goals exact eq_of_firstEvent_xfer h

/-- After an XFER event a transaction stands whose frame was exchanged. -/
theorem xfer_tx {s t : State} {tx : List Byte} {rx : Option (List Byte)} (hs : Inv s) (h : step s = .next t)
    (he : Emits (.xfer tx rx) s t) :
    t.tx.phase ≠ .idle ∧ tx = t.tx.frame.bytes ∧ ∃ e : Env, rx = (e.exchange tx).1 := by
  cases step_event h with
  | silent _ ht => exact absurd he (not_emits_of_trace_eq ht _)
  | native _ _ he' | accept _ _ _ _ _ he' | reset _ _ he' | illegal _ _ _ _ _ _ he' => cases emits_unique he he'
  | bus hb l ht he' =>
    obtain ⟨rfl, rfl⟩ := eq_of_nextBusEvent_xfer (emits_unique he' he)
    obtain ⟨-, htp⟩ := transactionPoint_of_busBusy hs.bus hb
    obtain ⟨hf, hbus⟩ := busOk_busEvent (s := s.setInputs l) hs.bus htp hb
    refine ⟨fun hidle => ?_, by rw [ht]; exact congrArg Frame.bytes hf.symm, _, rfl⟩
    rw [ht] at hidle
    have hno := hbus.1.1 hidle
    rw [State.busEvent_point] at hno
    cases htp.symm.trans hno
  | act u i a l hb hp hd hturn ht he' =>
    have hxfer := emits_unique he' he
    cases a with
    | begin f k =>
      obtain ⟨rfl, rfl⟩ := eq_of_firstEvent_xfer hxfer
      obtain ⟨hf, hne, -⟩ := u.transact_phase f k
      rw [ht]
      exact ⟨hne, congrArg Frame.bytes hf.symm, _, rfl⟩
    | now k | sleep ms k | raise code info | succeed => cases hxfer

/-- Settles O28: after the exchange the invariant holds, and it says which frame stands on the bus. -/
theorem onlyTheRuleFrameIsExchanged : Obligations.OnlyTheRuleFrameIsExchanged := by
  intro s t tx rx hs h he
  obtain ⟨hne, rfl, e, rfl⟩ := xfer_tx hs h he
  obtain ⟨i, hrun, hframe⟩ := (everyStepKeepsTheInvariant s t hs h).frame hne
  exact ⟨i, t.tx.frame, hrun, hframe, rfl, fun l hl => Env.exchange_length hl⟩

end Sys2Proof.Machine
end

section
/-! PROOFS. The player and the parts of a bring-up that it leads to (R161, R186): what a step that plays or enters a segment
does; and that in every state of the invariant the machine takes its step (R66, R271, R272). -/

namespace Sys2Proof.Machine

open Sys2Proof.Safety

/-! ### The player (R161) -/

theorem writeWord_ne_waitWord (f : Addr7) (g g' : Byte) : (0#1 ++ f ++ g : BitVec 16) ≠ 0xFF#8 ++ g' := by
  intro h
  have h' := congrArg BitVec.toNat h
  simp only [append_toNat, BitVec.toNat_ofNat] at h'
  omega

theorem writeWord_inj {f f' : Addr7} {g g' : Byte} (h : (0#1 ++ f ++ g : BitVec 16) = 0#1 ++ f' ++ g') : f = f' ∧ g = g' := by
  have h' := congrArg BitVec.toNat h
  simp only [append_toNat, BitVec.toNat_ofNat] at h'
  exact ⟨BitVec.eq_of_toNat_eq (by omega), BitVec.eq_of_toNat_eq (by omega)⟩

theorem waitWord_inj {g g' : Byte} (h : (0xFF#8 ++ g : BitVec 16) = 0xFF#8 ++ g') : g = g' := by
  have h' := congrArg BitVec.toNat h
  simp only [append_toNat, BitVec.toNat_ofNat] at h'
  exact BitVec.eq_of_toNat_eq (by omega)

theorem StepRun.playsOn {s t : State} (h : StepRun s t) : PlaysOn s t := by
  rcases h with ⟨f, g, hw, rfl⟩ | ⟨g, hw, rfl⟩
  · refine ⟨fun f' g' hw' => ?_, fun g' hw' => ?_⟩
    · obtain ⟨rfl, rfl⟩ := writeWord_inj (Option.some.inj (hw.symm.trans hw'))
      exact s.transact_spec _ _
    · exact absurd (Option.some.inj (hw.symm.trans hw')) (writeWord_ne_waitWord f g g')
  · refine ⟨fun f' g' hw' => ?_, fun g' hw' => ?_⟩
    · exact absurd (Option.some.inj (hw'.symm.trans hw)) (writeWord_ne_waitWord f' g' g)
    · obtain rfl := waitWord_inj (Option.some.inj (hw.symm.trans hw'))
      exact ⟨rfl, rfl⟩

theorem playsOn_of_none {s : State} (h : s.stepWord = none) (t : State) : PlaysOn s t := by
  simp [PlaysOn, h]

/-- The player runs the word at SEQ_PC, or at the segment's end returns. -/
theorem State.playNext_plays {s : State} (hc : s.cfg.wf = true) {done : State → Result} {P : State → Prop}
    (hd : s.stepWord = none → ∃ t, done s = .next t ∧ P t) :
    ∃ t, s.playNext done = .next t ∧ PlaysOn s t ∧ (s.stepWord = none → P t) := by
  cases hw : s.stepWord with
  | none =>
    obtain ⟨t, ht, hP⟩ := hd hw
    exact ⟨t, (State.playNext_none hw done).trans ht, playsOn_of_none hw t, fun _ => hP⟩
  | some w =>
    obtain ⟨t, ht, hrun⟩ := State.playNext_some hc hw done
    exact ⟨t, ht, hrun.playsOn, nofun⟩

/-- The player goes on from a word's end: u is the state in which SEQ_PC has moved past it. -/
theorem State.playResume_plays {s u : State} (hc : s.cfg.wf = true)
    (hu : (s.point = .stepWaited ∧ u = { s with seqPc := s.seqPc + 1 })
      ∨ (s.point = .stepWritten ∧ (∃ rx, Answered rx s)
        ∧ u = { s with seqPc := s.seqPc + 1, tx := Taken s, csLevel := TakenLevel s }))
    (fail : Word → State → Result) {done : State → Result} {P : State → Prop}
    (hd : u.stepWord = none → ∃ t, done u = .next t ∧ P t) :
    ∃ t, s.playResume fail done = .next t ∧ PlaysOn u t ∧ (u.stepWord = none → P t) := by
  rcases hu with ⟨hp, rfl⟩ | ⟨hp, ⟨rx, ha⟩, rfl⟩
  · have hres : s.playResume fail done = s.nextWord.playNext done := by rw [State.playResume, hp]
    rw [hres]
    exact State.playNext_plays (s := s.nextWord) hc hd
  · have hres : s.playResume fail done = s.taken.nextWord.playNext done := by
      rw [State.playResume, hp]
      exact State.onTx_ok ha fail _
    rw [hres]
    exact State.playNext_plays (s := s.taken.nextWord) hc hd

/-! ### The parts of a bring-up (R186-R189) -/

theorem identityCheck_begins (s : State) : ∃ t, identityCheck s = .next t ∧ IdentityBegun s t := by
  refine ⟨_, rfl, ?_⟩
  obtain ⟨hb, ht⟩ := (((s.setPhase .idCheck).setRrOut []).setRrIndex 0).transact_spec (.read 0x00) .idRead
  exact ⟨hb, ht⟩

theorem trailerPart_enters {s : State} (hc : s.cfg.wf = true) (v : Variant) :
    ∃ t, trailerPart v s = .next t ∧ EntersTrailer v s t :=
  State.playNext_plays (s := atPart v .trailer s) hc fun _ => identityCheck_begins _

/-- A segment is entered, given what comes after it. -/
theorem play_enters {v : Variant} {p : BuPhase} {s : State} (hc : s.cfg.wf = true) {done : State → Result}
    (hd : ∃ t, done (atPart v p s) = .next t ∧ AfterPart v p (atPart v p s) t) :
    ∃ t, (s.setPhase p).play (partSegment v (partNumber p)) done = .next t ∧ EntersPart v p s t :=
  State.playNext_plays (s := atPart v p s) hc fun _ => hd

theorem branchAPart_begins (v : Variant) (s : State) : ∃ t, branchAPart v s = .next t ∧ AfterPart v .prologue s t :=
  ⟨_, rfl, (s.setPhase .branchA).transact_spec _ _⟩

theorem branchBPart_begins (v : Variant) (s : State) : ∃ t, branchBPart v s = .next t ∧ AfterPart v .mid s t :=
  ⟨_, rfl, (s.setPhase .branchB).transact_spec _ _⟩

theorem writebackPart_begins (v : Variant) (s : State) : ∃ t, writebackPart v s = .next t ∧ AfterPart v .sub s t :=
  ⟨_, rfl, (s.setPhase .writeback).transact_spec _ _⟩

theorem prologuePart_enters {s : State} (hc : s.cfg.wf = true) (v : Variant) :
    ∃ t, prologuePart v s = .next t ∧ EntersPart v .prologue s t := play_enters hc (branchAPart_begins v _)

theorem midPart_enters {s : State} (hc : s.cfg.wf = true) (v : Variant) :
    ∃ t, midPart v s = .next t ∧ EntersPart v .mid s t := play_enters hc (branchBPart_begins v _)

theorem subPart_enters {s : State} (hc : s.cfg.wf = true) (v : Variant) :
    ∃ t, subPart v s = .next t ∧ EntersPart v .sub s t := play_enters hc (writebackPart_begins v _)

theorem tailPart_enters {s : State} (hc : s.cfg.wf = true) (v : Variant) :
    ∃ t, tailPart v s = .next t ∧ EntersPart v .tail s t :=
  play_enters (p := .tail) hc (trailerPart_enters (s := atPart v .tail s) hc v)

theorem afterSegment_begins {s : State} (hc : s.cfg.wf = true) (hp : segmentPhase s.cal.phase = true) (v : Variant) :
    ∃ t, afterSegment v s = .next t ∧ AfterPart v s.cal.phase s t := by
  unfold afterSegment
  cases h : s.cal.phase with
  | prologue => exact branchAPart_begins v s
  | mid => exact branchBPart_begins v s
  | sub => exact writebackPart_begins v s
  | tail => exact trailerPart_enters hc v
  | trailer => exact identityCheck_begins s
  | _ => rw [h] at hp; cases hp

/-! ### Progress -/

/-- A step is taken. -/
def Takes (r : Result) : Prop := ∃ t, r = .next t

theorem takes_next (t : State) : Takes (.next t) := ⟨t, rfl⟩

theorem takes_of_enters {r : Result} {P : State → Prop} (h : ∃ t, r = .next t ∧ P t) : Takes r := h.imp fun _ h => h.1

/-- Where the transaction is over, its result is taken. -/
theorem State.onTx_takes {s : State} (hend : ∃ r, s.tx.phase = .ended r) {fail : Word → State → Result}
    {k : List Byte → State → Result} (hfail : ∀ info, Takes (fail info s.taken)) (hk : ∀ rx, Takes (k rx s.taken)) :
    Takes (s.onTx fail k) := by
  obtain ⟨rx | c, h⟩ := hend
  · rw [State.onTx_ok h]
    exact hk rx
  · rw [State.onTx_failed h]
    exact hfail _

theorem State.readRegsNext_takes {s : State} {base : Addr7} {n : Nat} {k : Point} {b : Byte} {done : State → Result}
    (h : Takes (done (s.setRrOut (s.rrOut ++ [b])))) : Takes (s.readRegsNext base n k b done) := by
  unfold State.readRegsNext
  split
  · exact takes_next _
  · exact h

theorem takes_ite {c : Prop} [Decidable c] {r r' : Result} (h : Takes r) (h' : Takes r') : Takes (if c then r else r') := by
  split
  · exact h
  · exact h'

theorem State.playResume_takes {s : State} (hc : s.cfg.wf = true)
    (hp : s.point = .stepWaited ∨ s.point = .stepWritten ∧ ∃ r, s.tx.phase = .ended r) {fail : Word → State → Result}
    {done : State → Result} (hfail : ∀ info, Takes (fail info s.taken))
    (hd : ∀ u : State, u.cfg = s.cfg → u.cal = s.cal → Takes (done u)) : Takes (s.playResume fail done) := by
  have plays : ∀ u : State, u.cfg = s.cfg → u.cal = s.cal → Takes (u.playNext done) := by
    intro u hcfg hcal
    obtain ⟨t, ht⟩ := hd u hcfg hcal
    exact takes_of_enters (State.playNext_plays (by rw [hcfg]; exact hc) (P := fun _ => True) fun _ => ⟨t, ht, trivial⟩)
  unfold State.playResume
  rcases hp with hp | ⟨hp, hend⟩ <;> rw [hp]
  · exact plays s.nextWord rfl rfl
  · exact State.onTx_takes hend hfail fun _ => plays s.taken.nextWord rfl rfl

/-- A command has its first step. -/
theorem exec_start_takes {i : Instr} {s : State} (hi : i.isCommand = true) (hs : s.point = .start)
    (hc : s.cfg.wf = true) : Takes (exec i s) := by
  by_cases hp : permitted i s.dev.state = true
  · exact takes_of_enters (exec_permitted hi hs hc hp)
  · exact ⟨_, exec_not_permitted hi hs (eq_false_of_ne_true hp)⟩

/-- What a command needs of the state to take its step: an admitted configuration, and where it waits for a transaction,
that this is over. -/
structure Ready (s : State) : Prop where
  config : s.cfg.wf = true
  ended : transactionPoint s.point = true → ∃ r, s.tx.phase = .ended r

theorem Ready.onTx {s : State} (h : Ready s) {p : Point} (hp : s.point = p) (ht : transactionPoint p = true)
    {fail : Word → State → Result} {k : List Byte → State → Result} (hfail : ∀ info, Takes (fail info s.taken))
    (hk : ∀ rx, Takes (k rx s.taken)) : Takes (s.onTx fail k) :=
  State.onTx_takes (h.ended (by rw [hp]; exact ht)) hfail hk

theorem Ready.playResume {s : State} (h : Ready s) (hp : s.point = .stepWaited ∨ s.point = .stepWritten)
    {fail : Word → State → Result} {done : State → Result} (hfail : ∀ info, Takes (fail info s.taken))
    (hd : ∀ u : State, u.cfg = s.cfg → u.cal = s.cal → Takes (done u)) : Takes (s.playResume fail done) :=
  State.playResume_takes h.config (hp.imp_right fun hp => ⟨hp, h.ended (by rw [hp]; rfl)⟩) hfail hd

theorem execBringUp_takes {v : Variant} {s : State} (h : Ready s) (ho : ownPoint (.bringUp v) s.point = true)
    (hp : phaseAt s.point s.cal.phase = true) : Takes (execBringUp v s) := by
  have hfail : ∀ info, Takes (bringUpFail info s.taken) := fun _ => takes_next _
  have hc : s.taken.cfg.wf = true := h.config
  have resume : s.point = .stepWaited ∨ s.point = .stepWritten → Takes (s.playResume bringUpFail (afterSegment v)) := by
    intro hpt
    refine h.playResume hpt hfail fun u hcfg hcal => ?_
    refine takes_of_enters (afterSegment_begins (by rw [hcfg]; exact h.config) ?_ v)
    rcases hpt with hpt | hpt <;> rw [hpt] at hp <;> rw [hcal] <;> exact hp
  unfold execBringUp
  cases hpt : s.point with
  | resetWritten | diagRead | c1Read | c1Written => exact h.onTx hpt rfl hfail fun _ => takes_next _
  | resetWaited => exact takes_next _
  | flushRead =>
    exact h.onTx hpt rfl hfail fun _ => State.readRegsNext_takes (takes_of_enters (prologuePart_enters (by exact hc) v))
  | stepWaited => exact resume (.inl hpt)
  | stepWritten => exact resume (.inr hpt)
  | cfgWritten => exact h.onTx hpt rfl hfail fun _ => takes_of_enters (midPart_enters (by exact hc) v)
  | statRead => exact h.onTx hpt rfl hfail fun _ => takes_ite (takes_next _) (takes_of_enters (tailPart_enters (by exact hc) v))
  | c2Read => exact h.onTx hpt rfl hfail fun _ => takes_of_enters (subPart_enters (by exact hc) v)
  | c2Written => exact h.onTx hpt rfl hfail fun _ => takes_of_enters (tailPart_enters (by exact hc) v)
  | idRead =>
    exact h.onTx hpt rfl hfail fun _ => State.readRegsNext_takes (takes_ite (takes_next _) (takes_next _))
  | _ => rw [hpt] at ho; cases ho

theorem execFrameCapture_takes {T : BitVec 24} {s : State} (h : Ready s)
    (ho : ownPoint (.frameCapture T) s.point = true) : Takes (execFrameCapture T s) := by
  have hfail : ∀ info, Takes (captureFail info s.taken) := fun _ => takes_next _
  unfold execFrameCapture
  cases hpt : s.point with
  | stepWaited => exact h.playResume (.inl hpt) hfail fun _ _ _ => takes_next _
  | stepWritten => exact h.playResume (.inr hpt) hfail fun _ _ _ => takes_next _
  | captureWaited | initT0Read | pollGrab | streamT0Read | pollStream => exact takes_next _
  | grabRead => exact h.onTx hpt rfl hfail fun _ => takes_ite (takes_next _) (takes_next _)
  | triggerWritten => exact h.onTx hpt rfl hfail fun _ => takes_next _
  | fragmentRead =>
    refine h.onTx hpt rfl hfail fun rx => ?_
    rw [accumulate_eq]
    exact takes_ite (takes_next _) (takes_next _)
  | initClockRead | streamClockRead => exact takes_ite (takes_next _) (takes_next _)
  | _ => rw [hpt] at ho; cases ho

/-- Past its checks a command takes its step at each of its own points. -/
theorem exec_own_takes {i : Instr} {s : State} (h : Ready s) (ho : ownPoint i s.point = true)
    (hp : ∀ v, i = .bringUp v → phaseAt s.point s.cal.phase = true) : Takes (exec i s) := by
  have hfail : ∀ info, Takes (State.raiseTransport info s.taken) := fun _ => takes_next _
  cases i with
  | writeReg a v | readReg a | burstXfer c l | setOrientation x y z | setRotation d =>
    have hpt : s.point = .regDone := eq_of_beq ho
    simp only [exec, execWriteReg, execReadReg, execBurstXfer, execSetOrientation, execSetRotation, hpt]
    exact h.onTx hpt rfl hfail fun _ => takes_next _
  | readRegs a n =>
    have hpt : s.point = .regsRead := eq_of_beq ho
    simp only [exec, execReadRegs, hpt]
    exact h.onTx hpt rfl hfail fun _ => State.readRegsNext_takes (takes_next _)
  | playSeq seg =>
    have hpt : s.point = .stepWaited ∨ s.point = .stepWritten := by simpa [ownPoint] using ho
    have hres : exec (.playSeq seg) s = s.playResume State.raiseTransport (fun s => .next s.succeed) := by
      rcases hpt with hpt | hpt <;> simp only [exec, execPlaySeq, hpt]
    rw [hres]
    exact h.playResume hpt hfail fun _ _ _ => takes_next _
  | bringUp v => exact execBringUp_takes h ho (hp v rfl)
  | burstRead T =>
    simp only [exec, execBurstRead]
    cases hpt : s.point with
    | loopT0Read | checkDeadline => exact takes_next _
    | deadlineRead => exact takes_ite (takes_next _) (takes_next _)
    | burstRead => exact h.onTx hpt rfl hfail fun _ => takes_ite (takes_next _) (takes_next _)
    | _ => rw [hpt] at ho; cases ho
  | slowRead T =>
    simp only [exec, execSlowRead]
    cases hpt : s.point with
    | loopT0Read | checkDeadline => exact takes_next _
    | deadlineRead => exact takes_ite (takes_next _) (takes_next _)
    | regsRead =>
      exact h.onTx hpt rfl hfail fun _ => State.readRegsNext_takes (takes_ite (takes_next _) (takes_next _))
    | _ => rw [hpt] at ho; cases ho
  | frameCapture T => exact execFrameCapture_takes h ho
  | _ => cases ho

theorem ready_of_inv {s : State} (hs : Inv s) (hb : s.busBusy = false) : Ready s := by
  refine ⟨hs.config, fun hpt => ?_⟩
  cases hp : s.tx.phase with
  | idle => rw [hs.bus.1.1 hp] at hpt; cases hpt
  | ended r => exact ⟨r, rfl⟩
  | requested | selected | abandoned | exchanged _ => rw [State.busBusy, hp] at hb; cases hb

/-- R96: the running command takes its step. -/
theorem exec_takes {i : Instr} {s : State} (hs : Inv s) (hrun : runningPoint s.point = true) (hb : s.busBusy = false)
    (hd : decodeCommand s.curCmd = .ok i) : Takes (exec i s) := by
  by_cases hstart : s.point = .start
  · exact exec_start_takes (decodeCommand_isCommand hd) hstart hs.config
  · obtain ⟨i', hd', ho, -, -⟩ := hs.control hrun hstart
    obtain rfl : i = i' := Except.ok.inj (hd.symm.trans hd')
    refine exec_own_takes (ready_of_inv hs hb) ho fun v hv => ?_
    subst hv
    exact ((lifecycleOk_bringUp (running_eq_some_iff.2 ⟨hrun, hstart, hd⟩)).1 hs.lifecycle).2.2

/-- A step of the controller, told apart by what it runs. -/
theorem control_eq (s : State) :
    (s.point = .boot ∧ Machine.control s = .next (bootStep s)) ∨ (s.point = .idle ∧ Machine.control s = .next s)
      ∨ runningPoint s.point = true
        ∧ Machine.control s = if s.busBusy then exec s.tx.frame.instr s else
            match decodeCommand s.curCmd with
            | .ok i => exec i s
            | .error _ => .next (illegalEnd s) := by
  unfold Machine.control nextStep
  cases hp : s.point with
  | boot => exact .inl ⟨rfl, rfl⟩
  | idle => exact .inr (.inl ⟨rfl, rfl⟩)
  | _ =>
    refine .inr (.inr ⟨rfl, ?_⟩)
    cases s.busBusy with
    | true => rfl
    | false => cases decodeCommand s.curCmd <;> rfl

theorem control_takes {s : State} (hs : Inv s) : Takes (Machine.control s) := by
  rcases control_eq s with ⟨-, h⟩ | ⟨-, h⟩ | ⟨hrun, h⟩ <;> rw [h]
  · exact takes_next _
  · exact takes_next _
  · cases hb : s.busBusy with
    | true => exact ⟨_, frame_exec _ _⟩
    | false =>
      cases hd : decodeCommand s.curCmd with
      | ok i => exact exec_takes hs hrun hb hd
      | error _ => exact takes_next _

/-- Settles O25: the host's accesses and the reset always take place; a running command stands at a point of its own, where
its transaction is over, and it takes its step. -/
theorem noStepFaultsOrIsRefused : Obligations.NoStepFaultsOrIsRefused := by
  intro s hs
  show Takes (step s)
  unfold step
  split
  · exact takes_next _
  · split
    · exact control_takes hs
    · exact control_takes (inv_setInputs hs _)
    all_goals exact takes_next _

end Sys2Proof.Machine
end

section
/-! PROOFS. What each step may change, read off its turn: the result registers (R38), a command's end (R270-R272), the
timeouts and T0 (R213, R251), FC_STATE (R240) and BU_PHASE (R191). -/

namespace Sys2Proof.Machine

open Sys2Proof.Safety

/-! ### The result registers (R38) -/

/-- RESULT changes only in the turn that ends one of three commands with success. -/
theorem Turn.result_cases {s u : State} {i : Instr} {a : Act} (h : Turn s i u a) :
    u.result = s.result ∨ (a = .succeed ∧ i.mnemonic ∈ ["READ_REG", "BURST_READ", "SLOW_READ"]) := by
  cases h
  case readRegEnd | burstReadValid | slowReadReady => exact .inr ⟨rfl, by simp [Instr.mnemonic]⟩
  case playSeqBegin hw | captureBegin hw => rw [hw.eq]; exact .inl rfl
  case playSeqMore h hw | segmentMore h hw | captureMore h hw => rw [hw.eq, h.frame]; exact .inl rfl
  case playSeqEnd h _ | captureSettle h _ => rw [h.frame]; exact .inl rfl
  case segmentEnd h _ ha => rw [ha.played, h.frame]; exact .inl rfl
  case flushEnd h | cfgWritten h | statNotTaken h | c2Read h | c2Written h => rw [h.played]; exact .inl rfl
  case captureComplete hu _ | captureGoesOn hu _ => rw [hu, fragmentRegs_frame]; exact .inl rfl
  case slowReadNotReady hu _ => rw [hu, State.storeRead_frame]; exact .inl rfl
  all_goals exact .inl (by simp [State.nextRead, bringUpRegs])

/-- R35: the commands whose rows list RESP_BUF and RESP_LEN. -/
def listsResp (i : Instr) : Prop :=
  i.mnemonic ∈ ["WRITE_REG", "READ_REG", "READ_REGS", "BURST_XFER", "BURST_READ", "SLOW_READ"]

theorem Turn.resp_cases {s u : State} {i : Instr} {a : Act} (h : Turn s i u a) (hc : i.isCommand = true) :
    (u.respLen = s.respLen ∧ ∀ k, k < 256 → u.respByte k = s.respByte k) ∨ listsResp i := by
  cases i with
  | writeReg _ _ | readReg _ | readRegs _ _ | burstXfer _ _ | burstRead _ | slowRead _ =>
    exact .inr (by simp [listsResp, Instr.mnemonic])
  | playSeq seg => rw [h.playSeq_frame]; exact .inl ⟨rfl, fun _ _ => rfl⟩
  | bringUp v => rw [h.bringUp_frame]; exact .inl ⟨rfl, fun _ _ => rfl⟩
  | frameCapture T => exact .inl ⟨by rw [h.capture_frame], fun k hk => h.respByte_of_capture hk⟩
  | setOrientation _ _ _ | setRotation _ => cases h <;> exact .inl ⟨rfl, fun _ _ => rfl⟩
  | _ => cases hc

theorem Turn.sample_cases {s u : State} {i : Instr} {a : Act} (h : Turn s i u a) (hc : i.isCommand = true) :
    u.sample = s.sample ∨ i.mnemonic = "BURST_READ" := by
  cases i with
  | burstRead _ => exact .inr rfl
  | playSeq seg => rw [h.playSeq_frame]; exact .inl rfl
  | bringUp v => rw [h.bringUp_frame]; exact .inl rfl
  | frameCapture T => rw [h.capture_frame]; exact .inl rfl
  | slowRead T =>
    cases h
    case slowReadReady hu _ | slowReadNotReady hu _ => rw [hu, State.storeRead_frame]; exact .inl rfl
    all_goals exact .inl (by simp [State.nextRead])
  | writeReg _ _ | readReg _ | readRegs _ _ | burstXfer _ _ | setOrientation _ _ _ | setRotation _ =>
    cases h <;> exact .inl (by simp [State.nextRead])
  | _ => cases hc

theorem Turn.orient_cases {s u : State} {i : Instr} {a : Act} (h : Turn s i u a) (hc : i.isCommand = true) :
    u.orient = s.orient ∨ i.mnemonic ∈ ["SET_ORIENTATION", "SET_ROTATION"] := by
  cases i with
  | setOrientation _ _ _ | setRotation _ => exact .inr (by simp [Instr.mnemonic])
  | playSeq seg => rw [h.playSeq_frame]; exact .inl rfl
  | bringUp v => rw [h.bringUp_frame]; exact .inl rfl
  | frameCapture T => rw [h.capture_frame]; exact .inl rfl
  | slowRead T =>
    cases h
    case slowReadReady hu _ | slowReadNotReady hu _ => rw [hu, State.storeRead_frame]; exact .inl rfl
    all_goals exact .inl (by simp [State.nextRead])
  | writeReg _ _ | readReg _ | readRegs _ _ | burstXfer _ _ | burstRead _ =>
    cases h <;> exact .inl (by simp [State.nextRead])
  | _ => cases hc

/-- The result registers, the buffers and T0 of s and t agree. -/
structure SameResults (s t : State) : Prop where
  result : t.result = s.result
  respLen : t.respLen = s.respLen
  mem : t.mem = s.mem
  sample : t.sample = s.sample
  dev : t.dev = s.dev
  cal : t.cal = s.cal
  calVals : t.calVals = s.calVals
  fc : t.fc = s.fc
  orient : t.orient = s.orient
  t0 : t.t0 = s.t0

theorem sameResults_hostWrite (addr : BitVec 12) (n : Nat) (v : Word) (s : State) : SameResults s (hostWrite addr n v s) := by
  rcases hostWrite_cases addr n v s with h | h | h <;> rw [h] <;> exact ⟨rfl, rfl, rfl, rfl, rfl, rfl, rfl, rfl, rfl, rfl⟩

/-- A step changes result registers, buffers or T0 only by a turn or by a reset. -/
inductive Changed (s t : State) : Prop
  | same (h : SameResults s t)
  | reset (h : ResetStep s)
  | turn (u : State) (i : Instr) (a : Act) (l : List Input) (hp : runningPoint s.point = true)
    (hd : decodeCommand s.curCmd = .ok i) (hturn : Turn (s.setInputs l) i u a) (ht : t = a.apply u)

theorem step_changed {s t : State} (h : step s = .next t) : Changed s t := by
  cases step_next h with
  | boot hp ht => subst ht; exact .same (by constructor <;> simp [bootStep])
  | read hp addr n rest hi ht => subst ht; exact .same ⟨rfl, rfl, rfl, rfl, rfl, rfl, rfl, rfl, rfl, rfl⟩
  | write hp addr n v rest hi ht =>
    subst ht
    obtain ⟨h1, h2, h3, h4, h5, h6, h7, h8, h9, h10⟩ := sameResults_hostWrite addr n v (s.setInputs rest)
    exact .same ⟨h1, h2, h3, h4, h5, h6, h7, h8, h9, h10⟩
  | reset hp rest hi ht => exact .reset ⟨hp, rest, hi⟩
  | wait hp hc =>
    obtain ⟨l, rfl⟩ := controllerTurn_eq_setInputs hc
    exact .same ⟨rfl, rfl, rfl, rfl, rfl, rfl, rfl, rfl, rfl, rfl⟩
  | frame s' hp hc hb ht =>
    obtain ⟨l, rfl⟩ := controllerTurn_eq_setInputs hc
    subst ht
    exact .same (by constructor <;> simp)
  | illegal s' hp hc hb hd ht =>
    obtain ⟨l, rfl⟩ := controllerTurn_eq_setInputs hc
    subst ht
    exact .same ⟨rfl, rfl, rfl, rfl, rfl, rfl, rfl, rfl, rfl, rfl⟩
  | turn s' u i a hp hc hb hd hturn ht =>
    obtain ⟨l, rfl⟩ := controllerTurn_eq_setInputs hc
    exact .turn u i a l hp hd hturn ht

/-- Settles O30: the registers that a turn of each command leaves alone. -/
theorem onlyTheListedRegistersChange : Obligations.OnlyTheListedRegistersChange := by
  intro s t h hreset _
  cases step_changed h with
  | same h =>
    have hresp : ∀ k, t.respByte k = s.respByte k := State.respByte_of_mem h.mem
    have hpix : ∀ k, t.pixelByte k = s.pixelByte k := State.pixelByte_of_mem h.mem
    simp [h.result, h.respLen, h.sample, h.dev, h.cal, h.calVals, h.fc, h.orient, hresp, hpix]
  | reset h => exact absurd h hreset
  | turn u i a l hp hd hturn ht =>
    have hc := decodeCommand_isCommand hd
    subst ht
    simp only [Act.apply_result, Act.apply_respLen, Act.apply_respByte, Act.apply_sample, Act.apply_dev, Act.apply_cal,
      Act.apply_calVals, Act.apply_fc, Act.apply_pixelByte, Act.apply_orient]
    refine ⟨fun hne => ?_, fun hne => ⟨i, hd, ?_⟩, fun hne => ⟨i, hd, ?_⟩, fun hne => ⟨i, hd, ?_⟩, fun hne => ⟨i, hd, ?_⟩,
      fun hne => ⟨i, hd, ?_⟩⟩
    · obtain ⟨rfl, hi⟩ := hturn.result_cases.resolve_left hne
      refine ⟨?_, i, hd, hi⟩
      exact (Act.succeed.apply_emits_ended hturn.kept.trace .none).2 rfl
    · refine (hturn.resp_cases hc).resolve_left fun ⟨hlen, hbyte⟩ => ?_
      rcases hne with hne | ⟨k, hk, hne⟩
      · exact hne hlen
      · exact hne (hbyte k hk)
    · exact (hturn.sample_cases hc).resolve_left hne
    · by_contra hi
      have hi' : ∀ v, i ≠ .bringUp v := by rintro v rfl; exact hi rfl
      obtain ⟨hcal, hvals⟩ := hturn.cal_of_not_bringUp hc hi'
      have hdev := hturn.dev_of_not_bringUp hi'
      simp [hcal, hvals, hdev] at hne
    · by_contra hi
      have hi' : ∀ T, i ≠ .frameCapture T := by rintro T rfl; exact hi rfl
      rcases hne with hne | ⟨k, hk, hne⟩
      · exact hne (hturn.fc_of_not_capture hc hi')
      · exact hne (hturn.pixelByte_of_not_capture hi' k)
    · exact (hturn.orient_cases hc).resolve_left hne

/-! ### A command's end (R270-R272) -/

/-- An END event ends a running command, with success or with an error. -/
theorem end_cases {s t : State} {c : ErrCode} (hs : Inv s) (h : step s = .next t) (he : Emits (.ended c) s t) :
    runningPoint s.point = true
      ∧ ∃ u : State, u.status = s.status ∧ u.errCode = s.errCode ∧ u.errInfo = s.errInfo ∧ u.tx.phase = .idle
        ∧ ((c = .none ∧ t = u.succeed) ∨ (c ≠ .none ∧ ∃ info, t = u.raise c info)) := by
  cases step_event h with
  | silent _ ht => exact absurd he (not_emits_of_trace_eq ht _)
  | native _ _ he' | accept _ _ _ _ _ he' | reset _ _ he' => cases emits_unique he he'
  | bus hb l ht he' => subst ht; exact absurd he (State.busEvent_not_ended _ (s.setInputs l) c)
  | illegal l hb hp hd ht _ he' =>
    cases emits_unique he he'
    exact ⟨hp, s.setInputs l, rfl, rfl, rfl, (inv_atRest hs (.inr (.inr (start_of_illegal hs hp hd)))).tx,
      .inr ⟨nofun, _, ht⟩⟩
  | act u i a l hb hp hd hturn ht he' =>
    have hkept := hturn.kept
    refine ⟨hp, u, hkept.status, hkept.errCode, hkept.errInfo, hturn.tx_idle (s := s.setInputs l) hs.bus hb, ?_⟩
    have hc := (a.apply_emits_ended (s := s) hkept.trace c).1 (ht ▸ he)
    have hfits := hturn.fits
    cases a with
    | begin f k | now k | sleep ms k => cases hc
    | raise code info => cases hc; exact .inr ⟨hfits, info, ht⟩
    | succeed => cases hc; exact .inl ⟨rfl, ht⟩

/-- BUSY falls only with an END event or a reset. -/
theorem busy_falls {s t : State} (h : step s = .next t) (hs : s.status.busy = true) (ht : t.status.busy = false) :
    ResetStep s ∨ ∃ c, Emits (.ended c) s t := by
  have kept : t.status.busy ≠ s.status.busy := by rw [hs, ht]; nofun
  cases step_next h with
  | boot hp h => subst h; exact absurd (by simp [bootStep]) kept
  | read hp addr n rest hi h => subst h; exact absurd rfl kept
  | write hp addr n v rest hi h =>
    subst h
    rcases hostWrite_cases addr n v (s.setInputs rest) with h | h | h <;> rw [h] at kept ht
    · exact absurd rfl kept
    · exact absurd rfl kept
    · cases ht
  | reset hp rest hi h => exact .inl ⟨hp, rest, hi⟩
  | wait hp hc => obtain ⟨l, rfl⟩ := controllerTurn_eq_setInputs hc; exact absurd rfl kept
  | frame s' hp hc hb h =>
    obtain ⟨l, rfl⟩ := controllerTurn_eq_setInputs hc
    subst h
    exact absurd (by simp) kept
  | illegal s' hp hc hb hd h => obtain ⟨l, rfl⟩ := controllerTurn_eq_setInputs hc; subst h; exact .inr ⟨_, rfl⟩
  | turn s' u i a hp hc hb hd hturn h =>
    obtain ⟨l, rfl⟩ := controllerTurn_eq_setInputs hc
    subst h
    have hends : ∀ c, Emits (.ended c) s (a.apply u) ↔ a.endCode = some c := a.apply_emits_ended hturn.kept.trace
    have hstatus : u.status = s.status := hturn.kept.status
    cases a with
    | begin f k | now k | sleep ms k => exact absurd (by simp [Act.apply, hstatus]) kept
    | raise code info => exact .inr ⟨code, (hends code).2 rfl⟩
    | succeed => exact .inr ⟨.none, (hends .none).2 rfl⟩

theorem firstEvent_ne_accept (f : Frame) (s : State) (w : Word) : firstEvent f s ≠ .accept w := by
  unfold firstEvent
  split <;> simp

theorem State.nextBusEvent_ne_accept (s : State) (w : Word) : s.nextBusEvent ≠ .accept w := by
  unfold State.nextBusEvent
  cases s.tx.phase with
  | selected | abandoned | exchanged _ => nofun
  | idle | requested | ended _ => exact firstEvent_ne_accept s.tx.frame s w

/-- A command is accepted by a host's write, while none runs. -/
theorem accept_of_emits {s t : State} {w : Word} (h : step s = .next t) (he : Emits (.accept w) s t) :
    s.status.busy = false ∧ t.status.busy = true ∧ t.curCmd = w := by
  cases step_event h with
  | silent _ ht => exact absurd he (not_emits_of_trace_eq ht _)
  | accept w' _ hb _ ht he' => cases emits_unique he he'; exact ⟨hb, ht⟩
  | native _ _ he' | reset _ _ he' | illegal _ _ _ _ _ _ he' => cases emits_unique he he'
  | bus _ _ _ he' => exact absurd (emits_unique he' he) (s.nextBusEvent_ne_accept w)
  | act u i a l hb hp hd hturn ht he' =>
    have h' := emits_unique he' he
    cases a with
    | begin f k => exact absurd h' (firstEvent_ne_accept f u w)
    | now k | sleep ms k | raise code info | succeed => cases h'

/-- Settles O31: the two ends of a command, the falls of BUSY, and the acceptance. -/
theorem everyCommandEndsOnce : Obligations.EveryCommandEndsOnce := by
  intro s t hs h
  refine ⟨fun c he => ?_, busy_falls h, fun w => accept_of_emits h⟩
  obtain ⟨hp, u, hstatus, hcode, hinfo, htx, hend⟩ := end_cases hs h he
  obtain ⟨hbusy, hrun, -, herr, hzero⟩ := hs.status
  rw [hp] at hbusy
  obtain ⟨hdone, hnoerr⟩ := hrun hbusy
  rcases hend with ⟨rfl, rfl⟩ | ⟨hc, info, rfl⟩
  · simp [Status.succeeded, hstatus, hcode, hinfo, htx, hbusy, hnoerr, herr.2 hnoerr, hzero hnoerr]
  · simp [Status.erred, hstatus, htx, hbusy, hc]

end Sys2Proof.Machine
end

section
/-! PROOFS. The timeouts and T0 (R213, R251), the moves of FC_STATE (R240) and the moves of BU_PHASE (R191). -/

namespace Sys2Proof.Machine

open Sys2Proof.Safety

/-! ### TIMEOUT -/

theorem expired_iff (now t0 T : Nat) : expired now t0 T = true ↔ now - t0 > T * 1000 := by
  simp [expired, Config.unitsPerMs]

theorem expired_gt {now t0 T : Nat} (h : expired now t0 T = true) : now > t0 + T * 1000 := by
  have := (expired_iff now t0 T).1 h
  omega

theorem timeoutInfo_toNat (loop : LoopId) {n : Nat} (hn : n < 2 ^ 11) :
    (timeoutInfo loop n).toNat = loop.number + 0x10000 * n := by
  have hl : loop.number < 4 := by cases loop <;> decide
  simp only [timeoutInfo, append_toNat, BitVec.toNat_ofNat]
  omega

/-- The turn that ends a command with TIMEOUT, at the point where its deadline is compared. -/
inductive TimedOut (s : State) : Instr → Act → Prop
  | burstRead (m : BitVec 24) (h : expired s.env.clock s.t0 m.toNat = true) :
    TimedOut s (.burstRead m) (.raise .timeout (timeoutInfo .burstRead 0))
  | slowRead (m : BitVec 24) (h : expired s.env.clock s.t0 m.toNat = true) :
    TimedOut s (.slowRead m) (.raise .timeout (timeoutInfo .slowRead 0))
  | captureInit (m : BitVec 24) (hp : s.point = .initClockRead) (h : expired s.env.clock s.t0 m.toNat = true) :
    TimedOut s (.frameCapture m) (.raise .timeout (timeoutInfo .captureInit 0))
  | captureStream (m : BitVec 24) (hp : s.point = .streamClockRead) (h : expired s.env.clock s.t0 m.toNat = true) :
    TimedOut s (.frameCapture m) (.raise .timeout (timeoutInfo .captureStream s.fc.pixelCount))

theorem Turn.timedOut {s u : State} {i : Instr} {a : Act} (h : Turn s i u a) (ha : a.endCode = some .timeout) :
    TimedOut s i a := by
  cases h
  case burstReadLate h => exact .burstRead _ h
  case slowReadLate h => exact .slowRead _ h
  case initLate hp h => exact .captureInit _ hp h
  case streamLate hp h => exact .captureStream _ hp h
  case playSeqBegin h | playSeqMore h | captureBegin h | captureMore h | segmentMore h =>
    cases h.goesOn.2.symm.trans ha
  case flushEnd h | segmentEnd h | cfgWritten h | statNotTaken h | c2Read h | c2Written h =>
    cases h.goesOn.2.symm.trans ha
  all_goals cases ha

theorem ne_start {p q : Point} (h : p = q) (hq : q ≠ .start) : p ≠ .start := h ▸ hq

/-- R240: FC_STATE while a capture runs. -/
theorem captureAt_of_running {s : State} {T : BitVec 24} (hs : Inv s) (hrun : runningPoint s.point = true)
    (hstart : s.point ≠ .start) (hd : decodeCommand s.curCmd = .ok (.frameCapture T)) :
    captureAt s.point s.fc.state = true :=
  (captureStateOk_capture (running_eq_some_iff.2 ⟨hrun, hstart, hd⟩)).1 hs.captureState

theorem bringUp_not_loop {v : Variant} {p : Point} (ho : ownPoint (.bringUp v) p = true) :
    p ∉ [Point.loopT0Read, .initT0Read, .streamT0Read] := by
  cases p with
  | loopT0Read | initT0Read | streamT0Read => cases ho
  | _ => decide

/-- A loop's begin reads the clock. -/
theorem Turn.loop_begins {s u : State} {i : Instr} {a : Act} (h : Turn s i u a)
    (ht : a.target ∈ [Point.loopT0Read, .initT0Read, .streamT0Read]) :
    (∃ k, a = .now k) ∧ s.point ∈ [Point.start, .captureWaited, .triggerWritten] := by
  cases h
  case burstReadBegin h | slowReadBegin h => exact ⟨⟨_, rfl⟩, by simp [h.1]⟩
  case captureWaited hp | triggerWritten hp _ => exact ⟨⟨_, rfl⟩, by simp [hp]⟩
  case playSeqBegin hw | playSeqMore hw | segmentMore hw | captureBegin hw | captureMore hw =>
    cases hw <;> simp [Act.target] at ht
  case flushEnd h | cfgWritten h | statNotTaken h | c2Read h | c2Written h =>
    exact absurd ht (bringUp_not_loop ((h.lands rfl).fits.own h.goesOn.2))
  case segmentEnd h => exact absurd ht (bringUp_not_loop (h.fits.own h.goesOn.2))
  all_goals simp [Act.target] at ht

/-- Settles O32: the four turns that end with TIMEOUT, and where T0 and the loops' first points come from. -/
theorem timeoutsComeOnlyPastTheDeadline : Obligations.TimeoutsComeOnlyPastTheDeadline := by
  intro s t hs h
  refine ⟨fun he => ?_, fun hne => ?_, fun htp hne => ?_⟩
  · cases step_event h with
    | silent _ ht => exact absurd he (not_emits_of_trace_eq ht _)
    | native _ _ he' | accept _ _ _ _ _ he' | reset _ _ he' | illegal _ _ _ _ _ _ he' => cases emits_unique he he'
    | bus hb l ht he' => subst ht; exact absurd he (State.busEvent_not_ended _ (s.setInputs l) .timeout)
    | act u i a l hb hp hd hturn ht _ =>
      subst ht
      have hend := hturn.timedOut ((a.apply_emits_ended (s := s) hturn.kept.trace .timeout).1 he)
      cases hend with
      | burstRead m hx => exact ⟨_, m.toNat, hd, expired_gt hx, .inl ⟨m, rfl, rfl, timeoutInfo_toNat .burstRead (by decide)⟩⟩
      | slowRead m hx =>
        exact ⟨_, m.toNat, hd, expired_gt hx, .inr (.inl ⟨m, rfl, rfl, timeoutInfo_toNat .slowRead (by decide)⟩)⟩
      | captureInit m hpt hx =>
        have hat := captureAt_of_running hs hp (ne_start hpt nofun) hd
        rw [show s.point = _ from hpt] at hat
        exact ⟨_, m.toNat, hd, expired_gt hx,
          .inr (.inr (.inl ⟨m, rfl, rfl, eq_of_beq hat, timeoutInfo_toNat .captureInit (by decide)⟩))⟩
      | captureStream m hpt hx =>
        have hat := captureAt_of_running hs hp (ne_start hpt nofun) hd
        rw [show s.point = _ from hpt] at hat
        have hcount : s.fc.pixelCount < 2 ^ 11 := lt_of_le_of_lt hs.captureCount.1 (by decide)
        exact ⟨_, m.toNat, hd, expired_gt hx,
          .inr (.inr (.inr ⟨m, rfl, rfl, eq_of_beq hat, timeoutInfo_toNat .captureStream hcount⟩))⟩
  · cases step_changed h with
    | same h => exact absurd h.t0 hne
    | reset h => exact .inl h
    | turn u i a l hp hd hturn ht =>
      subst ht
      rw [Act.apply_t0] at hne ⊢
      exact .inr (hturn.t0_cases.resolve_left hne)
  · cases step_next h with
    | boot hp ht => subst ht; simp [bootStep] at htp
    | read hp addr n rest hi ht => subst ht; exact absurd rfl hne
    | write hp addr n v rest hi ht =>
      subst ht
      rcases hostWrite_cases addr n v (s.setInputs rest) with h | h | h <;> rw [h] at htp hne
      · exact absurd rfl hne
      · exact absurd rfl hne
      · simp at htp
    | reset hp rest hi ht =>
      subst ht
      cases hsw : s.cfg.swCs <;> simp [State.afterReset, hsw] at htp
    | wait hp hc => obtain ⟨l, rfl⟩ := controllerTurn_eq_setInputs hc; exact absurd rfl hne
    | frame s' hp hc hb ht =>
      obtain ⟨l, rfl⟩ := controllerTurn_eq_setInputs hc
      subst ht
      exact absurd (by simp) hne
    | illegal s' hp hc hb hd ht =>
      obtain ⟨l, rfl⟩ := controllerTurn_eq_setInputs hc
      subst ht
      simp [illegalEnd] at htp
    | turn s' u i a hp hc hb hd hturn ht =>
      obtain ⟨l, rfl⟩ := controllerTurn_eq_setInputs hc
      subst ht
      rw [Act.apply_point] at htp
      obtain ⟨⟨k, rfl⟩, hpt⟩ := hturn.loop_begins htp
      refine ⟨?_, hpt⟩
      rw [Emits, Act.apply_trace, hturn.kept.trace]
      simp [Act.apply, Act.event, u.env.now_spec.2]

/-! ### FC_STATE (R240) -/

/-- The moves of FC_STATE in a capture's turns, each at its point. -/
inductive CaptureMove (s u : State) (T : BitVec 24) (a : Act) : Prop
  | begin (hp : s.point = .start) (hc : Checked (.frameCapture T) s) (hu : u.fc.state = .configuring)
  | waits (hp : s.point = .captureWaited) (hu : u.fc.state = .waitingForGrabReady)
  | streams (hp : s.point = .triggerWritten) (ha : ∃ rx, Answered rx s) (hu : u.fc.state = .streaming)
  | initTimeout (hp : s.point = .initClockRead) (h : expired s.env.clock s.t0 T.toNat = true) (hu : u.fc.state = .timedOut)
    (hi : u.fc.initTimeout = true)
  | complete (hp : s.point = .fragmentRead) (hc : u.fc.pixelCount = 1225) (hu : u.fc.state = .complete)
  | streamTimeout (hp : s.point = .streamClockRead) (h : expired s.env.clock s.t0 T.toNat = true)
    (hc : u.fc.pixelCount = s.fc.pixelCount) (hu : u.fc.state = .timedOut)
  | aborts (hp : transactionPoint s.point = true) (ho : ownPoint (.frameCapture T) s.point = true)
    (ha : a.endCode = some .transport) (hu : u.fc.state = .aborted)

theorem Turn.capture_moves {s u : State} {T : BitVec 24} {a : Act} (h : Turn s (.frameCapture T) u a) :
    u.fc.state = s.fc.state ∨ CaptureMove s u T a := by
  cases h
  case captureFailed hp _ ho => exact .inr (.aborts hp ho rfl rfl)
  case captureBegin hc hw => rw [hw.eq]; exact .inr (.begin hc.1 hc rfl)
  case captureEmpty hw hc => exact .inr (.begin hc.1 hc rfl)
  case captureMore h hw => rw [hw.eq, h.frame]; exact .inl rfl
  case captureSettle h _ => rw [h.frame]; exact .inl rfl
  case captureWaited hp => exact .inr (.waits hp rfl)
  case initLate hp h => exact .inr (.initTimeout hp h rfl rfl)
  case triggerWritten hp ha => exact .inr (.streams hp ⟨_, ha⟩ rfl)
  case captureComplete hp _ hu hc => exact .inr (.complete hp hc rfl)
  case captureGoesOn hu _ => rw [hu]; exact .inl (fragmentRegs_fcState _ _)
  case streamLate hp h => exact .inr (.streamTimeout hp h rfl rfl)
  all_goals exact .inl rfl

/-- A permitted capture finds the device READY, and no other capture under way. -/
theorem capture_ready {s : State} {T : BitVec 24} (hs : Inv s) (hrun : runningPoint s.point = true)
    (hd : decodeCommand s.curCmd = .ok (.frameCapture T)) (hstart : s.point = .start → Checked (.frameCapture T) s) :
    s.dev.state = .ready := by
  by_cases hp : s.point = .start
  · exact eq_of_beq (hstart hp).2.1
  · obtain ⟨i, hd', -, hperm, -⟩ := hs.control hrun hp
    obtain rfl : i = .frameCapture T := Except.ok.inj (hd'.symm.trans hd)
    exact eq_of_beq hperm

theorem mem_captureAtRest {x : FcState} (h : captureAtRest x) : x ∈ [FcState.idle, .complete, .timedOut, .aborted] := by
  obtain ⟨h1, h2, h3⟩ := h
  cases x <;> simp_all

theorem mem_of_captureAt {p : Point} {x : FcState} (h : captureAt p x = true) :
    x ∈ [FcState.configuring, .waitingForGrabReady, .streaming] := by
  cases x with
  | configuring | waitingForGrabReady | streaming => simp
  | _ => cases p <;> cases h

theorem tx_of_answered {s : State} (h : ∃ rx, Answered rx s) : s.tx.phase ≠ .idle := by
  obtain ⟨rx, h⟩ := h
  rw [h]
  nofun

/-- R72: the transaction under way carries the running command's frame. -/
theorem frame_of_running {s : State} {i : Instr} (hs : Inv s) (hd : decodeCommand s.curCmd = .ok i) (htx : s.tx.phase ≠ .idle) :
    Safety.busFrame i s = some s.tx.frame := by
  obtain ⟨j, hj, hframe⟩ := hs.frame htx
  obtain rfl : i = j := Except.ok.inj (hd.symm.trans (running_eq_some_iff.1 hj).2.2)
  exact hframe

theorem step_reset {s : State} {rest : List Input} (hp : s.point ≠ .boot) (hi : s.inputs = .reset :: rest) :
    step s = .next (s.setInputs rest).afterReset := by
  unfold step
  split
  · contradiction
  · simp only [hi]

theorem resetStep_eq {s t : State} (h : ResetStep s) (ht : step s = .next t) :
    ∃ rest, t = (s.setInputs rest).afterReset := by
  obtain ⟨hp, rest, hi⟩ := h
  exact ⟨rest, Host.Outcome.next.inj (ht.symm.trans (step_reset hp hi))⟩

/-- Settles O33: each move of a capture's turns, with what the invariant says at its point. -/
theorem captureStateMovesByItsTable : Obligations.CaptureStateMovesByItsTable := by
  intro s t hs h hne
  cases step_changed h with
  | same h => exact absurd (congrArg FcStatus.state h.fc) hne
  | reset hr =>
    obtain ⟨rest, rfl⟩ := resetStep_eq hr h
    exact .inl ⟨hr, rfl⟩
  | turn u i a l hp hd hturn ht =>
    subst ht
    rw [Act.apply_fc] at hne ⊢
    obtain ⟨T, rfl⟩ : ∃ T, i = .frameCapture T := by
      by_contra hi
      have hfc := hturn.fc_of_not_capture (decodeCommand_isCommand hd) fun T hT => hi ⟨T, hT⟩
      exact hne (by rw [hfc]; rfl)
    have hat : s.point ≠ .start → captureAt s.point s.fc.state = true :=
      fun hstart => captureAt_of_running hs hp hstart hd
    have hmove := hturn.capture_moves.resolve_left hne
    have hready : s.dev.state = .ready := by
      refine capture_ready hs hp hd fun hstart => ?_
      have hstart' : (s.setInputs l).point = .start := hstart
      cases hmove with
      | begin _ hc _ => exact hc
      | aborts hpt _ _ _ => rw [hstart'] at hpt; cases hpt
      | waits hpt | streams hpt _ | initTimeout hpt _ _ | complete hpt _ | streamTimeout hpt _ _ =>
        cases hstart'.symm.trans hpt
    refine .inr ⟨T, hd, hready, ?_⟩
    cases hmove with
    | begin hpt hc hu =>
      exact .inl ⟨mem_captureAtRest (inv_atRest hs (.inr (.inr hpt))).capture, hpt, hu⟩
    | waits hpt hu =>
      have hcfg := hat (ne_start hpt nofun)
      rw [show s.point = _ from hpt] at hcfg
      exact .inr (.inl ⟨eq_of_beq hcfg, hpt, hu⟩)
    | streams hpt ha hu =>
      have hpt : s.point = .triggerWritten := hpt
      have hwait := hat (ne_start hpt nofun)
      rw [hpt] at hwait
      have hframe := frame_of_running hs hd (tx_of_answered ha)
      simp only [busFrame, hpt, Option.some.injEq] at hframe
      exact .inr (.inr (.inl ⟨eq_of_beq hwait, hpt, hframe.symm, ha, eq_of_beq (hs.trigger.1 hpt), hu⟩))
    | initTimeout hpt hx hu hi =>
      have hpt : s.point = .initClockRead := hpt
      have hwait := hat (ne_start hpt nofun)
      rw [hpt] at hwait
      exact .inr (.inr (.inr (.inl
        ⟨eq_of_beq hwait, ne_of_beq_false (hs.trigger.2 hpt), expired_gt hx, hu, hi⟩)))
    | complete hpt hc hu =>
      have hstream := hat (ne_start hpt nofun)
      rw [show s.point = _ from hpt] at hstream
      exact .inr (.inr (.inr (.inr (.inl ⟨eq_of_beq hstream, hc, hu⟩))))
    | streamTimeout hpt hx hc hu =>
      have hstream := hat (ne_start hpt nofun)
      rw [show s.point = _ from hpt] at hstream
      have hcount := hs.captureCount.2.2.1 (eq_of_beq hstream)
      exact .inr (.inr (.inr (.inr (.inr (.inl ⟨eq_of_beq hstream, hc ▸ hcount, expired_gt hx, hu⟩)))))
    | aborts hpt ho ha hu =>
      exact .inr (.inr (.inr (.inr (.inr (.inr ⟨mem_of_captureAt (hat (transactionPoint_ne_start hpt)),
        (a.apply_emits_ended (s := s) hturn.kept.trace .transport).2 ha, hu⟩)))))

/-! ### BU_PHASE (R191) -/

/-- R186-R188: the phases a step of a bring-up may leave out: one whose segment is empty, and SUB and WRITEBACK when branch B
is not taken. -/
def leftOut (v : Variant) (cfg : Config) (taken : Bool) (n : Nat) : Prop :=
  (n = 4 ∧ cfg.segment (5 * v.bit.toNat) = [])
    ∨ (n = 6 ∧ cfg.segment (5 * v.bit.toNat + 1) = [])
    ∨ (n = 8 ∧ (cfg.segment (5 * v.bit.toNat + 2) = [] ∨ taken = false))
    ∨ (n = 9 ∧ taken = false)
    ∨ (n = 10 ∧ cfg.segment (5 * v.bit.toNat + 3) = [])
    ∨ (n = 11 ∧ cfg.segment (5 * v.bit.toNat + 4) = [])

/-- From phase number m on, a step reaches phase p, and what it passes through on the way may be left out. -/
def Reaches (v : Variant) (cfg : Config) (taken : Bool) (m : Nat) (p : BuPhase) : Prop :=
  m ≤ p.number ∧ p.number ≤ 12 ∧ ∀ n, m ≤ n → n < p.number → leftOut v cfg taken n

theorem Reaches.refl {v : Variant} {cfg : Config} {taken : Bool} {m : Nat} {p : BuPhase} (hp : p.number = m)
    (hm : m ≤ 12) : Reaches v cfg taken m p :=
  ⟨hp.ge, hp.trans_le hm, fun n h1 h2 => by omega⟩

theorem Reaches.step {v : Variant} {cfg : Config} {taken : Bool} {m : Nat} {p : BuPhase} (hm : leftOut v cfg taken m)
    (h : Reaches v cfg taken (m + 1) p) : Reaches v cfg taken m p := by
  obtain ⟨h1, h2, h3⟩ := h
  refine ⟨by omega, h2, fun n hn hlt => ?_⟩
  rcases Nat.eq_or_lt_of_le hn with rfl | hn
  · exact hm
  · exact h3 n hn hlt

/-- The segment of a phase is empty where its first word is none. -/
theorem segment_empty {v : Variant} {p : BuPhase} {s : State} (h : (atPart v p s).stepWord = none) :
    s.cfg.segment (5 * v.bit.toNat + partNumber p) = [] := by
  have hk : partNumber p ≤ 4 := by cases p <;> decide
  have hv : v.bit.toNat ≤ 1 := by cases v <;> decide
  have hseg : (atPart v p s).seqSeg.toNat = 5 * v.bit.toNat + partNumber p := by
    show (BitVec.ofNat 4 (5 * v.bit.toNat + partNumber p)).toNat = _
    rw [BitVec.toNat_ofNat]
    omega
  unfold State.stepWord at h
  rw [hseg] at h
  cases hl : s.cfg.segment (5 * v.bit.toNat + partNumber p) with
  | nil => rfl
  | cons w ws =>
    rw [show (atPart v p s).cfg = s.cfg from rfl, hl] at h
    cases h

theorem leftOut_of_empty {v : Variant} {p : BuPhase} {s : State} (hp : segmentPhase p = true)
    (h : (atPart v p s).stepWord = none) (taken : Bool) : leftOut v s.cfg taken p.number := by
  have hempty := segment_empty h
  cases p with
  | prologue | mid | sub | tail | trailer => simp_all [leftOut, BuPhase.number, partNumber]
  | _ => cases hp

theorem Word1.reaches {v : Variant} {p : BuPhase} {s u : State} {a : Act} (h : Word1 (atPart v p s) u a)
    (hp : segmentPhase p = true) (taken : Bool) : Reaches v s.cfg taken p.number u.cal.phase := by
  rw [h.eq]
  refine .refl rfl ?_
  cases p with
  | prologue | mid | sub | tail | trailer => decide
  | _ => cases hp

theorem Trailer.reaches {v : Variant} {s u : State} {a : Act} (h : Trailer v s u a) (taken : Bool) :
    Reaches v s.cfg taken 11 u.cal.phase := by
  cases h with
  | word _ _ h => exact h.reaches rfl taken
  | empty h => exact .step (leftOut_of_empty (p := .trailer) rfl h taken) (.refl rfl (by decide))

theorem After.reaches {v : Variant} {p : BuPhase} {s u : State} {a : Act} (h : After v s p u a) (taken : Bool) :
    Reaches v s.cfg taken (p.number + 1) u.cal.phase := by
  cases h with
  | tail _ _ h => exact h.reaches taken
  | _ => exact .refl rfl (by decide)

theorem Enter.reaches {v : Variant} {p : BuPhase} {s u : State} {a : Act} (h : Enter v p s u a)
    (hp : segmentPhase p = true) (taken : Bool) : Reaches v s.cfg taken p.number u.cal.phase := by
  cases h with
  | word h => exact h.reaches hp taken
  | empty h ha => exact .step (leftOut_of_empty hp h taken) (ha.reaches taken)

/-- The moves of BU_PHASE in a bring-up's turns. -/
inductive PhaseMove (v : Variant) (s u : State) (a : Act) : Prop
  | begin (hp : s.point = .start) (hc : Checked (.bringUp v) s) (hu : u.cal.phase = .reset)
  | fails (hs : s.point ≠ .start) (hu : u.cal.phase = .failed) (hf : u.cal.failPhase = s.cal.phase)
    (ha : a.endCode = some .transport ∨ (s.cal.phase = .idCheck ∧ a.endCode = some .identityMismatch))
  | climbs (hs : s.point ≠ .start) (ha : a.endCode = none)
    (hr : Reaches v s.cfg u.cal.bTaken (s.cal.phase.number + 1) u.cal.phase)
  | done (hs : s.point ≠ .start) (hp : s.cal.phase = .idCheck) (hu : u.cal.phase = .done) (ha : a.endCode = some .none)

theorem Turn.phase_moves {v : Variant} {s u : State} {a : Act} (h : Turn s (.bringUp v) u a)
    (hphase : s.point ≠ .start → phaseAt s.point s.cal.phase = true) :
    u.cal.phase = s.cal.phase ∨ PhaseMove v s u a := by
  have hat : ∀ {p : Point}, s.point = p → p ≠ .start → s.point ≠ .start ∧ phaseAt p s.cal.phase = true :=
    fun h hp => ⟨h ▸ hp, by have := hphase (h ▸ hp); rwa [h] at this⟩
  have entered : ∀ {p : BuPhase} {w : State}, s.point ≠ .start → Enter v p w u a → segmentPhase p = true →
      w.cfg = s.cfg → p.number = s.cal.phase.number + 1 → PhaseMove v s u a := by
    intro p w hs h hp hcfg hnum
    refine .climbs hs h.goesOn.2 ?_
    rw [← hnum, ← hcfg]
    exact h.reaches hp _
  cases h
  case plainFailed hp => cases hp
  case bringUpFailed hp _ _ => exact .inr (.fails (transactionPoint_ne_start hp) rfl rfl (.inl rfl))
  case bringUpBegin hc => exact .inr (.begin hc.1 hc rfl)
  case resetWritten hp _ =>
    obtain ⟨hs, hph⟩ := hat hp nofun
    exact .inr (.climbs hs rfl (.refl (by rw [eq_of_beq hph]; rfl) (by rw [eq_of_beq hph]; decide)))
  case resetWaited hp =>
    obtain ⟨hs, hph⟩ := hat hp nofun
    exact .inr (.climbs hs rfl (.refl (by rw [eq_of_beq hph]; rfl) (by rw [eq_of_beq hph]; decide)))
  case flushEnd hp _ _ h =>
    obtain ⟨hs, hph⟩ := hat hp nofun
    exact .inr (entered hs h rfl rfl (by rw [eq_of_beq hph]; rfl))
  case segmentMore h hw => rw [hw.eq]; exact .inl (congrArg CalStatus.phase (resumed_phase h))
  case segmentEnd h _ ha =>
    have hs : s.point ≠ .start := by rcases h with h | ⟨_, h, _⟩ <;> rw [h] <;> nofun
    refine .inr (.climbs hs ha.goesOn.2 ?_)
    rw [← h.kept.cfg]
    exact ha.reaches _
  case cfgWritten hp _ h =>
    obtain ⟨hs, hph⟩ := hat hp nofun
    exact .inr (entered hs h rfl rfl (by rw [eq_of_beq hph]; rfl))
  case statNotTaken hp _ _ h =>
    obtain ⟨hs, hph⟩ := hat hp nofun
    have htaken : u.cal.bTaken = false := by rw [h.played]; rfl
    refine .inr (.climbs hs h.goesOn.2 ?_)
    rw [eq_of_beq hph, htaken]
    exact .step (.inr (.inr (.inl ⟨rfl, .inr rfl⟩))) (.step (.inr (.inr (.inr (.inl ⟨rfl, rfl⟩)))) (h.reaches rfl false))
  case c2Read hp _ h =>
    obtain ⟨hs, hph⟩ := hat hp nofun
    exact .inr (entered hs h rfl rfl (by rw [eq_of_beq hph]; rfl))
  case c2Written hp _ h =>
    obtain ⟨hs, hph⟩ := hat hp nofun
    exact .inr (entered hs h rfl rfl (by rw [eq_of_beq hph]; rfl))
  case idMatch hp _ _ _ _ _ =>
    obtain ⟨hs, hph⟩ := hat hp nofun
    exact .inr (.done hs (eq_of_beq hph) rfl rfl)
  case idMismatch hp _ _ _ _ _ =>
    obtain ⟨hs, hph⟩ := hat hp nofun
    exact .inr (.fails hs rfl rfl (.inr ⟨eq_of_beq hph, rfl⟩))
  all_goals exact .inl rfl

theorem number_pos_of_phaseAt {p : Point} {x : BuPhase} (h : phaseAt p x = true) : 1 ≤ x.number := by
  cases x with
  | idle => cases p <;> cases h
  | _ => decide

theorem phase_done_of_number {x : BuPhase} (h : x.number ≤ 12) : x ≠ .done := by
  rintro rfl
  exact absurd h (by decide)

/-- Settles O34: each move of a bring-up's turns, with what the invariant says of its phase. -/
theorem bringUpPhasesComeInOrder : Obligations.BringUpPhasesComeInOrder := by
  intro s t hs h hne
  cases step_changed h with
  | same h => exact absurd (congrArg CalStatus.phase h.cal) hne
  | reset hr =>
    obtain ⟨rest, rfl⟩ := resetStep_eq hr h
    exact .inl ⟨hr, rfl⟩
  | turn u i a l hp hd hturn ht =>
    subst ht
    have hends : ∀ c, Emits (.ended c) s (a.apply u) ↔ a.endCode = some c := a.apply_emits_ended hturn.kept.trace
    rw [Act.apply_cal] at hne ⊢
    obtain ⟨v, rfl⟩ : ∃ v, i = .bringUp v := by
      by_contra hi
      have hcal := (hturn.cal_of_not_bringUp (decodeCommand_isCommand hd) fun v hv => hi ⟨v, hv⟩).1
      exact hne (by rw [hcal]; rfl)
    have hlife : s.point ≠ .start → s.dev.state = .uninit ∧ phaseAt s.point s.cal.phase = true := by
      intro hstart
      have hl := (lifecycleOk_bringUp (running_eq_some_iff.2 ⟨hp, hstart, hd⟩)).1 hs.lifecycle
      exact ⟨hl.1, hl.2.2⟩
    right
    refine ⟨v, hd, ?_⟩
    rcases (hturn.phase_moves fun hstart => (hlife hstart).2).resolve_left hne with
      ⟨hpt, hc, hu⟩ | ⟨hpt, hu, hf, ha⟩ | ⟨hpt, ha, hlow, hhigh, hskip⟩ | ⟨hpt, hph, hu, ha⟩
    · have huninit : s.dev.state = .uninit := eq_of_beq hc.2.1
      have hsettled := (inv_atRest hs (.inr (.inr hpt))).settled
      simp only [Settled, huninit, reduceCtorEq, true_and, false_and, or_false] at hsettled
      exact ⟨huninit, .inl ⟨hpt, hsettled, hu⟩⟩
    · refine ⟨(hlife hpt).1, .inr (.inl ⟨hu, hf, ?_⟩)⟩
      exact ha.imp (hends _).2 (And.imp_right (hends _).2)
    · refine ⟨(hlife hpt).1, .inr (.inr ⟨number_pos_of_phaseAt (hlife hpt).2, hlow, by omega, ?_, fun n h1 => hskip n h1⟩)⟩
      simp [hends, ha, phase_done_of_number hhigh]
    · refine ⟨(hlife hpt).1, .inr (.inr ⟨number_pos_of_phaseAt (hlife hpt).2, ?_⟩)⟩
      rw [show s.cal.phase = _ from hph, hu]
      refine ⟨by decide, by decide, by simp [hends, ha], fun n h1 h2 => ?_⟩
      simp only [BuPhase.number] at h1 h2
      omega

end Sys2Proof.Machine
end

section
/-! PROOFS. The transaction with a software select (R131), its TRANSPORT errors (R272), the host's accesses (R21-R34), power-on
(R11), reset (R300-R302), and what a step runs (R96). -/

namespace Sys2Proof.Machine

open Sys2Proof.Safety

/-! ### The transaction with a software select -/

/-- R131: with a software select the first event is the assert, whose answer says whether the exchange is next. -/
theorem State.txFirst_select {s : State} (h : s.cfg.swCs = true) (f : Frame) :
    s.txFirst f = { s with
      env := s.env.csAnswer.2
      tx := { frame := f, phase := if s.env.csAnswer.1 then .selected else .abandoned }
      trace := s.trace ++ [.cs .asserted s.env.csAnswer.1] } := by
  simp only [State.txFirst, h, if_true]
  rfl

/-- Settles O12: the events of the transaction one by one, each read off the phase it starts in. -/
theorem selectBracketsTheExchange : Obligations.SelectBracketsTheExchange := by
  intro f s hsw _ hphase
  have hfirst : exec f.instr s = .next (s.txFirst f) := by rw [frame_exec, State.busEvent_requested hphase]
  rw [State.txFirst_select hsw] at hfirst
  refine ⟨fun hok => ?_, fun hok => ?_⟩ <;> rw [hok] at hfirst
  · refine ⟨_, _, _, hfirst, ?_, ?_, rfl, rfl, rfl⟩
    · rw [frame_exec, State.busEvent_selected rfl]
      rfl
    · rw [frame_exec, State.busEvent_exchanged rfl, State.txResult_eq_outcomeOf]
      rfl
  · refine ⟨_, _, hfirst, ?_, rfl, rfl⟩
    rw [frame_exec, State.busEvent_abandoned rfl]
    rfl

/-! ### TRANSPORT errors -/

/-- R25: the ERRINFO word of a TRANSPORT error, bit by bit. -/
theorem transportInfo_eq (f : Frame) (c : Bool) :
    transportInfo f.byte0 c = 0#23 ++ BitVec.ofBool c ++ f.bytes.headD 0 := by
  rw [transportInfo, bitOfFlag_eq_ofBool]
  rfl

/-- The commands for which a TRANSPORT error changes nothing but the error registers, at the point of their transaction. -/
theorem exec_plain_onTx {i : Instr} {s : State} (hp : plainPoint i s.point = true) :
    ∃ k, exec i s = s.onTx State.raiseTransport k := by
  cases i with
  | writeReg a v | readReg a | burstXfer c l | setOrientation x y z | setRotation d | readRegs a n | slowRead T
  | burstRead T =>
    simp only [exec, execWriteReg, execReadReg, execBurstXfer, execSetOrientation, execSetRotation, execReadRegs,
      execSlowRead, execBurstRead, eq_of_beq hp]
    exact ⟨_, rfl⟩
  | playSeq seg =>
    simp only [exec, execPlaySeq, State.playResume, eq_of_beq hp]
    exact ⟨_, rfl⟩
  | _ => cases hp

theorem execBringUp_onTx {v : Variant} {s : State}
    (hp : (transactionPoint s.point && ownPoint (.bringUp v) s.point) = true) :
    ∃ k, execBringUp v s = s.onTx bringUpFail k := by
  unfold execBringUp State.playResume
  cases hpt : s.point with
  | resetWritten | flushRead | stepWritten | diagRead | cfgWritten | statRead | c1Read | c2Read | c1Written | c2Written
  | idRead => exact ⟨_, rfl⟩
  | _ => rw [hpt] at hp; cases hp

theorem execFrameCapture_onTx {T : BitVec 24} {s : State}
    (hp : (transactionPoint s.point && ownPoint (.frameCapture T) s.point) = true) :
    ∃ k, execFrameCapture T s = s.onTx captureFail k := by
  unfold execFrameCapture State.playResume
  cases hpt : s.point with
  | stepWritten | grabRead | triggerWritten | fragmentRead => exact ⟨_, rfl⟩
  | _ => rw [hpt] at hp; cases hp

/-- Settles O14: where a transaction has ended with a TRANSPORT error, the command's failing end is its next step. -/
theorem transportErrorsEndTheCommand : Obligations.TransportErrorsEndTheCommand := by
  intro s c hfailed
  simp only [← transportInfo_eq]
  refine ⟨fun i hi => ?_, fun v hp => ?_, fun T hp => ?_⟩
  · have hplain : plainPoint i s.point = true := by cases i <;> simp_all [plainPoint]
    obtain ⟨k, hk⟩ := exec_plain_onTx hplain
    exact ⟨_, hk.trans (State.onTx_failed hfailed _ _), ⟨rfl, rfl, rfl, rfl, rfl⟩, rfl⟩
  · have hpt : (transactionPoint s.point && ownPoint (.bringUp v) s.point) = true := by
      simp only [List.mem_cons, List.not_mem_nil, or_false] at hp
      rcases hp with h | h | h | h | h | h | h | h | h | h | h <;> rw [h] <;> rfl
    obtain ⟨k, hk⟩ := execBringUp_onTx hpt
    exact ⟨_, hk.trans (State.onTx_failed hfailed _ _), ⟨rfl, rfl, rfl, rfl, rfl⟩, rfl⟩
  · have hpt : (transactionPoint s.point && ownPoint (.frameCapture T) s.point) = true := by
      simp only [List.mem_cons, List.not_mem_nil, or_false] at hp
      rcases hp with h | h | h | h <;> rw [h] <;> rfl
    obtain ⟨k, hk⟩ := execFrameCapture_onTx hpt
    exact ⟨_, hk.trans (State.onTx_failed hfailed _ _), ⟨rfl, rfl, rfl, rfl, rfl⟩, rfl⟩

/-! ### The host's accesses -/

/-- Settles O15: a command word is the one write that does something, and STATUS.BUSY says which of the two. -/
theorem commandWordsAreAcceptedOrDropped : Obligations.CommandWordsAreAcceptedOrDropped := by
  intro s w rest hp hi
  refine ⟨fun hb => ?_, fun hb => ?_⟩
  all_goals
    rw [step_write hp hi, hostWrite, if_pos ⟨rfl, rfl⟩, State.setInputs_status, hb]
    rfl

theorem bitOfFlag_toNat (b : Bool) : (bitOfFlag b).toNat = b.toNat := by cases b <;> rfl

theorem ErrCode.number_lt (x : ErrCode) : x.number < 2 ^ 3 := by cases x <;> decide
theorem Lifecycle.number_lt (x : Lifecycle) : x.number < 2 ^ 2 := by cases x <;> decide
theorem BuPhase.number_lt (x : BuPhase) : x.number < 2 ^ 4 := by cases x <;> decide
theorem FcState.number_lt (x : FcState) : x.number < 2 ^ 3 := by cases x <;> decide

theorem Status.word_toNat (x : Status) :
    x.word.toNat = x.busy.toNat + 2 * x.done.toNat + 4 * x.err.toNat + 8 * x.overrun.toNat := by
  simp only [Status.word, append_toNat, bitOfFlag_toNat, BitVec.toNat_ofNat]
  omega

theorem ErrCode.word_toNat (x : ErrCode) : x.word.toNat = x.number := by
  rw [ErrCode.word, BitVec.toNat_ofNat]
  exact Nat.mod_eq_of_lt (x.number_lt.trans (by decide))

theorem DevState.word_toNat (swCs : Bool) (x : DevState) :
    (x.word swCs).toNat
      = x.state.number + 4 * x.variant.bit.toNat + 8 * swCs.toNat + 0x100 * x.productId.toNat
        + 0x10000 * x.revisionId.toNat + 0x1000000 * x.idValid.toNat := by
  have hstate := x.state.number_lt
  simp only [DevState.word, append_toNat, bitOfFlag_toNat, BitVec.toNat_ofNat]
  omega

theorem respLenWord_toNat {n : Nat} (h : n ≤ 256) : (respLenWord n).toNat = n := by
  simp only [respLenWord, append_toNat, BitVec.toNat_ofNat]
  omega

theorem Sample.word0_toNat (x : Sample) :
    x.word0.toNat
      = x.dataReady.toNat + 2 * x.obstruction.toNat + 4 * x.valid.toNat + 8 * x.present.toNat + 0x100 * x.quality.toNat
        + 0x10000 * x.shutterUpper.toNat + 0x1000000 * x.shutterLower.toNat := by
  simp only [Sample.word0, append_toNat, bitOfFlag_toNat, BitVec.toNat_ofNat]
  omega

theorem Sample.word1_toNat (x : Sample) :
    x.word1.toNat
      = x.rawSum.toNat + 0x100 * x.rawMax.toNat + 0x10000 * x.rawMin.toNat + 0x1000000 * x.statusByte.toNat := by
  simp only [Sample.word1, append_toNat]
  omega

theorem Sample.word2_toNat (x : Sample) : x.word2.toNat = x.deltaX.toNat + 0x10000 * x.deltaY.toNat := by
  simp only [Sample.word2, append_toNat]
  omega

theorem CalStatus.word_toNat (x : CalStatus) :
    x.word.toNat
      = x.phase.number + 0x10 * x.aBit7.toNat + 0x20 * x.bTaken.toNat + 0x40 * x.aDone.toNat + 0x80 * x.bDone.toNat
        + 0x100 * x.diagByte.toNat + 0x10000 * x.bstatByte.toNat + 0x1000000 * x.failPhase.number := by
  have hphase := x.phase.number_lt
  have hfail := x.failPhase.number_lt
  simp only [CalStatus.word, append_toNat, bitOfFlag_toNat, BitVec.toNat_ofNat]
  omega

theorem CalValues.word_toNat (x : CalValues) :
    x.word.toNat = x.c1Raw.toNat + 0x100 * x.c2Raw.toNat + 0x10000 * x.c1Adj.toNat + 0x1000000 * x.c2Adj.toNat := by
  simp only [CalValues.word, append_toNat]
  omega

theorem FcStatus.word_toNat {x : FcStatus} (h : x.pixelCount ≤ 1225) :
    x.word.toNat
      = x.state.number + 8 * x.haveUpper.toNat + 0x10 * x.orderErr.toNat + 0x20 * x.initTimeout.toNat
        + 0x100 * x.lastGrabStatus.toNat + 0x10000 * x.pixelCount := by
  have hstate := x.state.number_lt
  simp only [FcStatus.word, append_toNat, bitOfFlag_toNat, BitVec.toNat_ofNat]
  omega

theorem Orient.word_toNat (x : Orient) : x.word.toNat = x.byte.toNat + 0x100 * x.written.toNat := by
  simp only [Orient.word, append_toNat, bitOfFlag_toNat, BitVec.toNat_ofNat]
  omega

/-- A register's word is what a 4-byte read at its offset returns. -/
theorem hostRead_reg {s : State} {addr : BitVec 12} {w : Word} (ha : addr.toNat % 4 = 0)
    (h : regWord s addr.toNat = some w) : hostRead addr 4 s = w := by
  simp only [hostRead, ha, and_self, if_true, h]

/-- Settles O18: the word of each register, then its fields by their places. -/
theorem hostReadsRegisterWords : Obligations.HostReadsRegisterWords := by
  refine ⟨by decide, fun s addr rest hp hi hlen hcount => ⟨_, step_read hp hi, rfl, ?_⟩⟩
  refine ⟨?_, ?_, ?_, ?_, ?_, ?_, ?_, ?_, ?_, ?_, ?_, ?_, ?_, ?_⟩
  all_goals
    rintro rfl
    rw [hostRead_reg rfl rfl]
  case refine_2 => exact s.status.word_toNat
  case refine_3 => exact s.errCode.word_toNat
  case refine_5 => exact s.dev.word_toNat s.cfg.swCs
  case refine_7 => exact respLenWord_toNat hlen
  case refine_8 => exact s.sample.word0_toNat
  case refine_9 => exact s.sample.word1_toNat
  case refine_10 => exact s.sample.word2_toNat
  case refine_11 => exact s.cal.word_toNat
  case refine_12 => exact s.calVals.word_toNat
  case refine_13 => exact FcStatus.word_toNat hcount
  case refine_14 => exact s.orient.word_toNat
  all_goals rfl

/-! ### Power-on and reset -/

theorem stepWordLegal_iff (w : BitVec 16) :
    stepWordLegal w = true ↔ (w.extractLsb' 8 8).toNat ≤ 0x7F ∨ w.extractLsb' 8 8 = 0xFF := by
  simp only [stepWordLegal, Bool.or_eq_true, decide_eq_true_eq, beq_iff_eq]
  exact or_congr_right ⟨fun h => BitVec.eq_of_toNat_eq h, fun h => congrArg BitVec.toNat h⟩

theorem rotationMap_wf_iff (r : RotationMap) :
    r.wf = true ↔ [r.deg0, r.deg90, r.deg180, r.deg270].Nodup
      ∧ ∀ b ∈ [r.deg0, r.deg90, r.deg180, r.deg270], b.extractLsb' 0 5 = 0 := by
  simp only [RotationMap.wf, RotationMap.injective, RotationMap.lowBitsZero, Bool.and_eq_true, List.all_eq_true, beq_iff_eq,
    bne_iff_ne]
  refine and_congr_left fun _ => ?_
  simp
  tauto

/-- R11: the conditions on an admitted configuration. -/
theorem config_wf_iff (cfg : Config) :
    cfg.wf = true ↔ cfg.seqRom.length = 11
      ∧ (∀ seg ∈ cfg.seqRom, ∀ w ∈ seg, (w.extractLsb' 8 8).toNat ≤ 0x7F ∨ w.extractLsb' 8 8 = 0xFF)
      ∧ [cfg.rotation.deg0, cfg.rotation.deg90, cfg.rotation.deg180, cfg.rotation.deg270].Nodup
      ∧ ∀ b ∈ [cfg.rotation.deg0, cfg.rotation.deg90, cfg.rotation.deg180, cfg.rotation.deg270],
          b.extractLsb' 0 5 = 0 := by
  simp only [Config.wf, seqRomWf, Bool.and_eq_true, beq_iff_eq, List.all_eq_true, stepWordLegal_iff, rotationMap_wf_iff,
    and_assoc]

/-- Settles O20: power-on tests the configuration's own conditions. -/
theorem illFormedConfigurationsAreRefused : Obligations.IllFormedConfigurationsAreRefused := by
  intro cfg
  rw [← config_wf_iff]
  exact ⟨fun h => if_pos h, fun h => if_neg h⟩

/-- R133: at the end of reset the one step is the native-select disable. -/
theorem step_boot {s : State} (hp : s.point = .boot) :
    step s = .next { s with
      point := .idle, env := s.env.nativeAnswer.2, trace := s.trace ++ [.nativeCsDisable s.env.nativeAnswer.1] } := by
  unfold step
  rw [hp]
  rfl

theorem blank_words (cfg : Config) :
    (State.blank cfg).sample.word0 = 0 ∧ (State.blank cfg).sample.word1 = 0 ∧ (State.blank cfg).sample.word2 = 0
      ∧ (State.blank cfg).cal.word = 0 ∧ (State.blank cfg).calVals.word = 0 ∧ (State.blank cfg).fc.word = 0
      ∧ (State.blank cfg).orient.word = 0 := by
  simp only [State.blank]
  decide

/-- Settles O21: the blank registers, and after them the disable where there is a software select. -/
theorem resetRestoresEveryRegister : Obligations.ResetRestoresEveryRegister := by
  intro s rest hp hi
  obtain ⟨hw0, hw1, hw2, hcal, hvals, hfc, horient⟩ := blank_words s.cfg
  refine ⟨_, step_reset hp hi, rfl, rfl, rfl, rfl, rfl, rfl, hw0, hw1, hw2, hcal, hvals, hfc, rfl, horient, fun _ _ => rfl,
    fun _ _ => rfl, rfl, rfl, rfl, rfl, rfl, rfl, rfl, rfl, rfl, rfl, rfl, rfl, rfl, rfl, fun hsw => ?_, fun hsw => ?_⟩
  · simp [State.afterReset, hsw]
  · have hboot : ((s.setInputs rest).afterReset).point = .boot := by simp [State.afterReset, hsw]
    exact ⟨hboot, step_boot hboot⟩

/-! ### What a step runs -/

/-- On the controller's turn the step is the controller's. -/
theorem step_control {s s' : State} (hp : s.point ≠ .boot) (hc : ControllerTurn s s') : step s = Machine.control s' := by
  unfold step
  split
  · contradiction
  · rcases hc with ⟨hi, rfl⟩ | ⟨rest, hi, rfl⟩ <;> simp only [hi]
    rfl

/-- Settles O22: the controller's step by its point, the transaction under way and CUR_CMD, none of which the input taken
touches. -/
theorem stepRunsTheDecodedInstruction : Obligations.StepRunsTheDecodedInstruction := by
  intro s s' hp hc
  rw [step_control hp hc]
  obtain ⟨l, rfl⟩ := controllerTurn_eq_setInputs hc
  rcases control_eq (s.setInputs l) with ⟨h, -⟩ | ⟨h, hstep⟩ | ⟨hrun, hstep⟩
  · exact absurd h hp
  · exact ⟨fun _ => hstep, fun hne => absurd h hne, fun hne => absurd h hne⟩
  · rw [hstep]
    refine ⟨fun h => ?_, fun _ hb => if_pos hb, fun _ hb i hd => ?_⟩
    · have h' : (s.setInputs l).point = .idle := h
      rw [h'] at hrun
      cases hrun
    · have hb' : (s.setInputs l).busBusy = false := hb
      have hd' : decodeCommand (s.setInputs l).curCmd = .ok i := hd
      rw [hb', hd']
      rfl

end Sys2Proof.Machine
end

section
/-! PROOFS. The transport commands, step by step (R150-R153), and the sequence player (R160-R165). -/

namespace Sys2Proof.Machine

open Sys2Proof.Safety

/-! ### A transaction begun, a response cleared, a command's end -/

/-- A transaction begun after registers that leave trace, environment and configuration alone. -/
theorem begun_transact {s u : State} (h : Kept s u) (f : Frame) (k : Point) : Begun f s (u.transact f k) := by
  have hb := (u.transact_spec f k).1
  unfold Begun firstEvent at hb ⊢
  rw [h.trace, h.env, h.cfg] at hb
  exact hb

theorem State.transact_frame (f : Frame) (k : Point) (s : State) :
    s.transact f k = { s with
      point := k, tx := (s.transact f k).tx, env := (s.transact f k).env, trace := (s.transact f k).trace } :=
  (s.transact_spec f k).2

theorem clearResp_kept (s : State) : Kept s s.clearResp := ⟨rfl, rfl, rfl, rfl, rfl, rfl, rfl, rfl, rfl⟩

theorem respCleared_of_mem {s t : State} (hlen : t.respLen = 0) (hmem : t.mem = s.clearResp.mem) : RespCleared s t := by
  refine ⟨hlen, fun i hi => ?_, fun x hx => ?_⟩
  · rw [State.respByte_of_mem hmem, State.respByte_clearResp hi]
  · rw [hmem, State.clearResp_mem, Memory.read_clear, if_neg hx]

/-- R38: RESP_BUF and RESP_LEN are cleared, and the command's transaction begins. -/
theorem clearResp_transact_spec (f : Frame) (k : Point) (s : State) :
    Begun f s (s.clearResp.transact f k) ∧ RespCleared s (s.clearResp.transact f k)
      ∧ s.clearResp.transact f k = { s with
          point := k, respLen := 0, mem := (s.clearResp.transact f k).mem, tx := (s.clearResp.transact f k).tx,
          env := (s.clearResp.transact f k).env, trace := (s.clearResp.transact f k).trace } := by
  refine ⟨begun_transact (clearResp_kept s) f k, respCleared_of_mem (by simp) (by simp), ?_⟩
  conv_lhs => rw [State.transact_frame]
  rw [State.transact_mem]
  rfl

theorem endedWell_succeed {s u : State} (h : Kept s u) : EndedWell s u.succeed := by
  refine ⟨?_, ?_, ?_, rfl, ?_⟩
  · rw [State.succeed_status, h.status]; rfl
  · rw [State.succeed_errCode, h.errCode]
  · rw [State.succeed_errInfo, h.errInfo]
  · rw [State.succeed_trace, h.trace]

/-- Two lists of bytes agree outside the one that a read's store writes. -/
theorem memSameOutside_putResp {i : Nat} (v : Byte) {s t : State} (h : t.mem = (s.putResp i v).mem) :
    MemSameOutside (0x100 + i) 1 s t := by
  intro x hx
  rw [h, State.read_putResp, if_neg fun hx' => hx (by simp only [respBase] at hx'; omega)]

/-! ### WRITE_REG and READ_REG (R150, R151) -/

theorem exec_writeReg_start {s : State} (hp : s.point = .start) (hd : s.dev.state ≠ .failed) (a : Addr7) (v : Byte) :
    exec (.writeReg a v) s = .next (s.clearResp.transact (.write a v) .regDone) := by
  simp only [exec, execWriteReg, hp]
  exact State.gate_pass (i := .writeReg a v) (s := s) (bne_iff_ne.2 hd) rfl _

theorem exec_writeReg_done {s : State} {rx : List Byte} (hp : s.point = .regDone) (ha : Answered rx s) (a : Addr7)
    (v : Byte) : exec (.writeReg a v) s = .next s.taken.succeed := by
  simp only [exec, execWriteReg, hp, State.onTx_ok ha]

/-- Settles O35: the two steps of the command. -/
theorem writeRegWritesOneRegister : Obligations.WriteRegWritesOneRegister :=
  ⟨fun a v s hp hd => ⟨_, exec_writeReg_start hp hd a v, clearResp_transact_spec _ _ s⟩,
    fun a v s _ hp ha => ⟨_, exec_writeReg_done hp ha a v, endedWell_succeed (taken_kept s), rfl⟩⟩

/-- The registers after READ_REG's byte. -/
def State.readDone (b : Byte) (s : State) : State := ((s.taken.setResult (b.setWidth 32)).putResp 0 b).setRespLen 1

theorem State.readDone_frame (b : Byte) (s : State) :
    s.readDone b = { s with
      result := b.setWidth 32, respLen := 1, mem := (s.readDone b).mem, tx := Taken s, csLevel := TakenLevel s } := by
  unfold State.readDone
  rw [State.putResp_frame]
  rfl

theorem readDone_kept (b : Byte) (s : State) : Kept s (s.readDone b) := by
  rw [State.readDone_frame]
  exact ⟨rfl, rfl, rfl, rfl, rfl, rfl, rfl, rfl, rfl⟩

theorem exec_readReg_start {s : State} (hp : s.point = .start) (hd : s.dev.state ≠ .failed) (a : Addr7) :
    exec (.readReg a) s = .next (s.clearResp.transact (.read a) .regDone) := by
  simp only [exec, execReadReg, hp]
  exact State.gate_pass (i := .readReg a) (s := s) (bne_iff_ne.2 hd) rfl _

theorem exec_readReg_done {s : State} {x b : Byte} (hp : s.point = .regDone) (ha : Answered [x, b] s) (a : Addr7) :
    exec (.readReg a) s = .next (s.readDone b).succeed := by
  simp only [exec, execReadReg, hp, State.onTx_ok ha]
  rfl

/-- Settles O36: the two steps of the command; of the answer only the second byte counts. -/
theorem readRegReadsOneRegister : Obligations.ReadRegReadsOneRegister := by
  refine ⟨fun a s hp hd => ⟨_, exec_readReg_start hp hd a, clearResp_transact_spec _ _ s⟩,
    fun a s x b hp ha => ⟨_, exec_readReg_done hp ha a, endedWell_succeed (readDone_kept b s), ?_, ?_, ?_⟩⟩
  · exact (State.respByte_putResp (by decide) b 0 (s.taken.setResult _)).trans (if_pos rfl)
  · exact memSameOutside_putResp (i := 0) b (s := s.taken.setResult (b.setWidth 32)) rfl
  · rw [State.readDone_frame]
    rfl

/-! ### READ_REGS (R152) -/

/-- The registers after a read of a ReadRegisters that stores its byte. -/
def State.stored (b : Byte) (s : State) : State := (s.taken.storeRead b).setRrOut (s.rrOut ++ [b])

theorem State.stored_frame (b : Byte) (s : State) :
    s.stored b = { s with
      respLen := s.rrIndex.toNat + 1, mem := (s.stored b).mem, rrOut := s.rrOut ++ [b], tx := Taken s,
      csLevel := TakenLevel s } := by
  unfold State.stored
  rw [State.storeRead_frame]
  rfl

theorem stored_kept (b : Byte) (s : State) : Kept s (s.stored b) := by
  rw [State.stored_frame]
  exact ⟨rfl, rfl, rfl, rfl, rfl, rfl, rfl, rfl, rfl⟩

theorem stored_respByte (b : Byte) (s : State) (k : Nat) :
    (s.stored b).respByte k = if k = s.rrIndex.toNat then b else s.respByte k := State.respByte_storeRead b k s.taken

theorem stored_memSame {b : Byte} {s t : State} (h : t.mem = (s.stored b).mem) :
    MemSameOutside (0x100 + s.rrIndex.toNat) 1 s t := memSameOutside_putResp b (s := s.taken) h

theorem ofNat_succ_toNat (x : Byte) : BitVec.ofNat 8 (x.toNat + 1) = x + 1 := by
  apply BitVec.eq_of_toNat_eq
  simp [BitVec.toNat_add]

/-- A read that stores its byte, with further reads to come: the next one begins. -/
theorem storedNext_spec (b : Byte) (base : Addr7) (k : Point) (s : State) {t : State}
    (ht : t = (s.stored b).readAt base (s.rrIndex.toNat + 1) k) :
    Begun (.read (base + BitVec.ofNat 7 (s.rrIndex.toNat + 1))) s t ∧ t.respByte s.rrIndex.toNat = b
      ∧ MemSameOutside (0x100 + s.rrIndex.toNat) 1 s t
      ∧ t = { s with
          point := k, rrIndex := s.rrIndex + 1, rrOut := t.rrOut, respLen := s.rrIndex.toNat + 1, mem := t.mem, tx := t.tx,
          env := t.env, csLevel := TakenLevel s, trace := t.trace } := by
  subst ht
  have hkept : Kept s ((s.stored b).setRrIndex (s.rrIndex + 1)) :=
    (stored_kept b s).trans ⟨rfl, rfl, rfl, rfl, rfl, rfl, rfl, rfl, rfl⟩
  unfold State.readAt
  rw [ofNat_succ_toNat]
  refine ⟨begun_transact hkept _ _, ?_, stored_memSame (b := b) (by simp), ?_⟩
  · rw [State.respByte_of_mem (s := s.stored b) (by simp), stored_respByte, if_pos rfl]
  · conv_lhs => rw [State.transact_frame]
    rw [State.transact_mem, State.transact_rrOut, State.stored_frame]
    rfl

/-- R142: the address of the next read does not wrap. -/
theorem nextRead_addr {a : Addr7} {i n : Nat} (hi : i < n) (hn : a.toNat + n - 1 ≤ 0x7F) :
    (a + BitVec.ofNat 7 i).toNat = a.toNat + i := by
  rw [BitVec.toNat_add, BitVec.toNat_ofNat]
  omega

theorem readRegs_args {a : Addr7} {n : Byte} (h : n.toNat = 0 ∨ a.toNat + n.toNat - 1 ≤ 0x7F) :
    argsValid (.readRegs a n) = true := by
  simpa [argsValid] using h

theorem exec_readRegs_none {s : State} (hp : s.point = .start) (hd : s.dev.state ≠ .failed) (a : Addr7) :
    exec (.readRegs a 0) s = .next s.clearResp.succeed := by
  simp only [exec, execReadRegs, hp]
  exact State.gate_pass (i := .readRegs a 0) (s := s) (bne_iff_ne.2 hd) rfl _

theorem exec_readRegs_start {s : State} {a : Addr7} {n : Byte} (hp : s.point = .start) (hd : s.dev.state ≠ .failed)
    (hn : n.toNat ≠ 0) (ha : a.toNat + n.toNat - 1 ≤ 0x7F) :
    exec (.readRegs a n) s = .next (s.clearResp.readRegsBegin a .regsRead) := by
  simp only [exec, execReadRegs, hp]
  rw [State.gate_pass (i := .readRegs a n) (s := s) (bne_iff_ne.2 hd) (readRegs_args (.inr ha)), if_neg hn]

theorem readRegsNext_stored {s : State} (base : Addr7) (n : Nat) (k : Point) (b : Byte) (done : State → Result) :
    (s.taken.storeRead b).readRegsNext base n k b done
      = if s.rrIndex.toNat + 1 < n then .next ((s.stored b).readAt base (s.rrIndex.toNat + 1) k) else done (s.stored b) := by
  unfold State.readRegsNext
  rw [storeRead_taken_rrIndex, storeRead_taken_rrOut]
  rfl

theorem exec_readRegs_more {s : State} {x b : Byte} {n : Byte} (hp : s.point = .regsRead) (ha : Answered [x, b] s)
    (hn : s.rrIndex.toNat + 1 < n.toNat) (a : Addr7) :
    exec (.readRegs a n) s = .next ((s.stored b).readAt a (s.rrIndex.toNat + 1) .regsRead) := by
  simp only [exec, execReadRegs, hp, State.onTx_ok ha]
  exact (readRegsNext_stored a n.toNat .regsRead b _).trans (if_pos hn)

theorem exec_readRegs_end {s : State} {x b : Byte} {n : Byte} (hp : s.point = .regsRead) (ha : Answered [x, b] s)
    (hn : ¬s.rrIndex.toNat + 1 < n.toNat) (a : Addr7) :
    exec (.readRegs a n) s = .next (s.stored b).succeed := by
  simp only [exec, execReadRegs, hp, State.onTx_ok ha]
  exact (readRegsNext_stored a n.toNat .regsRead b _).trans (if_neg hn)

/-- R142: a ReadRegisters begins. -/
theorem State.readRegsBegin_eq (base : Addr7) (k : Point) (s : State) :
    s.readRegsBegin base k = ((s.setRrOut []).setRrIndex 0).transact (.read base) k := by
  simp [State.readRegsBegin, State.readAt]

theorem clearResp_readRegsBegin_spec (a : Addr7) (k : Point) (s : State) {t : State}
    (ht : t = s.clearResp.readRegsBegin a k) :
    Begun (.read a) s t ∧ RespCleared s t
      ∧ t = { s with
          point := k, rrIndex := 0, rrOut := t.rrOut, respLen := 0, mem := t.mem, tx := t.tx, env := t.env,
          trace := t.trace } := by
  have hkept : Kept s ((s.clearResp.setRrOut []).setRrIndex 0) := ⟨rfl, rfl, rfl, rfl, rfl, rfl, rfl, rfl, rfl⟩
  rw [State.readRegsBegin_eq] at ht
  subst ht
  refine ⟨begun_transact hkept _ _, respCleared_of_mem (by simp) (by simp), ?_⟩
  conv_lhs => rw [State.transact_frame]
  rw [State.transact_mem, State.transact_rrOut]
  rfl

/-- Settles O37: no read, the first, a next one, and the last. -/
theorem readRegsReadsCountRegisters : Obligations.ReadRegsReadsCountRegisters := by
  refine fun a n s => ⟨?none, ?first, ?next, ?last⟩
  case none =>
    rintro hp hd rfl
    exact ⟨_, exec_readRegs_none hp hd a, endedWell_succeed (clearResp_kept s), respCleared_of_mem rfl rfl, rfl⟩
  case first =>
    intro hp hd hn ha
    exact ⟨_, exec_readRegs_start hp hd (Nat.pos_iff_ne_zero.1 hn) ha, clearResp_readRegsBegin_spec a .regsRead s rfl⟩
  case next =>
    intro x b hp ha hn hlast
    obtain ⟨hbegun, hbyte, hmem, hframe⟩ := storedNext_spec b a .regsRead s rfl
    exact ⟨_, exec_readRegs_more hp ha hn a, ⟨_, nextRead_addr hn hlast, hbegun⟩, hbyte, hmem, hp ▸ hframe⟩
  case last =>
    intro x b hp ha hn
    refine ⟨_, exec_readRegs_end hp ha (Nat.not_lt.2 hn) a, endedWell_succeed (stored_kept b s), ?_, stored_memSame rfl, ?_⟩
    · exact (stored_respByte b s _).trans (if_pos rfl)
    · rw [State.stored_frame]
      rfl

/-! ### BURST_XFER (R153) -/

/-- A whole response of n bytes is stored, and nothing else. -/
theorem fillResp_bytes {n : Nat} (hn : n ≤ 256) {rx : List Byte} (hrx : rx.length = n) {s t : State}
    (ht : t.mem = (s.fillResp n rx).mem) :
    (∀ i, i < n → t.respByte i = rx.getD i 0) ∧ MemSameOutside 0x100 n s t := by
  refine ⟨fun i hi => ?_, fun x hx => ?_⟩
  · rw [State.respByte_of_mem ht, State.respByte_fillResp hn, if_pos hi, fitLength_of_length hrx]
  · rw [ht, State.read_fillResp s n x rx hn, if_neg hx]

theorem fillResp_taken_kept (n : Nat) (rx : List Byte) (s : State) : Kept s (s.taken.fillResp n rx) := by
  rw [State.fillResp_frame]
  exact ⟨rfl, rfl, rfl, rfl, rfl, rfl, rfl, rfl, rfl⟩

theorem exec_burstXfer_start {s : State} (hp : s.point = .start) (hd : s.dev.state ≠ .failed) (c l : Byte) :
    exec (.burstXfer c l) s = .next (s.clearResp.transact (Frame.ofBurst c l) .regDone) := by
  simp only [exec, execBurstXfer, hp]
  exact State.gate_pass (i := .burstXfer c l) (s := s) (bne_iff_ne.2 hd) rfl _

theorem exec_burstXfer_done {s : State} {rx : List Byte} (hp : s.point = .regDone) (ha : Answered rx s) (c l : Byte) :
    exec (.burstXfer c l) s = .next (s.taken.fillResp (l.toNat + 1) rx).succeed := by
  simp only [exec, execBurstXfer, hp, State.onTx_ok ha]

/-- Settles O38: the frame of the burst, and the response as it stands. -/
theorem burstXferReturnsTheResponse : Obligations.BurstXferReturnsTheResponse := by
  refine ⟨fun c l s hp hd => ⟨_, Frame.ofBurst c l, exec_burstXfer_start hp hd c l, Frame.ofBurst_bytes c l,
    clearResp_transact_spec _ _ s⟩, fun c l s rx hp ha hrx => ?_⟩
  have hl : l.toNat + 1 ≤ 256 := l.isLt
  obtain ⟨hbytes, hmem⟩ := fillResp_bytes hl hrx (s := s.taken) (t := (s.taken.fillResp (l.toNat + 1) rx).succeed) rfl
  refine ⟨_, exec_burstXfer_done hp ha c l, endedWell_succeed (fillResp_taken_kept _ rx s),
    fun i hi => hbytes i (Nat.lt_succ_of_le hi), hmem, ?_⟩
  rw [State.fillResp_frame]
  rfl

/-! ### The sequence player (R160-R165) -/

/-- Settles O39: the write step is one transaction, the WAIT one sleep. -/
theorem stepWordsDoOneThing : Obligations.StepWordsDoOneThing := by
  refine ⟨fun f g s => ⟨_, rfl, s.transact_spec _ _⟩, fun g s => ?_⟩
  obtain ⟨hle, hbound, hend, -⟩ := s.env.sleep_spec g.toNat
  exact ⟨_, _, _, rfl, rfl, hle, hbound, hend, rfl⟩

theorem playSeq_args {seg : BitVec 4} (h : seg.toNat ≤ 10) : argsValid (.playSeq seg) = true := decide_eq_true h

theorem exec_playSeq_start {s : State} {seg : BitVec 4} (hp : s.point = .start) (hd : s.dev.state ≠ .failed)
    (h : seg.toNat ≤ 10) : exec (.playSeq seg) s = (s.setSeq seg 0).playNext (fun s => .next s.succeed) := by
  simp only [exec, execPlaySeq, hp]
  exact State.gate_pass (i := .playSeq seg) (s := s) (bne_iff_ne.2 hd) (playSeq_args h) _

theorem exec_playSeq_resume {s : State} (hp : s.point = .stepWaited ∨ s.point = .stepWritten) (seg : BitVec 4) :
    exec (.playSeq seg) s = s.playResume State.raiseTransport (fun s => .next s.succeed) := by
  rcases hp with hp | hp <;> simp only [exec, execPlaySeq, hp]

/-- Settles O40: the player's step from each of the three states, and the success end at the segment's end. -/
theorem playSeqRunsItsSegment : Obligations.PlaySeqRunsItsSegment := by
  intro seg s u hc hu
  have hdone : ∀ u : State, u.stepWord = none → ∃ t, (Host.Outcome.next u.succeed : Result) = .next t
      ∧ (EndedWell u t ∧ t = { u with status := t.status, point := .idle, trace := t.trace }) :=
    fun u _ => ⟨_, rfl, endedWell_succeed (Kept.refl u), rfl⟩
  rcases hu with ⟨hp, hd, hseg, rfl⟩ | hu
  · rw [exec_playSeq_start hp hd hseg]
    exact State.playNext_plays (s := s.setSeq seg 0) hc (hdone _)
  · rw [exec_playSeq_resume (hu.imp And.left And.left)]
    exact State.playResume_plays hc hu _ (hdone _)

end Sys2Proof.Machine
end

section
/-! PROOFS. BRING_UP, step by step (R181-R190). -/

namespace Sys2Proof.Machine

open Sys2Proof.Safety

/-! ### Reset and flush (R182, R183) -/

theorem exec_bringUp_start {s : State} (hp : s.point = .start) (hd : s.dev.state = .uninit) (v : Variant) :
    exec (.bringUp v) s = .next ((bringUpRegs v s).transact (.write 0x3A 0x5A) .resetWritten) := by
  simp only [exec, execBringUp, hp]
  exact State.gate_pass (i := .bringUp v) (beq_iff_eq.2 hd) rfl _

theorem exec_bringUp_resetWritten {s : State} {rx : List Byte} (hp : s.point = .resetWritten) (ha : Answered rx s)
    (v : Variant) :
    exec (.bringUp v) s = .next (((s.taken.setPhase .resetWait).sleepEvent 20).setPoint .resetWaited) := by
  simp only [exec, execBringUp, hp, State.onTx_ok ha]

theorem exec_bringUp_resetWaited {s : State} (hp : s.point = .resetWaited) (v : Variant) :
    exec (.bringUp v) s = .next ((((s.setPhase .flush).setRrOut []).setRrIndex 0).transact (.read 0x02) .flushRead) := by
  simp only [exec, execBringUp, hp, State.readRegsBegin_eq]

/-- The registers after a read of a ReadRegisters whose bytes go to no register. -/
def State.collected (b : Byte) (s : State) : State := s.taken.setRrOut (s.rrOut ++ [b])

theorem exec_bringUp_flushMore {s : State} {rx : List Byte} (hp : s.point = .flushRead) (ha : Answered rx s)
    (hn : s.rrIndex.toNat + 1 < 5) (v : Variant) :
    exec (.bringUp v) s = .next ((s.collected (readResult rx)).readAt 0x02 (s.rrIndex.toNat + 1) .flushRead) := by
  simp only [exec, execBringUp, hp, State.onTx_ok ha]
  exact if_pos hn

theorem exec_bringUp_flushEnd {s : State} {rx : List Byte} (hp : s.point = .flushRead) (ha : Answered rx s)
    (hn : ¬s.rrIndex.toNat + 1 < 5) (v : Variant) :
    exec (.bringUp v) s = prologuePart v (s.collected (readResult rx)) := by
  simp only [exec, execBringUp, hp, State.onTx_ok ha]
  exact if_neg hn

/-- A read whose byte goes to no register, with further reads to come: the next one begins. -/
theorem collectedNext_spec (b : Byte) (base : Addr7) (k : Point) (s : State) {t : State}
    (ht : t = (s.collected b).readAt base (s.rrIndex.toNat + 1) k) :
    Begun (.read (base + BitVec.ofNat 7 (s.rrIndex.toNat + 1))) s t ∧ t.rrOut = s.rrOut ++ [b]
      ∧ t = { s with
          point := k, rrIndex := s.rrIndex + 1, rrOut := t.rrOut, tx := t.tx, env := t.env, csLevel := TakenLevel s,
          trace := t.trace } := by
  subst ht
  have hkept : Kept s ((s.collected b).setRrIndex (s.rrIndex + 1)) := ⟨rfl, rfl, rfl, rfl, rfl, rfl, rfl, rfl, rfl⟩
  unfold State.readAt
  rw [ofNat_succ_toNat]
  refine ⟨begun_transact hkept _ _, by simp [State.collected], ?_⟩
  conv_lhs => rw [State.transact_frame]
  rw [State.transact_rrOut]
  rfl

/-- Settles O41: the four steps before the prologue, and its entry. -/
theorem bringUpResetsAndFlushes : Obligations.BringUpResetsAndFlushes := by
  refine fun v s => ⟨?start, ?written, ?waited, ?more, ?last⟩
  case start =>
    exact fun hp hd => ⟨_, exec_bringUp_start hp hd v, (bringUpRegs v s).transact_spec _ _⟩
  case written =>
    rintro hp ⟨rx, ha⟩
    exact ⟨_, _, _, exec_bringUp_resetWritten hp ha v, rfl, (s.env.sleep_spec 20).2.1, rfl⟩
  case waited =>
    refine fun hp => ⟨_, exec_bringUp_resetWaited hp v, ?_⟩
    obtain ⟨hb, hf⟩ := (((s.setPhase .flush).setRrOut []).setRrIndex 0).transact_spec (.read 0x02) .flushRead
    refine ⟨hb, hf.trans ?_⟩
    rw [State.transact_rrOut]
    rfl
  case more =>
    rintro hp ⟨rx, ha⟩ hn
    obtain ⟨hb, -, hf⟩ := collectedNext_spec (readResult rx) 0x02 .flushRead s rfl
    exact ⟨_, exec_bringUp_flushMore hp ha (by omega) v, ⟨_, nextRead_addr (n := 5) (by omega) (by decide), hb⟩, hp ▸ hf⟩
  case last =>
    rintro hp ⟨rx, ha⟩ hn hc
    obtain ⟨t, ht, henter⟩ := prologuePart_enters (s := s.collected (readResult rx)) hc v
    exact ⟨t, _, (exec_bringUp_flushEnd hp ha (by omega) v).trans ht, henter⟩

/-! ### The segments and the branches (R186-R188) -/

theorem exec_bringUp_resume {s : State} (hp : s.point = .stepWaited ∨ s.point = .stepWritten) (v : Variant) :
    exec (.bringUp v) s = s.playResume bringUpFail (afterSegment v) := by
  rcases hp with hp | hp <;> simp only [exec, execBringUp, hp]

/-- Settles O42: the player's step, and what follows the segment of the phase. -/
theorem bringUpPlaysItsSegments : Obligations.BringUpPlaysItsSegments := by
  intro v s u hc hphase hu
  have hu' : u.cfg = s.cfg ∧ u.cal = s.cal := by rcases hu with ⟨-, rfl⟩ | ⟨-, -, rfl⟩ <;> exact ⟨rfl, rfl⟩
  obtain ⟨hcfg, hcal⟩ := hu'
  have hseg : segmentPhase u.cal.phase = true := by
    rw [hcal]
    exact List.contains_iff_mem.2 hphase
  rw [exec_bringUp_resume (hu.imp And.left And.left)]
  refine State.playResume_plays hc hu _ fun _ => ?_
  rw [← hcal]
  exact afterSegment_begins (by rw [hcfg]; exact hc) hseg v

theorem exec_bringUp_diagRead {s : State} {x d : Byte} (hp : s.point = .diagRead) (ha : Answered [x, d] s) (v : Variant) :
    exec (.bringUp v) s
      = .next ((s.taken.setCal { s.cal with diagByte := d, aBit7 := d.getLsbD 7, aDone := true }).transact
          (.write (s.cfg.regs v).cfg (if d.getLsbD 7 then 0x04 else 0x02)) .cfgWritten) := by
  simp only [exec, execBringUp, hp, State.onTx_ok ha]
  rfl

theorem exec_bringUp_cfgWritten {s : State} {rx : List Byte} (hp : s.point = .cfgWritten) (ha : Answered rx s)
    (v : Variant) : exec (.bringUp v) s = midPart v s.taken := by
  simp only [exec, execBringUp, hp, State.onTx_ok ha]

/-- Settles O43: the byte's bit 7 selects the value of the one write. -/
theorem branchAWritesByBitSeven : Obligations.BranchAWritesByBitSeven := by
  refine fun v s => ⟨fun x d hp ha => ?_, fun hp ⟨rx, ha⟩ hc => ?_⟩
  · obtain ⟨hb, hf⟩ := (s.taken.setCal { s.cal with diagByte := d, aBit7 := d.getLsbD 7, aDone := true }).transact_spec
      (.write (s.cfg.regs v).cfg (if d.getLsbD 7 then 0x04 else 0x02)) .cfgWritten
    refine ⟨_, exec_bringUp_diagRead hp ha v, fun hbit => ?_, fun hbit => ?_, hf⟩
    all_goals
      rw [hbit] at hb ⊢
      exact hb
  · rw [exec_bringUp_cfgWritten hp ha v]
    exact midPart_enters (s := s.taken) hc v

theorem exec_bringUp_statTaken {s : State} {x : Byte} (hp : s.point = .statRead) (ha : Answered [x, 0] s) (v : Variant) :
    exec (.bringUp v) s
      = .next ((s.taken.setCal { s.cal with bstatByte := 0, bDone := true, bTaken := true }).transact
          (.read (s.cfg.regs v).c1) .c1Read) := by
  simp only [exec, execBringUp, hp, State.onTx_ok ha]
  rfl

theorem exec_bringUp_statNotTaken {s : State} {x b : Byte} (hp : s.point = .statRead) (ha : Answered [x, b] s)
    (hb : b ≠ 0) (v : Variant) :
    exec (.bringUp v) s = tailPart v (s.taken.setCal { s.cal with bstatByte := b, bDone := true, bTaken := false }) := by
  simp only [exec, execBringUp, hp, State.onTx_ok ha]
  have hread : readResult [x, b] = b := rfl
  rw [statVerdict, hread, if_neg hb, beq_false_of_ne hb]
  rfl

theorem exec_bringUp_c1Read {s : State} {x c1 : Byte} (hp : s.point = .c1Read) (ha : Answered [x, c1] s) (v : Variant) :
    exec (.bringUp v) s
      = .next ((s.taken.setCalVals { s.calVals with c1Raw := c1 }).transact (.read (s.cfg.regs v).c2) .c2Read) := by
  simp only [exec, execBringUp, hp, State.onTx_ok ha]
  rfl

theorem exec_bringUp_c2Read {s : State} {x c2 : Byte} (hp : s.point = .c2Read) (ha : Answered [x, c2] s) (v : Variant) :
    exec (.bringUp v) s = subPart v (adjustRegs c2 s.taken) := by
  simp only [exec, execBringUp, hp, State.onTx_ok ha]
  rfl

theorem exec_bringUp_c1Written {s : State} {rx : List Byte} (hp : s.point = .c1Written) (ha : Answered rx s)
    (v : Variant) :
    exec (.bringUp v) s = .next (s.taken.transact (.write (s.cfg.regs v).c2Dst s.calVals.c2Adj) .c2Written) := by
  simp only [exec, execBringUp, hp, State.onTx_ok ha]
  rfl

theorem exec_bringUp_c2Written {s : State} {rx : List Byte} (hp : s.point = .c2Written) (ha : Answered rx s)
    (v : Variant) : exec (.bringUp v) s = tailPart v s.taken := by
  simp only [exec, execBringUp, hp, State.onTx_ok ha]

theorem adjC1_byte (mode : C1Mode) (c : Byte) : (BitVec.ofNat 8 (adjC1 mode c.toNat)).toNat = adjC1 mode c.toNat := by
  rw [BitVec.toNat_ofNat]
  exact Nat.mod_eq_of_lt (Nat.lt_of_le_of_lt (Nat.min_le_right _ _) (by decide))

theorem adjC2_byte (c : Byte) : (BitVec.ofNat 8 (adjC2 c.toNat)).toNat = c.toNat * 45 / 100 := by
  have hc := c.isLt
  have hadj : adjC2 c.toNat = c.toNat * 45 / 100 := rfl
  rw [BitVec.toNat_ofNat, hadj]
  omega

/-- Settles O44: the status byte decides; the adjusted bytes fit, and c1 is written back before c2. -/
theorem branchBAdjustsAndWritesBack : Obligations.BranchBAdjustsAndWritesBack := by
  refine fun v s hc => ⟨?taken, ?notTaken, ?c1Read, ?c2Read, ?c1Written, ?c2Written⟩
  case taken =>
    rintro x b hp ha rfl
    exact ⟨_, exec_bringUp_statTaken hp ha v,
      (s.taken.setCal { s.cal with bstatByte := 0, bDone := true, bTaken := true }).transact_spec _ _⟩
  case notTaken =>
    intro x b hp ha hb
    rw [exec_bringUp_statNotTaken hp ha hb v]
    exact tailPart_enters (s := s.taken.setCal _) hc v
  case c1Read =>
    intro x c1 hp ha
    exact ⟨_, exec_bringUp_c1Read hp ha v, (s.taken.setCalVals { s.calVals with c1Raw := c1 }).transact_spec _ _⟩
  case c2Read =>
    intro x c2 hp ha
    rw [exec_bringUp_c2Read hp ha v]
    obtain ⟨t, ht, henter⟩ := subPart_enters (s := adjustRegs c2 s.taken) hc v
    exact ⟨t, _, _, _, _, ht, adjC1_byte _ _, adjC2_byte c2, henter⟩
  case c1Written =>
    rintro hp ⟨rx, ha⟩
    exact ⟨_, exec_bringUp_c1Written hp ha v, s.taken.transact_spec _ _⟩
  case c2Written =>
    rintro hp ⟨rx, ha⟩
    rw [exec_bringUp_c2Written hp ha v]
    exact tailPart_enters (s := s.taken) hc v

/-! ### The identity check (R189) -/

theorem exec_bringUp_idFirst {s : State} {x p : Byte} (hp : s.point = .idRead) (ha : Answered [x, p] s)
    (hi : s.rrIndex = 0) (v : Variant) :
    exec (.bringUp v) s = .next ((s.collected p).readAt 0x00 (s.rrIndex.toNat + 1) .idRead) := by
  simp only [exec, execBringUp, hp, State.onTx_ok ha]
  exact if_pos (by rw [State.taken_rrIndex, hi]; decide)

theorem exec_bringUp_idSecond {s : State} {x r : Byte} (hp : s.point = .idRead) (ha : Answered [x, r] s)
    (hi : s.rrIndex = 1) (v : Variant) : exec (.bringUp v) s = identityVerdict (s.collected r) := by
  simp only [exec, execBringUp, hp, State.onTx_ok ha]
  exact if_neg (by rw [State.taken_rrIndex, hi]; decide)

theorem identityOk_iff (p r : Byte) : identityOk p r = true ↔ p = 0x49 ∧ (r = 0x00 ∨ r = 0x01) := by
  simp [identityOk, Config.productId]

/-- R189: both identity bytes are recorded. -/
def State.identified (p r : Byte) (s : State) : State :=
  (s.collected r).setDev { s.dev with productId := p, revisionId := r, idValid := true }

theorem identityVerdict_collected {s : State} {p : Byte} (hout : s.rrOut = [p]) (r : Byte) :
    identityVerdict (s.collected r)
      = if identityOk p r then bringUpDone (s.identified p r)
        else .next ((s.identified p r).markFailed.raise .identityMismatch (identityInfo p r)) := by
  have hbytes : (s.collected r).rrOut = [p, r] := by simp [State.collected, hout]
  rw [identityVerdict, hbytes]
  rfl

/-- R189: the registers of a bring-up whose identity matches. -/
def State.matched (p r : Byte) (s : State) : State :=
  ((s.identified p r).setPhase .done).setDev { (s.identified p r).dev with state := .ready }

theorem State.taken_tx_eq (s : State) : s.taken.tx = Taken s := rfl

theorem State.matched_frame (p r : Byte) (s : State) :
    s.matched p r = { s with
      dev := { s.dev with state := .ready, productId := p, revisionId := r, idValid := true }
      cal := { s.cal with phase := .done }
      rrOut := s.rrOut ++ [r]
      tx := Taken s
      csLevel := TakenLevel s } := by
  apply State.ext <;> simp [State.matched, State.identified, State.collected, State.taken_tx_eq, TakenLevel]

/-- R189: the registers of a bring-up whose identity does not match. -/
theorem State.markFailed_identified (p r : Byte) (s : State) :
    (s.identified p r).markFailed = { s with
      dev := { s.dev with state := .failed, productId := p, revisionId := r, idValid := true }
      cal := { s.cal with failPhase := s.cal.phase, phase := .failed }
      rrOut := s.rrOut ++ [r]
      tx := Taken s
      csLevel := TakenLevel s } := by
  apply State.ext <;> simp [State.markFailed, State.identified, State.collected, State.taken_tx_eq, TakenLevel]

theorem identityVerdict_match {s : State} {p r : Byte} (hout : s.rrOut = [p]) (hok : identityOk p r = true) :
    identityVerdict (s.collected r) = .next (s.matched p r).succeed := by
  rw [identityVerdict_collected hout, if_pos hok]
  rfl

theorem identityVerdict_mismatch {s : State} {p r : Byte} (hout : s.rrOut = [p]) (hok : identityOk p r = false) :
    identityVerdict (s.collected r)
      = .next ((s.identified p r).markFailed.raise .identityMismatch (identityInfo p r)) := by
  rw [identityVerdict_collected hout, hok]
  rfl

/-- Settles O45: the second byte's step records both bytes and tests them. -/
theorem identityCheckDecidesTheBringUp : Obligations.IdentityCheckDecidesTheBringUp := by
  refine fun v s => ⟨fun x p hp ha hi => ?_, fun x p r hp ha hi hout => ?_⟩
  · obtain ⟨hb, hout, hf⟩ := collectedNext_spec p 0x00 .idRead s rfl
    have hindex : s.rrIndex.toNat + 1 = 1 := by rw [hi]; rfl
    rw [hindex] at hb hout hf
    rw [hout] at hf
    refine ⟨_, (exec_bringUp_idFirst hp ha hi v).trans (by rw [hindex]), hb, ?_⟩
    rw [hi] at hf
    exact hp ▸ hf
  · rw [exec_bringUp_idSecond hp ha hi v]
    simp only [← identityOk_iff]
    cases hok : identityOk p r with
    | true =>
      have hkept : Kept s (s.matched p r) := by
        rw [State.matched_frame]
        exact ⟨rfl, rfl, rfl, rfl, rfl, rfl, rfl, rfl, rfl⟩
      refine ⟨_, identityVerdict_match hout hok, fun _ => ⟨endedWell_succeed hkept, ?_⟩, fun h => absurd rfl h⟩
      rw [State.matched_frame]
      rfl
    | false =>
      refine ⟨_, identityVerdict_mismatch hout hok, nofun, fun _ => ?_⟩
      rw [State.markFailed_identified]
      exact ⟨⟨rfl, rfl, rfl, rfl, rfl⟩, rfl⟩

end Sys2Proof.Machine
end

section
/-! PROOFS. The motion and orientation commands, step by step (R213, R220, R221, R225, R226). -/

namespace Sys2Proof.Machine

open Sys2Proof.Safety

/-! ### The clock in a loop (R213) -/

/-- A reading of the clock, after which the command goes on at a point. -/
theorem now_spec_of {s u t : State} {k : Point} (henv : u.env = s.env) (htrace : u.trace = s.trace)
    (ht : t = u.nowEvent.setPoint k) :
    Emits (.now s.env.now.1) s t ∧ s.env.clock ≤ s.env.now.1 ∧ t.env.clock = s.env.now.1 := by
  subst ht
  refine ⟨?_, s.env.now_spec.1, ?_⟩
  · simp [Emits, henv, htrace]
  · simp [henv, s.env.now_spec.2]

/-- A sleep, after which the command goes on at a point. -/
theorem sleep_spec_of {s u t : State} {k : Point} {ms : Nat} (henv : u.env = s.env) (htrace : u.trace = s.trace)
    (ht : t = (u.sleepEvent ms).setPoint k) :
    ∃ before after, Emits (.sleep ms before after) s t ∧ before + ms * 1000 ≤ after := by
  subst ht
  refine ⟨(s.env.sleep ms).1, (s.env.sleep ms).2.1, ?_, (s.env.sleep_spec ms).2.1⟩
  simp [Emits, henv, htrace]

theorem not_expired {now t0 T : Nat} (h : now - t0 ≤ T * 1000) : ¬expired now t0 T = true := by
  rw [expired_iff]
  omega

/-! ### BURST_READ (R220) -/

theorem exec_burstRead_start {s : State} (hp : s.point = .start) (hd : s.dev.state = .ready) (T : BitVec 24) :
    exec (.burstRead T) s = .next (((s.setLoopId .burstRead).nowEvent).setPoint .loopT0Read) := by
  simp only [exec, execBurstRead, hp]
  exact State.gate_pass (i := .burstRead T) (beq_iff_eq.2 hd) rfl _

theorem exec_burstRead_t0 {s : State} (hp : s.point = .loopT0Read) (T : BitVec 24) :
    exec (.burstRead T) s = .next (s.takeT0.nowEvent.setPoint .deadlineRead) := by
  simp only [exec, execBurstRead, hp, State.loopClock]

theorem exec_burstRead_clock {s : State} (hp : s.point = .checkDeadline) (T : BitVec 24) :
    exec (.burstRead T) s = .next (s.nowEvent.setPoint .deadlineRead) := by
  simp only [exec, execBurstRead, hp, State.loopClock]

theorem exec_burstRead_late {s : State} {T : BitVec 24} (hp : s.point = .deadlineRead)
    (h : s.env.clock - s.t0 > T.toNat * 1000) : exec (.burstRead T) s = .next (s.raise .timeout 0) := by
  simp only [exec, execBurstRead, hp]
  exact if_pos ((expired_iff ..).2 h)

theorem exec_burstRead_try {s : State} {T : BitVec 24} (hp : s.point = .deadlineRead)
    (h : s.env.clock - s.t0 ≤ T.toNat * 1000) :
    exec (.burstRead T) s = .next (s.clearResp.transact .motionBurst .burstRead) := by
  simp only [exec, execBurstRead, hp]
  exact if_neg (not_expired h)

/-- The registers after an answered burst. -/
def State.sampled (rx : List Byte) (s : State) : State :=
  (s.taken.fillResp 13 rx).setSample (parseBurst s.cfg.burstLayout rx)

theorem State.sampled_frame (rx : List Byte) (s : State) :
    s.sampled rx = { s with
      sample := parseBurst s.cfg.burstLayout rx, respLen := 13, mem := (s.sampled rx).mem, tx := Taken s,
      csLevel := TakenLevel s } := by
  unfold State.sampled
  rw [State.fillResp_frame]
  rfl

theorem sampled_kept (rx : List Byte) (s : State) : Kept s (s.sampled rx) := by
  rw [State.sampled_frame]
  exact ⟨rfl, rfl, rfl, rfl, rfl, rfl, rfl, rfl, rfl⟩

theorem exec_burstRead_valid {s : State} {rx : List Byte} (hp : s.point = .burstRead) (ha : Answered rx s)
    (h : (parseBurst s.cfg.burstLayout rx).valid = true) (T : BitVec 24) :
    exec (.burstRead T) s
      = .next ((s.sampled rx).setResult (deltasWord (parseBurst s.cfg.burstLayout rx).deltaX
          (parseBurst s.cfg.burstLayout rx).deltaY)).succeed := by
  simp only [exec, execBurstRead, hp, State.onTx_ok ha]
  exact if_pos h

theorem exec_burstRead_invalid {s : State} {rx : List Byte} (hp : s.point = .burstRead) (ha : Answered rx s)
    (h : (parseBurst s.cfg.burstLayout rx).valid = false) (T : BitVec 24) :
    exec (.burstRead T) s = .next (((s.sampled rx).sleepEvent s.cfg.retrySleepMs).setPoint .checkDeadline) := by
  simp only [exec, execBurstRead, hp, State.onTx_ok ha]
  refine (if_neg (by rw [show (parseBurst s.taken.cfg.burstLayout rx).valid = false from h]; nofun)).trans ?_
  unfold State.retrySleep
  rw [← (sampled_kept rx s).cfg]
  rfl

/-- Settles O48: the loop's points one by one; an answered burst is stored before its validity decides. -/
theorem burstReadPollsForAValidSample : Obligations.BurstReadPollsForAValidSample := by
  refine fun T s => ⟨?start, ?t0, ?clock, ?late, ?attempt, ?answered⟩
  case start =>
    intro hp hd
    obtain ⟨he, hle, hc⟩ := now_spec_of (s := s) (u := s.setLoopId .burstRead) (k := .loopT0Read) rfl rfl rfl
    exact ⟨_, _, exec_burstRead_start hp hd T, he, hle, hc, rfl⟩
  case t0 =>
    intro hp
    obtain ⟨he, -, hc⟩ := now_spec_of (s := s) (u := s.takeT0) (k := .deadlineRead) rfl rfl rfl
    exact ⟨_, _, exec_burstRead_t0 hp T, he, hc, rfl⟩
  case clock =>
    intro hp
    obtain ⟨he, -, hc⟩ := now_spec_of (s := s) (u := s) (k := .deadlineRead) rfl rfl rfl
    exact ⟨_, _, exec_burstRead_clock hp T, he, hc, rfl⟩
  case late => exact fun hp h => ⟨_, exec_burstRead_late hp h, State.raise_spec ..⟩
  case attempt => exact fun hp h => ⟨_, exec_burstRead_try hp h, clearResp_transact_spec _ _ s⟩
  case answered =>
    intro rx hp ha hrx
    have hstored : ∀ t : State, t.mem = (s.sampled rx).mem →
        (∀ i, i < 13 → t.respByte i = rx.getD i 0) ∧ MemSameOutside 0x100 13 s t :=
      fun t ht => fillResp_bytes (n := 13) (by decide) hrx (s := s.taken) ht
    cases hv : (parseBurst s.cfg.burstLayout rx).valid with
    | true =>
      obtain ⟨hbytes, hmem⟩ := hstored (((s.sampled rx).setResult (deltasWord (parseBurst s.cfg.burstLayout rx).deltaX
          (parseBurst s.cfg.burstLayout rx).deltaY)).succeed) rfl
      refine ⟨_, exec_burstRead_valid hp ha hv T, hbytes, hmem, rfl, rfl, fun _ => ⟨?_, rfl, ?_⟩,
        fun hf => absurd (hv.symm.trans hf) nofun⟩
      · exact endedWell_succeed ((sampled_kept rx s).trans ⟨rfl, rfl, rfl, rfl, rfl, rfl, rfl, rfl, rfl⟩)
      · rw [State.sampled_frame]
        rfl
    | false =>
      obtain ⟨hbytes, hmem⟩ := hstored (((s.sampled rx).sleepEvent s.cfg.retrySleepMs).setPoint .checkDeadline) rfl
      refine ⟨_, exec_burstRead_invalid hp ha hv T, hbytes, hmem, rfl, rfl,
        fun hf => absurd (hv.symm.trans hf) nofun, fun _ => ⟨?_, ?_⟩⟩
      · exact sleep_spec_of (sampled_kept rx s).env (sampled_kept rx s).trace rfl
      · rw [State.sampled_frame]
        rfl

/-! ### SLOW_READ (R221) -/

theorem exec_slowRead_start {s : State} (hp : s.point = .start) (hd : s.dev.state = .ready) (T : BitVec 24) :
    exec (.slowRead T) s = .next (((s.setLoopId .slowRead).nowEvent).setPoint .loopT0Read) := by
  simp only [exec, execSlowRead, hp]
  exact State.gate_pass (i := .slowRead T) (beq_iff_eq.2 hd) rfl _

theorem exec_slowRead_t0 {s : State} (hp : s.point = .loopT0Read) (T : BitVec 24) :
    exec (.slowRead T) s = .next (s.takeT0.nowEvent.setPoint .deadlineRead) := by
  simp only [exec, execSlowRead, hp, State.loopClock]

theorem exec_slowRead_clock {s : State} (hp : s.point = .checkDeadline) (T : BitVec 24) :
    exec (.slowRead T) s = .next (s.nowEvent.setPoint .deadlineRead) := by
  simp only [exec, execSlowRead, hp, State.loopClock]

theorem exec_slowRead_late {s : State} {T : BitVec 24} (hp : s.point = .deadlineRead)
    (h : s.env.clock - s.t0 > T.toNat * 1000) : exec (.slowRead T) s = .next (s.raise .timeout 1) := by
  simp only [exec, execSlowRead, hp]
  exact if_pos ((expired_iff ..).2 h)

theorem exec_slowRead_try {s : State} {T : BitVec 24} (hp : s.point = .deadlineRead)
    (h : s.env.clock - s.t0 ≤ T.toNat * 1000) :
    exec (.slowRead T) s = .next (s.clearResp.readRegsBegin 0x02 .regsRead) := by
  simp only [exec, execSlowRead, hp]
  exact if_neg (not_expired h)

theorem exec_slowRead_more {s : State} {x b : Byte} (hp : s.point = .regsRead) (ha : Answered [x, b] s)
    (hn : s.rrIndex.toNat + 1 < 5) (T : BitVec 24) :
    exec (.slowRead T) s = .next ((s.stored b).readAt 0x02 (s.rrIndex.toNat + 1) .regsRead) := by
  simp only [exec, execSlowRead, hp, State.onTx_ok ha]
  exact (readRegsNext_stored 0x02 5 .regsRead b _).trans (if_pos hn)

theorem exec_slowRead_last {s : State} {x b : Byte} (hp : s.point = .regsRead) (ha : Answered [x, b] s)
    (hn : ¬s.rrIndex.toNat + 1 < 5) (T : BitVec 24) : exec (.slowRead T) s = slowVerdict (s.stored b) := by
  simp only [exec, execSlowRead, hp, State.onTx_ok ha]
  exact (readRegsNext_stored 0x02 5 .regsRead b _).trans (if_neg hn)

/-- R105: the result word is the four delta bytes, the last read leftmost. -/
theorem slowReadWord_eq (s1 s2 s3 s4 : Byte) : slowReadWord s1 s2 s3 s4 = s4 ++ s3 ++ s2 ++ s1 := by
  apply BitVec.eq_of_toNat_eq
  simp only [slowReadWord, deltasWord, deltaOf, append_toNat]
  omega

/-- R221: what the five bytes decide, the fifth being the one just read. -/
theorem slowVerdict_stored {s : State} (hi : s.rrIndex = 4) (b : Byte) :
    slowVerdict (s.stored b)
      = if (s.respByte 0).getLsbD 7 then
          .next ((s.stored b).setResult (b ++ s.respByte 3 ++ s.respByte 2 ++ s.respByte 1)).succeed
        else .next (((s.stored b).sleepEvent s.cfg.retrySleepMs).setPoint .checkDeadline) := by
  have hindex : s.rrIndex.toNat = 4 := by rw [hi]; rfl
  have hbyte : ∀ k, k ≠ 4 → (s.stored b).respByte k = s.respByte k := by
    intro k hk
    rw [stored_respByte, hindex, if_neg hk]
  have hlast : (s.stored b).respByte 4 = b := by rw [stored_respByte, hindex, if_pos rfl]
  rw [slowVerdict, slowReadWord_eq, hbyte 0 (by decide), hbyte 1 (by decide), hbyte 2 (by decide), hbyte 3 (by decide),
    hlast, State.retrySleep, (stored_kept b s).cfg]
  rfl

/-- Settles O49: the loop's points one by one; the fifth byte is stored before bit 7 of the first decides. -/
theorem slowReadPollsForDataReady : Obligations.SlowReadPollsForDataReady := by
  refine fun T s => ⟨?start, ?t0, ?clock, ?late, ?attempt, ?more, ?last⟩
  case start =>
    intro hp hd
    obtain ⟨he, hle, hc⟩ := now_spec_of (s := s) (u := s.setLoopId .slowRead) (k := .loopT0Read) rfl rfl rfl
    exact ⟨_, _, exec_slowRead_start hp hd T, he, hle, hc, rfl⟩
  case t0 =>
    intro hp
    obtain ⟨he, -, hc⟩ := now_spec_of (s := s) (u := s.takeT0) (k := .deadlineRead) rfl rfl rfl
    exact ⟨_, _, exec_slowRead_t0 hp T, he, hc, rfl⟩
  case clock =>
    intro hp
    obtain ⟨he, -, hc⟩ := now_spec_of (s := s) (u := s) (k := .deadlineRead) rfl rfl rfl
    exact ⟨_, _, exec_slowRead_clock hp T, he, hc, rfl⟩
  case late => exact fun hp h => ⟨_, exec_slowRead_late hp h, State.raise_spec ..⟩
  case attempt => exact fun hp h => ⟨_, exec_slowRead_try hp h, clearResp_readRegsBegin_spec 0x02 .regsRead s rfl⟩
  case more =>
    intro x b hp ha hn
    obtain ⟨hbegun, hbyte, hmem, hframe⟩ := storedNext_spec b 0x02 .regsRead s rfl
    exact ⟨_, exec_slowRead_more hp ha (by omega) T, ⟨_, nextRead_addr (n := 5) (by omega) (by decide), hbegun⟩, hbyte,
      hmem, hp ▸ hframe⟩
  case last =>
    intro x b hp ha hi
    have hindex : s.rrIndex.toNat = 4 := by rw [hi]; rfl
    rw [exec_slowRead_last hp ha (by omega) T, slowVerdict_stored hi b]
    have hbyte : ∀ t : State, t.mem = (s.stored b).mem → t.respByte 4 = b := fun t ht => by
      rw [State.respByte_of_mem ht, stored_respByte, hindex, if_pos rfl]
    have hmem : ∀ t : State, t.mem = (s.stored b).mem → MemSameOutside 0x104 1 s t := fun t ht => by
      have h := stored_memSame ht
      rw [hindex] at h
      exact h
    cases hbit : (s.respByte 0).getLsbD 7 with
    | true =>
      refine ⟨_, if_pos rfl, hbyte _ rfl, hmem _ rfl, fun _ => ⟨?_, rfl, ?_⟩, nofun⟩
      · exact endedWell_succeed ((stored_kept b s).trans ⟨rfl, rfl, rfl, rfl, rfl, rfl, rfl, rfl, rfl⟩)
      · rw [State.stored_frame, hindex]
        rfl
    | false =>
      refine ⟨_, if_neg nofun, hbyte _ rfl, hmem _ rfl, nofun, fun _ => ⟨?_, ?_⟩⟩
      · exact sleep_spec_of (stored_kept b s).env (stored_kept b s).trace rfl
      · rw [State.stored_frame, hindex]
        rfl

/-! ### The orientation commands (R225, R226) -/

/-- R108, R226: the byte that an orientation command writes. -/
def OrientationByte (cfg : Config) (i : Instr) (b : Byte) : Prop :=
  (∃ swap invY invX, i = .setOrientation swap invY invX
      ∧ b = BitVec.ofBool swap ++ BitVec.ofBool invY ++ BitVec.ofBool invX ++ 0b00000#5)
    ∨ (i = .setRotation 0 ∧ b = cfg.rotation.deg0) ∨ (i = .setRotation 90 ∧ b = cfg.rotation.deg90)
    ∨ (i = .setRotation 180 ∧ b = cfg.rotation.deg180) ∨ (i = .setRotation 270 ∧ b = cfg.rotation.deg270)

theorem orientByte_eq (swap invY invX : Bool) :
    orientByte swap invY invX = BitVec.ofBool swap ++ BitVec.ofBool invY ++ BitVec.ofBool invX ++ 0b00000#5 := by
  simp only [orientByte, bitOfFlag_eq_ofBool]

theorem exec_orientation_start {s : State} {i : Instr} {b : Byte} (hb : OrientationByte s.cfg i b) (hp : s.point = .start)
    (hd : s.dev.state = .ready) : exec i s = .next (s.transact (.write 0x5B b) .regDone) := by
  have hready : (s.dev.state == .ready) = true := beq_iff_eq.2 hd
  rcases hb with ⟨x, y, z, rfl, rfl⟩ | ⟨rfl, rfl⟩ | ⟨rfl, rfl⟩ | ⟨rfl, rfl⟩ | ⟨rfl, rfl⟩
  · rw [← orientByte_eq]
    simp only [exec, execSetOrientation, hp]
    exact State.gate_pass (i := .setOrientation x y z) hready rfl _
  all_goals
    simp only [exec, execSetRotation, hp]
    exact State.gate_pass (i := .setRotation _) hready rfl _

theorem exec_orientation_done {s : State} {i : Instr} {b : Byte} {rx : List Byte} (hb : OrientationByte s.cfg i b)
    (hp : s.point = .regDone) (ha : Answered rx s) : exec i s = .next (s.taken.recordOrient b).succeed := by
  rcases hb with ⟨x, y, z, rfl, rfl⟩ | ⟨rfl, rfl⟩ | ⟨rfl, rfl⟩ | ⟨rfl, rfl⟩ | ⟨rfl, rfl⟩
  · rw [← orientByte_eq]
    simp only [exec, execSetOrientation, hp, State.onTx_ok ha]
  all_goals
    simp only [exec, execSetRotation, hp, State.onTx_ok ha]
    rfl

/-- Settles O50: the byte by the command, the write, and its record. -/
theorem orientationCommandsWriteOneByte : Obligations.OrientationCommandsWriteOneByte := by
  refine ⟨fun cfg hc => ((config_wf_iff cfg).1 hc).2.2.1, fun s i b hb => ⟨fun hp hd => ?_, fun hp ⟨rx, ha⟩ => ?_⟩⟩
  · exact ⟨_, exec_orientation_start hb hp hd, s.transact_spec _ _⟩
  · have hkept : Kept s (s.taken.recordOrient b) := ⟨rfl, rfl, rfl, rfl, rfl, rfl, rfl, rfl, rfl⟩
    exact ⟨_, exec_orientation_done hb hp ha, endedWell_succeed hkept, rfl⟩

end Sys2Proof.Machine
end

section
/-! PROOFS. FRAME_CAPTURE, step by step (R249-R251). -/

namespace Sys2Proof.Machine

open Sys2Proof.Safety

/-! ### The pre-capture sequence (R250) -/

theorem exec_capture_start {s : State} (hp : s.point = .start) (hd : s.dev.state = .ready) (T : BitVec 24) :
    exec (.frameCapture T) s = ((s.setFc FcStatus.configured).setSeq precaptureSegment 0).playNext captureWait := by
  simp only [exec, execFrameCapture, hp]
  exact State.gate_pass (i := .frameCapture T) (beq_iff_eq.2 hd) rfl _

theorem exec_capture_resume {s : State} (hp : s.point = .stepWaited ∨ s.point = .stepWritten) (T : BitVec 24) :
    exec (.frameCapture T) s = s.playResume captureFail captureWait := by
  rcases hp with hp | hp <;> simp only [exec, execFrameCapture, hp]

theorem captureWait_sleeps (u : State) :
    ∃ t, captureWait u = .next t ∧ ∃ before after, Emits (.sleep 10 before after) u t ∧ before + 10000 ≤ after
      ∧ t = { u with point := .captureWaited, env := t.env, trace := t.trace } := by
  obtain ⟨before, after, he, hle⟩ := sleep_spec_of (s := u) (u := u) (k := .captureWaited) (ms := 10) rfl rfl rfl
  exact ⟨_, rfl, before, after, he, hle, rfl⟩

/-- Settles O51: the player's step from each of the three states, and the wait at the segment's end. -/
theorem captureConfiguresTheSensor : Obligations.CaptureConfiguresTheSensor := by
  intro T s u hc hu
  rcases hu with ⟨hp, hd, rfl⟩ | hu
  · rw [exec_capture_start hp hd]
    exact State.playNext_plays (s := (s.setFc FcStatus.configured).setSeq precaptureSegment 0) hc
      fun _ => captureWait_sleeps _
  · rw [exec_capture_resume (hu.imp And.left And.left)]
    exact State.playResume_plays hc hu _ fun _ => captureWait_sleeps _

/-! ### The grab-ready poll (R250, R251) -/

theorem exec_capture_waited {s : State} (hp : s.point = .captureWaited) (T : BitVec 24) :
    exec (.frameCapture T) s
      = .next ((((s.setFcState .waitingForGrabReady).setLoopId .captureInit).nowEvent).setPoint .initT0Read) := by
  simp only [exec, execFrameCapture, hp]

theorem exec_capture_initT0 {s : State} (hp : s.point = .initT0Read) (T : BitVec 24) :
    exec (.frameCapture T) s = .next (s.takeT0.transact (.read 0x59) .grabRead) := by
  simp only [exec, execFrameCapture, hp, State.readGrabStatus]

theorem exec_capture_pollGrab {s : State} (hp : s.point = .pollGrab) (T : BitVec 24) :
    exec (.frameCapture T) s = .next (s.transact (.read 0x59) .grabRead) := by
  simp only [exec, execFrameCapture, hp, State.readGrabStatus]

theorem grabReady_iff (g : Byte) : grabReady g = true ↔ g &&& 0xC0 = 0xC0 := beq_iff_eq

/-- R250: a status byte is recorded. -/
def State.grabbed (g : Byte) (s : State) : State := s.taken.setFc { s.fc with lastGrabStatus := g }

theorem State.grabbed_frame (g : Byte) (s : State) :
    s.grabbed g = { s with fc := { s.fc with lastGrabStatus := g }, tx := Taken s, csLevel := TakenLevel s } := rfl

theorem exec_capture_grabReady {s : State} {x g : Byte} (hp : s.point = .grabRead) (ha : Answered [x, g] s)
    (hg : g &&& 0xC0 = 0xC0) (T : BitVec 24) :
    exec (.frameCapture T) s = .next ((s.grabbed g).transact (.write 0x58 0x00) .triggerWritten) := by
  simp only [exec, execFrameCapture, hp, State.onTx_ok ha]
  exact if_pos ((grabReady_iff g).2 hg)

theorem exec_capture_grabUnready {s : State} {x g : Byte} (hp : s.point = .grabRead) (ha : Answered [x, g] s)
    (hg : g &&& 0xC0 ≠ 0xC0) (T : BitVec 24) :
    exec (.frameCapture T) s = .next ((s.grabbed g).nowEvent.setPoint .initClockRead) := by
  simp only [exec, execFrameCapture, hp, State.onTx_ok ha]
  exact if_neg (mt (grabReady_iff g).1 hg)

theorem exec_capture_initLate {s : State} {T : BitVec 24} (hp : s.point = .initClockRead)
    (h : s.env.clock - s.t0 > T.toNat * 1000) :
    exec (.frameCapture T) s
      = .next ((s.setFc { s.fc with state := .timedOut, initTimeout := true }).raise .timeout 2) := by
  simp only [exec, execFrameCapture, hp]
  exact if_pos ((expired_iff ..).2 h)

theorem exec_capture_initAgain {s : State} {T : BitVec 24} (hp : s.point = .initClockRead)
    (h : s.env.clock - s.t0 ≤ T.toNat * 1000) :
    exec (.frameCapture T) s = .next (s.pollAgain .pollGrab State.readGrabStatus) := by
  simp only [exec, execFrameCapture, hp]
  exact if_neg (not_expired h)

theorem State.pollAgain_attempt {s : State} (h : s.cfg.framePollSleepMs = 0) (k : Point) (attempt : State → State) :
    s.pollAgain k attempt = attempt s := if_neg (by omega)

theorem State.pollAgain_sleep {s : State} (h : s.cfg.framePollSleepMs > 0) (k : Point) (attempt : State → State) :
    s.pollAgain k attempt = (s.sleepEvent s.cfg.framePollSleepMs).setPoint k := if_pos h

/-- The poll sleep of a capture, where one is configured. -/
theorem pollAgain_sleeps {s : State} (h : s.cfg.framePollSleepMs > 0) (k : Point) (attempt : State → State) :
    ∃ before after, Emits (.sleep s.cfg.framePollSleepMs before after) s (s.pollAgain k attempt)
      ∧ before + s.cfg.framePollSleepMs * 1000 ≤ after
      ∧ s.pollAgain k attempt
        = { s with point := k, env := (s.pollAgain k attempt).env, trace := (s.pollAgain k attempt).trace } := by
  obtain ⟨before, after, he, hle⟩ := sleep_spec_of (s := s) rfl rfl (State.pollAgain_sleep h k attempt)
  refine ⟨before, after, he, hle, ?_⟩
  rw [State.pollAgain_sleep h]
  rfl

/-- Settles O52: the poll's points one by one; an unready byte leads to the deadline, after the attempt. -/
theorem captureWaitsForGrabReady : Obligations.CaptureWaitsForGrabReady := by
  refine fun T s => ⟨?waited, ?t0, ?poll, ?ready, ?unready, ?late, ?again, ?sleeps⟩
  case waited =>
    intro hp
    obtain ⟨he, hle, hc⟩ := now_spec_of (s := s) (u := (s.setFcState .waitingForGrabReady).setLoopId .captureInit)
      (k := .initT0Read) rfl rfl rfl
    exact ⟨_, _, exec_capture_waited hp T, he, hle, hc, rfl⟩
  case t0 => exact fun hp => ⟨_, exec_capture_initT0 hp T, s.takeT0.transact_spec _ _⟩
  case poll => exact fun hp => ⟨_, exec_capture_pollGrab hp T, s.transact_spec _ _⟩
  case ready => exact fun x g hp ha hg => ⟨_, exec_capture_grabReady hp ha hg T, (s.grabbed g).transact_spec _ _⟩
  case unready =>
    intro x g hp ha hg
    obtain ⟨he, -, hc⟩ := now_spec_of (s := s) (u := s.grabbed g) (k := .initClockRead) rfl rfl rfl
    refine ⟨_, _, exec_capture_grabUnready hp ha hg T, he, hc, ?_⟩
    conv_lhs => rw [State.grabbed_frame]
    rfl
  case late =>
    intro hp h
    exact ⟨_, exec_capture_initLate hp h,
      (s.setFc { s.fc with state := .timedOut, initTimeout := true }).raise_spec _ _⟩
  case again =>
    intro hp h hs
    refine ⟨_, exec_capture_initAgain hp h, ?_⟩
    rw [State.pollAgain_attempt hs]
    exact s.transact_spec _ _
  case sleeps =>
    intro hp h hs
    obtain ⟨before, after, he, hle, hf⟩ := pollAgain_sleeps hs .pollGrab State.readGrabStatus
    exact ⟨_, before, after, exec_capture_initAgain hp h, he, hle, hf⟩

/-! ### The stream (R249-R251) -/

/-- R250: the registers on entering STREAMING. -/
def State.streaming (s : State) : State := (s.taken.setFcState .streaming).clearPixels.setLoopId .captureStream

theorem State.streaming_frame (s : State) :
    s.streaming = { s with
      fc := { s.fc with state := .streaming }, mem := s.streaming.mem, loopId := .captureStream, tx := Taken s,
      csLevel := TakenLevel s } := rfl

theorem exec_capture_triggerWritten {s : State} {rx : List Byte} (hp : s.point = .triggerWritten) (ha : Answered rx s)
    (T : BitVec 24) : exec (.frameCapture T) s = .next (s.streaming.nowEvent.setPoint .streamT0Read) := by
  simp only [exec, execFrameCapture, hp, State.onTx_ok ha]
  rfl

theorem exec_capture_streamT0 {s : State} (hp : s.point = .streamT0Read) (T : BitVec 24) :
    exec (.frameCapture T) s = .next (s.takeT0.transact (.read 0x58) .fragmentRead) := by
  simp only [exec, execFrameCapture, hp, State.readGrab]

theorem exec_capture_pollStream {s : State} (hp : s.point = .pollStream) (T : BitVec 24) :
    exec (.frameCapture T) s = .next (s.transact (.read 0x58) .fragmentRead) := by
  simp only [exec, execFrameCapture, hp, State.readGrab]

theorem exec_capture_fragment {s : State} {x f : Byte} (hp : s.point = .fragmentRead) (ha : Answered [x, f] s)
    (T : BitVec 24) : exec (.frameCapture T) s = captureAfter (fragmentRegs f s.taken) := by
  simp only [exec, execFrameCapture, hp, State.onTx_ok ha, accumulate_eq]
  rfl

theorem captureAfter_complete {u : State} (h : u.fc.pixelCount = 1225) :
    captureAfter u = .next (u.setFcState .complete).succeed := if_pos h

theorem captureAfter_goesOn {u : State} (h : u.fc.pixelCount ≠ 1225) :
    captureAfter u = .next (u.nowEvent.setPoint .streamClockRead) := if_neg h

theorem exec_capture_streamLate {s : State} {T : BitVec 24} (hp : s.point = .streamClockRead)
    (h : s.env.clock - s.t0 > T.toNat * 1000) :
    exec (.frameCapture T) s
      = .next ((s.setFcState .timedOut).raise .timeout (timeoutInfo .captureStream s.fc.pixelCount)) := by
  simp only [exec, execFrameCapture, hp]
  exact if_pos ((expired_iff ..).2 h)

theorem exec_capture_streamAgain {s : State} {T : BitVec 24} (hp : s.point = .streamClockRead)
    (h : s.env.clock - s.t0 ≤ T.toNat * 1000) :
    exec (.frameCapture T) s = .next (s.pollAgain .pollStream State.readGrab) := by
  simp only [exec, execFrameCapture, hp]
  exact if_neg (not_expired h)

/-- A byte accumulated changes FC_STATUS and PIXEL_BUF alone. -/
theorem fragmentRegs_taken_frame (f : Byte) (s : State) :
    ∃ x m, fragmentRegs f s.taken = { s with fc := x, mem := m, tx := Taken s, csLevel := TakenLevel s } :=
  ⟨_, _, fragmentRegs_frame f s.taken⟩

theorem streaming_pixels {s t : State} (h : t.mem = s.streaming.mem) :
    (∀ k, k < 1225 → t.pixelByte k = 0) ∧ MemSameOutside 0x800 1225 s t := by
  have hmem : ∀ x, Memory.read t.mem x = Memory.read (Memory.clear s.mem 0x800 1225) x := fun x => by rw [h]; rfl
  refine ⟨fun k hk => ?_, fun x hx => ?_⟩
  · rw [State.pixelByte, hmem, Memory.read_clear]
    exact if_pos ⟨Nat.le_add_right .., Nat.add_lt_add_left hk _⟩
  · rw [hmem, Memory.read_clear, if_neg hx]

/-- Settles O53: the stream's points one by one; a byte read is accumulated before completion is looked at, and that before
the deadline. -/
theorem captureStreamsUntilComplete : Obligations.CaptureStreamsUntilComplete := by
  refine fun T s => ⟨?trigger, ?t0, ?poll, ?fragment, ?late, ?again, ?sleeps⟩
  case trigger =>
    rintro hp ⟨rx, ha⟩
    obtain ⟨he, hle, hc⟩ := now_spec_of (s := s) (u := s.streaming) (k := .streamT0Read) rfl rfl rfl
    obtain ⟨hpixels, hmem⟩ := streaming_pixels (s := s) (t := s.streaming.nowEvent.setPoint .streamT0Read) rfl
    refine ⟨_, _, exec_capture_triggerWritten hp ha T, he, hle, hc, hpixels, hmem, ?_⟩
    conv_lhs => rw [State.streaming_frame]
    rfl
  case t0 => exact fun hp => ⟨_, exec_capture_streamT0 hp T, s.takeT0.transact_spec _ _⟩
  case poll => exact fun hp => ⟨_, exec_capture_pollStream hp T, s.transact_spec _ _⟩
  case fragment =>
    intro x f hp ha hcount
    have hexec := exec_capture_fragment hp ha T
    have hacc : Accumulated f s (fragmentRegs f s.taken) := fragmentRegs_accumulated (s := s.taken) hcount f
    obtain ⟨fc, mem, hu⟩ := fragmentRegs_taken_frame f s
    rw [hu] at hexec hacc
    by_cases hfull : fc.pixelCount = 1225
    · exact ⟨_, _, hexec.trans (captureAfter_complete hfull), hacc,
        fun _ => ⟨endedWell_succeed ⟨rfl, rfl, rfl, rfl, rfl, rfl, rfl, rfl, rfl⟩, rfl⟩, fun h => absurd hfull h⟩
    · obtain ⟨he, -, hc⟩ := now_spec_of (s := s) (k := .streamClockRead)
        (u := { s with fc := fc, mem := mem, tx := Taken s, csLevel := TakenLevel s }) rfl rfl rfl
      exact ⟨_, _, hexec.trans (captureAfter_goesOn hfull), hacc, fun h => absurd h hfull, fun _ => ⟨_, he, hc, rfl⟩⟩
  case late =>
    intro hp h
    exact ⟨_, exec_capture_streamLate hp h, (s.setFcState .timedOut).raise_spec _ _⟩
  case again =>
    intro hp h hs
    refine ⟨_, exec_capture_streamAgain hp h, ?_⟩
    rw [State.pollAgain_attempt hs]
    exact s.transact_spec _ _
  case sleeps =>
    intro hp h hs
    obtain ⟨before, after, he, hle, hf⟩ := pollAgain_sleeps hs .pollStream State.readGrab
    exact ⟨_, before, after, exec_capture_streamAgain hp h, he, hle, hf⟩

end Sys2Proof.Machine
end

section
/-! PROOFS. Whole transactions of two bytes, and the run of a command up to one of its points. -/

namespace Sys2Proof.Machine

open Sys2Proof.Safety

/-! ### The controller's turns -/

/-- R3, R20: the controller takes the next n steps, after which the outside has the inputs l left. -/
def Passes (n : Nat) (inputs l : List Input) : Prop :=
  (inputs = [] ∧ l = []) ∨ inputs = List.replicate n .pass ++ l

theorem Passes.nil (n : Nat) : Passes n [] [] := .inl ⟨rfl, rfl⟩

theorem Passes.eq {inputs l : List Input} (h : Passes 0 inputs l) : inputs = l := by
  rcases h with ⟨rfl, rfl⟩ | h
  · rfl
  · exact h

theorem Passes.turn {n : Nat} {s : State} {l : List Input} (h : Passes (n + 1) s.inputs l) :
    ∃ l', ControllerTurn s (s.setInputs l') ∧ Passes n l' l := by
  rcases h with ⟨hi, rfl⟩ | hi
  · exact ⟨[], .inl ⟨hi, by rw [← hi]; rfl⟩, .nil n⟩
  · exact ⟨_, .inr ⟨_, hi, rfl⟩, .inr rfl⟩

theorem point_ne_boot_of_running {s : State} (h : runningPoint s.point = true) : s.point ≠ .boot := by
  intro hp
  rw [hp] at h
  cases h

theorem control_running {s : State} (h : runningPoint s.point = true) :
    Machine.control s = if s.busBusy then exec s.tx.frame.instr s else
      match decodeCommand s.curCmd with
      | .ok i => exec i s
      | .error _ => .next (illegalEnd s) := by
  rcases control_eq s with ⟨hp, -⟩ | ⟨hp, -⟩ | ⟨-, hc⟩
  · exact absurd hp (point_ne_boot_of_running h)
  · rw [hp] at h
    cases h
  · exact hc

/-- R96: on the controller's turn the running command takes its step. -/
theorem step_command {s : State} {l : List Input} {i : Instr} (h : runningPoint s.point = true) (hb : s.busBusy = false)
    (hd : decodeCommand s.curCmd = .ok i) (hc : ControllerTurn s (s.setInputs l)) : step s = exec i (s.setInputs l) := by
  have hb' : (s.setInputs l).busBusy = false := hb
  have hd' : decodeCommand (s.setInputs l).curCmd = .ok i := hd
  rw [step_control (point_ne_boot_of_running h) hc, control_running (by exact h), hb', hd']
  rfl

/-- R131: on the controller's turn the transaction under way has its next event. -/
theorem step_bus {s : State} {l : List Input} (h : runningPoint s.point = true) (hb : s.busBusy = true)
    (hc : ControllerTurn s (s.setInputs l)) : step s = .next ((s.setInputs l).busEvent s.tx.frame) := by
  have hb' : (s.setInputs l).busBusy = true := hb
  rw [step_control (point_ne_boot_of_running h) hc, control_running (by exact h), if_pos hb']
  exact frame_exec _ _

/-! ### A transaction answered with two bytes (R131, R132) -/

/-- R66, R67: a sensor in state o answers the frame f with the two bytes p and is in state o' after it. -/
def Replies (o o' : Oracle) (f : Frame) (p : Byte × Byte) : Prop :=
  ∀ e : Env, e.oracle = o → e.exchange f.bytes = (some [p.1, p.2], { e with oracle := o' })

theorem replies_script {f : Frame} (hf : f.bytes.length = 2) (p : Byte × Byte) (rest : List Answer) :
    Replies (.script (.bytes [p.1, p.2] :: rest)) (.script rest) f p := by
  intro e he
  simp only [Env.exchange, he, hf, fitLength_of_length (l := [p.1, p.2]) (n := 2) rfl]

/-- The steps that a transaction takes after the one that begins it. -/
def laterSteps (swCs : Bool) : Nat := if swCs then 2 else 0

/-- The state after a transaction that was begun in s and answered p, the command to go on at k. -/
def State.afterTx (f : Frame) (k : Point) (p : Byte × Byte) (o : Oracle) (l : List Input) (s : State) : State :=
  { s with
    point := k
    tx := { frame := f, phase := .ended (.ok [p.1, p.2]) }
    csLevel := if s.cfg.swCs then .asserted else s.csLevel
    env := { s.env with oracle := o, csAnswers := s.env.csAnswers.drop (laterSteps s.cfg.swCs) }
    trace := s.trace ++ Exchanges s.cfg.swCs [(f.bytes, p)]
    inputs := l }

@[simp] theorem State.afterTx_rrIndex (f : Frame) (k : Point) (p : Byte × Byte) (o : Oracle) (l : List Input) (s : State) :
    (s.afterTx f k p o l).rrIndex = s.rrIndex := rfl

@[simp] theorem State.afterTx_respByte (f : Frame) (k : Point) (p : Byte × Byte) (o : Oracle) (l : List Input) (s : State)
    (i : Nat) : (s.afterTx f k p o l).respByte i = s.respByte i := rfl

theorem afterTx_answered (f : Frame) (k : Point) (p : Byte × Byte) (o : Oracle) (l : List Input) (s : State) :
    Answered [p.1, p.2] (s.afterTx f k p o l) := rfl

theorem Env.csAnswer_cons {e : Env} {b : Bool} {rest : List Bool} (h : e.csAnswers = b :: rest) :
    e.csAnswer = (b, { e with csAnswers := rest }) := by
  simp only [Env.csAnswer, h]

/-- R132: without a software select the step that begins the transaction ends it. -/
theorem transact_native {s : State} {f : Frame} {p : Byte × Byte} {o : Oracle} (hsw : s.cfg.swCs = false)
    (hr : Replies s.env.oracle o f p) (k : Point) : s.transact f k = s.afterTx f k p o s.inputs := by
  unfold State.transact
  rw [State.busEvent_requested rfl, State.txFirst_native (by exact hsw)]
  simp only [State.setTx_env, State.setPoint_env, hr s.env rfl, State.afterTx, hsw, Exchanges]
  rfl

/-- R131: the registers after the assert that begins a transaction. -/
theorem transact_select {s : State} {rest : List Bool} (hsw : s.cfg.swCs = true) (hcs : s.env.csAnswers = true :: rest)
    (f : Frame) (k : Point) :
    s.transact f k = { s with
      point := k, tx := { frame := f, phase := .selected }, env := { s.env with csAnswers := rest },
      trace := s.trace ++ [.cs .asserted true] } := by
  unfold State.transact
  rw [State.busEvent_requested rfl, State.txFirst_select (by exact hsw)]
  simp only [State.setTx_env, State.setPoint_env, Env.csAnswer_cons hcs]
  rfl

/-- R131: after an OK assert the exchange. -/
theorem step_exchange {s : State} {p : Byte × Byte} {o : Oracle} {l : List Input} (hrun : runningPoint s.point = true)
    (hp : s.tx.phase = .selected) (hr : Replies s.env.oracle o s.tx.frame p) (hc : ControllerTurn s (s.setInputs l)) :
    step s = .next { s with
      csLevel := .asserted, tx := { frame := s.tx.frame, phase := .exchanged (some [p.1, p.2]) },
      env := { s.env with oracle := o }, inputs := l, trace := s.trace ++ [.xfer s.tx.frame.bytes (some [p.1, p.2])] } := by
  have hb : s.busBusy = true := by rw [State.busBusy, hp]
  rw [step_bus hrun hb hc, State.busEvent_selected (by exact hp)]
  simp only [State.xferEvent, State.setCsLevel_env, State.setInputs_env, hr s.env rfl]
  refine congrArg Host.Outcome.next ?_
  apply State.ext <;> simp

/-- R131: after an answered exchange the deassert, which ends the transaction. -/
theorem step_deassert {s : State} {rx : List Byte} {rest : List Bool} {l : List Input} (hrun : runningPoint s.point = true)
    (hp : s.tx.phase = .exchanged (some rx)) (hcs : s.env.csAnswers = true :: rest)
    (hc : ControllerTurn s (s.setInputs l)) :
    step s = .next { s with
      tx := { frame := s.tx.frame, phase := .ended (.ok rx) }, env := { s.env with csAnswers := rest }, inputs := l,
      trace := s.trace ++ [.cs .deasserted true] } := by
  have hb : s.busBusy = true := by rw [State.busBusy, hp]
  rw [step_bus hrun hb hc, State.busEvent_exchanged (by exact hp)]
  unfold State.deassertEvent
  rw [State.setInputs_env, Env.csAnswer_cons hcs]
  rfl

/-- R131: the exchange and the deassert that follow the assert, one step each. -/
theorem steps_selected {s : State} {f : Frame} {k : Point} {p : Byte × Byte} {o : Oracle} {rest : List Bool}
    {l : List Input} (hk : runningPoint k = true) (hsw : s.cfg.swCs = true)
    (hcs : s.env.csAnswers = true :: true :: rest) (hr : Replies s.env.oracle o f p) (hin : Passes 2 s.inputs l) :
    ∃ u, step (s.transact f k) = .next u ∧ u.fc = s.fc ∧ step u = .next (s.afterTx f k p o l) := by
  rw [transact_select hsw hcs]
  obtain ⟨l1, hturn1, hin1⟩ := Passes.turn (n := 1) (l := l) (s := { s with
    point := k, tx := { frame := f, phase := .selected }, env := { s.env with csAnswers := true :: rest },
    trace := s.trace ++ [.cs .asserted true] }) hin
  refine ⟨_, step_exchange hk rfl hr hturn1, rfl, ?_⟩
  obtain ⟨l2, hturn2, hin2⟩ := Passes.turn (n := 0) (l := l) (s := { s with
    point := k, tx := { frame := f, phase := .exchanged (some [p.1, p.2]) }, csLevel := .asserted
    env := { s.env with csAnswers := true :: rest, oracle := o }, inputs := l1
    trace := s.trace ++ [.cs .asserted true] ++ [.xfer f.bytes (some [p.1, p.2])] }) hin1
  obtain rfl := hin2.eq
  refine (step_deassert hk rfl rfl hturn2).trans ?_
  simp only [State.afterTx, hsw, hcs, Exchanges, laterSteps, if_true, List.flatMap_cons, List.flatMap_nil,
    List.append_assoc, List.append_nil, List.cons_append, List.nil_append, List.drop_succ_cons, List.drop_zero]

theorem steps_one {s t : State} (h : step s = .next t) : steps 1 s = .next t := steps_succ 0 h

theorem steps_append {m n : Nat} {s t u : State} (h : steps m s = .next t) (h' : steps n t = .next u) :
    steps (m + n) s = .next u := (steps_add m n h).trans h'

/-- FC_STATE stands as it is for n steps. -/
def CaptureStands (n : Nat) (s : State) : Prop := ∀ k u, k ≤ n → steps k s = .next u → u.fc.state = s.fc.state

theorem CaptureStands.zero (s : State) : CaptureStands 0 s := by
  intro k u hk h
  obtain rfl := Nat.le_zero.1 hk
  cases h
  rfl

theorem CaptureStands.add {m n : Nat} {s t : State} (h : CaptureStands m s) (hs : steps m s = .next t)
    (h' : CaptureStands n t) : CaptureStands (m + n) s := by
  intro k u hk hu
  by_cases hkm : k ≤ m
  · exact h k u hkm hu
  · obtain ⟨j, rfl⟩ := Nat.exists_eq_add_of_le (Nat.le_of_not_le hkm)
    rw [steps_add m j hs] at hu
    exact (h' j u (by omega) hu).trans (h m t (Nat.le_refl m) hs)

theorem CaptureStands.succ {n : Nat} {s t : State} (hs : step s = .next t) (hfc : t.fc.state = s.fc.state)
    (h : CaptureStands n t) : CaptureStands (n + 1) s := by
  intro k u hk hu
  cases k with
  | zero => cases hu; rfl
  | succ k =>
    rw [steps_succ k hs] at hu
    exact (h k u (by omega) hu).trans hfc

/-- R131, R132: a transaction that has begun and is answered p comes to its end, FC_STATE standing. -/
theorem steps_transact {s : State} {f : Frame} {k : Point} {p : Byte × Byte} {o : Oracle} {l : List Input}
    (hk : runningPoint k = true) (hr : Replies s.env.oracle o f p) (hcs : SelectsOk 1 s)
    (hin : Passes (laterSteps s.cfg.swCs) s.inputs l) :
    steps (laterSteps s.cfg.swCs) (s.transact f k) = .next (s.afterTx f k p o l)
      ∧ CaptureStands (laterSteps s.cfg.swCs) (s.transact f k) := by
  cases hsw : s.cfg.swCs with
  | false =>
    rw [hsw] at hin
    obtain rfl := hin.eq
    exact ⟨congrArg Host.Outcome.next (transact_native hsw hr k), .zero _⟩
  | true =>
    rw [hsw] at hin
    obtain ⟨rest, hrest⟩ := hcs hsw
    obtain ⟨u, h1, hfc, h2⟩ := steps_selected hk hsw hrest hr hin
    have hfc' : u.fc.state = (s.transact f k).fc.state := by rw [hfc, State.transact_fc]
    have hfc2 : (s.afterTx f k p o l).fc.state = u.fc.state := by rw [hfc]; rfl
    exact ⟨(steps_succ 1 h1).trans (steps_one h2), .succ h1 hfc' (.succ h2 hfc2 (.zero _))⟩

/-! ### The events of transactions -/

theorem exchanges_length (sw : Bool) (x : List Byte × Byte × Byte) : (Exchanges sw [x]).length = 1 + laterSteps sw := by
  cases sw <;> rfl

theorem exchanges_cons (sw : Bool) (x : List Byte × Byte × Byte) (l : List (List Byte × Byte × Byte)) :
    Exchanges sw (x :: l) = Exchanges sw [x] ++ Exchanges sw l := List.flatMap_append (xs := [x])

/-! ### A command under way -/

/-- The run of a command from s has come to t: one step for each event, FC_STATE and STATUS as they were; the sensor's next
answers are the pairs, and then more, and the chip-select calls of their transactions are answered OK. -/
structure Underway (s : State) (events : List Event) (answers : List (Byte × Byte)) (more : List Answer) (t : State) :
    Prop where
  steps : steps events.length s = .next t
  stands : CaptureStands events.length s
  trace : t.trace = s.trace ++ events
  cfg : t.cfg = s.cfg
  status : t.status = s.status
  cmd : t.curCmd = s.curCmd
  inputs : t.inputs = []
  oracle : t.env.oracle = .script (answers.map (fun p => .bytes [p.1, p.2]) ++ more)
  selects : SelectsOk answers.length t
  free : t.busBusy = false
  running : runningPoint t.point = true

/-- R96: an accepted command is under way. -/
theorem underway_of_accepted {s : State} {w : Word} {answers : List (Byte × Byte)} {more : List Answer}
    (h : Accepted w s) (ho : s.env.oracle = .script (answers.map (fun p => .bytes [p.1, p.2]) ++ more))
    (hcs : SelectsOk answers.length s) : Underway s [] answers more s := by
  obtain ⟨hp, -, hi, htx⟩ := h
  exact ⟨rfl, .zero s, (List.append_nil _).symm, rfl, rfl, rfl, hi, ho, hcs, by rw [State.busBusy, htx], by rw [hp]; rfl⟩

section
variable {s t : State} {events : List Event} {answers : List (Byte × Byte)} {more : List Answer} {i : Instr}

theorem Underway.step (h : Underway s events answers more t) (hd : decodeCommand s.curCmd = .ok i) :
    Machine.step t = exec i t := by
  have hself : t.setInputs [] = t := by rw [← h.inputs]; rfl
  have hturn : ControllerTurn t (t.setInputs []) := .inl ⟨h.inputs, hself⟩
  rw [step_command h.running h.free (h.cmd ▸ hd) hturn, hself]

/-- R131, R132: the command's step begins a transaction, and this is answered. -/
theorem Underway.transact {p : Byte × Byte} {u : State} {f : Frame} {k : Point}
    (h : Underway s events (p :: answers) more t) (hd : decodeCommand s.curCmd = .ok i)
    (he : exec i t = .next (u.transact f k)) (hu : Kept t u) (hfc : u.fc.state = t.fc.state)
    (hk : runningPoint k = true) (hf : f.bytes.length = 2) :
    Underway s (events ++ Exchanges s.cfg.swCs [(f.bytes, p)]) answers more
      (u.afterTx f k p (.script (answers.map (fun p => .bytes [p.1, p.2]) ++ more)) []) := by
  have hcfg : u.cfg = s.cfg := hu.cfg.trans h.cfg
  have hr : Replies u.env.oracle (.script (answers.map (fun p => .bytes [p.1, p.2]) ++ more)) f p := by
    rw [hu.env, h.oracle]
    exact replies_script hf p _
  have hcs : SelectsOk (answers.length + 1) u := by
    intro hsw
    rw [hu.env]
    exact h.selects (by rw [← hu.cfg]; exact hsw)
  have hcs1 : SelectsOk 1 u := fun hsw => by
    obtain ⟨rest, hrest⟩ := hcs hsw
    exact ⟨List.replicate (2 * answers.length) true ++ rest, by rw [hrest]; rfl⟩
  obtain ⟨hlater, hstands⟩ := steps_transact (l := []) hk hr hcs1 (by rw [hu.inputs, h.inputs]; exact .nil _)
  have hfirst : Machine.step t = .next (u.transact f k) := (h.step hd).trans he
  have hfc' : (u.transact f k).fc.state = t.fc.state := by rw [State.transact_fc, hfc]
  have hlen : (events ++ Exchanges s.cfg.swCs [(f.bytes, p)]).length = events.length + (laterSteps u.cfg.swCs + 1) := by
    rw [List.length_append, exchanges_length, hcfg, Nat.add_comm 1]
  refine ⟨?_, ?_, ?_, hcfg, hu.status.trans h.status, hu.curCmd.trans h.cmd, rfl, rfl, ?_, rfl, hk⟩
  · rw [hlen]
    exact steps_append h.steps ((steps_succ _ hfirst).trans hlater)
  · rw [hlen]
    exact h.stands.add h.steps (.succ hfirst hfc' hstands)
  · show u.trace ++ _ = _
    rw [hu.trace, h.trace, hcfg, List.append_assoc]
  · intro hsw
    obtain ⟨rest, hrest⟩ := hcs hsw
    have hsw' : u.cfg.swCs = true := hsw
    refine ⟨rest, ?_⟩
    show u.env.csAnswers.drop (laterSteps u.cfg.swCs) = _
    rw [hrest, hsw']
    rfl

/-- The command's step is one event that is neither the bus's nor the command's end. -/
theorem Underway.emit {u : State} {e : Env} {ev : Event} {k : Point} (h : Underway s events answers more t)
    (hd : decodeCommand s.curCmd = .ok i) (he : exec i t = .next (((u.setEnv e).emit ev).setPoint k)) (hu : Kept t u)
    (hfc : u.fc.state = t.fc.state) (hk : runningPoint k = true) (hb : u.busBusy = false)
    (ho : e.oracle = t.env.oracle) (hcs : e.csAnswers = t.env.csAnswers) :
    Underway s (events ++ [ev]) answers more (((u.setEnv e).emit ev).setPoint k) := by
  have hfirst : Machine.step t = .next (((u.setEnv e).emit ev).setPoint k) := (h.step hd).trans he
  have hlen : (events ++ [ev]).length = events.length + 1 := List.length_append
  refine ⟨?_, ?_, ?_, hu.cfg.trans h.cfg, hu.status.trans h.status, hu.curCmd.trans h.cmd, hu.inputs.trans h.inputs,
    ho.trans h.oracle, fun hsw => ?_, hb, hk⟩
  · rw [hlen]
    exact steps_append h.steps (steps_one hfirst)
  · rw [hlen]
    exact h.stands.add h.steps (.succ hfirst hfc (.zero _))
  · show u.trace ++ [ev] = _
    rw [hu.trace, h.trace, List.append_assoc]
  · have hsw' : u.cfg.swCs = true := hsw
    show ∃ more, e.csAnswers = _
    rw [hcs]
    exact h.selects (by rw [← hu.cfg]; exact hsw')

/-- R271: the command's step is its success end. -/
theorem Underway.succeed {u : State} (h : Underway s events answers more t) (hd : decodeCommand s.curCmd = .ok i)
    (he : exec i t = .next u.succeed) (hu : Kept t u) :
    Safety.steps (events.length + 1) s = .next u.succeed ∧ u.succeed.trace = s.trace ++ events ++ [.ended .none]
      ∧ u.succeed.status = { s.status with busy := false, done := true } ∧ u.succeed.point = .idle := by
  obtain ⟨hstatus, -, -, hpoint, htrace⟩ := endedWell_succeed hu
  refine ⟨steps_append h.steps (steps_one ((h.step hd).trans he)), ?_, ?_, hpoint⟩
  · rw [htrace, h.trace]
  · rw [hstatus, h.status]

/-- R272: the command's step is its error end. -/
theorem Underway.raise {u : State} {code : ErrCode} {info : Word} (h : Underway s events answers more t)
    (hd : decodeCommand s.curCmd = .ok i) (he : exec i t = .next (u.raise code info)) (hu : Kept t u) :
    Safety.steps (events.length + 1) s = .next (u.raise code info)
      ∧ (u.raise code info).trace = s.trace ++ events ++ [.ended code] := by
  obtain ⟨⟨-, -, -, -, htrace⟩, -⟩ := u.raise_spec code info
  refine ⟨steps_append h.steps (steps_one ((h.step hd).trans he)), ?_⟩
  rw [htrace, hu.trace, h.trace]

end

/-- A sleep leaves the answers to come alone. -/
theorem Env.sleep_answers (e : Env) (ms : Nat) :
    (e.sleep ms).2.2.oracle = e.oracle ∧ (e.sleep ms).2.2.csAnswers = e.csAnswers := by
  unfold Env.sleep
  split <;> exact ⟨rfl, rfl⟩

end Sys2Proof.Machine
end

section
/-! PROOFS. Whole runs of READ_REGS (R152), of WRITE_REG and READ_REG under SIM_SENSOR (R150, R151, R67), and of PLAY_SEQ
(R161-R166). -/

namespace Sys2Proof.Machine

open Sys2Proof.Safety

/-! ### READ_REGS -/

theorem readFrame_bytes {a : Addr7} {i : Nat} (h : a.toNat + i < 128) :
    (Frame.read (a + BitVec.ofNat 7 i)).bytes = [BitVec.ofNat 8 (a.toNat + i), 0x00] := by
  have hbyte : (0#1 ++ (a + BitVec.ofNat 7 i) : Byte) = BitVec.ofNat 8 (a.toNat + i) := by
    apply BitVec.eq_of_toNat_eq
    rw [append_toNat, nextRead_addr (n := i + 1) (Nat.lt_succ_self i) (by omega), BitVec.toNat_ofNat, BitVec.toNat_ofNat]
    omega
  rw [Frame.bytes, hbyte]

/-- The reads of consecutive registers, from the i-th after the base, and their answers. -/
def regReads (a : Addr7) (i : Nat) (answers : List (Byte × Byte)) : List (List Byte × Byte × Byte) :=
  answers.mapIdx (fun j p => ([BitVec.ofNat 8 (a.toNat + (i + j)), 0x00], p))

theorem regReads_cons (a : Addr7) (i : Nat) (p : Byte × Byte) (answers : List (Byte × Byte)) :
    regReads a i (p :: answers) = ([BitVec.ofNat 8 (a.toNat + i), 0x00], p) :: regReads a (i + 1) answers := by
  simp [regReads, List.mapIdx_cons, Nat.add_assoc, Nat.add_comm 1]

/-- A byte list laid out from index i on: its head at i, its tail from i + 1 on. -/
theorem getD_cons_sub (b d : Byte) (l : List Byte) (i k : Nat) :
    (if k < i then d else (b :: l).getD (k - i) d)
      = if k < i + 1 then (if k = i then b else d) else l.getD (k - (i + 1)) d := by
  rcases Nat.lt_trichotomy k i with h | rfl | h
  · rw [if_pos h, if_pos (by omega), if_neg (by omega)]
  · simp
  · obtain ⟨j, rfl⟩ := Nat.exists_eq_add_of_lt h
    rw [if_neg (by omega), if_neg (by omega), show i + j + 1 - i = j + 1 by omega, show i + j + 1 - (i + 1) = j by omega,
      List.getD_cons_succ]

theorem regReads_zero (a : Addr7) (answers : List (Byte × Byte)) :
    regReads a 0 answers = answers.mapIdx (fun i p => ([BitVec.ofNat 8 (a.toNat + i), 0x00], p)) := by
  simp only [regReads, Nat.zero_add]

theorem stored_result (b : Byte) (s : State) : (s.stored b).result = s.result := by
  rw [State.stored_frame]

theorem clearResp_respByte (s : State) (k : Nat) : s.clearResp.respByte k = if k < 256 then 0 else s.respByte k := by
  simp [State.respByte, Memory.read_clear]

/-- What a READ_REGS run that began in s with response bytes as in t leaves: the events, and the bytes from RR_INDEX on. -/
def RegsRead (s t : State) (events : List Event) (bytes : List Byte) (n : Nat) (u : State) : Prop :=
  steps (events.length + 1) s = .next u ∧ u.trace = s.trace ++ events ++ [.ended .none] ∧ u.respLen = n
    ∧ (∀ k, u.respByte k = if k < t.rrIndex.toNat then t.respByte k else bytes.getD (k - t.rrIndex.toNat) (t.respByte k))
    ∧ u.result = t.result ∧ u.status = { s.status with busy := false, done := true } ∧ u.point = .idle

/-- R142, R152: from an answered read the command stores its byte, makes the remaining reads in order, and ends. -/
theorem readRegs_run {s : State} {a : Addr7} {n : Byte} (hd : decodeCommand s.curCmd = .ok (.readRegs a n))
    (hlast : a.toNat + n.toNat ≤ 128) {more : List Answer} (answers : List (Byte × Byte)) :
    ∀ (events : List Event) (p : Byte × Byte) (t : State), Underway s events answers more t → t.point = .regsRead →
      Answered [p.1, p.2] t → t.rrIndex.toNat + 1 + answers.length = n.toNat →
      ∃ u, RegsRead s t (events ++ Exchanges s.cfg.swCs (regReads a (t.rrIndex.toNat + 1) answers))
        (p.2 :: answers.map Prod.snd) n.toNat u := by
  induction answers with
  | nil =>
    intro events p t h hp ha hn
    have hexec := exec_readRegs_end hp ha (n := n) (by simp at hn; omega) a
    obtain ⟨hsteps, htrace, hstatus, hpoint⟩ := h.succeed hd hexec (stored_kept p.2 t)
    have hevents : events ++ Exchanges s.cfg.swCs (regReads a (t.rrIndex.toNat + 1) []) = events := List.append_nil _
    rw [hevents]
    refine ⟨_, hsteps, htrace, hn, fun k => ?_, ?_, hstatus, hpoint⟩
    · have hbyte : ((t.stored p.2).succeed).respByte k = if k = t.rrIndex.toNat then p.2 else t.respByte k :=
        stored_respByte p.2 t k
      rw [hbyte, List.map_nil, getD_cons_sub]
      by_cases hk : k < t.rrIndex.toNat + 1
      · rw [if_pos hk]
      · rw [if_neg hk, if_neg (by omega)]
        rfl
    · rw [State.stored_frame]
      rfl
  | cons q answers ih =>
    intro events p t h hp ha hn
    rw [List.length_cons] at hn
    have hn' : t.rrIndex.toNat + 1 < n.toNat := by omega
    have hexec := exec_readRegs_more hp ha hn' a
    have hkept : Kept t ((t.stored p.2).setRrIndex (t.rrIndex + 1)) :=
      (stored_kept p.2 t).trans ⟨rfl, rfl, rfl, rfl, rfl, rfl, rfl, rfl, rfl⟩
    have hindex : (t.rrIndex + 1).toNat = t.rrIndex.toNat + 1 := by
      have hlt := n.isLt
      rw [BitVec.toNat_add]
      exact Nat.mod_eq_of_lt (Nat.lt_trans hn' hlt)
    unfold State.readAt at hexec
    rw [ofNat_succ_toNat] at hexec
    have h' := h.transact hd hexec hkept (by rw [State.setRrIndex_fc, State.stored_frame]) rfl rfl
    rw [readFrame_bytes (by omega)] at h'
    have hevents : events ++ Exchanges s.cfg.swCs [([BitVec.ofNat 8 (a.toNat + (t.rrIndex.toNat + 1)), 0], q)]
          ++ Exchanges s.cfg.swCs (regReads a (t.rrIndex.toNat + 1 + 1) answers)
        = events ++ Exchanges s.cfg.swCs (regReads a (t.rrIndex.toNat + 1) (q :: answers)) := by
      rw [regReads_cons, exchanges_cons s.cfg.swCs (_, q) (regReads ..), List.append_assoc]
    obtain ⟨u, hsteps, htrace, hlen, hbytes, hresult, hstatus, hpoint⟩ := ih _ q _ h' rfl rfl
      (by rw [State.afterTx_rrIndex, State.setRrIndex_rrIndex, hindex]; omega)
    rw [State.afterTx_rrIndex, State.setRrIndex_rrIndex, hindex, hevents] at hsteps htrace
    refine ⟨u, hsteps, htrace, hlen, fun k => ?_, ?_, hstatus, hpoint⟩
    · have hbyte : ((t.stored p.2).setRrIndex (t.rrIndex + 1)).respByte k
          = if k = t.rrIndex.toNat then p.2 else t.respByte k := stored_respByte p.2 t k
      rw [hbytes, State.afterTx_rrIndex, State.setRrIndex_rrIndex, hindex, State.afterTx_respByte, hbyte, List.map_cons,
        getD_cons_sub p.2]
      by_cases hk : k < t.rrIndex.toNat + 1
      · rw [if_pos hk, if_pos hk]
      · rw [if_neg hk, if_neg hk, if_neg (by omega)]
    · rw [hresult]
      exact stored_result p.2 t

theorem decode_readRegs (a : Addr7) (n : Byte) : decodeCommand (0x3#4 ++ 0#13 ++ a ++ n) = .ok (.readRegs a n) :=
  decodeInvertsEncode (.readRegs a n) rfl

/-- Settles O57: the first read from the command's start, and the remaining ones by induction on the answers. -/
theorem readRegsRunsToItsEnd : Obligations.ReadRegsRunsToItsEnd := by
  intro a answers more s hlen hlast hacc hdev ho hcs
  have hn : (BitVec.ofNat 8 answers.length).toNat = answers.length := by
    rw [BitVec.toNat_ofNat]
    omega
  obtain ⟨p, rest, rfl⟩ := List.exists_cons_of_length_pos hlen
  have hd : decodeCommand s.curCmd = .ok (.readRegs a (BitVec.ofNat 8 (p :: rest).length)) := by
    rw [hacc.2.1]
    exact decode_readRegs ..
  have hexec := exec_readRegs_start (a := a) (n := BitVec.ofNat 8 (p :: rest).length) hacc.1 hdev (by rw [hn]; nofun)
    (by rw [hn]; omega)
  rw [State.readRegsBegin_eq] at hexec
  have hkept : Kept s ((s.clearResp.setRrOut []).setRrIndex 0) := ⟨rfl, rfl, rfl, rfl, rfl, rfl, rfl, rfl, rfl⟩
  have h := (underway_of_accepted hacc ho hcs).transact hd hexec hkept rfl rfl rfl
  obtain ⟨u, hsteps, htrace, hcount, hbytes, hresult, hstatus, hpoint⟩ :=
    readRegs_run hd (by rw [hn]; exact hlast) rest _ p _ h rfl rfl (by rw [hn, List.length_cons]; exact Nat.add_comm _ _)
  have hevents : [] ++ Exchanges s.cfg.swCs [((Frame.read a).bytes, p)] ++ Exchanges s.cfg.swCs (regReads a 1 rest)
      = Exchanges s.cfg.swCs (regReads a 0 (p :: rest)) := by
    have hread : (Frame.read a).bytes = [BitVec.ofNat 8 (a.toNat + 0), 0x00] := by
      have h0 := readFrame_bytes (a := a) (i := 0) a.isLt
      rwa [BitVec.ofNat_eq_ofNat, BitVec.add_zero] at h0
    rw [List.nil_append, hread, regReads_cons, exchanges_cons s.cfg.swCs (_, p) (regReads ..)]
  have hindex : ((s.clearResp.setRrOut []).setRrIndex 0).rrIndex.toNat = 0 := rfl
  rw [State.afterTx_rrIndex, hindex, Nat.zero_add, hevents, regReads_zero] at hsteps htrace
  refine ⟨u, _, rfl, hsteps, htrace, hcount.trans hn, fun i => ?_, hresult, hstatus, hpoint⟩
  have hclear : ((s.clearResp.setRrOut []).setRrIndex 0).respByte i = if i < 256 then 0 else s.respByte i :=
    clearResp_respByte s i
  rw [hbytes, State.afterTx_rrIndex, hindex, State.afterTx_respByte, hclear, if_neg (Nat.not_lt_zero i)]
  rfl

/-! ### WRITE_REG and READ_REG under SIM_SENSOR -/

theorem Passes.split {m n : Nat} {inputs l : List Input} (h : Passes (m + n) inputs l) :
    ∃ l', Passes m inputs l' ∧ Passes n l' l := by
  rcases h with ⟨rfl, rfl⟩ | rfl
  · exact ⟨[], .nil m, .nil n⟩
  · refine ⟨List.replicate n .pass ++ l, .inr ?_, .inr rfl⟩
    rw [← List.append_assoc, List.replicate_append_replicate]

/-- R22: the host's write of a word to CMD, no command running. -/
theorem step_accept {s : State} {w : Word} {rest : List Input} (hp : s.point = .idle) (hb : s.status.busy = false)
    (hi : s.inputs = .write 0x000 4 w :: rest) : step s = .next ((s.setInputs rest).accept w) := by
  rw [step_write (by rw [hp]; nofun) hi]
  show Host.Outcome.next (if s.status.busy = true then _ else _) = _
  rw [hb]
  rfl

/-- A command of one transaction, from the host's write of its word to its end. -/
theorem steps_hostCommand {s : State} {w : Word} {i : Instr} {f : Frame} {p : Byte × Byte} {o : Oracle}
    {l0 l : List Input} {done : State → State} (hp : s.point = .idle) (hb : s.status.busy = false)
    (htx : s.tx.phase = .idle) (hi : s.inputs = .write 0x000 4 w :: l0) (hd : decodeCommand w = .ok i)
    (hr : Replies s.env.oracle o f p) (hcs : SelectsOk 1 s) (hin : Passes (laterSteps s.cfg.swCs + 2) l0 l)
    (hstart : ∀ u : State, u.point = .start → u.dev = s.dev → exec i u = .next (u.clearResp.transact f .regDone))
    (hdone : ∀ u : State, u.point = .regDone → Answered [p.1, p.2] u → exec i u = .next (done u)) :
    steps (laterSteps s.cfg.swCs + 3) s = .next (done ((s.accept w).clearResp.afterTx f .regDone p o l)) := by
  have hfree : ((s.setInputs l0).accept w).busBusy = false := by
    show s.busBusy = false
    rw [State.busBusy, htx]
  obtain ⟨l1, hturn1, hin1⟩ := Passes.turn (s := (s.setInputs l0).accept w) (n := laterSteps s.cfg.swCs + 1) hin
  obtain ⟨l2, hin2, hin3⟩ := hin1.split
  obtain ⟨l3, hturn3, hin4⟩ := Passes.turn (s := (s.accept w).clearResp.afterTx f .regDone p o l2) (n := 0) hin3
  obtain rfl := hin4.eq
  have h1 := step_accept hp hb hi
  have h2 := (step_command rfl hfree (i := i) hd hturn1).trans (hstart _ rfl rfl)
  have h3 := (steps_transact (s := (((s.setInputs l0).accept w).setInputs l1).clearResp) (f := f) (k := .regDone) rfl hr hcs
    hin2).1
  have h4 := (step_command (s := (s.accept w).clearResp.afterTx f .regDone p o l2) rfl rfl (i := i) hd hturn3).trans
    (hdone _ rfl rfl)
  rw [show laterSteps s.cfg.swCs + 3 = 1 + (1 + (laterSteps s.cfg.swCs + 1)) by omega]
  exact steps_append (steps_one h1) (steps_append (steps_one h2) (steps_append h3 (steps_one h4)))

theorem replies_simWrite (regs : Memory) (scripted : List (List Byte)) (a : Addr7) (v : Byte) :
    Replies (.sim regs scripted) (.sim (Memory.write regs a.toNat v) scripted) (.write a v) (0, 0) := by
  intro e he
  have haddr : (1#1 ++ a : Byte).extractLsb' 0 7 = a := BitVec.extractLsb'_append_eq_right
  rw [Env.exchange_sim he, Frame.bytes, simXfer_write regs scripted v (directionBit 1#1 a), haddr]

theorem replies_simRead (regs : Memory) (scripted : List (List Byte)) (a : Addr7) :
    Replies (.sim regs scripted) (.sim regs scripted) (.read a) (0, Memory.read regs a.toNat) := by
  intro e he
  have haddr : (0#1 ++ a : Byte).extractLsb' 0 7 = a := BitVec.extractLsb'_append_eq_right
  rw [Env.exchange_sim he, Frame.bytes, simXfer_read regs scripted 0 (directionBit 0#1 a), haddr]

theorem decode_writeReg (a : Addr7) (v : Byte) : decodeCommand (0x1#4 ++ 0#13 ++ a ++ v) = .ok (.writeReg a v) :=
  decodeInvertsEncode (.writeReg a v) rfl

theorem decode_readReg (a : Addr7) : decodeCommand (0x2#4 ++ 0#13 ++ a ++ 0#8) = .ok (.readReg a) :=
  decodeInvertsEncode (.readReg a) rfl

/-- Two transactions' chip-select calls are answered OK: so are the second one's after the first. -/
theorem selectsOk_drop {s t : State} {n : Nat} (h : SelectsOk (n + 1) s) (hcfg : t.cfg = s.cfg)
    (hcs : t.env.csAnswers = s.env.csAnswers.drop (laterSteps s.cfg.swCs)) : SelectsOk n t := by
  intro hsw
  rw [hcfg] at hsw
  obtain ⟨rest, hrest⟩ := h hsw
  refine ⟨rest, ?_⟩
  rw [hcs, hsw, hrest]
  rfl

theorem selectsOk_first {s : State} {n : Nat} (h : SelectsOk (n + 1) s) : SelectsOk 1 s := by
  intro hsw
  obtain ⟨rest, hrest⟩ := h hsw
  exact ⟨List.replicate (2 * n) true ++ rest, by rw [hrest]; rfl⟩

theorem readDone_respByte (b : Byte) (s : State) : (s.readDone b).succeed.respByte 0 = b :=
  (State.respByte_putResp (by decide) b 0 (s.taken.setResult _)).trans (if_pos rfl)

/-- R150, R151, R67: the two commands one after the other, with or without a software select. -/
theorem writeThenRead_run {a : Addr7} {v : Byte} {s : State} {regs : Memory} {scripted : List (List Byte)}
    {l0 : List Input} (hp : s.point = .idle) (hb : s.status.busy = false) (htx : s.tx.phase = .idle)
    (hdev : s.dev.state ≠ .failed) (ho : s.env.oracle = .sim regs scripted) (hcs : SelectsOk 2 s)
    (hi : s.inputs = .write 0x000 4 (0x1#4 ++ 0#13 ++ a ++ v) :: l0)
    (hin : Passes (laterSteps s.cfg.swCs + 2) l0 [.write 0x000 4 (0x2#4 ++ 0#13 ++ a ++ 0#8)]) :
    ∃ t, steps (laterSteps s.cfg.swCs + 3 + (laterSteps s.cfg.swCs + 3)) s = .next t ∧ t.result = v.setWidth 32
      ∧ t.respByte 0 = v ∧ t.respLen = 1
      ∧ t.status = { busy := false, done := true, err := false, overrun := false } ∧ t.errCode = .none
      ∧ t.trace = s.trace ++ [.accept (0x1#4 ++ 0#13 ++ a ++ v)] ++ Exchanges s.cfg.swCs [([1#1 ++ a, v], 0, 0)]
          ++ [.ended .none] ++ [.accept (0x2#4 ++ 0#13 ++ a ++ 0#8)] ++ Exchanges s.cfg.swCs [([0#1 ++ a, 0], 0, v)]
          ++ [.ended .none] := by
  have hwrite := steps_hostCommand (done := fun u => u.taken.succeed) hp hb htx hi (decode_writeReg a v)
    (ho ▸ replies_simWrite regs scripted a v) (selectsOk_first hcs) hin
    (fun u hu hd => exec_writeReg_start hu (by rw [hd]; exact hdev) a v) (fun u hu ha => exec_writeReg_done hu ha a v)
  have hval : Memory.read (Memory.write regs a.toNat v) a.toNat = v := by rw [Memory.read_write, if_pos rfl]
  have hreply := replies_simRead (Memory.write regs a.toNat v) scripted a
  rw [hval] at hreply
  have hread := steps_hostCommand (done := fun u => (u.readDone v).succeed) (l := []) (l0 := [])
    (s := ((s.accept (0x1#4 ++ 0#13 ++ a ++ v)).clearResp.afterTx (.write a v) .regDone (0, 0)
      (.sim (Memory.write regs a.toNat v) scripted) [.write 0x000 4 (0x2#4 ++ 0#13 ++ a ++ 0#8)]).taken.succeed)
    rfl rfl rfl rfl (decode_readReg a) hreply (selectsOk_drop hcs rfl rfl) (.nil _)
    (fun u hu hd => exec_readReg_start hu (by rw [hd]; exact hdev) a) (fun u hu ha => exec_readReg_done hu ha a)
  refine ⟨_, steps_append hwrite hread, ?_, ?_, rfl, ?_, ?_, ?_⟩
  · rw [State.readDone_frame]
    rfl
  · exact readDone_respByte v _
  all_goals
    rw [State.readDone_frame]
    rfl

/-- Settles O56: the run, whose inputs are the controller's turns between the two words. -/
theorem writeThenReadReturnsTheValue : Obligations.WriteThenReadReturnsTheValue := by
  intro a v s regs scripted hp hb htx hdev ho
  refine ⟨fun hsw hi => ?_, fun rest hsw hcs hi => ?_⟩
  · have hcs : SelectsOk 2 s := fun h => absurd (hsw.symm.trans h) nofun
    obtain ⟨t, hsteps, hresult, hbyte, hlen, hstatus, herr, htrace⟩ :=
      writeThenRead_run hp hb htx hdev ho hcs hi (by rw [hsw]; exact .inr rfl)
    rw [hsw] at hsteps htrace
    refine ⟨t, hsteps, hresult, hbyte, hlen, hstatus, herr, htrace.trans ?_⟩
    simp only [Exchanges, List.append_assoc]
    rfl
  · have hcs' : SelectsOk 2 s := fun _ => ⟨rest, hcs⟩
    obtain ⟨t, hsteps, hresult, hbyte, hlen, hstatus, herr, htrace⟩ :=
      writeThenRead_run hp hb htx hdev ho hcs' hi (by rw [hsw]; exact .inr rfl)
    rw [hsw] at hsteps htrace
    refine ⟨t, hsteps, hresult, hbyte, hlen, hstatus, herr, htrace.trans ?_⟩
    simp only [Exchanges, List.append_assoc]
    rfl

end Sys2Proof.Machine
end

section
/-! PROOFS. A whole run of PLAY_SEQ (R161, R163, R165, R166). -/

namespace Sys2Proof.Machine

open Sys2Proof.Safety

/-! ### The words of a segment -/

/-- The word is a WAIT. -/
def isWait (w : BitVec 16) : Bool := w.extractLsb' 8 8 == 0xFF

theorem isWait_waitWord (g : Byte) : isWait (0xFF#8 ++ g) = true := by
  have hf : (0xFF#8 ++ g : BitVec 16).extractLsb' 8 8 = 0xFF#8 := BitVec.extractLsb'_append_eq_left
  rw [isWait, hf]
  rfl

theorem isWait_writeWord (f : Addr7) (g : Byte) : isWait (0#1 ++ f ++ g) = false := by
  have hf : (0#1 ++ f ++ g : BitVec 16).extractLsb' 8 8 = 0#1 ++ f := BitVec.extractLsb'_append_eq_left
  rw [isWait, hf]
  exact beq_false_of_ne fun h => absurd (congrArg (BitVec.getLsbD · 7) h) (by rw [directionBit 0#1 f]; decide)

theorem stepWord_payload (f g : Byte) : (f ++ g : BitVec 16).extractLsb' 0 8 = g := BitVec.extractLsb'_append_eq_right

/-- R163, R166: the events of one word of a segment whose writes are answered by some of the pairs. -/
def WordEvents (sw : Bool) (answers : List (Byte × Byte)) (w : BitVec 16) (es : List Event) : Prop :=
  if w.extractLsb' 8 8 = 0xFF then
    ∃ before after, es = [Event.sleep (w.extractLsb' 0 8).toNat before after]
      ∧ before + (w.extractLsb' 0 8).toNat * 1000 ≤ after
  else ∃ p ∈ answers, es = Exchanges sw [([0x80 ||| w.extractLsb' 8 8, w.extractLsb' 0 8], p)]

theorem wordEvents_wait {sw : Bool} {answers : List (Byte × Byte)} {g : Byte} {before after : Nat}
    (h : before + g.toNat * 1000 ≤ after) :
    WordEvents sw answers (0xFF#8 ++ g) [Event.sleep g.toNat before after] := by
  unfold WordEvents
  rw [if_pos (eq_of_beq (isWait_waitWord g)), stepWord_payload]
  exact ⟨before, after, rfl, h⟩

theorem writeByte0_or (f : Addr7) : (1#1 ++ f : Byte) = 0x80 ||| (0#1 ++ f : Byte) := by decide +revert

theorem wordEvents_write {sw : Bool} {answers : List (Byte × Byte)} {f : Addr7} {g : Byte} {p : Byte × Byte}
    (h : p ∈ answers) :
    WordEvents sw answers (0#1 ++ f ++ g) (Exchanges sw [((Frame.write f g).bytes, p)]) := by
  have hf : (0#1 ++ f ++ g : BitVec 16).extractLsb' 8 8 = 0#1 ++ f := BitVec.extractLsb'_append_eq_left
  unfold WordEvents
  rw [if_neg (ne_of_beq_false (isWait_writeWord f g)), stepWord_payload, hf]
  refine ⟨p, h, ?_⟩
  rw [Frame.bytes, writeByte0_or]

/-- R163: the least time that the words of a segment take. -/
def waitTime (words : List (BitVec 16)) : Nat :=
  ((words.filter isWait).map (fun w => (w.extractLsb' 0 8).toNat * 1000)).sum

theorem waitTime_wait (g : Byte) (words : List (BitVec 16)) :
    waitTime ((0xFF#8 ++ g) :: words) = g.toNat * 1000 + waitTime words := by
  rw [waitTime, List.filter_cons_of_pos (isWait_waitWord g), List.map_cons, List.sum_cons, stepWord_payload, waitTime]

theorem waitTime_write (f : Addr7) (g : Byte) (words : List (BitVec 16)) :
    waitTime ((0#1 ++ f ++ g) :: words) = waitTime words := by
  rw [waitTime, List.filter_cons_of_neg (by rw [isWait_writeWord]; nofun), waitTime]

/-! ### The run -/

theorem exec_playSeq_waited {s : State} (hp : s.point = .stepWaited) (seg : BitVec 4) :
    exec (.playSeq seg) s = s.nextWord.playNext (fun s => .next s.succeed) := by
  rw [exec_playSeq_resume (.inl hp), State.playResume, hp]

theorem exec_playSeq_written {s : State} {rx : List Byte} (hp : s.point = .stepWritten) (ha : Answered rx s)
    (seg : BitVec 4) : exec (.playSeq seg) s = s.taken.nextWord.playNext (fun s => .next s.succeed) := by
  rw [exec_playSeq_resume (.inr hp), State.playResume, hp]
  exact State.onTx_ok ha ..

/-- The number of write steps among the words. -/
def writeCount (words : List (BitVec 16)) : Nat := words.countP (fun w => !isWait w)

theorem writeCount_wait (g : Byte) (words : List (BitVec 16)) : writeCount ((0xFF#8 ++ g) :: words) = writeCount words :=
  List.countP_cons_of_neg (by rw [isWait_waitWord]; nofun)

theorem writeCount_write (f : Addr7) (g : Byte) (words : List (BitVec 16)) :
    writeCount ((0#1 ++ f ++ g) :: words) = writeCount words + 1 :=
  List.countP_cons_of_pos (by rw [isWait_writeWord]; rfl)

/-- What a PLAY_SEQ run from s leaves when it goes on from u with the words left: the events of each, in order. -/
def WordsRun (s u : State) (all : List (Byte × Byte)) (events : List Event) (words : List (BitVec 16)) (t : State) :
    Prop :=
  ∃ wordEvents : List (List Event),
    steps ((events ++ wordEvents.flatten).length + 1) s = .next t
      ∧ t.trace = s.trace ++ (events ++ wordEvents.flatten) ++ [.ended .none]
      ∧ List.Forall₂ (WordEvents s.cfg.swCs all) words wordEvents
      ∧ t.seqPc = u.seqPc + words.length ∧ t.status = { s.status with busy := false, done := true }
      ∧ u.env.clock + waitTime words ≤ t.env.clock

/-- One word more at the front. -/
theorem WordsRun.cons {s u u' t : State} {all : List (Byte × Byte)} {events es : List Event} {w : BitVec 16}
    {words : List (BitVec 16)} {time : Nat} (h : WordsRun s u' all (events ++ es) words t)
    (hw : WordEvents s.cfg.swCs all w es) (hpc : u'.seqPc = u.seqPc + 1) (htime : u.env.clock + time ≤ u'.env.clock)
    (hwait : waitTime (w :: words) = time + waitTime words) : WordsRun s u all events (w :: words) t := by
  obtain ⟨rest, hsteps, htrace, hevents, hseqPc, hstatus, hclock⟩ := h
  have hflat : events ++ (es :: rest).flatten = events ++ es ++ rest.flatten := by
    rw [List.flatten_cons, List.append_assoc]
  refine ⟨es :: rest, ?_, ?_, .cons hw hevents, ?_, hstatus, ?_⟩
  · rw [hflat]
    exact hsteps
  · rw [hflat]
    exact htrace
  · rw [hseqPc, hpc, List.length_cons]
    omega
  · omega

/-- R161: from a state in which the player goes on with the words left, each is run once, in order, and then the command
ends. -/
theorem playSeq_run {s : State} {seg : BitVec 4} {all : List (Byte × Byte)} {more : List Answer}
    (hc : s.cfg.wf = true) (hd : decodeCommand s.curCmd = .ok (.playSeq seg)) (words : List (BitVec 16)) :
    ∀ (answers : List (Byte × Byte)) (events : List Event) (t u : State), Underway s events answers more t →
      exec (.playSeq seg) t = u.playNext (fun s => .next s.succeed) → Kept t u → u.fc.state = t.fc.state →
      u.busBusy = false → u.seqSeg = seg → (s.cfg.segment seg.toNat).drop u.seqPc = words →
      answers.length = writeCount words → answers ⊆ all → ∃ v, WordsRun s u all events words v := by
  induction words with
  | nil =>
    intro answers events t u h he hu hfc hb hseg hdrop hcount hall
    have hnone : u.stepWord = none := by
      rw [State.stepWord, hu.cfg, h.cfg, hseg]
      exact List.getElem?_eq_none (List.drop_eq_nil_iff.1 hdrop)
    obtain ⟨hsteps, htrace, hstatus, -⟩ := h.succeed hd (he.trans (State.playNext_none hnone _)) hu
    have hevents : events ++ ([] : List (List Event)).flatten = events := List.append_nil _
    exact ⟨u.succeed, [], by rw [hevents]; exact hsteps, by rw [hevents]; exact htrace, .nil, rfl, hstatus, Nat.le_refl _⟩
  | cons w words ih =>
    intro answers events t u h he hu hfc hb hseg hdrop hcount hall
    have hcfg : u.cfg = s.cfg := hu.cfg.trans h.cfg
    have hword : u.stepWord = some w := by
      rw [State.stepWord, hcfg, hseg, ← List.head?_drop, hdrop]
      rfl
    have hdrop' : (s.cfg.segment seg.toNat).drop (u.seqPc + 1) = words := by
      rw [← List.drop_drop, hdrop]
      rfl
    obtain ⟨t1, ht1, hrun⟩ := State.playNext_some (by rw [hcfg]; exact hc) hword (fun s => .next s.succeed)
    rcases hrun with ⟨f, g, hw, rfl⟩ | ⟨g, hw, rfl⟩
    · obtain rfl : w = 0#1 ++ f ++ g := Option.some.inj (hword.symm.trans hw)
      rw [writeCount_write] at hcount
      obtain ⟨p, rest, rfl⟩ := List.exists_cons_of_length_eq_add_one hcount
      have h' := h.transact hd (he.trans ht1) hu hfc rfl rfl
      obtain ⟨v, hv⟩ := ih rest _ _ _ h' (exec_playSeq_written rfl (afterTx_answered ..) seg)
        ⟨rfl, rfl, rfl, rfl, rfl, rfl, rfl, rfl, rfl⟩ rfl rfl hseg hdrop' (Nat.succ.inj hcount)
        (fun x hx => hall (List.mem_cons_of_mem p hx))
      exact ⟨v, hv.cons (time := 0) (wordEvents_write (hall List.mem_cons_self)) rfl (Nat.le_refl _)
        (by rw [waitTime_write, Nat.zero_add])⟩
    · obtain rfl : w = 0xFF#8 ++ g := Option.some.inj (hword.symm.trans hw)
      rw [writeCount_wait] at hcount
      obtain ⟨hle, hbound, hclock, -⟩ := u.env.sleep_spec g.toNat
      obtain ⟨ho, hcs⟩ := u.env.sleep_answers g.toNat
      have h' := h.emit hd (he.trans ht1) hu hfc rfl hb (ho.trans (congrArg Env.oracle hu.env))
        (hcs.trans (congrArg Env.csAnswers hu.env))
      obtain ⟨v, hv⟩ := ih answers _ _ _ h' (exec_playSeq_waited rfl seg)
        ⟨rfl, rfl, rfl, rfl, rfl, rfl, rfl, rfl, rfl⟩ rfl hb hseg hdrop' hcount hall
      refine ⟨v, hv.cons (time := g.toNat * 1000) (wordEvents_wait hbound) rfl ?_ (waitTime_wait g words)⟩
      show u.env.clock + _ ≤ (u.env.sleep g.toNat).2.2.clock
      omega

theorem decode_playSeq (seg : BitVec 4) : decodeCommand (0x5#4 ++ 0#24 ++ seg) = .ok (.playSeq seg) :=
  decodeInvertsEncode (.playSeq seg) rfl

/-- Settles O58: the run from the segment's first word. -/
theorem playSeqRunsEveryStepOnce : Obligations.PlaySeqRunsEveryStepOnce := by
  intro seg words answers more s hseg hc hwords hacc hdev hcount ho hcs
  subst hwords
  have hd : decodeCommand s.curCmd = .ok (.playSeq seg) := by
    rw [hacc.2.1]
    exact decode_playSeq seg
  obtain ⟨v, events, hsteps, htrace, hevents, hpc, hstatus, hclock⟩ :=
    playSeq_run hc hd (s.cfg.segment seg.toNat) answers [] s (s.setSeq seg 0) (underway_of_accepted hacc ho hcs)
      (exec_playSeq_start hacc.1 hdev hseg) ⟨rfl, rfl, rfl, rfl, rfl, rfl, rfl, rfl, rfl⟩ rfl
      (underway_of_accepted hacc ho hcs).free rfl rfl hcount (List.Subset.refl answers)
  exact ⟨v, events, hsteps, htrace, hevents, hpc.trans (Nat.zero_add _), hstatus, hclock⟩

end Sys2Proof.Machine
end

section
/-! PROOFS. A whole bring-up with empty segments (R181-R193). -/

namespace Sys2Proof.Machine

open Sys2Proof.Safety

theorem exchanges_append (sw : Bool) (l l' : List (List Byte × Byte × Byte)) :
    Exchanges sw (l ++ l') = Exchanges sw l ++ Exchanges sw l' := List.flatMap_append

/-- A command's step begins a transaction, whose answer p it takes at k next; the registers a bring-up looks at are those of
the state u it began in. -/
def TxTaken (k : Point) (p : Byte × Byte) (u t : State) : Prop :=
  t.point = k ∧ Answered [p.1, p.2] t ∧ t.rrIndex = u.rrIndex ∧ t.rrOut = u.rrOut ∧ t.calVals = u.calVals

theorem Underway.transacted {s t u : State} {events : List Event} {answers : List (Byte × Byte)} {more : List Answer}
    {i : Instr} {p : Byte × Byte} {f : Frame} {k : Point} (h : Underway s events (p :: answers) more t)
    (hd : decodeCommand s.curCmd = .ok i) (he : exec i t = .next (u.transact f k)) (hu : Kept t u)
    (hfc : u.fc = t.fc) (hk : runningPoint k = true) {bytes : List Byte} (hf : f.bytes = bytes)
    (hlen : bytes.length = 2) :
    ∃ t', Underway s (events ++ Exchanges s.cfg.swCs [(bytes, p)]) answers more t' ∧ TxTaken k p u t' := by
  subst hf
  exact ⟨_, h.transact hd he hu (congrArg FcStatus.state hfc) hk hlen, rfl, rfl, rfl, rfl, rfl⟩

theorem atPart_kept (v : Variant) (p : BuPhase) (s : State) : Kept s (atPart v p s) :=
  ⟨rfl, rfl, rfl, rfl, rfl, rfl, rfl, rfl, rfl⟩

theorem setPhase_kept (p : BuPhase) (s : State) : Kept s (s.setPhase p) := ⟨rfl, rfl, rfl, rfl, rfl, rfl, rfl, rfl, rfl⟩

/-- An empty segment is over as soon as it is entered. -/
theorem part_empty {s : State} (hseg : ∀ seg, s.cfg.segment seg = []) (v : Variant) (p : BuPhase)
    (done : State → Result) :
    (s.setPhase p).play (partSegment v (partNumber p)) done = done (atPart v p s) := by
  have hnone : (atPart v p s).stepWord = none := by
    show (s.cfg.segment _)[_]? = none
    rw [hseg]
    rfl
  exact State.playNext_none hnone done

section
variable {s t u : State} {v : Variant} {events : List Event} {answers : List (Byte × Byte)} {more : List Answer}

theorem prologuePart_empty (hseg : ∀ seg, s.cfg.segment seg = []) (v : Variant) :
    prologuePart v s = branchAPart v (atPart v .prologue s) := part_empty hseg v .prologue _

theorem midPart_empty (hseg : ∀ seg, s.cfg.segment seg = []) (v : Variant) :
    midPart v s = branchBPart v (atPart v .mid s) := part_empty hseg v .mid _

theorem subPart_empty (hseg : ∀ seg, s.cfg.segment seg = []) (v : Variant) :
    subPart v s = writebackPart v (atPart v .sub s) := part_empty hseg v .sub _

theorem tailPart_empty (hseg : ∀ seg, s.cfg.segment seg = []) (v : Variant) :
    tailPart v s = identityCheck (atPart v .trailer (atPart v .tail s)) :=
  (part_empty hseg v .tail _).trans (part_empty (s := atPart v .tail s) hseg v .trailer _)

/-- The registers when the identity check begins past an empty tail and an empty trailer. -/
def identityRegs (v : Variant) (s : State) : State :=
  (((atPart v .trailer (atPart v .tail s)).setPhase .idCheck).setRrOut []).setRrIndex 0

theorem collected_kept (b : Byte) (s : State) : Kept s (s.collected b) := ⟨rfl, rfl, rfl, rfl, rfl, rfl, rfl, rfl, rfl⟩

theorem setRr_kept (s : State) : Kept s ((s.setRrOut []).setRrIndex 0) := ⟨rfl, rfl, rfl, rfl, rfl, rfl, rfl, rfl, rfl⟩

theorem identityRegs_kept (v : Variant) (s : State) : Kept s (identityRegs v s) :=
  ((atPart_kept v .tail s).trans (atPart_kept v .trailer _)).trans ((setPhase_kept .idCheck _).trans (setRr_kept _))

theorem atPart_fc (v : Variant) (p : BuPhase) (s : State) : (atPart v p s).fc = s.fc := rfl

theorem identityRegs_fc (v : Variant) (s : State) : (identityRegs v s).fc = s.fc :=
  (atPart_fc v .trailer _).trans (atPart_fc v .tail s)

/-! ### Reset, wait and flush -/

theorem bringUp_flushNext {p q : Byte × Byte} {n : Nat} {b : Byte} (h : Underway s events (q :: answers) more t)
    (hd : decodeCommand s.curCmd = .ok (.bringUp v)) (ht : TxTaken .flushRead p u t) (hi : t.rrIndex = BitVec.ofNat 8 n)
    (hn : n < 4) (hb : (Frame.read (0x02 + BitVec.ofNat 7 (n + 1))).bytes = [b, 0]) :
    ∃ t' u', Underway s (events ++ Exchanges s.cfg.swCs [([b, 0], q)]) answers more t' ∧ TxTaken .flushRead q u' t'
      ∧ t'.rrIndex = BitVec.ofNat 8 (n + 1) := by
  obtain ⟨hp, ha, -⟩ := ht
  have hindex : t.rrIndex.toNat = n := by
    rw [hi, BitVec.toNat_ofNat]
    omega
  have hexec := exec_bringUp_flushMore hp ha (by omega) v
  unfold State.readAt at hexec
  rw [hindex] at hexec
  obtain ⟨t', h', ht'⟩ := h.transacted hd hexec ⟨rfl, rfl, rfl, rfl, rfl, rfl, rfl, rfl, rfl⟩ rfl rfl hb rfl
  exact ⟨t', _, h', ht', ht'.2.2.1⟩

/-- R182: the reset write, and the sleep that follows it. -/
theorem bringUp_reset {q : Byte × Byte} (h : Underway s [] (q :: answers) more s)
    (hd : decodeCommand s.curCmd = .ok (.bringUp v)) (hp : s.point = .start) (hdev : s.dev.state = .uninit) :
    ∃ t before after,
      Underway s (Exchanges s.cfg.swCs [([0xBA, 0x5A], q)] ++ [.sleep 20 before after]) answers more t
        ∧ t.point = .resetWaited ∧ before + 20000 ≤ after := by
  obtain ⟨t, h', hpt, ha, -⟩ := h.transacted hd (exec_bringUp_start hp hdev v)
    ⟨rfl, rfl, rfl, rfl, rfl, rfl, rfl, rfl, rfl⟩ rfl rfl (bytes := [0xBA, 0x5A]) rfl rfl
  obtain ⟨ho, hcs⟩ := t.env.sleep_answers 20
  exact ⟨_, _, _, h'.emit hd (exec_bringUp_resetWritten hpt ha v) ⟨rfl, rfl, rfl, rfl, rfl, rfl, rfl, rfl, rfl⟩ rfl rfl rfl
    ho hcs, rfl, (t.env.sleep_spec 20).2.1⟩

/-- R183: the five reads of the flush. -/
theorem bringUp_flush {f1 f2 f3 f4 f5 : Byte × Byte}
    (h : Underway s events (f1 :: f2 :: f3 :: f4 :: f5 :: answers) more t)
    (hd : decodeCommand s.curCmd = .ok (.bringUp v)) (hp : t.point = .resetWaited) :
    ∃ t' u', Underway s (events ++ Exchanges s.cfg.swCs
          [([0x02, 0], f1), ([0x03, 0], f2), ([0x04, 0], f3), ([0x05, 0], f4), ([0x06, 0], f5)]) answers more t'
      ∧ TxTaken .flushRead f5 u' t' ∧ t'.rrIndex = 4 := by
  obtain ⟨t1, h1, ht1⟩ := h.transacted hd (exec_bringUp_resetWaited hp v) ⟨rfl, rfl, rfl, rfl, rfl, rfl, rfl, rfl, rfl⟩ rfl
    rfl (bytes := [0x02, 0]) rfl rfl
  obtain ⟨t2, u2, h2, ht2, hi2⟩ := bringUp_flushNext (n := 0) (b := 0x03) h1 hd ht1 ht1.2.2.1 (by decide) rfl
  obtain ⟨t3, u3, h3, ht3, hi3⟩ := bringUp_flushNext (b := 0x04) h2 hd ht2 hi2 (by decide) rfl
  obtain ⟨t4, u4, h4, ht4, hi4⟩ := bringUp_flushNext (b := 0x05) h3 hd ht3 hi3 (by decide) rfl
  obtain ⟨t5, u5, h5, ht5, hi5⟩ := bringUp_flushNext (b := 0x06) h4 hd ht4 hi4 (by decide) rfl
  refine ⟨t5, u5, ?_, ht5, hi5⟩
  simp only [List.append_assoc, ← exchanges_append] at h5
  exact h5

/-! ### The branches -/

/-- R187, R188: branch A's read and write, and branch B's read of the status byte. -/
theorem bringUp_branchA {p d c st : Byte × Byte} (h : Underway s events (d :: c :: st :: answers) more t)
    (hd : decodeCommand s.curCmd = .ok (.bringUp v)) (hseg : ∀ seg, s.cfg.segment seg = [])
    (ht : TxTaken .flushRead p u t) (hi : t.rrIndex = 4) :
    ∃ t' u', Underway s (events ++ Exchanges s.cfg.swCs
          [([0#1 ++ (s.cfg.regs v).diag, 0], d), ([1#1 ++ (s.cfg.regs v).cfg, if d.2.getLsbD 7 then 0x04 else 0x02], c),
            ([0#1 ++ (s.cfg.regs v).stat, 0], st)]) answers more t'
      ∧ TxTaken .statRead st u' t' := by
  obtain ⟨hp, ha, -⟩ := ht
  have hdiag := (exec_bringUp_flushEnd hp ha (by rw [hi]; decide) v).trans
    (prologuePart_empty (s := t.collected (readResult [p.1, p.2])) (by rw [← h.cfg] at hseg; exact hseg) v)
  obtain ⟨t1, h1, hp1, ha1, -⟩ := h.transacted hd hdiag
    ((collected_kept _ t).trans ((atPart_kept v .prologue _).trans (setPhase_kept .branchA _))) (atPart_fc v .prologue _) rfl
    (bytes := [0#1 ++ (s.cfg.regs v).diag, 0]) (by rw [← h.cfg]; rfl) rfl
  obtain ⟨t2, h2, hp2, ha2, -⟩ := h1.transacted hd (exec_bringUp_diagRead hp1 ha1 v)
    ⟨rfl, rfl, rfl, rfl, rfl, rfl, rfl, rfl, rfl⟩ rfl rfl
    (bytes := [1#1 ++ (s.cfg.regs v).cfg, if d.2.getLsbD 7 then 0x04 else 0x02]) (by rw [← h1.cfg]; rfl) rfl
  have hstat := (exec_bringUp_cfgWritten hp2 ha2 v).trans
    (midPart_empty (s := t2.taken) (by rw [← h2.cfg] at hseg; exact hseg) v)
  obtain ⟨t3, h3, ht3⟩ := h2.transacted hd hstat
    ((taken_kept t2).trans ((atPart_kept v .mid _).trans (setPhase_kept .branchB _))) (atPart_fc v .mid _) rfl
    (bytes := [0#1 ++ (s.cfg.regs v).stat, 0]) (by rw [← h2.cfg]; rfl) rfl
  refine ⟨t3, _, ?_, ht3⟩
  simp only [List.append_assoc, ← exchanges_append] at h3
  exact h3

/-- The registers when the write-back is reached past an empty sub-sequence. -/
def writebackRegs (v : Variant) (c2 : Byte) (s : State) : State := atPart v .sub (adjustRegs c2 s.taken)

theorem adjustRegs_kept (c2 : Byte) (s : State) : Kept s (adjustRegs c2 s) := ⟨rfl, rfl, rfl, rfl, rfl, rfl, rfl, rfl, rfl⟩

theorem writebackRegs_kept (v : Variant) (c2 : Byte) (s : State) : Kept s (writebackRegs v c2 s) :=
  ((taken_kept s).trans (adjustRegs_kept c2 _)).trans (atPart_kept v .sub _)

theorem writebackRegs_fc (v : Variant) (c2 : Byte) (s : State) : (writebackRegs v c2 s).fc = s.fc :=
  atPart_fc v .sub (adjustRegs c2 s.taken)

theorem writebackRegs_calVals (v : Variant) (c2 : Byte) (s : State) :
    (writebackRegs v c2 s).calVals = { s.calVals with
      c2Raw := c2, c1Adj := BitVec.ofNat 8 (adjC1 s.cfg.c1Mode s.calVals.c1Raw.toNat),
      c2Adj := BitVec.ofNat 8 (adjC2 c2.toNat) } := by
  simp [writebackRegs, atPart, adjustRegs]

/-- R184, R185, R188: branch B's two reads and two write-backs. -/
theorem bringUp_branchB {st c1 c2 w1 w2 : Byte × Byte}
    (h : Underway s events (c1 :: c2 :: w1 :: w2 :: answers) more t)
    (hd : decodeCommand s.curCmd = .ok (.bringUp v)) (hseg : ∀ seg, s.cfg.segment seg = [])
    (ht : TxTaken .statRead st u t) (hst : st.2 = 0x00) :
    ∃ t' u', Underway s (events ++ Exchanges s.cfg.swCs
          [([0#1 ++ (s.cfg.regs v).c1, 0], c1), ([0#1 ++ (s.cfg.regs v).c2, 0], c2),
            ([1#1 ++ (s.cfg.regs v).c1Dst, BitVec.ofNat 8 (adjC1 s.cfg.c1Mode c1.2.toNat)], w1),
            ([1#1 ++ (s.cfg.regs v).c2Dst, BitVec.ofNat 8 (c2.2.toNat * 45 / 100)], w2)]) answers more t'
      ∧ TxTaken .c2Written w2 u' t' := by
  obtain ⟨hp, ha, -⟩ := ht
  rw [hst] at ha
  obtain ⟨t1, h1, hp1, ha1, -, -, hcal1⟩ := h.transacted hd (exec_bringUp_statTaken hp ha v)
    ⟨rfl, rfl, rfl, rfl, rfl, rfl, rfl, rfl, rfl⟩ rfl rfl (bytes := [0#1 ++ (s.cfg.regs v).c1, 0])
    (by rw [← h.cfg]; rfl) rfl
  obtain ⟨t2, h2, hp2, ha2, -, -, hcal2⟩ := h1.transacted hd (exec_bringUp_c1Read hp1 ha1 v)
    ⟨rfl, rfl, rfl, rfl, rfl, rfl, rfl, rfl, rfl⟩ rfl rfl (bytes := [0#1 ++ (s.cfg.regs v).c2, 0])
    (by rw [← h1.cfg]; rfl) rfl
  have hraw : t2.calVals.c1Raw = c1.2 := by rw [hcal2]; rfl
  have hvals := writebackRegs_calVals v c2.2 t2
  have hwrite1 := (exec_bringUp_c2Read hp2 ha2 v).trans
    (subPart_empty (s := adjustRegs c2.2 t2.taken) (by rw [← h2.cfg] at hseg; exact hseg) v)
  obtain ⟨t3, h3, hp3, ha3, -, -, hcal3⟩ := h2.transacted hd hwrite1
    ((writebackRegs_kept v c2.2 t2).trans (setPhase_kept .writeback _)) (writebackRegs_fc v c2.2 t2) rfl
    (bytes := [1#1 ++ (s.cfg.regs v).c1Dst, BitVec.ofNat 8 (adjC1 s.cfg.c1Mode c1.2.toNat)])
    (by rw [← h2.cfg, ← hraw]; exact congrArg (fun x => [1#1 ++ (t2.cfg.regs v).c1Dst, CalValues.c1Adj x]) hvals) rfl
  have hadj : t3.calVals.c2Adj = BitVec.ofNat 8 (c2.2.toNat * 45 / 100) := by
    rw [hcal3]
    exact congrArg CalValues.c2Adj hvals
  obtain ⟨t4, h4, ht4⟩ := h3.transacted hd (exec_bringUp_c1Written hp3 ha3 v)
    ⟨rfl, rfl, rfl, rfl, rfl, rfl, rfl, rfl, rfl⟩ rfl rfl
    (bytes := [1#1 ++ (s.cfg.regs v).c2Dst, BitVec.ofNat 8 (c2.2.toNat * 45 / 100)])
    (by rw [← h3.cfg, ← hadj]; rfl) rfl
  refine ⟨t4, _, ?_, ht4⟩
  simp only [List.append_assoc, ← exchanges_append] at h4
  exact h4

/-! ### The identity check -/

/-- The two reads of the identity check, and the end they decide. -/
def IdentityDecides (s : State) (events : List Event) (p r : Byte × Byte) (t : State) : Prop :=
  steps ((events ++ Exchanges s.cfg.swCs [([0x00, 0], p), ([0x01, 0], r)]).length + 1) s = .next t
    ∧ t.trace = s.trace ++ (events ++ Exchanges s.cfg.swCs [([0x00, 0], p), ([0x01, 0], r)])
        ++ [.ended (if p.2 = 0x49 ∧ (r.2 = 0x00 ∨ r.2 = 0x01) then .none else .identityMismatch)]
    ∧ t.dev.state = if p.2 = 0x49 ∧ (r.2 = 0x00 ∨ r.2 = 0x01) then .ready else .failed

/-- R186, R189: past the empty tail and trailer the identity check ends the bring-up. -/
theorem bringUp_identity {w : State} {p r : Byte × Byte} (h : Underway s events [p, r] more t)
    (hd : decodeCommand s.curCmd = .ok (.bringUp v)) (hseg : ∀ seg, s.cfg.segment seg = [])
    (he : exec (.bringUp v) t = tailPart v w) (hw : Kept t w) (hfc : w.fc = t.fc) :
    ∃ t', IdentityDecides s events p r t' := by
  have hseg' : ∀ seg, w.cfg.segment seg = [] := by
    rw [hw.cfg, h.cfg]
    exact hseg
  have hfirst := he.trans (tailPart_empty hseg' v)
  rw [identityCheck, State.readRegsBegin_eq, ← identityRegs] at hfirst
  obtain ⟨t1, h1, hp1, ha1, hi1, hout1, -⟩ := h.transacted hd hfirst
    (hw.trans (identityRegs_kept v w)) ((identityRegs_fc v w).trans hfc) rfl (bytes := [0x00, 0]) rfl rfl
  have hi1' : t1.rrIndex = 0 := hi1
  have hsecond := exec_bringUp_idFirst hp1 ha1 hi1' v
  rw [hi1'] at hsecond
  obtain ⟨t2, h2, hp2, ha2, hi2, hout2, -⟩ := h1.transacted hd hsecond
    ⟨rfl, rfl, rfl, rfl, rfl, rfl, rfl, rfl, rfl⟩ rfl rfl (bytes := [0x01, 0]) rfl rfl
  have hout : t2.rrOut = [p.2] := by
    rw [hout2]
    show t1.rrOut ++ [p.2] = _
    rw [hout1]
    rfl
  have hend := exec_bringUp_idSecond hp2 ha2 hi2 v
  simp only [List.append_assoc, ← exchanges_append] at h2
  unfold IdentityDecides
  simp only [← identityOk_iff]
  cases hok : identityOk p.2 r.2 with
  | true =>
    have hkept : Kept t2 (t2.matched p.2 r.2) := by
      rw [State.matched_frame]
      exact ⟨rfl, rfl, rfl, rfl, rfl, rfl, rfl, rfl, rfl⟩
    obtain ⟨hsteps, htrace, -, -⟩ := h2.succeed hd (hend.trans (identityVerdict_match hout hok)) hkept
    refine ⟨_, hsteps, htrace, ?_⟩
    rw [State.matched_frame]
    rfl
  | false =>
    have hkept : Kept t2 (t2.identified p.2 r.2).markFailed := by
      rw [State.markFailed_identified]
      exact ⟨rfl, rfl, rfl, rfl, rfl, rfl, rfl, rfl, rfl⟩
    obtain ⟨hsteps, htrace⟩ := h2.raise hd (hend.trans (identityVerdict_mismatch hout hok)) hkept
    refine ⟨_, hsteps, htrace, ?_⟩
    rw [State.markFailed_identified]
    rfl

theorem decode_bringUp (v : Variant) : decodeCommand (0x6#4 ++ 0#27 ++ v.bit) = .ok (.bringUp v) :=
  decodeInvertsEncode (.bringUp v) rfl

end

/-- Settles O59: the parts of the bring-up one after the other, with and without branch B. -/
theorem bringUpRunsItsFixedOrder : Obligations.BringUpRunsItsFixedOrder := by
  intro v s more reset f1 f2 f3 f4 f5 d c st c1 c2 w1 w2 p r hacc hdev hc hseg
  have hd : decodeCommand s.curCmd = .ok (.bringUp v) := by
    rw [hacc.2.1]
    exact decode_bringUp v
  refine ⟨fun hst ho hcs => ?_, fun hst ho hcs => ?_⟩
  · obtain ⟨t1, before, after, h1, hp1, hsleep⟩ := bringUp_reset (underway_of_accepted hacc ho hcs) hd hacc.1 hdev
    obtain ⟨t2, u2, h2, ht2, hi2⟩ := bringUp_flush h1 hd hp1
    obtain ⟨t3, u3, h3, ⟨hp3, ha3, -⟩⟩ := bringUp_branchA h2 hd hseg ht2 hi2
    obtain ⟨t4, hsteps, htrace, hstate⟩ := bringUp_identity h3 hd hseg (exec_bringUp_statNotTaken hp3 ha3 hst v)
      ⟨rfl, rfl, rfl, rfl, rfl, rfl, rfl, rfl, rfl⟩ rfl
    simp only [List.append_assoc, ← exchanges_append] at hsteps htrace
    refine ⟨t4, before, after, _, rfl, ?_, ?_, hsleep, hstate⟩
    all_goals simp only [List.append_assoc]
    · exact hsteps
    · exact htrace
  · obtain ⟨t1, before, after, h1, hp1, hsleep⟩ := bringUp_reset (underway_of_accepted hacc ho hcs) hd hacc.1 hdev
    obtain ⟨t2, u2, h2, ht2, hi2⟩ := bringUp_flush h1 hd hp1
    obtain ⟨t3, u3, h3, ht3⟩ := bringUp_branchA h2 hd hseg ht2 hi2
    obtain ⟨t4, u4, h4, ⟨hp4, ha4, -⟩⟩ := bringUp_branchB h3 hd hseg ht3 hst
    obtain ⟨t5, hsteps, htrace, hstate⟩ := bringUp_identity h4 hd hseg (exec_bringUp_c2Written hp4 ha4 v)
      ⟨rfl, rfl, rfl, rfl, rfl, rfl, rfl, rfl, rfl⟩ rfl
    simp only [List.append_assoc, ← exchanges_append] at hsteps htrace
    refine ⟨t5, before, after, _, rfl, ?_, ?_, hsleep, hstate⟩
    all_goals simp only [List.append_assoc]
    · exact hsteps
    · exact htrace

end Sys2Proof.Machine
end

section
/-! PROOFS. A whole stream of 1225 pixels (R243, R244, R248, R249). -/

namespace Sys2Proof.Machine

open Sys2Proof.Safety

/-! ### The two fragments of a pixel -/

theorem fragment_tag (tag : BitVec 2) (x : BitVec 6) : (tag ++ x : Byte).extractLsb' 6 2 = tag :=
  BitVec.extractLsb'_append_eq_left

theorem fragment_payload (tag : BitVec 2) (x : BitVec 6) : (tag ++ x : Byte).extractLsb' 0 6 = x :=
  BitVec.extractLsb'_append_eq_right

theorem State.storePixel_pixelBytes {s : State} (h : s.fc.pixelCount < Config.framePixels) (v : Byte) (x : FcStatus)
    (k : Nat) : (s.storePixel v x).pixelByte k = if k = s.fc.pixelCount then v else s.pixelByte k := by
  by_cases hk : k = s.fc.pixelCount
  · rw [if_pos hk, hk]
    exact State.storePixel_pixelByte h v x
  · rw [if_neg hk]
    refine State.storePixel_memSameOutside v x s _ fun hx => hk ?_
    have hbase : pixelBase = 0x800 := rfl
    omega

/-- R243: what an upper fragment accumulated leaves. -/
theorem fragmentRegs_upperByte {s : State} (h : s.fc.pixelCount < Config.framePixels) (u : BitVec 6) :
    (fragmentRegs (0b01#2 ++ u) s).fc = s.fc.upper
      ∧ ∀ k, (fragmentRegs (0b01#2 ++ u) s).pixelByte k = if k = s.fc.pixelCount then upperPixel u else s.pixelByte k := by
  rw [fragmentRegs_upper (fragment_tag 0b01#2 u), fragment_payload]
  exact ⟨rfl, State.storePixel_pixelBytes h _ _⟩

/-- R243: what a lower fragment accumulated leaves. -/
theorem fragmentRegs_lowerByte {s : State} (h : s.fc.pixelCount < Config.framePixels) (l : BitVec 6) :
    (fragmentRegs (0b10#2 ++ l) s).fc = s.fc.lower
      ∧ ∀ k, (fragmentRegs (0b10#2 ++ l) s).pixelByte k = if k = s.fc.pixelCount then
          lowerPixel (s.pixelByte s.fc.pixelCount) (lowerPayload s.cfg.lowerSrc l) else s.pixelByte k := by
  rw [fragmentRegs_lower (fragment_tag 0b10#2 l), fragment_payload]
  exact ⟨rfl, State.storePixel_pixelBytes h _ _⟩

/-! ### A read of the stream -/

/-- A reading leaves the answers to come alone. -/
theorem Env.now_answers (e : Env) : e.now.2.oracle = e.oracle ∧ e.now.2.csAnswers = e.csAnswers := by
  unfold Env.now
  split <;> exact ⟨rfl, rfl⟩

theorem Env.now_cons {e : Env} {d : Nat} {rest : List Nat} (h : e.nowSteps = d :: rest) :
    e.now.2.clock = e.clock + d ∧ e.now.2.nowSteps = rest := by
  simp only [Env.now, h, and_self]

/-- The command's step is a reading of the clock. -/
theorem Underway.now {s t u : State} {events : List Event} {answers : List (Byte × Byte)} {more : List Answer} {i : Instr}
    {k : Point} (h : Underway s events answers more t) (hd : decodeCommand s.curCmd = .ok i)
    (he : exec i t = .next (u.nowEvent.setPoint k)) (hu : Kept t u) (hfc : u.fc.state = t.fc.state)
    (hk : runningPoint k = true) (hb : u.busBusy = false) :
    Underway s (events ++ [.now u.env.now.1]) answers more (u.nowEvent.setPoint k) :=
  h.emit hd he hu hfc hk hb (u.env.now_answers.1.trans (congrArg Env.oracle hu.env))
    (u.env.now_answers.2.trans (congrArg Env.csAnswers hu.env))

/-- A capture streams, and its last read has been answered p: the clock readings to come stay within the deadline. -/
structure Streams (s : State) (T : BitVec 24) (events : List Event) (answers : List (Byte × Byte)) (more : List Answer)
    (advances moreSteps : List Nat) (p : Byte × Byte) (t : State) : Prop where
  way : Underway s events answers more t
  point : t.point = .fragmentRead
  answered : Answered [p.1, p.2] t
  nowSteps : t.env.nowSteps = advances ++ moreSteps
  deadline : t.env.clock + advances.sum ≤ t.t0 + T.toNat * 1000

/-- The registers after a byte read has been accumulated. -/
def State.accumulated (f : Byte) (s : State) : State := fragmentRegs f s.taken

theorem State.accumulated_frame (f : Byte) (s : State) :
    s.accumulated f = { s with
      fc := (s.accumulated f).fc, mem := (s.accumulated f).mem, tx := Taken s, csLevel := TakenLevel s } :=
  fragmentRegs_frame f s.taken

theorem exec_capture_accumulated {s : State} {x f : Byte} (hp : s.point = .fragmentRead) (ha : Answered [x, f] s)
    (T : BitVec 24) : exec (.frameCapture T) s = captureAfter (s.accumulated f) := exec_capture_fragment hp ha T

theorem accumulated_kept (f : Byte) (s : State) : Kept s (s.accumulated f) :=
  (taken_kept s).trans (fragmentRegs_kept f _)

theorem accumulated_free (f : Byte) (s : State) : (s.accumulated f).busBusy = false := by
  rw [State.accumulated_frame]
  rfl

theorem accumulated_t0 (f : Byte) (s : State) : (s.accumulated f).t0 = s.t0 := by
  rw [State.accumulated_frame]

theorem readGrab_bytes : (Frame.read Config.grabReg).bytes = [0x58, 0x00] := rfl

section
variable {s t : State} {T : BitVec 24} {events : List Event} {answers : List (Byte × Byte)} {more : List Answer}
  {advances moreSteps : List Nat} {p q : Byte × Byte}

theorem Underway.fcState (h : Underway s events answers more t) : t.fc.state = s.fc.state :=
  h.stands _ _ (Nat.le_refl _) h.steps

/-- R251: within the deadline the stream is read again. -/
theorem Underway.readsAgain {v : State} (h : Underway s events (q :: answers) more v)
    (hd : decodeCommand s.curCmd = .ok (.frameCapture T)) (hsleep : s.cfg.framePollSleepMs = 0)
    (hp : v.point = .streamClockRead) (hdeadline : v.env.clock + advances.sum ≤ v.t0 + T.toNat * 1000)
    (hnow : v.env.nowSteps = advances ++ moreSteps) :
    ∃ t', Streams s T (events ++ Exchanges s.cfg.swCs [([0x58, 0x00], q)]) answers more advances moreSteps q t'
      ∧ t'.fc = v.fc ∧ ∀ k, t'.pixelByte k = v.pixelByte k := by
  have hexec := exec_capture_streamAgain (T := T) hp
    (Nat.sub_le_iff_le_add'.2 (Nat.le_trans (Nat.le_add_right _ _) hdeadline))
  rw [State.pollAgain_attempt (by rw [h.cfg]; exact hsleep)] at hexec
  have h' := h.transact hd hexec (Kept.refl v) rfl rfl rfl
  rw [readGrab_bytes] at h'
  exact ⟨_, ⟨h', rfl, afterTx_answered .., hnow, hdeadline⟩, rfl, fun k => rfl⟩

/-- R249, R251: short of 1225 pixels, and within the deadline, the stream is read again. -/
theorem Streams.goesOn {d : Nat} (h : Streams s T events (q :: answers) more (d :: advances) moreSteps p t)
    (hd : decodeCommand s.curCmd = .ok (.frameCapture T)) (hsleep : s.cfg.framePollSleepMs = 0)
    (hcount : (t.accumulated p.2).fc.pixelCount ≠ 1225) (hstate : (t.accumulated p.2).fc.state = t.fc.state) :
    ∃ t' now,
      Streams s T (events ++ [.now now] ++ Exchanges s.cfg.swCs [([0x58, 0x00], q)]) answers more advances moreSteps q t'
      ∧ t'.fc = (t.accumulated p.2).fc ∧ ∀ k, t'.pixelByte k = (t.accumulated p.2).pixelByte k := by
  have hkept := accumulated_kept p.2 t
  have hexec := (exec_capture_accumulated h.point h.answered T).trans (captureAfter_goesOn hcount)
  have hnow : (t.accumulated p.2).env.nowSteps = d :: (advances ++ moreSteps) := by
    rw [hkept.env]
    exact h.nowSteps
  obtain ⟨hclock, hrest⟩ := Env.now_cons hnow
  have hdeadline := h.deadline
  rw [List.sum_cons, ← accumulated_t0 p.2 t, ← hkept.env, ← Nat.add_assoc, ← hclock] at hdeadline
  have hfree := accumulated_free p.2 t
  generalize t.accumulated p.2 = u at *
  have hway := h.way.now hd hexec hkept hstate rfl hfree
  obtain ⟨t', h', hfc, hpix⟩ := hway.readsAgain hd hsleep rfl hdeadline hrest
  exact ⟨t', _, h', hfc, hpix⟩

end

/-! ### The run -/

/-- The answers to the two reads of a pixel: the first byte, and the payload of the upper and of the lower fragment. -/
abbrev PixelAnswers : Type := (Byte × BitVec 6) × (Byte × BitVec 6)

/-- The answers to the reads of the pixels' fragments. -/
def fragmentAnswers (pixels : List PixelAnswers) : List (Byte × Byte) :=
  pixels.flatMap (fun p => [(p.1.1, 0b01#2 ++ p.1.2), (p.2.1, 0b10#2 ++ p.2.2)])

theorem fragmentAnswers_cons (x : PixelAnswers) (pixels : List PixelAnswers) :
    fragmentAnswers (x :: pixels)
      = (x.1.1, 0b01#2 ++ x.1.2) :: (x.2.1, 0b10#2 ++ x.2.2) :: fragmentAnswers pixels := rfl

theorem fragmentAnswers_length (pixels : List PixelAnswers) :
    (fragmentAnswers pixels).length = 2 * pixels.length := by
  induction pixels with
  | nil => rfl
  | cons x pixels ih =>
    rw [fragmentAnswers_cons, List.length_cons, List.length_cons, List.length_cons, ih]
    omega

/-- The exchange of a read of the stream. -/
def grabEvent (p : Byte × Byte) : Event := .xfer [0x58, 0x00] (some [p.1, p.2])

theorem exchanges_filter (sw : Bool) (p : Byte × Byte) :
    (Exchanges sw [([0x58, 0x00], p)]).filter isExchange = [grabEvent p] := by
  cases sw <;> rfl

/-- R244: the value of a pixel. -/
def pixelOf (src : LowerSrc) (x : PixelAnswers) : Byte :=
  lowerPixel (upperPixel x.1.2) (lowerPayload src x.2.2)

/-- R243, R244: from t to w the two fragments of the pixel x have been accumulated. -/
def PairBuilt (src : LowerSrc) (x : PixelAnswers) (t w : State) : Prop :=
  w.fc = { t.fc with pixelCount := t.fc.pixelCount + 1 }
    ∧ ∀ k, w.pixelByte k = if k = t.fc.pixelCount then pixelOf src x else t.pixelByte k

theorem pairBuilt_of_accumulated {t t1 : State} {x : PixelAnswers}
    (hcount : t.fc.pixelCount < 1225) (hup : t.fc.haveUpper = false)
    (hfc : t1.fc = (t.accumulated (0b01#2 ++ x.1.2)).fc)
    (hpix : ∀ k, t1.pixelByte k = (t.accumulated (0b01#2 ++ x.1.2)).pixelByte k) :
    PairBuilt t1.cfg.lowerSrc x t (t1.accumulated (0b10#2 ++ x.2.2)) := by
  obtain ⟨hfc1, hpix1⟩ := fragmentRegs_upperByte (s := t.taken) hcount x.1.2
  have hfc1' : t1.fc = t.fc.upper := hfc.trans hfc1
  have hcount1 : t1.taken.fc.pixelCount = t.fc.pixelCount := by
    show t1.fc.pixelCount = _
    rw [hfc1']
    rfl
  obtain ⟨hfc2, hpix2⟩ := fragmentRegs_lowerByte (s := t1.taken) (by rw [hcount1]; exact hcount) x.2.2
  have hbyte : ∀ k, t1.taken.pixelByte k = if k = t.fc.pixelCount then upperPixel x.1.2 else t.pixelByte k :=
    fun k => (hpix k).trans (hpix1 k)
  refine ⟨?_, fun k => ?_⟩
  · refine hfc2.trans ?_
    show t1.fc.lower = _
    rw [hfc1']
    exact FcStatus.upper_lower hup
  · refine (hpix2 k).trans ?_
    rw [hcount1, hbyte, if_pos rfl, hbyte]
    by_cases hk : k = t.fc.pixelCount
    · rw [if_pos hk, if_pos hk]
      rfl
    · rw [if_neg hk, if_neg hk, if_neg hk]

/-- R248, R249: from t to u the stream has built the pixels, and the capture is complete. -/
structure PixelsBuilt (src : LowerSrc) (pixels : List PixelAnswers) (t u : State) : Prop where
  state : u.fc.state = .complete
  count : u.fc.pixelCount = t.fc.pixelCount + pixels.length
  orderErr : u.fc.orderErr = t.fc.orderErr
  below : ∀ k, k < t.fc.pixelCount → u.pixelByte k = t.pixelByte k
  pixel : ∀ k x, pixels[k]? = some x → u.pixelByte (t.fc.pixelCount + k) = pixelOf src x

theorem PixelsBuilt.cons {src : LowerSrc} {x : PixelAnswers}
    {pixels : List PixelAnswers} {t w u : State} (hw : PairBuilt src x t w)
    (h : PixelsBuilt src pixels w u) : PixelsBuilt src (x :: pixels) t u := by
  obtain ⟨hfc, hpix⟩ := hw
  have hcount : w.fc.pixelCount = t.fc.pixelCount + 1 := by rw [hfc]
  refine ⟨h.state, ?_, ?_, fun k hk => ?_, fun k y hy => ?_⟩
  · rw [h.count, hcount, List.length_cons]
    omega
  · rw [h.orderErr, hfc]
  · rw [h.below k (by omega), hpix, if_neg (by omega)]
  · cases k with
    | zero =>
      cases hy
      rw [Nat.add_zero, h.below _ (by omega), hpix, if_pos rfl]
    | succ k =>
      rw [← h.pixel k y hy, hcount]
      congr 1
      omega

/-- What the run of a stream from s leaves after some events: the further ones, and the success end. -/
structure Finishes (s : State) (events : List Event) (answers : List (Byte × Byte)) (later : List Event) (u : State) :
    Prop where
  steps : steps ((events ++ later).length + 1) s = .next u
  stands : CaptureStands (events ++ later).length s
  trace : u.trace = s.trace ++ (events ++ later) ++ [.ended .none]
  length : later.length = (2 + laterSteps s.cfg.swCs) * answers.length
  exchanges : later.filter isExchange = answers.map grabEvent
  status : u.status = { s.status with busy := false, done := true }

/-- One read more, after the clock's reading. -/
theorem Finishes.read {s u : State} {events later : List Event} {answers : List (Byte × Byte)} {now : Nat} {q : Byte × Byte}
    (h : Finishes s (events ++ [.now now] ++ Exchanges s.cfg.swCs [([0x58, 0x00], q)]) answers later u) :
    Finishes s events (q :: answers) ([.now now] ++ Exchanges s.cfg.swCs [([0x58, 0x00], q)] ++ later) u := by
  have hevents : events ++ ([.now now] ++ Exchanges s.cfg.swCs [([0x58, 0x00], q)] ++ later)
      = events ++ [.now now] ++ Exchanges s.cfg.swCs [([0x58, 0x00], q)] ++ later := by
    simp only [List.append_assoc]
  refine ⟨by rw [hevents]; exact h.steps, by rw [hevents]; exact h.stands, by rw [hevents]; exact h.trace, ?_, ?_, h.status⟩
  · rw [List.length_append, List.length_append, exchanges_length, h.length, List.length_singleton,
      List.length_cons (a := q)]
    ring
  · rw [List.filter_append, List.filter_append, exchanges_filter, h.exchanges]
    rfl

section
variable {s t : State} {T : BitVec 24} {events : List Event} {answers : List (Byte × Byte)} {more : List Answer}
  {advances moreSteps : List Nat} {p : Byte × Byte}

/-- R249: at 1225 pixels the capture is complete, and the command ends. -/
theorem Streams.completes {src : LowerSrc} {w : State} {x : PixelAnswers}
    (h : Streams s T events [] more advances moreSteps p t) (hd : decodeCommand s.curCmd = .ok (.frameCapture T))
    (hpair : PairBuilt src x w (t.accumulated p.2)) (hcount : w.fc.pixelCount + 1 = 1225) :
    ∃ u, Finishes s events [] [] u ∧ PixelsBuilt src [x] w u := by
  have hkept := accumulated_kept p.2 t
  obtain ⟨hfc, hpix⟩ := hpair
  have hfull : (t.accumulated p.2).fc.pixelCount = 1225 := by
    rw [hfc]
    exact hcount
  have hexec := (exec_capture_accumulated h.point h.answered T).trans (captureAfter_complete hfull)
  generalize t.accumulated p.2 = v at *
  obtain ⟨hsteps, htrace, hstatus, -⟩ := h.way.succeed hd hexec
    (hkept.trans (v := v.setFcState .complete) ⟨rfl, rfl, rfl, rfl, rfl, rfl, rfl, rfl, rfl⟩)
  have hbuilt : PixelsBuilt src [] v (v.setFcState .complete).succeed :=
    ⟨rfl, rfl, rfl, fun k _ => rfl, fun k y hy => by cases hy⟩
  have hnil : events ++ [] = events := List.append_nil events
  exact ⟨_, ⟨by rw [hnil]; exact hsteps, by rw [hnil]; exact h.way.stands, by rw [hnil]; exact htrace, rfl, rfl, hstatus⟩,
    hbuilt.cons ⟨hfc, hpix⟩⟩

/-- R243: the upper fragment of a pixel is accumulated, and its lower one read. -/
theorem Streams.lower {d : Nat} {x : PixelAnswers}
    (h : Streams s T events ((x.2.1, 0b10#2 ++ x.2.2) :: answers) more (d :: advances) moreSteps (x.1.1, 0b01#2 ++ x.1.2) t)
    (hd : decodeCommand s.curCmd = .ok (.frameCapture T)) (hsleep : s.cfg.framePollSleepMs = 0)
    (hcount : t.fc.pixelCount < 1225) (hup : t.fc.haveUpper = false) :
    ∃ t' now, Streams s T (events ++ [.now now] ++ Exchanges s.cfg.swCs [([0x58, 0x00], (x.2.1, 0b10#2 ++ x.2.2))]) answers
        more advances moreSteps (x.2.1, 0b10#2 ++ x.2.2) t'
      ∧ PairBuilt s.cfg.lowerSrc x t (t'.accumulated (0b10#2 ++ x.2.2)) := by
  have hfc : (t.accumulated (0b01#2 ++ x.1.2)).fc = t.fc.upper := (fragmentRegs_upperByte (s := t.taken) hcount x.1.2).1
  obtain ⟨t', now, h', hfc', hpix'⟩ := h.goesOn hd hsleep (by rw [hfc]; exact Nat.ne_of_lt hcount) (by rw [hfc]; rfl)
  refine ⟨t', now, h', ?_⟩
  rw [← h'.way.cfg]
  exact pairBuilt_of_accumulated hcount hup hfc' hpix'

/-- R248, R249: from an answered upper fragment the stream goes on to its end. -/
theorem stream_run (hd : decodeCommand s.curCmd = .ok (.frameCapture T)) (hsleep : s.cfg.framePollSleepMs = 0)
    (rest : List PixelAnswers) :
    ∀ (x : PixelAnswers) (events : List Event) (advances : List Nat) (t : State),
      Streams s T events ((x.2.1, 0b10#2 ++ x.2.2) :: fragmentAnswers rest) more advances moreSteps
        (x.1.1, 0b01#2 ++ x.1.2) t →
      advances.length = 2 * rest.length + 1 → t.fc.pixelCount + 1 + rest.length = 1225 → t.fc.haveUpper = false →
      ∃ u later, Finishes s events ((x.2.1, 0b10#2 ++ x.2.2) :: fragmentAnswers rest) later u
        ∧ PixelsBuilt s.cfg.lowerSrc (x :: rest) t u := by
  induction rest with
  | nil =>
    intro x events advances t h hadv hcount hup
    obtain ⟨d, rfl⟩ := List.length_eq_one_iff.1 hadv
    obtain ⟨t1, now, h1, hpair⟩ := h.lower hd hsleep (by rw [List.length_nil] at hcount; omega) hup
    obtain ⟨u, hfin, hbuilt⟩ := h1.completes hd hpair hcount
    exact ⟨u, _, hfin.read, hbuilt⟩
  | cons y rest ih =>
    intro x events advances t h hadv hcount hup
    rw [List.length_cons] at hadv hcount
    obtain ⟨d, advances, rfl⟩ := List.exists_cons_of_length_eq_add_one hadv
    obtain ⟨d', advances, rfl⟩ := List.exists_cons_of_length_eq_add_one (Nat.succ.inj hadv)
    obtain ⟨t1, now, h1, hpair⟩ := h.lower hd hsleep (by omega) hup
    obtain ⟨hfc, hpix⟩ := hpair
    have hshort : (t1.accumulated (0b10#2 ++ x.2.2)).fc.pixelCount ≠ 1225 := by
      rw [hfc]
      show t.fc.pixelCount + 1 ≠ 1225
      omega
    have hstate : (t1.accumulated (0b10#2 ++ x.2.2)).fc.state = t1.fc.state := by
      rw [hfc, h1.way.fcState]
      exact h.way.fcState
    obtain ⟨t2, now', h2, hfc2, hpix2⟩ := h1.goesOn hd hsleep hshort hstate
    have hfc2' := hfc2.trans hfc
    obtain ⟨u, later, hfin, hbuilt⟩ := ih y _ advances t2 h2 (by simp only [List.length_cons] at hadv; omega)
      (by rw [hfc2']; exact Nat.add_right_comm _ _ _ ▸ hcount) (by rw [hfc2']; exact hup)
    exact ⟨u, _, hfin.read.read, hbuilt.cons ⟨hfc2', fun k => (hpix2 k).trans (hpix k)⟩⟩

theorem pixelOf_bits32 (x : PixelAnswers) :
    (pixelOf .bits32 x).toNat = 4 * x.1.2.toNat + x.2.2.toNat / 4 % 4 := by
  rw [pixelOf, lowerPixel_upperPixel_toNat, lowerPayload_bits32_toNat]

theorem pixelOf_bits10 (x : PixelAnswers) :
    (pixelOf .bits10 x).toNat = 4 * x.1.2.toNat + x.2.2.toNat % 4 := by
  rw [pixelOf, lowerPixel_upperPixel_toNat, lowerPayload_bits10_toNat]

theorem decode_frameCapture (T : BitVec 24) : decodeCommand (0x9#4 ++ 0#4 ++ T) = .ok (.frameCapture T) :=
  decodeInvertsEncode (.frameCapture T) rfl

/-- In a state of the invariant at the stream's first reading, the capture is under way and streams. -/
theorem underway_of_streamT0 {s : State} {answers : List (Byte × Byte)} (hs : Inv s) (hi : s.inputs = [])
    (hp : s.point = .streamT0Read) (hd : decodeCommand s.curCmd = .ok (.frameCapture T))
    (ho : s.env.oracle = .script (answers.map (fun p => .bytes [p.1, p.2]) ++ more)) (hcs : SelectsOk answers.length s) :
    Underway s [] answers more s ∧ s.fc.state = .streaming := by
  have hidle : s.tx.phase = .idle := hs.bus.1.2 (by rw [hp]; rfl)
  have hrun : running s = some (.frameCapture T) :=
    running_eq_some_iff.2 ⟨by rw [hp]; rfl, by rw [hp]; nofun, hd⟩
  have hstate := hs.captureState
  unfold CaptureStateOk at hstate
  rw [hrun] at hstate
  have hstate' : captureAt s.point s.fc.state = true := hstate
  rw [hp] at hstate'
  exact ⟨⟨rfl, .zero s, (List.append_nil _).symm, rfl, rfl, rfl, hi, ho, hcs, by rw [State.busBusy, hidle], by rw [hp]; rfl⟩,
    eq_of_beq hstate'⟩

end

/-- Settles O60: the first read from the stream's first reading, the others by induction on the pixels. -/
theorem captureAssemblesAFullFrame : Obligations.CaptureAssemblesAFullFrame := by
  intro T pixels answers advances moreSteps more s hlen hanswers hs hi hcmd hp hcount hup horder hsleep ho hcs hnow hadv hsum
  have hanswers' : answers = fragmentAnswers pixels := hanswers
  subst hanswers'
  have hd : decodeCommand s.curCmd = .ok (.frameCapture T) := by
    rw [hcmd]
    exact decode_frameCapture T
  obtain ⟨hway, hstate⟩ := underway_of_streamT0 hs hi hp hd ho (by rw [fragmentAnswers_length, hlen]; exact hcs)
  obtain ⟨x, rest, rfl⟩ := List.exists_cons_of_length_eq_add_one hlen
  rw [List.length_cons] at hlen
  rw [fragmentAnswers_cons] at hway
  have h1 := hway.transact hd (exec_capture_streamT0 hp T) ⟨rfl, rfl, rfl, rfl, rfl, rfl, rfl, rfl, rfl⟩ rfl rfl rfl
  rw [List.nil_append, readGrab_bytes] at h1
  obtain ⟨u, later, hfin, hbuilt⟩ := stream_run hd hsleep rest x _ advances _
    ⟨h1, rfl, afterTx_answered .., hnow, Nat.add_le_add_left hsum _⟩ (by omega)
    (by show s.fc.pixelCount + 1 + rest.length = 1225; omega) hup
  have hsteps := hfin.steps
  have hcost : (Exchanges s.cfg.swCs [([0x58, 0x00], (x.1.1, 0b01#2 ++ x.1.2))] ++ later).length + 1
      = if s.cfg.swCs then 9800 else 4900 := by
    rw [List.length_append, exchanges_length, hfin.length, List.length_cons, fragmentAnswers_length,
      Nat.succ.inj hlen]
    cases s.cfg.swCs <;> rfl
  rw [hcost] at hsteps
  refine ⟨_, rfl, fun k w hk hw => ?_, u, hsteps, hbuilt.state, ?_, ?_, hfin.status,
    ⟨Exchanges s.cfg.swCs [([0x58, 0x00], (x.1.1, 0b01#2 ++ x.1.2))] ++ later ++ [.ended .none], ?_, ?_⟩,
    fun i up low hpair => ?_⟩
  · rw [← hcost] at hk
    exact (hfin.stands k w (Nat.le_of_lt_succ hk) hw).trans hstate
  · rw [hbuilt.count]
    show s.fc.pixelCount + (rest.length + 1) = 1225
    rw [hcount, hlen]
  · exact hbuilt.orderErr.trans horder
  · rw [hfin.trace, List.append_assoc]
  · rw [List.filter_append, List.filter_append, exchanges_filter, hfin.exchanges, fragmentAnswers_cons, List.append_assoc]
    simp [grabEvent, isExchange]
  · have hpixel := hbuilt.pixel i (up, low) hpair
    have hindex : s.fc.pixelCount + i = i := by rw [hcount, Nat.zero_add]
    have hpixel' : u.pixelByte (s.fc.pixelCount + i) = pixelOf s.cfg.lowerSrc (up, low) := hpixel
    rw [hindex] at hpixel'
    rw [hpixel']
    refine ⟨fun hsrc => ?_, fun hsrc => ?_⟩ <;> rw [hsrc]
    · exact pixelOf_bits32 (up, low)
    · exact pixelOf_bits10 (up, low)

end Sys2Proof.Machine
end
